-- ==== Sys2Proof/Word.lean ====
section
/-! DEFINITION. The plain value types of AHC: bytes, handles and symbols. -/

namespace Sys2Proof

/-- One byte of a stream (20_memory.md R43). -/
abbrev Byte := BitVec 8

/-- The number of a node-store entry (10_state.md R16). The absent handle NONE is `none` of an `Option Handle`:
"a separate valid bit beside every handle-valued field, not a reserved number". -/
abbrev Handle := Nat

/-- A Symbol (40_symbol.md R73): its bytes, byte 0 first in stream order. The length is the list's, so equality is
equality of length and of every byte (R78). -/
abbrev Symbol := List Byte

end Sys2Proof
end

