-- ==== Sys2Proof/Syntax.lean ====
section
/-! DEFINITION. The instructions of AHC: one constructor per row of spec/opcode_table.json. -/

namespace Sys2Proof

/-- The rows of opcode_table.json in the table's order: the elements of the compressed stream (30_encoding.md R54 to
R61), the command words (R67), the micro-operations (R70). A micro-operation has no operand field: "Operands are never
encoded in a word: they come from the registers the rule of the operation names" (R71). -/
inductive Instr
  -- stream elements and records
  | hdr (s : BitVec 4)
  | path (p : List Bool)
  | raw (bs : List Byte)
  | f0
  | eos
  | pad (xs : List Bool)
  | recHit (p : List Bool)
  | recNew (p : List Bool) (bs : List Byte)
  -- command words
  | cmdNop
  | cmdCompress (s : BitVec 4)
  | cmdDecompress
  | cmdAbort
  -- micro-operations
  | symGather
  | symScatter
  | nodeIsLeaf
  | nodeIsNyt
  | nodePath
  | nodeSwap
  | treeNew
  | treeLookup
  | treeCurNyt
  | treeAddSym
  | treeUpdate
  | treeLeader
  | bitRd
  | bitRdByte
  | bitWr
  | bitWrByte
  | bitFlush
  | bitWrHdr
  | bitRdHdr
  | encHdr
  | encFetch
  | encSymbol
  | encUpdate
  | encFrame
  | encEos
  | encFlush
  | decHdr
  | decWalk
  | decLeaf
  | decUpdate
  | decFrame
  | decDrain
  deriving DecidableEq, Repr

end Sys2Proof
end

