-- ==== Sys2Proof/WellFormed.lean ====
section
/-! DEFINITION. Which instructions are well formed: the ranges 30_encoding.md gives the stream elements. -/

namespace Sys2Proof

/-- A symbol has 1 to 15 bytes (40_symbol.md R73). -/
def symbolLenOk (bs : List Byte) : Bool := decide (1 ≤ bs.length) && decide (bs.length ≤ 15)

/-- HDR is 1 to 15, 0 being illegal (R55); RAW holds the bytes of a symbol (R58); PAD is 0 to 7 bits (R61); a HIT
path has at least one bit (44_compress.md R124). Commands and micro-operations have no ill-formed value. -/
def Instr.wf : Instr → Bool
  | .hdr s => decide (s ≠ 0#4)
  | .path _ => true
  | .raw bs => symbolLenOk bs
  | .f0 => true
  | .eos => true
  | .pad xs => decide (xs.length ≤ 7)
  | .recHit p => decide (1 ≤ p.length)
  | .recNew _ bs => symbolLenOk bs
  | .cmdNop => true
  | .cmdCompress _ => true
  | .cmdDecompress => true
  | .cmdAbort => true
  | .symGather => true
  | .symScatter => true
  | .nodeIsLeaf => true
  | .nodeIsNyt => true
  | .nodePath => true
  | .nodeSwap => true
  | .treeNew => true
  | .treeLookup => true
  | .treeCurNyt => true
  | .treeAddSym => true
  | .treeUpdate => true
  | .treeLeader => true
  | .bitRd => true
  | .bitRdByte => true
  | .bitWr => true
  | .bitWrByte => true
  | .bitFlush => true
  | .bitWrHdr => true
  | .bitRdHdr => true
  | .encHdr => true
  | .encFetch => true
  | .encSymbol => true
  | .encUpdate => true
  | .encFrame => true
  | .encEos => true
  | .encFlush => true
  | .decHdr => true
  | .decWalk => true
  | .decLeaf => true
  | .decUpdate => true
  | .decFrame => true
  | .decDrain => true

end Sys2Proof
end

