-- ==== Sys2Proof/Decode.lean ====
section
/-! DEFINITION. Decoding of the three encodings of AHC (30_encoding.md R53), total and rejecting by name, and after it
the encoder. Bits stand in stream order: the first bit of a list is the first on the stream and the most significant
(00_scope.md R12). -/

namespace Sys2Proof

/-! ### Bits and bytes, most significant bit first (20_memory.md R42, R43) -/

/-- The `n` low bits of `w`, most significant first. -/
def msbBits : Nat → Nat → List Bool
  | 0, _ => []
  | n + 1, w => w.testBit n :: msbBits n w

/-- The unsigned value of a bit string whose first bit is the most significant. -/
def bitsVal (bs : List Bool) : Nat := bs.foldl (fun v b => 2 * v + b.toNat) 0

def byteBits (v : Byte) : List Bool := msbBits 8 v.toNat

def byteOfBits (bs : List Bool) : Byte := BitVec.ofNat 8 (bitsVal bs)

/-- The bits of a byte sequence in stream order (R42). -/
def bytesBits : List Byte → List Bool
  | [] => []
  | v :: vs => byteBits v ++ bytesBits vs

/-- `n` bytes cut from a bit string, 8 bits each. -/
def bytesOfBits : Nat → List Bool → List Byte
  | 0, _ => []
  | n + 1, bits => byteOfBits (bits.take 8) :: bytesOfBits n (bits.drop 8)

/-! ### Which encoding is read -/

/-- The stream element that is due. The compressed stream is self-delimiting only together with the tree (R62), so the
reader supplies the lengths the tree and the end of the stream decide. -/
inductive Due
  | hdr
  | path (len : Nat)
  | raw (n : Nat)
  | frame
  | pad (len : Nat)
  | recHit (len : Nat)
  | recNew (len : Nat) (n : Nat)
  deriving DecidableEq, Repr

/-- The three encodings of R53. A code holds no operand (R71); `size` is the symbol size CMD.COMPRESS is given where its
code is read. -/
inductive Format
  | cmd
  | uop (size : BitVec 4)
  | stream (d : Due)
  deriving DecidableEq, Repr

/-- Why a bit string is not an instruction of the encoding it is read as. -/
inductive Reject
  | truncated                        -- fewer bits than the item has
  | reservedCommand (w : BitVec 8)   -- R68
  | unusedUop (c : BitVec 6)         -- R70: "All other codes are unused"
  | zeroHeader                       -- R65 (a)
  | rawLength (n : Nat)              -- not a symbol length (40_symbol.md R73)
  | padLength (n : Nat)              -- more than 7 padding bits (R61)
  | emptyHitPath                     -- a HIT path has at least one bit (44_compress.md R124)
  deriving DecidableEq, Repr

/-! ### Decoders -/

/-- The command word (R67). Every other value is reserved (R68). -/
def decodeCmd (w : BitVec 8) : Except Reject Instr :=
  if w = 0x00#8 then .ok .cmdNop
  else if w.extractLsb' 4 4 = 0x1#4 then .ok (.cmdCompress (w.extractLsb' 0 4))
  else if w = 0x20#8 then .ok .cmdDecompress
  else if w = 0xf0#8 then .ok .cmdAbort
  else .error (.reservedCommand w)

/-- The rows of R70 with the families SYM, NODE and TREE. -/
def uopTableTree : List (BitVec 6 × Instr) :=
  [ (0b000001#6, .symGather),
    (0b000010#6, .symScatter),
    (0b001000#6, .nodeIsLeaf),
    (0b001001#6, .nodeIsNyt),
    (0b001010#6, .nodePath),
    (0b001011#6, .nodeSwap),
    (0b010000#6, .treeNew),
    (0b010001#6, .treeLookup),
    (0b010010#6, .treeCurNyt),
    (0b010011#6, .treeAddSym),
    (0b010100#6, .treeUpdate),
    (0b010101#6, .treeLeader) ]

/-- The rows of R70 with the family BIT. -/
def uopTableBit : List (BitVec 6 × Instr) :=
  [ (0b011000#6, .bitRd),
    (0b011001#6, .bitRdByte),
    (0b011010#6, .bitWr),
    (0b011011#6, .bitWrByte),
    (0b011100#6, .bitFlush),
    (0b011101#6, .bitWrHdr),
    (0b011110#6, .bitRdHdr) ]

/-- The rows of R70 with the families ENC and DEC. -/
def uopTableDriver : List (BitVec 6 × Instr) :=
  [ (0b100000#6, .encHdr),
    (0b100001#6, .encFetch),
    (0b100010#6, .encSymbol),
    (0b100011#6, .encUpdate),
    (0b100100#6, .encFrame),
    (0b100101#6, .encEos),
    (0b100110#6, .encFlush),
    (0b101000#6, .decHdr),
    (0b101001#6, .decWalk),
    (0b101010#6, .decLeaf),
    (0b101011#6, .decUpdate),
    (0b101100#6, .decFrame),
    (0b101101#6, .decDrain) ]

/-- The rows of R70 with the family CMD. -/
def uopTableCmd (size : BitVec 4) : List (BitVec 6 × Instr) :=
  [ (0b110000#6, .cmdNop),
    (0b110001#6, .cmdCompress size),
    (0b110010#6, .cmdDecompress),
    (0b110011#6, .cmdAbort) ]

def uopTable (size : BitVec 4) : List (BitVec 6 × Instr) :=
  uopTableTree ++ uopTableBit ++ uopTableDriver ++ uopTableCmd size

/-- The operation a 6-bit code names (R70). -/
def decodeUop (size : BitVec 4) (c : BitVec 6) : Except Reject Instr :=
  match (uopTable size).lookup c with
  | some i => .ok i
  | none => .error (.unusedUop c)

/-- The stream element that `bits`, cut to the length that is due, spell (R55 to R61). -/
def decodeDue : Due → List Bool → Except Reject Instr
  | .hdr, bits => if bitsVal bits = 0 then .error .zeroHeader else .ok (.hdr (BitVec.ofNat 4 (bitsVal bits)))
  | .path _, bits => .ok (.path bits)
  | .raw n, bits => if 1 ≤ n ∧ n ≤ 15 then .ok (.raw (bytesOfBits n bits)) else .error (.rawLength n)
  | .frame, bits => if bits.headD false then .ok .eos else .ok .f0
  | .pad len, bits => if len ≤ 7 then .ok (.pad bits) else .error (.padLength len)
  | .recHit len, bits => if 1 ≤ len then .ok (.recHit bits) else .error .emptyHitPath
  | .recNew len n, bits =>
    if 1 ≤ n ∧ n ≤ 15 then .ok (.recNew (bits.take len) (bytesOfBits n (bits.drop len))) else .error (.rawLength n)

/-- How many bits an item of this format has. -/
def Format.width : Format → Nat
  | .cmd => 8
  | .uop _ => 6
  | .stream .hdr => 4
  | .stream (.path len) => len
  | .stream (.raw n) => 8 * n
  | .stream .frame => 1
  | .stream (.pad len) => len
  | .stream (.recHit len) => len
  | .stream (.recNew len n) => len + 8 * n

/-- The instruction that exactly the bits of one item spell. -/
def decodeItem (f : Format) (bits : List Bool) : Except Reject Instr :=
  match f with
  | .cmd => decodeCmd (BitVec.ofNat 8 (bitsVal bits))
  | .uop size => decodeUop size (BitVec.ofNat 6 (bitsVal bits))
  | .stream d => decodeDue d bits

/-- The decoder: the first item of `bits`, read as format `f`, and the bits after it. -/
def decode (f : Format) (bits : List Bool) : Except Reject (Instr × List Bool) :=
  if bits.length < f.width then .error .truncated
  else
    match decodeItem f (bits.take f.width) with
    | .ok i => .ok (i, bits.drop f.width)
    | .error r => .error r

/-! ### The encoder -/

/-- The 6-bit code of R70. A stream element has none: code 0, "no operation". -/
def uopCode : Instr → BitVec 6
  | .hdr _ => 0#6
  | .path _ => 0#6
  | .raw _ => 0#6
  | .f0 => 0#6
  | .eos => 0#6
  | .pad _ => 0#6
  | .recHit _ => 0#6
  | .recNew _ _ => 0#6
  | .symGather => 0b000001#6
  | .symScatter => 0b000010#6
  | .nodeIsLeaf => 0b001000#6
  | .nodeIsNyt => 0b001001#6
  | .nodePath => 0b001010#6
  | .nodeSwap => 0b001011#6
  | .treeNew => 0b010000#6
  | .treeLookup => 0b010001#6
  | .treeCurNyt => 0b010010#6
  | .treeAddSym => 0b010011#6
  | .treeUpdate => 0b010100#6
  | .treeLeader => 0b010101#6
  | .bitRd => 0b011000#6
  | .bitRdByte => 0b011001#6
  | .bitWr => 0b011010#6
  | .bitWrByte => 0b011011#6
  | .bitFlush => 0b011100#6
  | .bitWrHdr => 0b011101#6
  | .bitRdHdr => 0b011110#6
  | .encHdr => 0b100000#6
  | .encFetch => 0b100001#6
  | .encSymbol => 0b100010#6
  | .encUpdate => 0b100011#6
  | .encFrame => 0b100100#6
  | .encEos => 0b100101#6
  | .encFlush => 0b100110#6
  | .decHdr => 0b101000#6
  | .decWalk => 0b101001#6
  | .decLeaf => 0b101010#6
  | .decUpdate => 0b101011#6
  | .decFrame => 0b101100#6
  | .decDrain => 0b101101#6
  | .cmdNop => 0b110000#6
  | .cmdCompress _ => 0b110001#6
  | .cmdDecompress => 0b110010#6
  | .cmdAbort => 0b110011#6

/-- The command word of R67; any other instruction has none. -/
def cmdWord : Instr → Option (BitVec 8)
  | .cmdNop => some 0x00#8
  | .cmdCompress s => some (0x1#4 ++ s)
  | .cmdDecompress => some 0x20#8
  | .cmdAbort => some 0xf0#8
  | _ => none

/-- The encoding an instruction is written in, with the lengths a reader of a stream element needs. -/
def Instr.format : Instr → Format
  | .hdr _ => .stream .hdr
  | .path p => .stream (.path p.length)
  | .raw bs => .stream (.raw bs.length)
  | .f0 => .stream .frame
  | .eos => .stream .frame
  | .pad xs => .stream (.pad xs.length)
  | .recHit p => .stream (.recHit p.length)
  | .recNew p bs => .stream (.recNew p.length bs.length)
  | .cmdNop => .cmd
  | .cmdCompress _ => .cmd
  | .cmdDecompress => .cmd
  | .cmdAbort => .cmd
  | _ => .uop 0#4

/-- The bits of an instruction in stream order (R54 to R61, R67, R70). -/
def encode : Instr → List Bool
  | .hdr s => msbBits 4 s.toNat
  | .path p => p
  | .raw bs => bytesBits bs
  | .f0 => [false]
  | .eos => [true]
  | .pad xs => xs
  | .recHit p => p
  | .recNew p bs => p ++ bytesBits bs
  | i =>
    match cmdWord i with
    | some w => msbBits 8 w.toNat
    | none => msbBits 6 (uopCode i).toNat

/-- The bits of an instruction as format `f` writes it: a command has its code of R70 beside its word. -/
def encodeIn (f : Format) (i : Instr) : List Bool :=
  match f with
  | .uop _ => msbBits 6 (uopCode i).toNat
  | _ => encode i

/-! ### The opcode table's numbering -/

/-- The instruction the decoders read from a word of the opcode table (log 16). A width of the table names its
encoding: 1 a framing bit, 4 the header, 6 a micro-operation code, 8 a command word. A 6-bit code given in whole bytes
also has 8 bits; then a code of R70 is read as that micro-operation, but for the family CMD, which has its words, and
every other word as a command. -/
def decodeTableWord (nbits w : Nat) : Option Instr :=
  let bits := msbBits nbits w
  if nbits = 1 then (decode (.stream .frame) bits).toOption.map Prod.fst
  else if nbits = 4 then (decode (.stream .hdr) bits).toOption.map Prod.fst
  else if nbits = 6 then (decode (.uop 0#4) bits).toOption.map Prod.fst
  else if nbits = 8 then
    match if w < 0x30 then decode (.uop 0#4) (msbBits 6 w) else .error .truncated with
    | .ok (i, _) => some i
    | .error _ => (decode .cmd bits).toOption.map Prod.fst
  else none

end Sys2Proof
end

