-- ==== Sys2Proof/Config.lean ====
section
/-! DEFINITION. The implementation parameters of 00_scope.md R8, the fixed widths, and the free values. -/

namespace Sys2Proof

/-- P_UPDATE_CHAIN (42_tree.md R103): the parent TREE.UPDATE continues with. -/
inductive UpdateChain
  | original  -- the parent captured before the swap (chosen)
  | current   -- the parent after the swap (alternative)
  deriving DecidableEq, Repr

/-- P_LEADER_RULE (42_tree.md R99): how the parent is kept out of the leader search. -/
inductive LeaderRule
  | excludeThenMax  -- chosen
  | maxThenSkip     -- alternative
  deriving DecidableEq, Repr

/-- P_RAW_MIN_BITS (45_decompress.md R139): unread bits needed before the decoder reads one raw byte. -/
inductive RawMinBits
  | nine   -- chosen
  | eight  -- alternative, the literal reading
  deriving DecidableEq, Repr

def RawMinBits.toNat : RawMinBits → Nat
  | .nine => 9
  | .eight => 8

/-- The configuration record of R8. `nodeCap = none` is the unbounded store that 00_scope.md R9 allows. -/
structure Params where
  nodeCap     : Option Nat
  updateChain : UpdateChain
  leaderRule  : LeaderRule
  rawMinBits  : RawMinBits
  padBit      : Bool
  deriving DecidableEq, Repr

/-- NODE_CAP is "at least 3" (R8). -/
def Params.wf (p : Params) : Bool :=
  match p.nodeCap with
  | none => true
  | some c => decide (3 ≤ c)

/-- The values R8 chooses, and the default 92_eei_decisions.md section 4 gives the open NODE_CAP: unbounded
(log 4). -/
def Params.chosen : Params :=
  { nodeCap := none, updateChain := .original, leaderRule := .excludeThenMax, rawMinBits := .nine, padBit := false }

namespace Config

/-- WEIGHT_W (R8, D2). -/
def weightWidth : Nat := 64
/-- ID_W (R8, D3). -/
def idWidth : Nat := 122
/-- POS_W (R8, D4). -/
def posWidth : Nat := 64

/-- Free values of a stated width (93_implementation_defined.md U9, U10; log 6), applied to the state's counter. -/
opaque freeBits : (w : Nat) → Nat → BitVec w
/-- Free values of no stated width: a handle of an unbounded node store (U9; log 6). -/
opaque freeNat : Nat → Nat

end Config
end Sys2Proof
end

