-- ==== Sys2Proof/Machine/State.lean ====
section
/-! DEFINITION. The architectural state of AHC (10_state.md R15 to R36), the host's pending actions, the reasons a step
can stop, and the state after reset. Plain data throughout. -/

namespace Sys2Proof.Machine

/-- CFG[4], MODE (R29). -/
inductive Mode
  | compress
  | decompress
  deriving DecidableEq, Repr

/-- PHASE, the state of the sequencer (R30), in the order of its codes 0 to 15. -/
inductive Phase
  | idle
  | cHdr
  | cFetch
  | cEmit
  | cUpdate
  | cFrame
  | cEos
  | cFlush
  | dHdr
  | dWalk
  | dLeaf
  | dUpdate
  | dFrame
  | dDrain
  | done
  | fault
  deriving DecidableEq, Repr

/-- FCODE, the fault numbers of 60_exceptions.md R153 in the order of their codes 0 to 8. -/
inductive FCode
  | none
  | badCmd
  | badHeader
  | truncated
  | malformedEmpty
  | swapRelated
  | nodeCap
  | weightOvf
  | ioError
  deriving DecidableEq, Repr

/-- One live entry of the node store (R17 to R20). `sym = none` is has_sym = 0; otherwise it holds sym_len and the
sym_len bytes of sym. -/
structure Node where
  id     : Int
  weight : Nat
  sym    : Option Symbol
  parent : Option Handle
  left   : Option Handle
  right  : Option Handle
  deriving DecidableEq, Repr

/-- The node store: its live entries, by handle (R16). -/
abbrev Store := List Node

/-- MAP (R22): the symbol map as entries in rising order of the handle. -/
abbrev SymMap := List (Symbol × Handle)

/-- One item on a byte stream port (20_memory.md R44). -/
inductive Token
  | byte (v : Byte)
  | stop            -- END
  | err             -- ERR, and the reserved kind 3
  deriving DecidableEq, Repr

/-- What the sink does with the pin out_err (20_memory.md R44): holds it low; holds it high; raises it at the n-th of the
coming moments at which an operation could notice it (60_exceptions.md R162, "the source or sink fails at step n"; log 9). -/
inductive OutErr
  | low
  | high
  | risesIn (n : Nat)
  deriving DecidableEq, Repr

/-- The reset input (70_reset_and_hazards.md R173): low; held high; low again, in the cycle after. -/
inductive RstPin
  | low
  | high
  | after
  deriving DecidableEq, Repr

/-- The pin after one more host action, which stands for one more cycle (log 27). -/
def RstPin.clocked (p : RstPin) : RstPin := if p = .high then .high else .low

/-- The pin after it is driven low. -/
def RstPin.released (p : RstPin) : RstPin := if p = .high then .after else .low

/-- What a register read returns (R34): an unsigned value, a signed one, or a handle with its valid bit. -/
inductive RegVal
  | word (v : Nat)
  | signed (v : Int)
  | handle (h : Option Handle)
  deriving DecidableEq, Repr

/-- Operand latches of the micro-operation port (the model's own, log 3): the handles `h` or `a, b`, the bit `b`, the
byte `v` and the 4-bit value `s` of the rules of files 41 to 43. -/
structure UopArgs where
  a    : Option Handle
  b    : Option Handle
  bit  : Bool
  byte : Byte
  hdr  : BitVec 4
  deriving DecidableEq, Repr

/-- The result an operation written "-> result" hands back (30_encoding.md R71; the model's own, log 3). -/
inductive UopResult
  | none
  | bit (b : Bool)
  | byte (v : Byte)
  | hdr (v : BitVec 4)
  | handle (h : Option Handle)
  | exhausted               -- the distinct result of 43_framer.md R107
  deriving DecidableEq, Repr

/-- How far the sequencer goes in one step (00_scope.md R11; log 2): one driver micro-operation, one stream element, or
one whole record. -/
inductive Grain
  | microop
  | element
  | record
  deriving DecidableEq, Repr

/-- What happens next on the host's side (46_host.md R151; log 1). -/
inductive HostEvent
  | run (g : Grain)                          -- the sequencer goes on
  | regWr (n v : Nat)                        -- a register write: 0 is CMD, 15 NODE_SEL, others are ignored (R34, R168)
  | regRd (n : Nat)                          -- a register read (R34)
  | token (kind : BitVec 2) (data : Byte)    -- a token offered on the input port (R44)
  | outErr (p : OutErr)                      -- what the sink does with the pin out_err from now on (R44)
  | ioErr                                    -- an ERR token seen between two operations (R119)
  | rst                                      -- the reset input driven high: hardware reset (R173)
  | rstLow                                   -- the reset input driven low (R173)
  | issue (c : BitVec 6) (args : UopArgs)    -- one micro-operation by code: no action of a real host (log 3)
  deriving DecidableEq, Repr

/-- The state of AHC. -/
structure State where
  /-- The implementation parameters (00_scope.md R8); no step changes them (log 4). -/
  par       : Params
  /-- The node store (R16); its length is NODE_COUNT (R21). -/
  nodes     : Store
  /-- ROOT, NYT, NEXT_ID (R21). -/
  root      : Option Handle
  nyt       : Option Handle
  nextId    : Int
  /-- MAP (R22). -/
  map       : SymMap
  /-- CUR (R23). -/
  cur       : Option Handle
  /-- SYMBUF[0 .. SYMLEN-1] (R24); its length is SYMLEN. The bytes above are unspecified and not held (log 6). -/
  symBuf    : Symbol
  /-- The condition flags (R25). -/
  found     : Bool
  more      : Bool
  emptyRec  : Bool
  /-- PATHBUF[0 .. PATHLEN-1] (R26); its length is PATHLEN. -/
  pathBuf   : List Bool
  /-- The output framer (R27) and the bytes of OUT (20_memory.md R41). -/
  oacc      : Byte
  ocnt      : Fin 8
  outClosed : Bool
  out       : List Byte
  /-- CFG (R29). -/
  symSize   : BitVec 4
  mode      : Mode
  /-- PHASE (R30). -/
  phase     : Phase
  /-- FAULTR and FPOS (R32). -/
  fcode     : FCode
  fuop      : BitVec 6
  fpos      : Nat
  /-- The counters (R28, R33). -/
  inBitPos  : Nat
  outBitPos : Nat
  symCount  : Nat
  /-- NODE_SEL (R34). -/
  nodeSel   : Nat
  /-- The tokens the host has offered for the job, from its first byte on (R40, R44; log 7). -/
  inp       : List Token
  /-- The pin out_err (R44; log 9). -/
  outErr    : OutErr
  /-- The reset input (R173; log 27). -/
  rst       : RstPin
  /-- The model's own: operand and result latches of the micro-operation port (log 3). -/
  args      : UopArgs
  res       : UopResult
  /-- The model's own: what the last register read returned (log 19), and the counter of free values (log 6). -/
  rdData    : RegVal
  freeCtr   : Nat
  /-- The model's own: the host's pending actions, oldest first (log 1). -/
  sched     : List HostEvent
  deriving DecidableEq, Repr

/-- Why the model stops with a fault of its own. 20_memory.md R38: such an access "does not occur in any rule" and a
model "should make such an access a fault of the model (an internal error), not a value". All three are safe. -/
inductive Fault
  /-- Raised by any operation that would follow NONE or a handle at or above NODE_COUNT (R38). Safe. -/
  | badHandle
  /-- Raised by the tree operations where the parent links never end or a leaf other than the NYT holds no symbol,
  so the store is not a tree of 41_node.md R86. Safe (log 18). -/
  | malformedTree
  /-- Raised by TREE.ADDSYM with SYMLEN = 0: "A symbol of length 0 does not exist" (40_symbol.md R73). Safe. -/
  | emptySymbol
  deriving DecidableEq, Repr

/-- Why an instruction has no meaning where it stands. -/
inductive Refusal
  /-- Raised by an arm of exec that has no meaning yet. Safe. -/
  | notModelled (mnemonic : String)
  /-- Raised by NODE.SWAP of a node and its proper ancestor, outside the operation's precondition (41_node.md R92,
  93_implementation_defined.md U5). Safe. -/
  | swapOfRelatedNodes
  /-- Raised by a stream element where the stream has no such element: the phase, the tree or the symbol buffer makes
  another one due (30_encoding.md R62; log 15). Safe. -/
  | elementNotDue
  /-- Raised by issuing a 6-bit code that R70 leaves unused. Safe (log 3). -/
  | unusedUopCode
  deriving DecidableEq, Repr

/-- The outcome of one step of AHC. -/
abbrev Out := Host.Outcome State Fault Refusal

/-- The operand latches after reset (log 23). -/
def UopArgs.reset : UopArgs := { a := none, b := none, bit := false, byte := 0#8, hdr := 0#4 }

/-- The state after hardware reset (70_reset_and_hazards.md R174). OUT, the host's side and the model's own fields,
for which R174 gives no value, are as log 4, 6, 7, 9, 12, 23 and 27 name them. -/
def State.reset : State :=
  { par := Params.chosen,
    nodes := [], root := none, nyt := none, nextId := 0, map := [], cur := none,
    symBuf := [], found := false, more := false, emptyRec := false, pathBuf := [],
    oacc := 0#8, ocnt := 0, outClosed := false, out := [],
    symSize := 0#4, mode := .compress, phase := .idle,
    fcode := .none, fuop := 0#6, fpos := 0,
    inBitPos := 0, outBitPos := 0, symCount := 0, nodeSel := 0,
    inp := [], outErr := .low, rst := .low,
    args := UopArgs.reset, res := .none, rdData := .word 0, freeCtr := 0, sched := [] }

end Sys2Proof.Machine
end

