-- ==== Sys2Proof/Machine/Ops.lean ====
section
/-! DEFINITION. The named operations of AHC: fault entry and the way out of it, the node store and the tree, the symbol
map, the input and output framers, and the job-start states. Every meaning is written over these. -/

namespace Sys2Proof.Machine

/-! ### The flow of a micro-operation -/

/-- How a micro-operation goes: on with a result; a fault F1 to F8 of AHC, entered; a wait for tokens that have not
arrived (43_framer.md R111); a stop of the model. -/
inductive Flow (α : Type) where
  | ok (a : α) (s : State)
  | raised (s : State)
  | waits
  | stops (f : Fault)
  | refuses (r : Refusal)
  deriving DecidableEq, Repr

/-- One operation after another; "no later line of the faulting operation runs" (60_exceptions.md R152). -/
def Flow.bind {α β : Type} (x : Flow α) (k : α → State → Flow β) : Flow β :=
  match x with
  | .ok a s => k a s
  | .raised s => .raised s
  | .waits => .waits
  | .stops f => .stops f
  | .refuses r => .refuses r

/-- The step a whole operation makes from `s₀`. A fault of AHC is a next state. An operation that waits has done
nothing yet (log 7). -/
def Flow.outcome (s₀ : State) : Flow Unit → Out
  | .ok _ s => .next s
  | .raised s => .next s
  | .waits => .next s₀
  | .stops f => .fault f
  | .refuses r => .refused r

/-- A model fault of a store operation, or its value. -/
def Flow.ofExcept {α : Type} (s : State) : Except Fault α → Flow α
  | .ok a => .ok a s
  | .error f => .stops f

/-! ### Taking a fault, and leaving it -/

/-- Fault entry (60_exceptions.md R152): FCODE, FUOP, FPOS and PHASE, nothing else. -/
def raise (n : FCode) (fuop : BitVec 6) (s : State) : State :=
  { s with fcode := n, fuop := fuop, fpos := s.inBitPos, phase := .fault }

def Flow.fail {α : Type} (n : FCode) (fuop : BitVec 6) (s : State) : Flow α := .raised (raise n fuop s)

/-- `k` moments of operation `fuop`, one before each of `k` actions: where out_err is high at one of them, or rises, F8 is
raised in the state `cut j` after j of the actions (60_exceptions.md R152, R154, R162); else `done` follows. -/
def actions (fuop : BitVec 6) (k : Nat) (cut : Nat → State) (done s : State) : Flow Unit :=
  match s.outErr with
  | .low => .ok () done
  | .high => if k = 0 then .ok () done else .fail .ioError fuop (cut 0)
  | .risesIn n =>
    if n < k then .fail .ioError fuop { cut n with outErr := .high }
    else .ok () { done with outErr := .risesIn (n - k) }

/-- One moment between two contained micro-operations of operation `fuop`, or before its first. -/
def moment (fuop : BitVec 6) (s : State) : Flow Unit := actions fuop 1 (fun _ => s) s s

/-- PHASE is 1..13, the BUSY phases (10_state.md R31). -/
def Phase.busy : Phase → Bool
  | .idle => false
  | .done => false
  | .fault => false
  | _ => true

/-- The effect of CMD.ABORT (46_host.md R149), the only way out of FAULT but reset (60_exceptions.md R165). The tokens
of an aborted job leave the port with it (log 10). -/
def abort (s : State) : State :=
  { s with
    phase := .idle, fcode := .none, fuop := 0#6, fpos := 0, oacc := 0#8, ocnt := 0,
    found := false, more := false, emptyRec := false, symBuf := [], pathBuf := [], cur := none,
    inp := if s.phase.busy || s.phase == .fault then [] else s.inp }

/-- Hardware reset, the reset input high (70_reset_and_hazards.md R173, R174). The parameters, the sink's pin, the bytes
already sent and the host's pending actions are not AHC's to reset (log 12). -/
def hardReset (s : State) : State :=
  { State.reset with
    par := s.par, out := s.out, outErr := s.outErr, rst := .high, sched := s.sched, freeCtr := s.freeCtr }

/-! ### The node store -/

/-- Entry h, which must be live (20_memory.md R38). -/
def getNode (ns : Store) (h : Handle) : Except Fault Node :=
  match ns[h]? with
  | some n => .ok n
  | none => .error .badHandle

/-- A handle that is not NONE (R38). -/
def getHandle : Option Handle → Except Fault Handle
  | some h => .ok h
  | none => .error .badHandle

/-- `isLeaf` (41_node.md R87). -/
def Node.isLeaf (n : Node) : Bool := n.left.isNone && n.right.isNone

/-- `isNYT` (41_node.md R88). -/
def Node.isNyt (n : Node) : Bool := n.weight == 0

/-- The walk of NODE.PATH (41_node.md R89) from x towards the root, the bits collected so far in front. A tree of
`fuel` nodes has no longer chain of parents. -/
def pathUp (ns : Store) : Nat → Handle → List Bool → Except Fault (List Bool)
  | 0, _, _ => .error .malformedTree
  | fuel + 1, x, seq =>
    match ns[x]? with
    | none => .error .badHandle
    | some n =>
      match n.parent with
      | none => .ok seq
      | some p =>
        match ns[p]? with
        | none => .error .badHandle
        | some pn => pathUp ns fuel p ((if pn.left = some x then false else true) :: seq)

/-- NODE.PATH h (41_node.md R89). -/
def nodePath (ns : Store) (h : Handle) : Except Fault (List Bool) := pathUp ns (ns.length + 1) h []

/-- "some number of parent steps from x reaches l" (42_tree.md R100), at least one step. In a tree of `fuel` nodes the
root is reached before the count runs out. -/
def properAncestor (ns : Store) : Nat → Handle → Handle → Except Fault Bool
  | 0, _, _ => .error .malformedTree
  | fuel + 1, x, l =>
    match ns[x]? with
    | none => .error .badHandle
    | some n =>
      match n.parent with
      | none => .ok false
      | some p => if p = l then .ok true else properAncestor ns fuel p l

/-- `related(x, l)` (42_tree.md R100). -/
def related (ns : Store) (x l : Handle) : Except Fault Bool :=
  match properAncestor ns ns.length x l with
  | .error f => .error f
  | .ok true => .ok true
  | .ok false => properAncestor ns ns.length l x

/-- One child link of entry p written. -/
def setChild (p : Handle) (isLeft : Bool) (c : Handle) (ns : Store) : Store :=
  ns.modify p fun n => if isLeft then { n with left := some c } else { n with right := some c }

/-- NODE.SWAP a, b (41_node.md R90, R91), for operands that are not related (R92). -/
def nodeSwap (a b : Handle) (ns : Store) : Except Fault Store :=
  match ns[a]?, ns[b]? with
  | some na, some nb =>
    if a = b then .ok ns
    else
      match na.parent, nb.parent with
      | some pa, some pb =>
        match ns[pa]?, ns[pb]? with
        | some npa, some npb =>
          let aLeft := npa.left == some a
          let bLeft := npb.left == some b
          let ns := setChild pb bLeft a (setChild pa aLeft b ns)
          let ns := ns.modify a fun n => { n with parent := some pb, id := nb.id }
          .ok (ns.modify b fun n => { n with parent := some pa, id := na.id })
        | _, _ => .error .badHandle
      | _, _ => .ok ns
  | _, _ => .error .badHandle

/-- The live entry with the greatest id among those `keep` admits; `h` is the handle of the list's first entry. -/
def maxId (keep : Handle → Node → Bool) : Handle → Store → Option (Handle × Int)
  | _, [] => none
  | h, n :: ns =>
    match maxId keep (h + 1) ns with
    | some (g, i) => if keep h n && decide (i < n.id) then some (h, n.id) else some (g, i)
    | none => if keep h n then some (h, n.id) else none

/-- TREE.LEADER x (42_tree.md R99), under either leader rule. -/
def leader (par : Params) (ns : Store) (x : Handle) : Except Fault Handle :=
  match ns[x]? with
  | none => .error .badHandle
  | some nx =>
    match par.leaderRule with
    | .excludeThenMax =>
      match maxId (fun h n => n.weight == nx.weight && some h != nx.parent) 0 ns with
      | some (m, _) => .ok m
      | none => .error .malformedTree
    | .maxThenSkip =>
      match maxId (fun _ n => n.weight == nx.weight) 0 ns with
      | some (m, _) => .ok (if some m = nx.parent then x else m)
      | none => .error .malformedTree

/-- How a restructuring of the store ends: complete, or with the store as F5 or F7 leaves it (60_exceptions.md R154),
or with a fault of the model. -/
inductive Restructured
  | done (ns : Store)
  | swapRelated (ns : Store)
  | weightOvf (ns : Store)
  | stops (f : Fault)
  deriving DecidableEq, Repr

/-- `inc_weight(x)` (42_tree.md R102), then `go on`; `n` is entry x. -/
def incWeight (ns : Store) (x : Handle) (n : Node) (goOn : Store → Restructured) : Restructured :=
  if n.weight = 2 ^ Config.weightWidth - 1 then .weightOvf ns
  else goOn (ns.modify x fun m => { m with weight := m.weight + 1 })

/-- The loop of TREE.UPDATE (42_tree.md R98 to R103): at most `fuel` passes (log 18). -/
def treeUpdate (par : Params) : Nat → Store → Option Handle → Restructured
  | 0, _, _ => .stops .malformedTree
  | _ + 1, ns, none => .done ns
  | fuel + 1, ns, some x =>
    match ns[x]? with
    | none => .stops .badHandle
    | some n =>
      match n.parent with
      | none => incWeight ns x n .done
      | some p =>
        match leader par ns x with
        | .error f => .stops f
        | .ok l =>
          if l = x then
            incWeight ns x n fun ns' => treeUpdate par fuel ns' (some p)
          else
            match related ns x l with
            | .error f => .stops f
            | .ok true => .swapRelated ns
            | .ok false =>
              match nodeSwap x l ns with
              | .error f => .stops f
              | .ok ns' =>
                incWeight ns' x n fun ns'' =>
                  treeUpdate par fuel ns'' <|
                    match par.updateChain with
                    | .original => some p
                    | .current => (ns''[x]?).bind Node.parent

/-! ### The symbol map -/

/-- `MAP[sym] <- h` (10_state.md R22; an equal key is replaced, 45_decompress.md R141). -/
def mapInsert (sym : Symbol) (h : Handle) (m : SymMap) : SymMap := m.filter (fun e => e.1 != sym) ++ [(sym, h)]

/-- The canonical form of the stores: MAP's entries in rising order of the handle, no key twice (20_memory.md R39),
every handle that of a live entry. Equal maps are then equal lists. -/
abbrev Memory.wf (ns : Store) (m : SymMap) : Prop :=
  (m.map Prod.snd).Pairwise (· < ·) ∧ (m.map Prod.fst).Nodup ∧ ∀ e ∈ m, e.2 < ns.length

/-! ### The tree as part of the state -/

/-- TREE.NEW symbolCount (42_tree.md R93). -/
def treeNew (symbolCount : Nat) (s : State) : State :=
  let i : Int := 2 * symbolCount - 1
  { s with
    nodes := [{ id := i, weight := 0, sym := none, parent := none, left := none, right := none }]
    map := [], nextId := i, root := some 0, nyt := some 0 }

/-- TREE.UPDATE node (42_tree.md R98). A tree of NODE_COUNT nodes needs at most NODE_COUNT passes. -/
def updateTree (fuop : BitVec 6) (node : Option Handle) (s : State) : Flow Unit :=
  match treeUpdate s.par (s.nodes.length + 1) s.nodes node with
  | .done ns => .ok () { s with nodes := ns }
  | .swapRelated ns => .fail .swapRelated fuop { s with nodes := ns }
  | .weightOvf ns => .fail .weightOvf fuop { s with nodes := ns }
  | .stops f => .stops f

/-- "NODE_COUNT + 2 > NODE_CAP" (42_tree.md R97). -/
def capExceeded (par : Params) (count : Nat) : Bool :=
  match par.nodeCap with
  | none => false
  | some c => decide (c < count + 2)

/-- The store after the split of NYT node `N` for `sym` (42_tree.md R95): the leaf at handle NODE_COUNT, the new NYT at
the next one, the ids counted down from `nextId`. -/
def splitNyt (ns : Store) (N : Handle) (nextId : Int) (sym : Symbol) : Store :=
  let leaf : Node := { id := nextId - 1, weight := 1, sym := some sym, parent := some N, left := none, right := none }
  let nyt : Node := { id := nextId - 2, weight := 0, sym := none, parent := some N, left := none, right := none }
  (ns.modify N fun n => { n with left := some (ns.length + 1), right := some ns.length, weight := 1 }) ++ [leaf, nyt]

/-- TREE.ADDSYM sym (42_tree.md R95, R97), the contained TREE.UPDATE included. -/
def addSymbol (fuop : BitVec 6) (sym : Symbol) (s : State) : Flow Unit :=
  if capExceeded s.par s.nodes.length then .fail .nodeCap fuop s
  else if sym = [] then .stops .emptySymbol
  else
    match s.nyt with
    | none => .stops .badHandle
    | some N =>
      match s.nodes[N]? with
      | none => .stops .badHandle
      | some n =>
        updateTree fuop n.parent
          { s with
            nodes := splitNyt s.nodes N s.nextId sym
            nextId := s.nextId - 2
            map := mapInsert sym s.nodes.length s.map
            nyt := some (s.nodes.length + 1) }

/-! ### The input framer -/

/-- Whether the first `m` tokens are bytes: they are; END stands before; ERR stands before; the host has not offered
enough yet. -/
inductive Look
  | yes
  | no
  | err
  | wait
  deriving DecidableEq, Repr

def lookTokens : List Token → Nat → Look
  | _, 0 => .yes
  | .byte _ :: ts, m + 1 => lookTokens ts m
  | .stop :: _, _ + 1 => .no
  | .err :: _, _ + 1 => .err
  | [], _ + 1 => .wait

/-- IN: the leading BYTE tokens (20_memory.md R40, R44). -/
def inBytesOf : List Token → List Byte
  | .byte v :: ts => v :: inBytesOf ts
  | _ => []

def State.inBytes (s : State) : List Byte := inBytesOf s.inp

/-- `InRem()` (43_framer.md R107). -/
def State.inRem (s : State) : Nat := 8 * s.inBytes.length - s.inBitPos

/-- The test `InRem() >= n` as the hardware makes it, by the tokens that hold the bits in question (43_framer.md
R111; log 8). -/
def lookBits (inp : List Token) (pos n : Nat) : Look := lookTokens inp ((pos + n + 7) / 8)

/-- The bit at stream position p (10_state.md R28). -/
def bitAt (bs : List Byte) (p : Nat) : Bool := (bs.getD (p / 8) 0#8).getLsbD (7 - p % 8)

/-- The `n` bits from position p on. -/
def bitsAt (bs : List Byte) : Nat → Nat → List Bool
  | _, 0 => []
  | p, n + 1 => bitAt bs p :: bitsAt bs (p + 1) n

/-- A read of n bits: the bits, or EXHAUSTED with nothing consumed (43_framer.md R107); F8 on an ERR token (R119). -/
def readBits (fuop : BitVec 6) (n : Nat) (s : State) : Flow (Option (List Bool)) :=
  match lookBits s.inp s.inBitPos n with
  | .yes => .ok (some (bitsAt s.inBytes s.inBitPos n)) { s with inBitPos := s.inBitPos + n }
  | .no => .ok none s
  | .err => .fail .ioError fuop s
  | .wait => .waits

/-- A read the format requires: EXHAUSTED is fault F3 (60_exceptions.md R157). -/
def needBits (fuop : BitVec 6) (n : Nat) (s : State) : Flow (List Bool) :=
  (readBits fuop n s).bind fun r s =>
    match r with
    | some bits => .ok bits s
    | none => .fail .truncated fuop s

/-- What a byte-reading loop ends with: the bytes read when it ends; the bytes read before an ERR token; a wait. -/
inductive BytesRead
  | got (bs : List Byte)
  | failed (bs : List Byte)
  | waits
  deriving DecidableEq, Repr

def BytesRead.cons (v : Byte) : BytesRead → BytesRead
  | .got bs => .got (v :: bs)
  | .failed bs => .failed (v :: bs)
  | .waits => .waits

/-- The loop "while k < SYMSIZE and InRem() >= minBits" of SYM.GATHER (40_symbol.md R80) and DEC.LEAF (45_decompress.md
R138): at most `k` bytes from bit position `p` on. -/
def readBytes (inp : List Token) (minBits : Nat) : Nat → Nat → BytesRead
  | 0, _ => .got []
  | k + 1, p =>
    match lookBits inp p minBits with
    | .yes => (readBytes inp minBits k (p + 8)).cons (byteOfBits (bitsAt (inBytesOf inp) p 8))
    | .no => .got []
    | .err => .failed []
    | .wait => .waits

/-- SYMBUF[0 .. SYMLEN-1] after its first bytes are overwritten and SYMLEN is not. -/
def overlay (new old : Symbol) : Symbol := (new ++ old.drop new.length).take old.length

/-- The reads of the bytes `bs`, IN_BITPOS moved past each, each put into SYMBUF (40_symbol.md R80, 45_decompress.md
R138). -/
def readActions (fuop : BitVec 6) (bs : List Byte) (s : State) : Flow Unit :=
  actions fuop bs.length
    (fun j => { s with inBitPos := s.inBitPos + 8 * j, symBuf := overlay (bs.take j) s.symBuf })
    { s with inBitPos := s.inBitPos + 8 * bs.length } s

/-- The bytes a loop over SYMBUF.byte[k] reads, with IN_BITPOS moved past them; F8 keeps what was read before it
(60_exceptions.md R154). -/
def readSymBytes (fuop : BitVec 6) (minBits : Nat) (s : State) : Flow (List Byte) :=
  match readBytes s.inp minBits s.symSize.toNat s.inBitPos with
  | .got bs => (readActions fuop bs s).bind fun _ s => .ok bs s
  | .failed bs => (readActions fuop bs s).bind fun _ s => .fail .ioError fuop { s with symBuf := overlay bs s.symBuf }
  | .waits => .waits

/-- What is left of the tokens after END is taken; ERR before END; END not offered yet. -/
def afterEnd : List Token → Look × List Token
  | .stop :: ts => (.yes, ts)
  | .byte _ :: ts => afterEnd ts
  | .err :: _ => (.err, [])
  | [] => (.wait, [])

/-- Tokens taken and discarded up to and including END, IN_BITPOS unchanged (45_decompress.md R143). What follows END
is the next job's (log 11). -/
def takeEnd (fuop : BitVec 6) (s : State) : Flow Unit :=
  match afterEnd s.inp with
  | (.yes, ts) => .ok () { s with inp := ts }
  | (.no, _) => .waits
  | (.err, _) => .fail .ioError fuop s
  | (.wait, _) => .waits

/-! ### The output framer -/

/-- One bit of a byte written. -/
def setBit (v : Byte) (i : Nat) (b : Bool) : Byte :=
  if b then v ||| BitVec.twoPow 8 i else v &&& ~~~ BitVec.twoPow 8 i

/-- BIT.WR b (43_framer.md R112). -/
def bitWr (b : Bool) (s : State) : State :=
  let acc := setBit s.oacc (7 - s.ocnt.val) b
  if s.ocnt = 7 then
    { s with out := s.out ++ [acc], oacc := 0#8, ocnt := 0, outBitPos := s.outBitPos + 1 }
  else { s with oacc := acc, ocnt := s.ocnt + 1, outBitPos := s.outBitPos + 1 }

/-- Bits written in order, the first one first. -/
def bitsWr : List Bool → State → State
  | [], s => s
  | b :: bs, s => bitsWr bs (bitWr b s)

/-- The number of padding bits BIT.FLUSH adds (30_encoding.md R61). -/
def padLen (cnt : Fin 8) : Nat := if cnt = 0 then 0 else 8 - cnt.val

/-- The padding AHC writes: PAD_BIT in each place (R61). -/
def padBits (s : State) : List Bool := List.replicate (padLen s.ocnt) s.par.padBit

/-- OACC with the bits from place `cnt` on set to `xs`. -/
def padAcc (acc : Byte) (cnt : Nat) : List Bool → Byte
  | [] => acc
  | x :: xs => padAcc (setBit acc (7 - cnt) x) (cnt + 1) xs

/-- BIT.FLUSH with padding `xs` (43_framer.md R117): OUT_BITPOS is not advanced, END is sent. -/
def flushWith (xs : List Bool) (s : State) : State :=
  if s.ocnt = 0 then { s with outClosed := true }
  else { s with out := s.out ++ [padAcc s.oacc s.ocnt.val xs], oacc := 0#8, ocnt := 0, outClosed := true }

/-- SYM.SCATTER (40_symbol.md R81). -/
def scatter (s : State) : State :=
  { s with out := s.out ++ s.symBuf, outBitPos := s.outBitPos + 8 * s.symBuf.length }

/-! ### Writing with the sink's pin -/

/-- Bits written in order as part of operation `fuop`, one BIT.WR each. -/
def writeBits (fuop : BitVec 6) (bs : List Bool) (s : State) : Flow Unit :=
  actions fuop bs.length (fun j => bitsWr (bs.take j) s) (bitsWr bs s) s

/-- SYM.SCATTER as part of operation `fuop`, one byte at a time, then OUT_BITPOS. -/
def scatterOut (fuop : BitVec 6) (s : State) : Flow Unit :=
  actions fuop s.symBuf.length (fun j => { s with out := s.out ++ s.symBuf.take j }) (scatter s) s

/-! ### Operations at a port -/

/-- An operation in progress: where `out_err` is high as it begins, F8 before anything else (60_exceptions.md R162,
R163; log 9). -/
def withSink (fuop : BitVec 6) (body : State → Flow Unit) (s : State) : Out :=
  ((moment fuop s).bind fun _ s => body s).outcome s

/-! ### Job start -/

/-- IDLE or DONE: the phases in which a job word starts a job and a reserved word is F1 (46_host.md R145). -/
def Phase.accepts : Phase → Bool
  | .idle => true
  | .done => true
  | _ => false

/-- Lines 3 to 7 of 46_host.md R146. -/
def clearJob (s : State) : State :=
  { s with
    fcode := .none, fuop := 0#6, fpos := 0, inBitPos := 0, outBitPos := 0, symCount := 0,
    oacc := 0#8, ocnt := 0, out := [], outClosed := false,
    symBuf := [], found := false, more := false, emptyRec := false, pathBuf := [], cur := none }

/-- The clamp of 46_host.md R146. -/
def clampSize (s : BitVec 4) : BitVec 4 := if s = 0#4 then 1#4 else s

/-- CMD.COMPRESS accepted (46_host.md R146). -/
def startCompress (size : BitVec 4) (s : State) : State :=
  { treeNew (256 ^ (clampSize size).toNat) (clearJob { s with symSize := clampSize size, mode := .compress }) with
    phase := .cHdr }

/-- CMD.DECOMPRESS accepted (46_host.md R147). -/
def startDecompress (s : State) : State :=
  { clearJob { s with symSize := 0#4, mode := .decompress } with
    root := none, nyt := none, nodes := [], nextId := 0, map := [], phase := .dHdr }

end Sys2Proof.Machine
end

