-- ==== Sys2Proof/Machine/Operands.lean ====
section
/-! DEFINITION. Where the operands of the operations come from (30_encoding.md R71), and the register port
(10_state.md R34): what each register number reads, and what a write does. -/

namespace Sys2Proof.Machine

/-! ### Operands of the micro-operations -/

/-- `h` or `a` of a NODE.* or TREE.* operation: the first handle latch, which must not be NONE (20_memory.md R38). -/
def State.opA (s : State) : Except Fault Handle := getHandle s.args.a

/-- `b` of NODE.SWAP: the second handle latch. -/
def State.opB (s : State) : Except Fault Handle := getHandle s.args.b

/-- `symbolCount` of TREE.NEW: `256^SYMSIZE` (40_symbol.md R77). -/
def State.symbolCount (s : State) : Nat := 256 ^ s.symSize.toNat

/-- `sym` of TREE.LOOKUP and TREE.ADDSYM: "in AHC always SYMBUF" (42_tree.md R94, R95). -/
def State.opSym (s : State) : Symbol := s.symBuf

/-! ### Register values -/

/-- CFG, 5 bits: MODE ++ SYMSIZE (R29). -/
def State.cfgWord (s : State) : Nat :=
  (match s.mode with | .compress => 0 | .decompress => 16) + s.symSize.toNat

/-- The codes of PHASE (R30). -/
def Phase.code : Phase → Nat
  | .idle => 0
  | .cHdr => 1
  | .cFetch => 2
  | .cEmit => 3
  | .cUpdate => 4
  | .cFrame => 5
  | .cEos => 6
  | .cFlush => 7
  | .dHdr => 8
  | .dWalk => 9
  | .dLeaf => 10
  | .dUpdate => 11
  | .dFrame => 12
  | .dDrain => 13
  | .done => 14
  | .fault => 15

/-- The codes of FCODE (60_exceptions.md R153). -/
def FCode.code : FCode → Nat
  | .none => 0
  | .badCmd => 1
  | .badHeader => 2
  | .truncated => 3
  | .malformedEmpty => 4
  | .swapRelated => 5
  | .nodeCap => 6
  | .weightOvf => 7
  | .ioError => 8

/-- FAULTR, 10 bits: FUOP ++ FCODE (R32). -/
def State.faultWord (s : State) : Nat := 16 * s.fuop.toNat + s.fcode.code

/-- The bytes of a symbol in a 120-bit field, byte j in bits [8j+7:8j] (R20). -/
def packBytes : List Byte → Nat
  | [] => 0
  | v :: vs => v.toNat + 256 * packBytes vs

/-- A 120-bit symbol register: the symbol's bytes, and free bits above them (93_implementation_defined.md U10). -/
def symWord (sym : Symbol) (k : Nat) : Nat :=
  packBytes sym + 2 ^ (8 * sym.length) * ((Config.freeBits 120 k).toNat / 2 ^ (8 * sym.length))

/-- Handle width, `ceil(log2(NODE_CAP))` bits (10_state.md R16). -/
def handleWidth (cap : Nat) : Nat := if cap ≤ 1 then 0 else Nat.log2 (cap - 1) + 1

/-- The handle that a number names: its low bits, all of it where the store is unbounded (log 22). -/
def handleOf (p : Params) (v : Nat) : Nat :=
  match p.nodeCap with
  | none => v
  | some c => v % 2 ^ handleWidth c

/-- A free handle register: a free valid bit beside a free number of handle width (U9). -/
def freeHandle (p : Params) (k : Nat) : RegVal :=
  .handle (if Config.freeBits 1 k = 1#1 then some (handleOf p (Config.freeNat k)) else none)

/-- NODE_SYMLEN, 5 bits: has_sym ++ sym_len (R34). Without a symbol sym_len was never written (R20, U10). -/
def symLenWord (sym : Option Symbol) (k : Nat) : Nat :=
  match sym with
  | some bs => 16 + bs.length
  | none => (Config.freeBits 4 k).toNat

/-- Registers 16 to 22, the entry NODE_SEL selects (R34); at a free entry any value (U9). -/
def nodeReg (s : State) (n : Nat) : RegVal :=
  match s.nodes[s.nodeSel]?, n with
  | some e, 16 => .signed e.id
  | some e, 17 => .word e.weight
  | some e, 18 => .handle e.parent
  | some e, 19 => .handle e.left
  | some e, 20 => .handle e.right
  | some e, 21 => .word (symLenWord e.sym s.freeCtr)
  | some e, _ => .word (symWord (e.sym.getD []) s.freeCtr)
  | none, 16 => .signed (Config.freeBits Config.idWidth s.freeCtr).toInt
  | none, 17 => .word (Config.freeBits Config.weightWidth s.freeCtr).toNat
  | none, 18 => freeHandle s.par s.freeCtr
  | none, 19 => freeHandle s.par s.freeCtr
  | none, 20 => freeHandle s.par s.freeCtr
  | none, 21 => .word (Config.freeBits 5 s.freeCtr).toNat
  | none, _ => .word (Config.freeBits 120 s.freeCtr).toNat

end Sys2Proof.Machine
end

