-- ==== Sys2Proof/Machine/Flags.lean ====
section
/-! DEFINITION. The condition flags (10_state.md R25), the status word and the pins that follow it (R31), and the
register read port (R34), which shows them. -/

namespace Sys2Proof.Machine

/-! ### The condition flags -/

/-- MORE after SYM.GATHER: "at least one more input byte remains" (R25, 40_symbol.md R80), from IN_BITPOS on; F8 if the
next token is ERR (60_exceptions.md, vector of F8). -/
def setMore (fuop : BitVec 6) (s : State) : Flow Unit :=
  match lookBits s.inp s.inBitPos 8 with
  | .yes => .ok () { s with more := true }
  | .no => .ok () { s with more := false }
  | .err => .fail .ioError fuop s
  | .wait => .waits

/-- FOUND and CUR after a lookup or at a leaf (R25). -/
def setFound (b : Bool) (s : State) : State := { s with found := b }

/-- EMPTYREC: no raw byte at the very first record (R25, 45_decompress.md R140). -/
def setEmptyRec (s : State) : State := { s with emptyRec := true }

/-! ### STATUS and the pins -/

def State.pinBusy (s : State) : Bool := s.phase.busy
def State.pinDone (s : State) : Bool := s.phase == .done
def State.pinFault (s : State) : Bool := s.phase == .fault

/-- STATUS, 12 bits (R31). -/
def State.statusWord (s : State) : Nat :=
  s.pinBusy.toNat + 2 * s.pinDone.toNat + 4 * s.pinFault.toNat + 8 * s.found.toNat + 16 * s.more.toNat +
    32 * s.emptyRec.toNat + 64 * s.outClosed.toNat + 256 * s.phase.code

/-! ### The register port -/

/-- `reg_rd(n)` (R34): "A read of a number not listed returns 0", CMD is write-only and reads 0 (46_host.md R144). -/
def State.regRd (s : State) : Nat → RegVal
  | 1 => .word s.cfgWord
  | 2 => .word s.statusWord
  | 3 => .word s.faultWord
  | 4 => .word s.fpos
  | 5 => .word s.inBitPos
  | 6 => .word s.outBitPos
  | 7 => .word s.symCount
  | 8 => .word s.nodes.length
  | 9 => .signed s.nextId
  | 10 => .handle s.root
  | 11 => .handle s.nyt
  | 12 => .handle s.cur
  | 13 => .word s.symBuf.length
  | 14 => .word (symWord s.symBuf s.freeCtr)
  | 15 => .word s.nodeSel
  | n => if 16 ≤ n ∧ n ≤ 22 then nodeReg s n else .word 0

end Sys2Proof.Machine
end

