-- ==== Sys2Proof/Machine/Cmd.lean ====
section
/-! DEFINITION. The command words (46_host.md R144 to R150), with the acceptance table of R145. -/

namespace Sys2Proof.Machine

/-- CMD.NOP (R148): no effect in any phase. -/
def execCmdNop (s : State) : Out := .next s

/-- CMD.COMPRESS s (R146): starts a job in IDLE and DONE, dropped otherwise (R145). -/
def execCmdCompress (size : BitVec 4) (s : State) : Out :=
  .next (if s.phase.accepts then startCompress size s else s)

/-- CMD.DECOMPRESS (R147): starts a job in IDLE and DONE, dropped otherwise (R145). -/
def execCmdDecompress (s : State) : Out := .next (if s.phase.accepts then startDecompress s else s)

/-- CMD.ABORT (R149): accepted in every phase. -/
def execCmdAbort (s : State) : Out := .next (abort s)

/-- A reserved command word (R150): F1 in IDLE and DONE, dropped otherwise. -/
def reservedCommand (s : State) : State := if s.phase.accepts then raise .badCmd 0#6 s else s

end Sys2Proof.Machine
end

