-- ==== Sys2Proof/Machine/Bit.lean ====
section
/-! DEFINITION. The family BIT (43_framer.md): the bit-stream framer's operations. -/

namespace Sys2Proof.Machine

/-- The bit a read of one bit returned. -/
def bitOf (bits : List Bool) : Bool := bits.headD false

/-- The 4-bit value a header read returned (R110). -/
def hdrOf (bits : List Bool) : BitVec 4 := BitVec.ofNat 4 (bitsVal bits)

/-- The result latch after a read of n bits: `value` of the bits, or EXHAUSTED (R107). -/
def readResult (n : Nat) (value : List Bool → UopResult) (s : State) : Flow Unit :=
  (readBits 0#6 n s).bind fun r s =>
    match r with
    | some bits => .ok () { s with res := value bits }
    | none => .ok () { s with res := .exhausted }

/-- BIT.RD (R108). -/
def execBitRd (s : State) : Out := withSink 0#6 (readResult 1 fun bits => .bit (bitOf bits)) s

/-- BIT.RDBYTE (R109). -/
def execBitRdByte (s : State) : Out := withSink 0#6 (readResult 8 fun bits => .byte (byteOfBits bits)) s

/-- BIT.RDHDR (R110). -/
def execBitRdHdr (s : State) : Out := withSink 0#6 (readResult 4 fun bits => .hdr (hdrOf bits)) s

/-- BIT.WR b (R112). -/
def execBitWr (s : State) : Out := withSink 0#6 (fun s => writeBits 0#6 [s.args.bit] s) s

/-- BIT.WRBYTE v (R113): bit 7 first. -/
def execBitWrByte (s : State) : Out := withSink 0#6 (fun s => writeBits 0#6 (byteBits s.args.byte) s) s

/-- BIT.WRHDR s (R114): bit 3 first. -/
def execBitWrHdr (s : State) : Out := withSink 0#6 (fun s => writeBits 0#6 (msbBits 4 s.args.hdr.toNat) s) s

/-- BIT.FLUSH (R117). -/
def execBitFlush (s : State) : Out := withSink 0#6 (fun s => .ok () (flushWith (padBits s) s)) s

end Sys2Proof.Machine
end

