-- ==== Sys2Proof/Machine/NodeFam.lean ====
section
/-! DEFINITION. The family NODE (41_node.md): NODE.ISLEAF, NODE.ISNYT, NODE.PATH, NODE.SWAP. -/

namespace Sys2Proof.Machine

/-- The operand handle and its live entry (20_memory.md R38). -/
def operandNode (s : State) : Except Fault Node := s.opA.bind (getNode s.nodes)

/-- NODE.ISLEAF h (R87). -/
def execNodeIsLeaf (s : State) : Out :=
  match operandNode s with
  | .ok n => .next { s with res := .bit n.isLeaf }
  | .error f => .fault f

/-- NODE.ISNYT h (R88). -/
def execNodeIsNyt (s : State) : Out :=
  match operandNode s with
  | .ok n => .next { s with res := .bit n.isNyt }
  | .error f => .fault f

/-- PATHBUF and PATHLEN of entry h (R89). -/
def pathOf (h : Handle) (s : State) : Flow Unit :=
  (Flow.ofExcept s (nodePath s.nodes h)).bind fun p s => .ok () { s with pathBuf := p }

/-- NODE.PATH h (R89). -/
def execNodePath (s : State) : Out :=
  match s.opA with
  | .ok h => (pathOf h s).outcome s
  | .error f => .fault f

/-- Neither operand is the root, they differ and they are related: the case R92 gives no meaning. -/
def swapOutsidePrecondition (ns : Store) (a b : Handle) : Except Fault Bool :=
  if a ≠ b ∧ ((ns[a]?).bind Node.parent).isSome ∧ ((ns[b]?).bind Node.parent).isSome then related ns a b else .ok false

/-- NODE.SWAP a, b (R90, R91). "A model should give NODE.SWAP the precondition neither operand is a proper ancestor
of the other and no meaning outside it" (R92). -/
def execNodeSwap (s : State) : Out :=
  match s.opA, s.opB with
  | .ok a, .ok b =>
    match swapOutsidePrecondition s.nodes a b with
    | .error f => .fault f
    | .ok true => .refused .swapOfRelatedNodes
    | .ok false =>
      match nodeSwap a b s.nodes with
      | .ok ns => .next { s with nodes := ns }
      | .error f => .fault f
  | .error f, _ => .fault f
  | .ok _, .error f => .fault f

end Sys2Proof.Machine
end

