-- ==== Sys2Proof/Machine/Sym.lean ====
section
/-! DEFINITION. The family SYM (40_symbol.md): SYM.GATHER, SYM.SCATTER. -/

namespace Sys2Proof.Machine

/-- SYM.GATHER inside the operation `fuop` (R80): SYMBUF, SYMLEN, IN_BITPOS, then MORE. -/
def gather (fuop : BitVec 6) (s : State) : Flow Unit :=
  (readSymBytes fuop 8 s).bind fun bs s => setMore fuop { s with symBuf := bs }

/-- SYM.GATHER (R80). -/
def execSymGather (s : State) : Out := withSink 0#6 (gather 0#6) s

/-- SYM.SCATTER (R81). -/
def execSymScatter (s : State) : Out := withSink 0#6 (scatterOut 0#6) s

end Sys2Proof.Machine
end

