-- ==== Sys2Proof/Machine/Tree.lean ====
section
/-! DEFINITION. The family TREE (42_tree.md): TREE.NEW, TREE.LOOKUP, TREE.CURNYT, TREE.ADDSYM, TREE.UPDATE,
TREE.LEADER, each over the operations of Ops.lean. A fault raised outside a driver operation has FUOP 0 (R152). -/

namespace Sys2Proof.Machine

/-- TREE.NEW symbolCount (R93). -/
def execTreeNew (s : State) : Out := .next (treeNew s.symbolCount s)

/-- `MAP[sym]` (R94). -/
def lookupSym (sym : Symbol) (s : State) : Option Handle := s.map.lookup sym

/-- TREE.LOOKUP sym (R94). -/
def execTreeLookup (s : State) : Out := .next { s with res := .handle (lookupSym s.opSym s) }

/-- TREE.CURNYT (R96). -/
def execTreeCurNyt (s : State) : Out := .next { s with res := .handle s.nyt }

/-- TREE.ADDSYM sym (R95). -/
def execTreeAddSym (s : State) : Out := (addSymbol 0#6 s.opSym s).outcome s

/-- TREE.UPDATE node, a handle or NONE (R98). -/
def execTreeUpdate (s : State) : Out := (updateTree 0#6 s.args.a s).outcome s

/-- TREE.LEADER x (R99). -/
def execTreeLeader (s : State) : Out :=
  match s.opA.bind (leader s.par s.nodes) with
  | .ok h => .next { s with res := .handle (some h) }
  | .error f => .fault f

end Sys2Proof.Machine
end

