-- ==== Sys2Proof/Machine/Enc.lean ====
section
/-! DEFINITION. The family ENC (44_compress.md): the compress driver, one operation per phase. The lines of each
operation stand as a `Flow`, which the stream elements of Stream.lean use too; the meaning adds the sink (log 9). -/

namespace Sys2Proof.Machine

/-- The last line of an operation, `PHASE <- ph`. -/
def goTo (fuop : BitVec 6) (ph : Phase) (_ : Unit) (s : State) : Flow Unit :=
  (moment fuop s).bind fun _ s => .ok () { s with phase := ph }

/-- The lines of ENC.HDR (R122). -/
def encHdrLines (s : State) : Flow Unit :=
  (writeBits (uopCode .encHdr) (msbBits 4 s.symSize.toNat) s).bind (goTo (uopCode .encHdr) .cFetch)

/-- ENC.HDR (R122). -/
def execEncHdr (s : State) : Out := withSink (uopCode .encHdr) encHdrLines s

/-- The lines of ENC.FETCH (R123). -/
def encFetchLines (s : State) : Flow Unit :=
  (gather (uopCode .encFetch) s).bind fun _ s =>
    goTo (uopCode .encFetch) (if s.symBuf = [] then .cEos else .cEmit) () s

/-- ENC.FETCH (R123). -/
def execEncFetch (s : State) : Out := withSink (uopCode .encFetch) encFetchLines s

/-- The path of the entry in CUR taken and written (R124, 43_framer.md R115). -/
def emitPath (h : Handle) (s : State) : Flow Unit :=
  (moment (uopCode .encSymbol) s).bind fun _ s =>
    (pathOf h s).bind fun _ s => writeBits (uopCode .encSymbol) s.pathBuf s

/-- ENC.SYMBOL's first branch, a HIT record of leaf h (R124). -/
def emitHit (h : Handle) (s : State) : Flow Unit :=
  emitPath h { setFound true s with cur := some h }

/-- ENC.SYMBOL's second branch, a NEW record (R124, R125). -/
def emitNew (s : State) : Flow Unit :=
  let s := { setFound false s with cur := s.nyt }
  (Flow.ofExcept s (getHandle s.nyt)).bind fun h s =>
    (emitPath h s).bind fun _ s => writeBits (uopCode .encSymbol) (bytesBits s.symBuf) s

/-- The lines of ENC.SYMBOL (R124). -/
def encSymbolLines (s : State) : Flow Unit :=
  (match lookupSym s.opSym s with
    | some h => emitHit h s
    | none => emitNew s).bind (goTo (uopCode .encSymbol) .cUpdate)

/-- ENC.SYMBOL (R124). -/
def execEncSymbol (s : State) : Out := withSink (uopCode .encSymbol) encSymbolLines s

/-- The tree operation of ENC.UPDATE and DEC.UPDATE, and SYM_COUNT (R126, 45_decompress.md R141). -/
def applyRecord (fuop : BitVec 6) (s : State) : Flow Unit :=
  (if s.found then updateTree fuop s.cur s else addSymbol fuop s.opSym s).bind fun _ s =>
    (moment fuop s).bind fun _ s => .ok () { s with symCount := s.symCount + 1 }

/-- The lines of ENC.UPDATE (R126). -/
def encUpdateLines (s : State) : Flow Unit :=
  (applyRecord (uopCode .encUpdate) s).bind fun _ s => .ok () { s with phase := .cFrame }

/-- ENC.UPDATE (R126). -/
def execEncUpdate (s : State) : Out := withSink (uopCode .encUpdate) encUpdateLines s

/-- The lines of ENC.FRAME (R127). -/
def encFrameLines (s : State) : Flow Unit :=
  if s.more then (writeBits (uopCode .encFrame) [false] s).bind (goTo (uopCode .encFrame) .cFetch)
  else goTo (uopCode .encFrame) .cEos () s

/-- ENC.FRAME (R127). -/
def execEncFrame (s : State) : Out := withSink (uopCode .encFrame) encFrameLines s

/-- The lines of ENC.EOS (R128). -/
def encEosLines (s : State) : Flow Unit :=
  (writeBits (uopCode .encEos) [true] s).bind (goTo (uopCode .encEos) .cFlush)

/-- ENC.EOS (R128). -/
def execEncEos (s : State) : Out := withSink (uopCode .encEos) encEosLines s

/-- The lines of ENC.FLUSH with padding `xs` (R129). A job that ends in FAULT sends no END (43_framer.md R118,
60_exceptions.md R154), so the input's token is looked at before BIT.FLUSH, and from BIT.FLUSH on nothing is in the
way of DONE (log 28). -/
def encFlushLines (xs : List Bool) (s : State) : Flow Unit :=
  (takeEnd (uopCode .encFlush) s).bind fun _ s => .ok () { flushWith xs s with phase := .done }

/-- ENC.FLUSH (R129). -/
def execEncFlush (s : State) : Out := withSink (uopCode .encFlush) (fun s => encFlushLines (padBits s) s) s

end Sys2Proof.Machine
end

