-- ==== Sys2Proof/Machine/Dec.lean ====
section
/-! DEFINITION. The family DEC (45_decompress.md): the decompress driver, the tree walker. What an operation does with
the bits it has read stands apart from the reading, for the stream elements of Stream.lean. -/

namespace Sys2Proof.Machine

/-- DEC.HDR with the header value `v` read (R134). -/
def decHdrWith (v : BitVec 4) (s : State) : Flow Unit :=
  (moment (uopCode .decHdr) s).bind fun _ s =>
    if v = 0#4 then .fail .badHeader (uopCode .decHdr) s
    else
      (moment (uopCode .decHdr) (treeNew (256 ^ v.toNat) { s with symSize := v })).bind fun _ s =>
        .ok () { s with cur := s.root, phase := .dWalk }

/-- The lines of DEC.HDR (R134). -/
def decHdrLines (s : State) : Flow Unit :=
  (needBits (uopCode .decHdr) 4 s).bind fun bits s => decHdrWith (hdrOf bits) s

/-- DEC.HDR (R134). -/
def execDecHdr (s : State) : Out := withSink (uopCode .decHdr) decHdrLines s

/-- The entry CUR names (R23, 20_memory.md R38). -/
def curNode (s : State) : Except Fault Node := (getHandle s.cur).bind (getNode s.nodes)

/-- One edge of the walk: 0 to the left child, 1 to the right (R136). -/
def stepTo (n : Node) (b : Bool) (s : State) : State :=
  { s with cur := if b then n.right else n.left, phase := .dWalk }

/-- The lines of DEC.WALK (R136). -/
def decWalkLines (s : State) : Flow Unit :=
  (Flow.ofExcept s (curNode s)).bind fun n s =>
    if n.isLeaf then goTo (uopCode .decWalk) .dLeaf () s
    else
      (needBits (uopCode .decWalk) 1 s).bind fun bits s =>
        (moment (uopCode .decWalk) s).bind fun _ s => .ok () (stepTo n (bitOf bits) s)

/-- DEC.WALK (R136). -/
def execDecWalk (s : State) : Out := withSink (uopCode .decWalk) decWalkLines s

/-- The raw bytes DEC.LEAF reads at the NYT (R138, R139). -/
def readRaw (s : State) : Flow (List Byte) := readSymBytes (uopCode .decLeaf) s.par.rawMinBits.toNat s

/-- A NEW record's bytes taken as the symbol and written out (R138). -/
def leafNew (bs : List Byte) (s : State) : Flow Unit :=
  (scatterOut (uopCode .decLeaf) (setFound false { s with symBuf := bs })).bind (goTo (uopCode .decLeaf) .dUpdate)

/-- The NYT with no raw byte to read (R140). -/
def leafEmpty (s : State) : Flow Unit :=
  let s := { s with symBuf := [] }
  if s.nodes.length = 1 then .ok () { setEmptyRec s with phase := .dFrame }
  else .fail .truncated (uopCode .decLeaf) s

/-- A HIT record: the leaf's symbol written out (R138). -/
def leafHit (n : Node) (s : State) : Flow Unit :=
  match n.sym with
  | some sym =>
    (scatterOut (uopCode .decLeaf) (setFound true { s with symBuf := sym })).bind (goTo (uopCode .decLeaf) .dUpdate)
  | none => .stops .malformedTree

/-- The lines of DEC.LEAF (R138). -/
def decLeafLines (s : State) : Flow Unit :=
  (Flow.ofExcept s (curNode s)).bind fun n s =>
    if n.isNyt then
      (readRaw s).bind fun bs s => if bs = [] then leafEmpty s else leafNew bs s
    else leafHit n s

/-- DEC.LEAF (R138). -/
def execDecLeaf (s : State) : Out := withSink (uopCode .decLeaf) decLeafLines s

/-- The lines of DEC.UPDATE (R141). -/
def decUpdateLines (s : State) : Flow Unit :=
  (applyRecord (uopCode .decUpdate) s).bind fun _ s => .ok () { s with phase := .dFrame }

/-- DEC.UPDATE (R141). -/
def execDecUpdate (s : State) : Out := withSink (uopCode .decUpdate) decUpdateLines s

/-- DEC.FRAME with the framing bit `b` read (R142). -/
def decFrameWith (b : Bool) (s : State) : Flow Unit :=
  (moment (uopCode .decFrame) s).bind fun _ s =>
    if b then .ok () { s with phase := .dDrain }
    else if s.emptyRec then .fail .malformedEmpty (uopCode .decFrame) s
    else .ok () { s with cur := s.root, phase := .dWalk }

/-- The lines of DEC.FRAME (R142). -/
def decFrameLines (s : State) : Flow Unit :=
  (needBits (uopCode .decFrame) 1 s).bind fun bits s => decFrameWith (bitOf bits) s

/-- DEC.FRAME (R142). -/
def execDecFrame (s : State) : Out := withSink (uopCode .decFrame) decFrameLines s

/-- The lines of DEC.DRAIN (R143). Once END is sent nothing is in the way of DONE (43_framer.md R118; log 28). -/
def decDrainLines (s : State) : Flow Unit :=
  (takeEnd (uopCode .decDrain) s).bind fun _ s =>
    (moment (uopCode .decDrain) s).bind fun _ s => .ok () { s with outClosed := true, phase := .done }

/-- DEC.DRAIN (R143). -/
def execDecDrain (s : State) : Out := withSink (uopCode .decDrain) decDrainLines s

end Sys2Proof.Machine
end

