-- ==== Sys2Proof/Machine/Stream.lean ====
section
/-! DEFINITION. The elements of the compressed stream (30_encoding.md R54 to R65) as instructions (log 15). The
compressor produces them: an element has its meaning in the phase in which the compressor writes exactly it. The
decompressor executes them (20_memory.md R52): an element has its meaning in the phase in which the decoder reads such
an element, and takes its bits off the stream. Anywhere else it is not the element that is due. -/

namespace Sys2Proof.Machine

/-- The stream has no such element here. -/
def notDue : Out := .refused .elementNotDue

def Flow.notDue {α : Type} : Flow α := .refuses .elementNotDue

/-! ### HDR, F0, EOS, PAD -/

/-- HDR (R55): written by ENC.HDR, read by DEC.HDR. -/
def execHdr (v : BitVec 4) (s : State) : Out :=
  match s.phase with
  | .cHdr => if v = s.symSize then withSink (uopCode .encHdr) encHdrLines s else notDue
  | .dHdr => withSink (uopCode .decHdr) (fun s => (needBits (uopCode .decHdr) 4 s).bind fun _ s => decHdrWith v s) s
  | _ => notDue

/-- A framing bit `b` read by DEC.FRAME (R62). -/
def frameElement (b : Bool) (s : State) : Flow Unit :=
  (needBits (uopCode .decFrame) 1 s).bind fun _ s => decFrameWith b s

/-- F0 (R59): written by ENC.FRAME when more input remains, read by DEC.FRAME. -/
def execF0 (s : State) : Out :=
  match s.phase with
  | .cFrame => if s.more then withSink (uopCode .encFrame) encFrameLines s else notDue
  | .dFrame => withSink (uopCode .decFrame) (frameElement false) s
  | _ => notDue

/-- EOS (R60): written by ENC.EOS, read by DEC.FRAME. -/
def execEos (s : State) : Out :=
  match s.phase with
  | .cEos => withSink (uopCode .encEos) encEosLines s
  | .dFrame => withSink (uopCode .decFrame) (frameElement true) s
  | _ => notDue

/-- PAD (R61): written by the flush; ignored by the decoder whatever its bits, with all that follows the EOS bit. -/
def execPad (xs : List Bool) (s : State) : Out :=
  match s.phase with
  | .cFlush => if xs = padBits s then withSink (uopCode .encFlush) (encFlushLines xs) s else notDue
  | .dDrain => withSink (uopCode .decDrain) decDrainLines s
  | _ => notDue

/-! ### PATH and RAW -/

/-- The leaf whose path the compressor's record begins with (R56): the symbol's, or the NYT. -/
def recordLeaf (s : State) : Option Handle :=
  match lookupSym s.opSym s with
  | some h => some h
  | none => s.nyt

/-- The decoder's walk along the bits of a PATH (R57, R62): it must end on a leaf and meet none before. -/
def walkPath : List Bool → State → Flow Unit
  | [], s =>
    (Flow.ofExcept s (curNode s)).bind fun n s => if n.isLeaf then .ok () { s with phase := .dLeaf } else .notDue
  | b :: bs, s =>
    (Flow.ofExcept s (curNode s)).bind fun n s =>
      if n.isLeaf then .notDue
      else (needBits (uopCode .decWalk) 1 s).bind fun _ s => walkPath bs (stepTo n b s)

/-- PATH (R57): taken and written by ENC.SYMBOL as its part (43_framer.md R115), walked by the decoder. -/
def execPath (p : List Bool) (s : State) : Out :=
  match s.phase with
  | .cEmit =>
    match recordLeaf s with
    | some h => if nodePath s.nodes h = .ok p then withSink (uopCode .encSymbol) (emitPath h) s else notDue
    | none => notDue
  | .dWalk => withSink (uopCode .decWalk) (walkPath p) s
  | _ => notDue

/-- The raw bytes of a NEW record at the NYT: as many as DEC.LEAF reads there (R58, 45_decompress.md R139). -/
def rawElement (bs : List Byte) (s : State) : Flow Unit :=
  (Flow.ofExcept s (curNode s)).bind fun n s =>
    if n.isNyt then
      (readRaw s).bind fun bs' s => if bs'.length = bs.length ∧ bs ≠ [] then leafNew bs s else .notDue
    else .notDue

/-- RAW (R58): written by ENC.SYMBOL as its part for a symbol not in the map, read by DEC.LEAF. -/
def execRaw (bs : List Byte) (s : State) : Out :=
  match s.phase with
  | .cEmit =>
    if lookupSym s.opSym s = none ∧ bs = s.symBuf then
      withSink (uopCode .encSymbol) (writeBits (uopCode .encSymbol) (bytesBits bs)) s
    else notDue
  | .dLeaf => withSink (uopCode .decLeaf) (rawElement bs) s
  | _ => notDue

/-! ### Records: the element, applied to the tree (R56) -/

/-- ENC.SYMBOL, then ENC.UPDATE. -/
def encRecord (s : State) : Flow Unit := (encSymbolLines s).bind fun _ s => encUpdateLines s

/-- The leaf action of a HIT record. -/
def hitElement (s : State) : Flow Unit :=
  (Flow.ofExcept s (curNode s)).bind fun n s => if n.isNyt then .notDue else leafHit n s

/-- A record read from the root: its path, its leaf action `leaf`, DEC.UPDATE (R62, R82). -/
def decRecord (p : List Bool) (leaf : State → Flow Unit) (s : State) : Flow Unit :=
  if s.cur = s.root then
    (walkPath p s).bind fun _ s => (leaf s).bind fun _ s => decUpdateLines s
  else .notDue

/-- REC.HIT (R56): the record of a symbol already in the map. -/
def execRecHit (p : List Bool) (s : State) : Out :=
  match s.phase with
  | .cEmit =>
    match lookupSym s.opSym s with
    | some h => if nodePath s.nodes h = .ok p then withSink (uopCode .encSymbol) encRecord s else notDue
    | none => notDue
  | .dWalk => withSink (uopCode .decWalk) (decRecord p hitElement) s
  | _ => notDue

/-- REC.NEW (R56): the record of a symbol not in the map. -/
def execRecNew (p : List Bool) (bs : List Byte) (s : State) : Out :=
  match s.phase with
  | .cEmit =>
    match lookupSym s.opSym s, s.nyt with
    | none, some h =>
      if nodePath s.nodes h = .ok p ∧ bs = s.symBuf then withSink (uopCode .encSymbol) encRecord s else notDue
    | _, _ => notDue
  | .dWalk => withSink (uopCode .decWalk) (decRecord p (rawElement bs)) s
  | _ => notDue

end Sys2Proof.Machine
end

