-- ==== Sys2Proof/Machine/Dispatch.lean ====
section
/-! DEFINITION. One arm per instruction, each one direct call of its meaning. -/

namespace Sys2Proof.Machine

def exec (i : Instr) (s : State) : Host.Outcome State Fault Refusal :=
  match i with
  | .hdr v => Sys2Proof.Machine.execHdr v s
  | .path p => Sys2Proof.Machine.execPath p s
  | .raw bs => Sys2Proof.Machine.execRaw bs s
  | .f0 => Sys2Proof.Machine.execF0 s
  | .eos => Sys2Proof.Machine.execEos s
  | .pad xs => Sys2Proof.Machine.execPad xs s
  | .recHit p => Sys2Proof.Machine.execRecHit p s
  | .recNew p bs => Sys2Proof.Machine.execRecNew p bs s
  | .cmdNop => Sys2Proof.Machine.execCmdNop s
  | .cmdCompress size => Sys2Proof.Machine.execCmdCompress size s
  | .cmdDecompress => Sys2Proof.Machine.execCmdDecompress s
  | .cmdAbort => Sys2Proof.Machine.execCmdAbort s
  | .symGather => Sys2Proof.Machine.execSymGather s
  | .symScatter => Sys2Proof.Machine.execSymScatter s
  | .nodeIsLeaf => Sys2Proof.Machine.execNodeIsLeaf s
  | .nodeIsNyt => Sys2Proof.Machine.execNodeIsNyt s
  | .nodePath => Sys2Proof.Machine.execNodePath s
  | .nodeSwap => Sys2Proof.Machine.execNodeSwap s
  | .treeNew => Sys2Proof.Machine.execTreeNew s
  | .treeLookup => Sys2Proof.Machine.execTreeLookup s
  | .treeCurNyt => Sys2Proof.Machine.execTreeCurNyt s
  | .treeAddSym => Sys2Proof.Machine.execTreeAddSym s
  | .treeUpdate => Sys2Proof.Machine.execTreeUpdate s
  | .treeLeader => Sys2Proof.Machine.execTreeLeader s
  | .bitRd => Sys2Proof.Machine.execBitRd s
  | .bitRdByte => Sys2Proof.Machine.execBitRdByte s
  | .bitWr => Sys2Proof.Machine.execBitWr s
  | .bitWrByte => Sys2Proof.Machine.execBitWrByte s
  | .bitFlush => Sys2Proof.Machine.execBitFlush s
  | .bitWrHdr => Sys2Proof.Machine.execBitWrHdr s
  | .bitRdHdr => Sys2Proof.Machine.execBitRdHdr s
  | .encHdr => Sys2Proof.Machine.execEncHdr s
  | .encFetch => Sys2Proof.Machine.execEncFetch s
  | .encSymbol => Sys2Proof.Machine.execEncSymbol s
  | .encUpdate => Sys2Proof.Machine.execEncUpdate s
  | .encFrame => Sys2Proof.Machine.execEncFrame s
  | .encEos => Sys2Proof.Machine.execEncEos s
  | .encFlush => Sys2Proof.Machine.execEncFlush s
  | .decHdr => Sys2Proof.Machine.execDecHdr s
  | .decWalk => Sys2Proof.Machine.execDecWalk s
  | .decLeaf => Sys2Proof.Machine.execDecLeaf s
  | .decUpdate => Sys2Proof.Machine.execDecUpdate s
  | .decFrame => Sys2Proof.Machine.execDecFrame s
  | .decDrain => Sys2Proof.Machine.execDecDrain s

end Sys2Proof.Machine
end

