-- ==== Sys2Proof/Machine/Sequencer.lean ====
section
/-! DEFINITION. What a step runs: the driver operation PHASE names (30_encoding.md R69), or the stream element or record
that is due (00_scope.md R11), or the command a host write decodes to; and the host's other actions. -/

namespace Sys2Proof.Machine

/-- The driver micro-operation of a phase (10_state.md R30); IDLE, DONE and FAULT have none. -/
def driverOp : Phase → Option Instr
  | .idle => none
  | .cHdr => some .encHdr
  | .cFetch => some .encFetch
  | .cEmit => some .encSymbol
  | .cUpdate => some .encUpdate
  | .cFrame => some .encFrame
  | .cEos => some .encEos
  | .cFlush => some .encFlush
  | .dHdr => some .decHdr
  | .dWalk => some .decWalk
  | .dLeaf => some .decLeaf
  | .dUpdate => some .decUpdate
  | .dFrame => some .decFrame
  | .dDrain => some .decDrain
  | .done => none
  | .fault => none

/-! ### The stream element that is due -/

/-- The element of shape `d` that the unread bits spell, if they are all there. -/
def decodeHere (d : Due) (s : State) : Option Instr :=
  let n := (Format.stream d).width
  if lookBits s.inp s.inBitPos n = .yes then
    (decode (.stream d) (bitsAt s.inBytes s.inBitPos n)).toOption.map Prod.fst
  else none

/-- How many of `bits` lead from entry `h` to a leaf, and that leaf (30_encoding.md R62). -/
def leafBelow (ns : Store) : List Bool → Option Handle → Option (Nat × Node)
  | _, none => none
  | [], some h =>
    match ns[h]? with
    | some n => if n.isLeaf then some (0, n) else none
    | none => none
  | b :: bs, some h =>
    match ns[h]? with
    | some n =>
      if n.isLeaf then some (0, n)
      else (leafBelow ns bs (if b then n.right else n.left)).map fun r => (r.1 + 1, r.2)
    | none => none

/-- The unread bits of IN. -/
def State.unread (s : State) : List Bool := bitsAt s.inBytes s.inBitPos s.inRem

/-- How many raw bytes the decoder reads from bit position `p` on (45_decompress.md R139). -/
def rawCount (s : State) (p : Nat) : Nat :=
  match readBytes s.inp s.par.rawMinBits.toNat s.symSize.toNat p with
  | .got bs => bs.length
  | .failed _ => 0
  | .waits => 0

/-- The record the compressor writes in C_EMIT (R56). -/
def encRecordDue (s : State) : Option Instr :=
  match lookupSym s.opSym s with
  | some h => (nodePath s.nodes h).toOption.map .recHit
  | none =>
    match s.nyt with
    | some h => (nodePath s.nodes h).toOption.map fun p => .recNew p s.symBuf
    | none => none

/-- The element due in the present phase, if one is and all its bits are there. -/
def elementDue (s : State) : Option Instr :=
  match s.phase with
  | .cHdr => some (.hdr s.symSize)
  | .cEmit => encRecordDue s
  | .cFrame => if s.more then some .f0 else none
  | .cEos => some .eos
  | .cFlush => some (.pad (padBits s))
  | .dHdr => decodeHere .hdr s
  | .dWalk => (leafBelow s.nodes s.unread s.cur).bind fun r => decodeHere (.path r.1) s
  | .dLeaf =>
    match curNode s with
    | .ok n => if n.isNyt then decodeHere (.raw (rawCount s s.inBitPos)) s else none
    | .error _ => none
  | .dFrame => decodeHere .frame s
  | .dDrain => decodeHere (.pad ((8 - s.inBitPos % 8) % 8)) s
  | _ => none

/-- The record due: the compressor's in C_EMIT, the decoder's where a walk begins at the root. -/
def recordDue (s : State) : Option Instr :=
  match s.phase with
  | .dWalk =>
    if s.cur = s.root then
      (leafBelow s.nodes s.unread s.cur).bind fun r =>
        if r.2.isNyt then decodeHere (.recNew r.1 (rawCount s (s.inBitPos + r.1))) s
        else decodeHere (.recHit r.1) s
    else none
  | _ => elementDue s

/-! ### What a step does -/

/-- An instruction run from a state; something that is no instruction, with the state after it; a word that is no
instruction and has no effect given. -/
inductive Fetched
  | run (i : Instr) (s : State)
  | quiet (s : State)
  | reject (r : Refusal)
  deriving DecidableEq, Repr

/-- The item of the stream to be run at once, at the grain the step has; none while the sink may fail inside it, where
the micro-operations are run one by one (log 2, 9). -/
def itemDue (g : Grain) (s : State) : Option Instr :=
  if s.outErr = .low then
    match g with
    | .microop => none
    | .element => elementDue s
    | .record => recordDue s
  else none

/-- The sequencer goes on: with the item due at this grain, or else with the driver operation of PHASE. In IDLE, DONE
and FAULT "the block simply waits for a command" (60_exceptions.md R172). -/
def sequence (g : Grain) (s : State) : Fetched :=
  match itemDue g s with
  | some i => .run i s
  | none =>
    match driverOp s.phase with
    | some i => .run i s
    | none => .quiet s

/-- A token from the pins in_kind and in_data (20_memory.md R44): kind 3 is treated as ERR. -/
def Token.ofPins (kind : BitVec 2) (data : Byte) : Token :=
  if kind = 0#2 then .byte data else if kind = 1#2 then .stop else .err

/-- A host write to register n (10_state.md R34, 60_exceptions.md R168, 46_host.md R144, R150). A register takes the low
bits of a number wider than it: CMD eight (log 25), NODE_SEL those of a handle (log 22). -/
def registerWrite (n v : Nat) (s : State) : Fetched :=
  if n = 0 then
    match decode .cmd (msbBits 8 v) with
    | .ok (i, _) => .run i s
    | .error _ => .quiet (reservedCommand s)
  else if n = 15 then .quiet { s with nodeSel := handleOf s.par v }
  else .quiet s

/-- The sink changes what it does with out_err between two operations: high during a job is F8 with FUOP 0 (43_framer.md
R119, 60_exceptions.md R162), outside a job it is ignored (R166). A wait for tokens counts as between two operations
(log 9). -/
def sinkDrives (p : OutErr) (s : State) : State :=
  if p = .high ∧ s.phase.busy then raise .ioError 0#6 { s with outErr := p } else { s with outErr := p }

/-- One action of the host, or of the sequencer where the host lets it go on. The action is spent also where the
operation it runs must wait for tokens (43_framer.md R111; log 26). -/
def hostAction (e : HostEvent) (s : State) : Fetched :=
  match e with
  | .run g => sequence g s
  | .regWr n v => registerWrite n v s
  | .regRd n => .quiet { s with rdData := s.regRd n, freeCtr := s.freeCtr + 1 }
  | .token kind data => .quiet { s with inp := s.inp ++ [Token.ofPins kind data] }
  | .outErr p => .quiet (sinkDrives p s)
  | .ioErr => .quiet (if s.phase.busy then raise .ioError 0#6 s else s)
  | .rst => .quiet (hardReset s)
  | .rstLow => .quiet { s with rst := s.rst.released }
  | .issue c args =>
    match decode (.uop args.hdr) (msbBits 6 c.toNat) with
    | .ok (i, _) => .run i { s with args := args }
    | .error _ => .reject .unusedUopCode

/-- The actions that have no effect with the reset input as `p` says: while it is high and in the cycle after "AHC takes no
token, offers no token and accepts no command", and while it is high every register stands at its reset value
(70_reset_and_hazards.md R173; log 27). -/
def HostEvent.ignored (p : RstPin) : HostEvent → Bool
  | .run _ => p != .low
  | .regWr n _ => p == .high || p == .after && n != 15
  | .regRd _ => false
  | .token _ _ => p != .low
  | .outErr _ => false
  | .ioErr => p != .low
  | .rst => false
  | .rstLow => false
  | .issue _ _ => p != .low

/-- What the next step does: the host's oldest pending action, or, when none is pending, one driver micro-operation. -/
def fetch (s : State) : Fetched :=
  match s.sched with
  | [] => sequence .microop s
  | e :: r =>
    let t := { s with sched := r, rst := s.rst.clocked }
    if e.ignored s.rst then .quiet t else hostAction e t

/-! ### Placing an instruction where the next step runs it -/

/-- An input of exactly these bits, padded with zeros to whole bytes, and END. -/
def inputOf (bits : List Bool) : List Token :=
  (bytesOfBits ((bits.length + 7) / 8) (bits ++ List.replicate 7 false)).map .byte ++ [.stop]

/-- A stream element offered to the decoder in phase `ph`, to be run at grain `g`. -/
def placeElement (i : Instr) (ph : Phase) (g : Grain) (s : State) : State :=
  { s with inp := inputOf (encode i), inBitPos := 0, phase := ph, sched := .run g :: s.sched }

/-- A driver operation selected by its phase. -/
def placeDriver (ph : Phase) (s : State) : State := { s with phase := ph, sched := .run .microop :: s.sched }

/-- The state in which the next step runs `i` (log 17). -/
def placeInstr (i : Instr) (s : State) : State :=
  match i with
  | .hdr _ => placeElement i .dHdr .element s
  | .path _ => placeElement i .dWalk .element s
  | .raw _ => placeElement i .dLeaf .element s
  | .f0 => placeElement i .dFrame .element s
  | .eos => placeElement i .dFrame .element s
  | .pad _ => placeElement i .dDrain .element s
  | .recHit _ => placeElement i .dWalk .record s
  | .recNew _ _ => placeElement i .dWalk .record s
  | .encHdr => placeDriver .cHdr s
  | .encFetch => placeDriver .cFetch s
  | .encSymbol => placeDriver .cEmit s
  | .encUpdate => placeDriver .cUpdate s
  | .encFrame => placeDriver .cFrame s
  | .encEos => placeDriver .cEos s
  | .encFlush => placeDriver .cFlush s
  | .decHdr => placeDriver .dHdr s
  | .decWalk => placeDriver .dWalk s
  | .decLeaf => placeDriver .dLeaf s
  | .decUpdate => placeDriver .dUpdate s
  | .decFrame => placeDriver .dFrame s
  | .decDrain => placeDriver .dDrain s
  | i =>
    match cmdWord i with
    | some w => { s with sched := .regWr 0 w.toNat :: s.sched }
    | none => { s with sched := .issue (uopCode i) s.args :: s.sched }

end Sys2Proof.Machine
end

