-- ==== Sys2Proof/Machine/Step.lean ====
section
/-! DEFINITION. One step of AHC, and how the host's check places one instruction. -/

namespace Sys2Proof.Machine

/-- One step: the instruction fetched, run; or a host action that is no instruction. -/
def step (s : State) : Host.Outcome State Fault Refusal :=
  match fetch s with
  | .run i s' => exec i s'
  | .quiet s' => .next s'
  | .reject r => .refused r

/-- The state in which the next step runs the instruction of a table word (log 17); a word that is none is written to
CMD. -/
def State.withFetchWord (s : State) (nbits w : Nat) : State :=
  match decodeTableWord nbits w with
  | some i => placeInstr i { s with rst := .low }
  | none => { s with sched := .regWr 0 w :: s.sched, rst := .low }

end Sys2Proof.Machine
end

