-- ==== Sys2Proof/Safety.lean ====
section
/-! DEFINITION. What the claims about AHC speak of: the bits written so far, paths and walks, the tree of 41_node.md
R86 with the facts of 42_tree.md R104 that hold between records, and the invariant of a job. -/

namespace Sys2Proof.Machine

/-! ### The output as bits -/

/-- Every bit given to the output framer so far, first bit first: those in OUT, then the OCNT bits in OACC (10_state.md
R27). -/
def State.written (s : State) : List Bool := bytesBits s.out ++ (byteBits s.oacc).take s.ocnt.val

/-- "the bits of OACC below bit 8 - OCNT are 0" (43_framer.md R116). -/
abbrev FramerOk (s : State) : Prop := s.oacc.toNat % 2 ^ (8 - s.ocnt.val) = 0

/-! ### Paths and walks -/

/-- `PathTo ns h bs`: the branch decisions from the root to `h` are `bs`, 0 left, 1 right, the root's edge first (41_node.md
R89, 30_encoding.md R57). -/
inductive PathTo (ns : Store) : Handle → List Bool → Prop
  | root {h : Handle} {n : Node} : ns[h]? = some n → n.parent = none → PathTo ns h []
  | step {h p : Handle} {n pn : Node} {bs : List Bool} : ns[h]? = some n → n.parent = some p → ns[p]? = some pn →
      PathTo ns p bs → PathTo ns h (bs ++ [!decide (pn.left = some h)])

/-- `Ancestor ns x l`: some number of parent steps, at least one, from `x` reaches `l` (42_tree.md R100). -/
inductive Ancestor (ns : Store) : Handle → Handle → Prop
  | parent {x l : Handle} {n : Node} : ns[x]? = some n → n.parent = some l → Ancestor ns x l
  | step {x p l : Handle} {n : Node} : ns[x]? = some n → n.parent = some p → Ancestor ns p l → Ancestor ns x l

/-- The entry child links lead to from `h` along `bs` (30_encoding.md R62); NONE where a link is absent. -/
def follow (ns : Store) : Option Handle → List Bool → Option Handle
  | h, [] => h
  | h, b :: bs => follow ns ((h.bind (ns[·]?)).bind fun n => if b then n.right else n.left) bs

/-! ### The tree -/

/-- The shape invariant of 41_node.md R86 with the links of 10_state.md R17: one binary tree with this root. -/
structure TreeShape (ns : Store) (root : Option Handle) : Prop where
  root_live : ∃ (r : Handle) (n : Node), root = some r ∧ ns[r]? = some n ∧ n.parent = none
  only_root : ∀ (h : Handle) (n : Node), ns[h]? = some n → n.parent = none → root = some h
  parent_child : ∀ (h : Handle) (n : Node) (p : Handle), ns[h]? = some n → n.parent = some p →
    ∃ pn : Node, ns[p]? = some pn ∧ (pn.left = some h ∨ pn.right = some h)
  left_parent : ∀ (h : Handle) (n : Node) (c : Handle), ns[h]? = some n → n.left = some c → ∃ cn : Node, ns[c]? = some cn ∧ cn.parent = some h
  right_parent : ∀ (h : Handle) (n : Node) (c : Handle), ns[h]? = some n → n.right = some c → ∃ cn : Node, ns[c]? = some cn ∧ cn.parent = some h
  both_or_none : ∀ (h : Handle) (n : Node), ns[h]? = some n → (n.left = none ↔ n.right = none)
  sides_differ : ∀ (h : Handle) (n : Node) (c : Handle), ns[h]? = some n → n.left = some c → n.right ≠ some c
  reaches_root : ∀ h, h < ns.length → ∃ bs, PathTo ns h bs

/-- The tree of a job between records: the shape; the NYT is the one node of weight 0, a leaf without symbol (42_tree.md
R104 (a)); every other leaf holds a symbol of 1 to 15 bytes (10_state.md R20); MAP names leaves by the symbol they
hold (10_state.md R22). -/
structure TreeOk (ns : Store) (root nyt : Option Handle) (m : SymMap) : Prop where
  shape : TreeShape ns root
  nyt_leaf : ∃ (y : Handle) (n : Node), nyt = some y ∧ ns[y]? = some n ∧ n.weight = 0 ∧ n.isLeaf = true ∧ n.sym = none
  weight_pos : ∀ (h : Handle) (n : Node), ns[h]? = some n → nyt ≠ some h → 1 ≤ n.weight
  leaf_sym : ∀ (h : Handle) (n : Node), ns[h]? = some n → n.isLeaf = true → nyt ≠ some h → ∃ sym, n.sym = some sym
  sym_len : ∀ (h : Handle) (n : Node) (sym : Symbol), ns[h]? = some n → n.sym = some sym → 1 ≤ sym.length ∧ sym.length ≤ 15
  map_leaf : ∀ e ∈ m, ∃ n : Node, ns[e.2]? = some n ∧ n.isLeaf = true ∧ n.sym = some e.1

/-- The tree of a state is one. -/
abbrev State.treeOk (s : State) : Prop := TreeOk s.nodes s.root s.nyt s.map

/-! ### Swaps and updates -/

/-- The two handles exchanged. -/
def swapHandle (a b h : Handle) : Handle := if h = a then b else if h = b then a else h

/-- Entry `h` after the swap of `a` and `b`, whose entries are `na` and `nb`: the two exchange id and parent, and every
child link to one of them leads to the other. -/
def swappedNode (a b : Handle) (na nb : Node) (h : Handle) (n : Node) : Node :=
  { n with
    id := if h = a then nb.id else if h = b then na.id else n.id
    parent := if h = a then nb.parent else if h = b then na.parent else n.parent
    left := n.left.map (swapHandle a b)
    right := n.right.map (swapHandle a b) }

/-- What NODE.SWAP needs of its operands to move anything: neither is the root, and they are unrelated (R91, R92). -/
structure Swappable (ns : Store) (a b : Handle) (na nb : Node) : Prop where
  at_a : ns[a]? = some na
  at_b : ns[b]? = some nb
  ne : a ≠ b
  parent_a : na.parent.isSome
  parent_b : nb.parent.isSome
  not_above : ¬ Ancestor ns a b
  not_below : ¬ Ancestor ns b a

/-- `l` is the block leader of `x` (42_tree.md R99), under the leader rule of `par`. -/
def IsLeader (par : Params) (ns : Store) (x l : Handle) : Prop :=
  ∃ nx nl : Node, ns[x]? = some nx ∧ ns[l]? = some nl ∧ nl.weight = nx.weight ∧ nx.parent ≠ some l ∧
    match par.leaderRule with
    | .excludeThenMax =>
      ∀ (h : Handle) (n : Node), ns[h]? = some n → n.weight = nx.weight → nx.parent ≠ some h → n.id ≤ nl.id
    | .maxThenSkip =>
      (∀ (h : Handle) (n : Node), ns[h]? = some n → n.weight = nx.weight → n.id ≤ nl.id) ∨
        (l = x ∧ ∃ (p : Handle) (np : Node), nx.parent = some p ∧ ns[p]? = some np ∧ np.weight = nx.weight ∧
          ∀ (h : Handle) (n : Node), ns[h]? = some n → n.weight = nx.weight → n.id ≤ np.id)

/-- The store after the swap of step 3: nothing where the leader is `x` itself, else NODE.SWAP of the two (R101). -/
def SwapWithLeader (ns : Store) (x l : Handle) (ns1 : Store) : Prop :=
  (l = x ∧ ns1 = ns) ∨
    ∃ nx nl : Node, Swappable ns x l nx nl ∧ ∀ h : Handle, ns1[h]? = (ns[h]?).map (swappedNode x l nx nl h)

/-- One weight raised by 1 (R102). -/
def bump (x : Handle) (ns : Store) : Store := ns.modify x fun n => { n with weight := n.weight + 1 }

/-- The greatest weight, past which F7 is raised (R102). -/
def maxWeight : Nat := 2 ^ Config.weightWidth - 1

/-- How TREE.UPDATE ends: complete, or with F5 or F7 (60_exceptions.md R159, R161); each with the store it leaves. -/
inductive Ending
  | done (ns : Store)
  | swapRelated (ns : Store)
  | weightOvf (ns : Store)

/-- TREE.UPDATE as 42_tree.md R98 to R103 give it, one constructor for each way a pass can go. -/
inductive UpdateEnds (par : Params) : Store → Option Handle → Ending → Prop
  | absent {ns : Store} : UpdateEnds par ns none (.done ns)
  | atRoot {ns : Store} {x : Handle} {n : Node} : ns[x]? = some n → n.parent = none → n.weight ≠ maxWeight →
      UpdateEnds par ns (some x) (.done (bump x ns))
  | rootFull {ns : Store} {x : Handle} {n : Node} : ns[x]? = some n → n.parent = none → n.weight = maxWeight →
      UpdateEnds par ns (some x) (.weightOvf ns)
  | related {ns : Store} {x p l : Handle} {n : Node} : ns[x]? = some n → n.parent = some p → IsLeader par ns x l → l ≠ x →
      (Ancestor ns x l ∨ Ancestor ns l x) → UpdateEnds par ns (some x) (.swapRelated ns)
  | full {ns ns1 : Store} {x p l : Handle} {n : Node} : ns[x]? = some n → n.parent = some p → IsLeader par ns x l →
      SwapWithLeader ns x l ns1 → n.weight = maxWeight → UpdateEnds par ns (some x) (.weightOvf ns1)
  | pass {ns ns1 : Store} {x p l : Handle} {n n1 : Node} {e : Ending} : ns[x]? = some n → n.parent = some p →
      IsLeader par ns x l → SwapWithLeader ns x l ns1 → n.weight ≠ maxWeight → ns1[x]? = some n1 →
      UpdateEnds par (bump x ns1)
        (match par.updateChain with | .original => some p | .current => n1.parent) e →
      UpdateEnds par ns (some x) e

/-- The state an update of `s` leaves: where it completes, `fin` of the state with its store; where it stops, the fault
raised by operation `u` (60_exceptions.md R152, R154). -/
def Ending.after (u : BitVec 6) (s : State) (fin : State → State) : Ending → State
  | .done ns => fin { s with nodes := ns }
  | .swapRelated ns => raise .swapRelated u { s with nodes := ns }
  | .weightOvf ns => raise .weightOvf u { s with nodes := ns }

/-- The split of TREE.ADDSYM (R95): `N` gets the new NYT as left child, the new leaf as right child and weight 1; the
leaf takes the first free handle and the higher of the two new ids, the NYT the next of each; nothing else changes. -/
structure SplitOf (ns : Store) (N : Handle) (nextId : Int) (sym : Symbol) (ns1 : Store) : Prop where
  length : ns1.length = ns.length + 2
  leaf : ns1[ns.length]? = some { id := nextId - 1, weight := 1, sym := some sym, parent := some N, left := none, right := none }
  nyt : ns1[ns.length + 1]? = some { id := nextId - 2, weight := 0, sym := none, parent := some N, left := none, right := none }
  node : ∀ n : Node, ns[N]? = some n → ns1[N]? = some { n with left := some (ns.length + 1), right := some ns.length, weight := 1 }
  others : ∀ h : Handle, h ≠ N → h < ns.length → ns1[h]? = ns[h]?

/-- The entries an update of `x` visits: `x` and its ancestors (42_tree.md R103). -/
def OnChain (ns : Store) (x h : Handle) : Prop := h = x ∨ Ancestor ns x h

/-- What an update of a tree leaves of it: a tree again with the same root entry, symbols and leaves; every weight as it
was but those of the entries `up`, which are one more; ids exchanged only, and not those of the root or of an entry of
weight 0. -/
structure Rebuilt (ns ns' : Store) (root : Option Handle) (up : Handle → Prop) : Prop where
  shape : TreeShape ns' root
  length : ns'.length = ns.length
  sym : ∀ (h : Handle) (n n' : Node), ns[h]? = some n → ns'[h]? = some n' → n'.sym = n.sym
  leaf : ∀ (h : Handle) (n n' : Node), ns[h]? = some n → ns'[h]? = some n' → n'.isLeaf = n.isLeaf
  raised : ∀ (h : Handle) (n n' : Node), ns[h]? = some n → ns'[h]? = some n' → up h → n'.weight = n.weight + 1
  kept : ∀ (h : Handle) (n n' : Node), ns[h]? = some n → ns'[h]? = some n' → ¬ up h → n'.weight = n.weight
  ids : (ns'.map Node.id).Perm (ns.map Node.id)
  id_kept : ∀ (h : Handle) (n n' : Node), ns[h]? = some n → ns'[h]? = some n' → n.weight = 0 ∨ root = some h → n'.id = n.id

/-- The state after the split of NYT node `N` for `sym` into the store `ns1`, before the contained TREE.UPDATE (R95): the
counters, the map and NYT follow. -/
def afterSplit (s : State) (sym : Symbol) (ns1 : Store) : State :=
  { s with
    nodes := ns1
    nextId := s.nextId - 2
    map := mapInsert sym s.nodes.length s.map
    nyt := some (s.nodes.length + 1) }

/-- Two more entries fit into the store (R97). -/
def Roomy (s : State) : Prop := ∀ c : Nat, s.par.nodeCap = some c → s.nodes.length + 2 ≤ c

/-- No two entries have the same id (10_state.md R18). -/
def DistinctIds (ns : Store) : Prop := (ns.map Node.id).Nodup

/-- Sibling property: "if all nodes are ordered by id, their weights are non-decreasing" (R104 (b)). -/
def Sibling (ns : Store) : Prop :=
  ∀ (h g : Handle) (n m : Node), ns[h]? = some n → ns[g]? = some m → n.id < m.id → n.weight ≤ m.weight

/-! ### A job -/

/-- A whole input as the host sends it (20_memory.md R44): a BYTE token for every byte, then END; what follows END. -/
def sent (bs : List Byte) (rest : List Token) : List Token := bs.map Token.byte ++ Token.stop :: rest

/-- Some number of steps leads from `s` to `t`. -/
def Reaches (s t : State) : Prop := ∃ k : Nat, Host.Core.run Sys2Proof.core k s = .next t

/-- What a real host can do: everything but issuing a micro-operation by code (log 3). -/
def HostEvent.isHost : HostEvent → Bool
  | .run _ => true
  | .regWr _ _ => true
  | .regRd _ => true
  | .token _ _ => true
  | .outErr _ => true
  | .ioErr => true
  | .rst => true
  | .rstLow => true
  | .issue _ _ => false

abbrev State.hostOnly (s : State) : Prop := ∀ e ∈ s.sched, e.isHost = true

/-- The phases in which a job's tree exists: all busy phases but D_HDR (46_host.md R146, R147). -/
def Phase.hasTree : Phase → Bool
  | .idle => false
  | .dHdr => false
  | .done => false
  | .fault => false
  | _ => true

/-- What holds between two steps of AHC under a real host, with the chosen P_UPDATE_CHAIN. -/
structure JobInv (s : State) : Prop where
  host : s.hostOnly
  chain : s.par.updateChain = .original
  tree : s.phase.hasTree = true → s.treeOk
  sym_len : s.symBuf.length ≤ 15
  emit : s.phase = .cEmit → s.symBuf ≠ []
  update : s.phase = .cUpdate ∨ s.phase = .dUpdate →
    if s.found then ∃ h, s.cur = some h ∧ h < s.nodes.length ∧ s.nyt ≠ some h else s.symBuf ≠ []
  walk : s.phase = .dWalk → ∃ h, s.cur = some h ∧ h < s.nodes.length
  leaf : s.phase = .dLeaf → ∃ (h : Handle) (n : Node), s.cur = some h ∧ s.nodes[h]? = some n ∧ n.isLeaf = true

/-- The phases of a compress job (10_state.md R30). -/
def Phase.compressing : Phase → Bool
  | .cHdr => true
  | .cFetch => true
  | .cEmit => true
  | .cUpdate => true
  | .cFrame => true
  | .cEos => true
  | .cFlush => true
  | _ => false

/-- The numbers of a job between two steps. -/
structure JobFacts (s : State) : Prop where
  /-- SYMSIZE is 1 to 15 (10_state.md R29). -/
  size : s.phase.hasTree = true → s.symSize ≠ 0#4
  /-- "The live ids are exactly the integers from NEXT_ID to `2*256^SYMSIZE - 1`" (42_tree.md R104 (c)). -/
  ids : s.phase.hasTree = true →
    (s.nodes.map Node.id).Perm ((List.range s.nodes.length).map fun i : Nat => s.nextId + (i : Int)) ∧
      s.nextId + s.nodes.length = 2 * 256 ^ s.symSize.toNat
  /-- "the root has the greatest; the NYT has the least, NEXT_ID" (R104 (c)). -/
  ends : s.phase.hasTree = true → ∀ (h : Handle) (n : Node), s.nodes[h]? = some n →
    (s.root = some h → n.id = 2 * 256 ^ s.symSize.toNat - 1) ∧ (s.nyt = some h → n.id = s.nextId)
  /-- "The root's weight equals SYM_COUNT" (R104 (e)). -/
  count : s.phase.hasTree = true → ∀ (h : Handle) (n : Node), s.nodes[h]? = some n → s.root = some h → n.weight = s.symCount
  /-- SYM_COUNT is 0 before the first record (46_host.md R147). -/
  fresh : s.phase = .dHdr → s.symCount = 0
  /-- `OUT_BITPOS = 8 * length(OUT) + OCNT` in a compress job (43_framer.md R116). -/
  outPos : s.phase.compressing = true → s.outBitPos = 8 * s.out.length + s.ocnt.val
  /-- IN_BITPOS is a multiple of 8 in a compress job (20_memory.md R40). -/
  inPos : s.phase.compressing = true → s.inBitPos % 8 = 0
  /-- No END has left in a job that goes on or has ended in FAULT (F1 is no job's), one has in a job that ended in DONE
  (43_framer.md R118, 60_exceptions.md R154). -/
  closed : (s.phase.busy = true ∨ s.phase = .fault ∧ s.fcode ≠ .badCmd → s.outClosed = false) ∧
    (s.phase = .done → s.outClosed = true)

/-- A safe step: AHC goes on, whatever its own fault record says; no stop of the model. -/
abbrev SafeStep (s : State) : Prop := ∃ s', step s = .next s'

end Sys2Proof.Machine
end

