-- ==== Sys2Proof/Certificates/Slice0/Obligations.lean ====
section
/-! DEFINITION. The statements about AHC. Each docstring names the rules of spec/ it formalises. -/

open Sys2Proof Sys2Proof.Machine

/-! ### Reset and the registers -/

/-- 70_reset_and_hazards.md R174, every row but the pins of the token handshake and the hidden state, which the model
does not hold (log 21, INVENTORY). -/
def Obligations.ResetStateValues : Prop :=
  let s := State.reset
  s.phase = .idle ∧ s.cfgWord = 0 ∧ s.faultWord = 0 ∧ s.fpos = 0 ∧
    s.inBitPos = 0 ∧ s.outBitPos = 0 ∧ s.symCount = 0 ∧
    s.root = none ∧ s.nyt = none ∧ s.cur = none ∧ s.nodes.length = 0 ∧ s.nextId = 0 ∧ s.map = [] ∧
    s.oacc = 0#8 ∧ s.ocnt = 0 ∧ s.outClosed = false ∧ s.symBuf.length = 0 ∧ s.pathBuf.length = 0 ∧
    s.found = false ∧ s.more = false ∧ s.emptyRec = false ∧ s.nodeSel = 0 ∧
    s.statusWord = 0 ∧ s.pinBusy = false ∧ s.pinDone = false ∧ s.pinFault = false

/-- R173, R174: reset in any phase; and while the reset input is high, and in the cycle after, no token is taken, no
command accepted, no operation run. That the bytes already sent and the parameters stay is log 12's, that a host action
stands for a cycle log 27's. -/
def Obligations.HardwareResetInAnyPhase : Prop :=
  (∀ (s : State) (r : List HostEvent), s.sched = .rst :: r →
    ∃ t : State, step s = .next t ∧ t.phase = .idle ∧ t.cfgWord = 0 ∧ t.faultWord = 0 ∧ t.fpos = 0 ∧
      t.inBitPos = 0 ∧ t.outBitPos = 0 ∧ t.symCount = 0 ∧
      t.root = none ∧ t.nyt = none ∧ t.cur = none ∧ t.nodes.length = 0 ∧ t.nextId = 0 ∧ t.map = [] ∧
      t.oacc = 0#8 ∧ t.ocnt = 0 ∧ t.outClosed = false ∧ t.symBuf.length = 0 ∧ t.pathBuf.length = 0 ∧
      t.found = false ∧ t.more = false ∧ t.emptyRec = false ∧ t.nodeSel = 0 ∧ t.statusWord = 0 ∧
      t.par = s.par ∧ t.out = s.out ∧ t.outErr = s.outErr ∧ t.rst = .high ∧ t.sched = r) ∧
  ∀ (s : State) (e : HostEvent) (r : List HostEvent), s.sched = e :: r →
    (s.rst = .high → e = .rstLow → step s = .next { s with sched := r, rst := .after }) ∧
    (s.rst ≠ .low → (∃ v : Nat, e = .regWr 0 v) ∨ (∃ (k : BitVec 2) (v : Byte), e = .token k v) ∨
        (∃ g : Grain, e = .run g) ∨ e = .ioErr ∨ (∃ (c : BitVec 6) (a : UopArgs), e = .issue c a) ∨
        (s.rst = .high ∧ ∃ n v : Nat, e = .regWr n v) →
      step s = .next { s with sched := r, rst := if s.rst = .high then .high else .low })

/-- 10_state.md R31: the bits of STATUS, the pins, what it reads after reset; with the codes of PHASE of R30 written
out. -/
def Obligations.StatusWordBits : Prop :=
  (∀ s : State, s.statusWord < 2 ^ 12 ∧
    (s.statusWord.testBit 0 = true ↔ 1 ≤ s.phase.code ∧ s.phase.code ≤ 13) ∧
    (s.statusWord.testBit 1 = true ↔ s.phase = .done) ∧
    (s.statusWord.testBit 2 = true ↔ s.phase = .fault) ∧
    s.statusWord.testBit 3 = s.found ∧ s.statusWord.testBit 4 = s.more ∧ s.statusWord.testBit 5 = s.emptyRec ∧
    s.statusWord.testBit 6 = s.outClosed ∧ s.statusWord.testBit 7 = false ∧ s.statusWord / 256 = s.phase.code ∧
    s.pinBusy = s.statusWord.testBit 0 ∧ s.pinDone = s.statusWord.testBit 1 ∧ s.pinFault = s.statusWord.testBit 2) ∧
  State.reset.statusWord = 0 ∧
  Phase.idle.code = 0 ∧ Phase.cHdr.code = 1 ∧ Phase.cFetch.code = 2 ∧ Phase.cEmit.code = 3 ∧ Phase.cUpdate.code = 4 ∧
  Phase.cFrame.code = 5 ∧ Phase.cEos.code = 6 ∧ Phase.cFlush.code = 7 ∧ Phase.dHdr.code = 8 ∧ Phase.dWalk.code = 9 ∧
  Phase.dLeaf.code = 10 ∧ Phase.dUpdate.code = 11 ∧ Phase.dFrame.code = 12 ∧ Phase.dDrain.code = 13 ∧
  Phase.done.code = 14 ∧ Phase.fault.code = 15

/-- R34: the register numbers, that a number not listed reads 0, and that a read changes nothing but the value handed
back and the counter of free values (log 6, 19; the cycle after a reset passes with it, log 27). Registers 14, 21 and 22
read the bytes and lengths that are there, byte j in bits 8j+7 to 8j (R20); what lies above them is free. The codes of
FCODE are those of 60_exceptions.md R153. -/
def Obligations.RegisterReads : Prop :=
  (∀ (s : State) (n : Nat) (r : List HostEvent), s.sched = .regRd n :: r →
    step s = .next { s with
      sched := r, rdData := s.regRd n, freeCtr := s.freeCtr + 1, rst := if s.rst = .high then .high else .low }) ∧
  (∀ s : State, s.regRd 0 = .word 0 ∧
    s.regRd 1 = .word (s.symSize.toNat + if s.mode = .compress then 0 else 16) ∧
    s.regRd 2 = .word s.statusWord ∧ s.regRd 3 = .word (s.fcode.code + 16 * s.fuop.toNat) ∧
    s.regRd 4 = .word s.fpos ∧ s.regRd 5 = .word s.inBitPos ∧ s.regRd 6 = .word s.outBitPos ∧
    s.regRd 7 = .word s.symCount ∧ s.regRd 8 = .word s.nodes.length ∧ s.regRd 9 = .signed s.nextId ∧
    s.regRd 10 = .handle s.root ∧ s.regRd 11 = .handle s.nyt ∧ s.regRd 12 = .handle s.cur ∧
    s.regRd 13 = .word s.symBuf.length ∧ s.regRd 15 = .word s.nodeSel ∧
    (∃ v : Nat, s.regRd 14 = .word v ∧ (s.symBuf.length ≤ 15 → v < 2 ^ 120) ∧
      ∀ (j i : Nat) (b : Byte), s.symBuf[j]? = some b → i < 8 → v.testBit (8 * j + i) = b.getLsbD i) ∧
    ∀ n : Nat, 23 ≤ n → s.regRd n = .word 0) ∧
  (∀ (s : State) (e : Node), s.nodes[s.nodeSel]? = some e →
    s.regRd 16 = .signed e.id ∧ s.regRd 17 = .word e.weight ∧ s.regRd 18 = .handle e.parent ∧
    s.regRd 19 = .handle e.left ∧ s.regRd 20 = .handle e.right ∧
    (∀ sym : Symbol, e.sym = some sym → s.regRd 21 = .word (16 + sym.length) ∧
      ∃ v : Nat, s.regRd 22 = .word v ∧ (sym.length ≤ 15 → v < 2 ^ 120) ∧
        ∀ (j i : Nat) (b : Byte), sym[j]? = some b → i < 8 → v.testBit (8 * j + i) = b.getLsbD i) ∧
    (e.sym = none → ∃ v : Nat, s.regRd 21 = .word v ∧ v < 16)) ∧
  FCode.none.code = 0 ∧ FCode.badCmd.code = 1 ∧ FCode.badHeader.code = 2 ∧ FCode.truncated.code = 3 ∧
  FCode.malformedEmpty.code = 4 ∧ FCode.swapRelated.code = 5 ∧ FCode.nodeCap.code = 6 ∧ FCode.weightOvf.code = 7 ∧
  FCode.ioError.code = 8

/-- R34, 60_exceptions.md R168: the host can write NODE_SEL, and a write to any register but it and CMD is ignored.
NODE_SEL holds a handle, of the width of R16, the k with `2^(k-1) < NODE_CAP <= 2^k`; that a number wider than a register
has its low bits taken is log 22 and, for CMD, log 25. A write while the reset input is high: see
HardwareResetInAnyPhase. -/
def Obligations.RegisterWrites : Prop :=
  ∀ (s : State) (n v : Nat) (r : List HostEvent), s.sched = .regWr n v :: r → s.rst ≠ .high →
    (n = 0 → step s = step { s with sched := .regWr 0 (v % 256) :: r }) ∧
    (n ≠ 0 → n ≠ 15 → step s = .next { s with sched := r, rst := .low }) ∧
    (n = 15 → s.par.nodeCap = none → step s = .next { s with sched := r, nodeSel := v, rst := .low }) ∧
    ∀ c k : Nat, n = 15 → s.par.nodeCap = some c → c ≤ 2 ^ k → k = 0 ∨ 2 ^ (k - 1) < c →
      step s = .next { s with sched := r, nodeSel := v % 2 ^ k, rst := .low }

/-! ### Steps -/

/-- 30_encoding.md R69, 10_state.md R30, 46_host.md R144, 60_exceptions.md R172: what a step runs; and 20_memory.md R44:
what the host puts on the input port, and on out_err where no fault follows (see SinkErrorFaults). A waiting machine
steps to itself. The action list, the grains, the action `issue` and the pin are log 1, 2, 3 and 9. For what a pending
action does while the reset input is not low (log 27) see HardwareResetInAnyPhase. -/
def Obligations.StepRunsTheInstruction : Prop :=
  (driverOp .cHdr = some .encHdr ∧ driverOp .cFetch = some .encFetch ∧ driverOp .cEmit = some .encSymbol ∧
    driverOp .cUpdate = some .encUpdate ∧ driverOp .cFrame = some .encFrame ∧ driverOp .cEos = some .encEos ∧
    driverOp .cFlush = some .encFlush ∧ driverOp .dHdr = some .decHdr ∧ driverOp .dWalk = some .decWalk ∧
    driverOp .dLeaf = some .decLeaf ∧ driverOp .dUpdate = some .decUpdate ∧ driverOp .dFrame = some .decFrame ∧
    driverOp .dDrain = some .decDrain ∧ driverOp .idle = none ∧ driverOp .done = none ∧ driverOp .fault = none) ∧
  (∀ s : State, itemDue .microop s = none ∧ (s.outErr ≠ .low → ∀ g : Grain, itemDue g s = none) ∧
    (s.outErr = .low → itemDue .element s = elementDue s ∧ itemDue .record s = recordDue s)) ∧
  ∀ (s : State) (r : List HostEvent) (i : Instr) (rest : List Bool),
    (s.sched = [] → driverOp s.phase = some i → step s = exec i s) ∧
    (s.sched = [] → driverOp s.phase = none → step s = .next s) ∧
    (s.rst = .low →
      (s.sched = .run .microop :: r → driverOp s.phase = some i → step s = exec i { s with sched := r }) ∧
      (∀ g : Grain, s.sched = .run g :: r → itemDue g { s with sched := r } = some i →
        step s = exec i { s with sched := r }) ∧
      (∀ g : Grain, s.sched = .run g :: r → itemDue g { s with sched := r } = none → driverOp s.phase = some i →
        step s = exec i { s with sched := r }) ∧
      (∀ g : Grain, s.sched = .run g :: r → itemDue g { s with sched := r } = none → driverOp s.phase = none →
        step s = .next { s with sched := r }) ∧
      (∀ v : Nat, s.sched = .regWr 0 v :: r → decode .cmd (msbBits 8 v) = .ok (i, rest) →
        step s = exec i { s with sched := r }) ∧
      (∀ (c : BitVec 6) (a : UopArgs), s.sched = .issue c a :: r → decode (.uop a.hdr) (msbBits 6 c.toNat) = .ok (i, rest) →
        step s = exec i { s with sched := r, args := a }) ∧
      (∀ (kind : BitVec 2) (v : Byte), s.sched = .token kind v :: r → step s = .next
        { s with sched := r, inp := s.inp ++ [if kind = 0#2 then .byte v else if kind = 1#2 then .stop else .err] }) ∧
      (∀ p : OutErr, s.sched = .outErr p :: r → p ≠ .high ∨ driverOp s.phase = none →
        step s = .next { s with sched := r, outErr := p }))

/-- 30_encoding.md R55 to R62: the element, or record, that is due. In a decompress job it is the one the next unread bits
spell, cut where the tree and the end of the stream say; in a compress job the one the compressor writes; in the other
phases none. (Elements as instructions: log 15.) -/
def Obligations.ElementDueIsSpelledByTheStream : Prop :=
  (∀ (s : State) (i : Instr), s.phase.compressing = false → elementDue s = some i ∨ recordDue s = some i →
    i.wf = true ∧ ∃ rest : List Bool, s.unread = encode i ++ rest) ∧
  (∀ (s : State) (v : BitVec 4) (rest : List Bool), s.phase = .dHdr → v ≠ 0#4 → s.unread = msbBits 4 v.toNat ++ rest →
    elementDue s = some (.hdr v)) ∧
  (∀ (s : State) (b : Bool) (rest : List Bool), s.phase = .dFrame → s.unread = b :: rest →
    elementDue s = some (if b then .eos else .f0)) ∧
  (∀ (s : State) (p rest : List Bool) (h : Handle) (n : Node), s.phase = .dWalk → s.unread = p ++ rest →
    s.inBitPos ≤ 8 * s.inBytes.length → follow s.nodes s.cur p = some h → s.nodes[h]? = some n → n.isLeaf = true →
    (∀ (q : List Bool) (b : Bool) (q' : List Bool), p = q ++ b :: q' →
      ∃ (g : Handle) (m : Node), follow s.nodes s.cur q = some g ∧ s.nodes[g]? = some m ∧ m.isLeaf = false) →
    elementDue s = some (.path p) ∧
    (s.cur ≠ s.root → recordDue s = none) ∧
    (s.cur = s.root → n.weight ≠ 0 → p ≠ [] → recordDue s = some (.recHit p)) ∧
    ∀ (bs vs : List Byte) (ts : List Token) (rest' : List Bool), s.cur = s.root → n.weight = 0 → s.inp = sent bs ts →
      vs ≠ [] → vs.length = min s.symSize.toNat ((s.inRem - p.length + 8 - s.par.rawMinBits.toNat) / 8) →
      s.unread = p ++ bytesBits vs ++ rest' → recordDue s = some (.recNew p vs)) ∧
  (∀ (s : State) (bs vs : List Byte) (ts : List Token) (rest : List Bool) (h : Handle) (n : Node), s.phase = .dLeaf →
    s.inp = sent bs ts → s.cur = some h → s.nodes[h]? = some n → n.weight = 0 → vs ≠ [] →
    vs.length = min s.symSize.toNat ((s.inRem + 8 - s.par.rawMinBits.toNat) / 8) →
    s.unread = bytesBits vs ++ rest → elementDue s = some (.raw vs)) ∧
  ∀ s : State, (s.phase ≠ .dWalk → recordDue s = elementDue s) ∧
    (s.phase = .cHdr → elementDue s = some (.hdr s.symSize)) ∧
    (∀ (h : Handle) (p : List Bool), s.phase = .cEmit → Memory.wf s.nodes s.map → (s.symBuf, h) ∈ s.map →
      PathTo s.nodes h p → elementDue s = some (.recHit p)) ∧
    (∀ (h : Handle) (p : List Bool), s.phase = .cEmit → (∀ g : Handle, (s.symBuf, g) ∉ s.map) → s.nyt = some h →
      PathTo s.nodes h p → elementDue s = some (.recNew p s.symBuf)) ∧
    (s.phase = .cFrame → elementDue s = if s.more then some .f0 else none) ∧
    (s.phase = .cEos → elementDue s = some .eos) ∧
    (s.phase = .cFlush → elementDue s = some (.pad (List.replicate ((8 - s.ocnt.val) % 8) s.par.padBit))) ∧
    (s.phase = .cFetch ∨ s.phase = .cUpdate ∨ s.phase = .dUpdate ∨ driverOp s.phase = none → elementDue s = none)

/-! ### Encodings -/

/-- 30_encoding.md R54 to R61, R67, R70: every well-formed instruction decodes from its encoding, whatever follows; and
every operation and command from its code of R70, COMPRESS with the size the port gives it (log 3). -/
def Obligations.DecodeOfEncode : Prop :=
  (∀ (i : Instr) (rest : List Bool), i.wf = true → decode i.format (encode i ++ rest) = .ok (i, rest)) ∧
  ∀ (size : BitVec 4) (i : Instr) (rest : List Bool),
    i.format = .uop 0#4 ∨ i = .cmdNop ∨ i = .cmdCompress size ∨ i = .cmdDecompress ∨ i = .cmdAbort →
    decode (.uop size) (msbBits 6 (uopCode i).toNat ++ rest) = .ok (i, rest)

/-- What decodes is well formed, and its encoding, or its code of R70, is the bits it was read from: no two words of one
encoding mean one instruction. That CMD.COMPRESS has its size from the port where it is read from its code is log 3. -/
def Obligations.EncodeOfDecode : Prop :=
  ∀ (f : Format) (bits rest : List Bool) (i : Instr), decode f bits = .ok (i, rest) →
    i.wf = true ∧
    ((∀ size : BitVec 4, f ≠ .uop size) → i.format = f ∧ encode i ++ rest = bits) ∧
    ∀ size : BitVec 4, f = .uop size → msbBits 6 (uopCode i).toNat ++ rest = bits ∧
      (i.format = .uop 0#4 ∨ i = .cmdNop ∨ i = .cmdCompress size ∨ i = .cmdDecompress ∨ i = .cmdAbort)

/-- Words written out bit by bit from R55 to R60, R67 and R70. R70 gives the code of CMD.COMPRESS no argument: that the
size, 5 in the clause of that code, is taken from the operand latch is the model's choice (log 3). -/
def Obligations.WrittenWordsDecode : Prop :=
  decode .cmd [false, false, false, true, false, false, true, true] = .ok (.cmdCompress 3#4, []) ∧
  decode .cmd [true, true, true, true, false, false, false, false] = .ok (.cmdAbort, []) ∧
  decode (.uop 0#4) [false, false, true, false, true, true] = .ok (.nodeSwap, []) ∧
  decode (.uop 0#4) [false, true, true, true, false, true] = .ok (.bitWrHdr, []) ∧
  decode (.uop 0#4) [true, false, true, false, true, false] = .ok (.decLeaf, []) ∧
  decode (.uop 5#4) [true, true, false, false, false, true] = .ok (.cmdCompress 5#4, []) ∧
  decode (.uop 0#4) [true, true, false, false, true, true] = .ok (.cmdAbort, []) ∧
  decode (.stream .hdr) [false, false, true, true, true] = .ok (.hdr 3#4, [true]) ∧
  decode (.stream .frame) [true, false] = .ok (.eos, [false]) ∧
  decode (.stream (.recNew 2 1)) [true, false, false, true, true, false, false, false, false, true, true] =
    .ok (.recNew [true, false] [0x61#8], [true])

/-- R67, R68, R70: exactly the words of the tables decode. -/
def Obligations.OnlyTableWordsDecode : Prop :=
  (∀ w : BitVec 8, (∃ i : Instr, decode .cmd (byteBits w) = .ok (i, [])) ↔
    (w = 0x00#8 ∨ (∃ s : BitVec 4, w = 0x1#4 ++ s) ∨ w = 0x20#8 ∨ w = 0xf0#8)) ∧
  (∀ (size : BitVec 4) (c : BitVec 6), (∃ i : Instr, decode (.uop size) (msbBits 6 c.toNat) = .ok (i, [])) ↔
    (c.extractLsb' 3 3 = 0b000#3 ∧ 1 ≤ (c.extractLsb' 0 3).toNat ∧ (c.extractLsb' 0 3).toNat ≤ 2) ∨
    (c.extractLsb' 3 3 = 0b001#3 ∧ (c.extractLsb' 0 3).toNat ≤ 3) ∨
    (c.extractLsb' 3 3 = 0b010#3 ∧ (c.extractLsb' 0 3).toNat ≤ 5) ∨
    (c.extractLsb' 3 3 = 0b011#3 ∧ (c.extractLsb' 0 3).toNat ≤ 6) ∨
    (c.extractLsb' 3 3 = 0b100#3 ∧ (c.extractLsb' 0 3).toNat ≤ 6) ∨
    (c.extractLsb' 3 3 = 0b101#3 ∧ (c.extractLsb' 0 3).toNat ≤ 5) ∨
    (c.extractLsb' 3 3 = 0b110#3 ∧ (c.extractLsb' 0 3).toNat ≤ 3))

/-! ### Commands -/

/-- 46_host.md R148, R150 and the dropped cells of the table of R145. While the reset input is not low no word is accepted
(70_reset_and_hazards.md R173): see HardwareResetInAnyPhase. -/
def Obligations.CommandsDroppedOrRefused : Prop :=
  (∀ s : State, exec .cmdNop s = .next s) ∧
  ∀ (s : State) (r : List HostEvent), s.rst = .low →
    (s.sched = .regWr 0 0x00 :: r → step s = .next { s with sched := r }) ∧
    (∀ size : BitVec 4, s.sched = .regWr 0 (0x10 + size.toNat) :: r → s.phase ≠ .idle → s.phase ≠ .done →
      step s = .next { s with sched := r }) ∧
    (s.sched = .regWr 0 0x20 :: r → s.phase ≠ .idle → s.phase ≠ .done → step s = .next { s with sched := r }) ∧
    (∀ w : BitVec 8, (¬ ∃ i : Instr, decode .cmd (byteBits w) = .ok (i, [])) → s.sched = .regWr 0 w.toNat :: r →
      step s = .next
        (if s.phase = .idle ∨ s.phase = .done
          then { s with sched := r, fcode := .badCmd, fuop := 0#6, fpos := s.inBitPos, phase := .fault }
          else { s with sched := r }))

/-- R146: the whole state a compress job starts from. -/
def Obligations.CompressStartsJob : Prop :=
  ∀ (s : State) (size : BitVec 4), s.phase = .idle ∨ s.phase = .done →
    exec (.cmdCompress size) s = .next
      (let n : BitVec 4 := if size = 0#4 then 1#4 else size
       let i : Int := 2 * 256 ^ n.toNat - 1
       { s with
        symSize := n, mode := .compress, fcode := .none, fuop := 0#6, fpos := 0
        inBitPos := 0, outBitPos := 0, symCount := 0, oacc := 0#8, ocnt := 0, out := [], outClosed := false
        symBuf := [], found := false, more := false, emptyRec := false, pathBuf := [], cur := none
        nodes := [{ id := i, weight := 0, sym := none, parent := none, left := none, right := none }]
        map := [], nextId := i, root := some 0, nyt := some 0, phase := .cHdr })

/-- R147: the whole state a decompress job starts from. -/
def Obligations.DecompressStartsJob : Prop :=
  ∀ s : State, s.phase = .idle ∨ s.phase = .done →
    exec .cmdDecompress s = .next
      { s with
        symSize := 0#4, mode := .decompress, fcode := .none, fuop := 0#6, fpos := 0
        inBitPos := 0, outBitPos := 0, symCount := 0, oacc := 0#8, ocnt := 0, out := [], outClosed := false
        symBuf := [], found := false, more := false, emptyRec := false, pathBuf := [], cur := none
        nodes := [], map := [], nextId := 0, root := none, nyt := none, phase := .dHdr }

/-- R149, in every phase; what becomes of the tokens already offered is log 10's, and left open here but where no job
is aborted. -/
def Obligations.AbortClears : Prop :=
  ∀ s : State, ∃ ts : List Token,
    exec .cmdAbort s = .next
      { s with
        phase := .idle, fcode := .none, fuop := 0#6, fpos := 0, oacc := 0#8, ocnt := 0
        found := false, more := false, emptyRec := false, symBuf := [], pathBuf := [], cur := none, inp := ts } ∧
    (s.phase = .idle ∨ s.phase = .done → ts = s.inp)

/-! ### SYM -/

/-- 40_symbol.md R80: as many bytes as SYMSIZE and the input allow, byte 0 first; MORE; F8 where the loop or MORE
needs the token that is ERR, with the bytes read before it in place (60_exceptions.md R154). When ERR is noticed is log
8; where the token needed has not come nothing happens yet (43_framer.md R111, log 7). -/
def Obligations.GatherReadsSymbol : Prop :=
  ∀ (s : State) (bs : List Byte) (rest : List Token), s.outErr = .low → s.inp = bs.map .byte ++ rest →
    ((∃ ts : List Token, rest = .stop :: ts) ∨ s.inBitPos + 8 * s.symSize.toNat + 8 ≤ 8 * bs.length →
      ∃ vs : List Byte, vs.length = min s.symSize.toNat ((8 * bs.length - s.inBitPos) / 8) ∧
        bytesBits vs = ((bytesBits bs).drop s.inBitPos).take (8 * vs.length) ∧
        exec .symGather s = .next { s with
          symBuf := vs
          inBitPos := s.inBitPos + 8 * vs.length
          more := decide (8 ≤ 8 * bs.length - (s.inBitPos + 8 * vs.length)) }) ∧
    (8 * bs.length < s.inBitPos + 8 * s.symSize.toNat + 8 →
      (rest = [] → exec .symGather s = .next s) ∧
      ∀ ts : List Token, rest = .err :: ts → ∃ vs : List Byte, vs.length = (8 * bs.length - s.inBitPos) / 8 ∧
        bytesBits vs = ((bytesBits bs).drop s.inBitPos).take (8 * vs.length) ∧
        exec .symGather s = .next (raise .ioError 0#6 { s with
          inBitPos := s.inBitPos + 8 * vs.length
          symBuf := if vs.length = s.symSize.toNat then vs else (vs ++ s.symBuf.drop vs.length).take s.symBuf.length }))

/-- R81; F8 where `out_err` is high (log 9). -/
def Obligations.ScatterAppendsSymbol : Prop :=
  ∀ s : State,
    (s.outErr = .low → exec .symScatter s = .next
      { s with out := s.out ++ s.symBuf, outBitPos := s.outBitPos + 8 * s.symBuf.length }) ∧
    (s.outErr = .high → exec .symScatter s = .next (raise .ioError 0#6 s))

/-! ### NODE -/

/-- 41_node.md R87, R88: the two tests, nothing else changed; and `isNYT` is the NYT register's in a job's tree.
Operand and result stand in latches (log 3). -/
def Obligations.NodeTests : Prop :=
  ∀ (s : State) (h : Handle) (n : Node), s.args.a = some h → s.nodes[h]? = some n →
    exec .nodeIsLeaf s = .next { s with res := .bit (decide (n.left = none ∧ n.right = none)) } ∧
    exec .nodeIsNyt s = .next { s with res := .bit (decide (n.weight = 0)) } ∧
    (s.treeOk → (n.weight = 0 ↔ s.nyt = some h))

/-- R89, 30_encoding.md R57: the branch decisions from the root; every entry of a tree has them. The operand stands
in a latch (log 3). -/
def Obligations.PathFromRoot : Prop :=
  (∀ (s : State) (h : Handle) (p : List Bool), s.args.a = some h → PathTo s.nodes h p →
    exec .nodePath s = .next { s with pathBuf := p }) ∧
  ∀ (s : State) (h : Handle), TreeShape s.nodes s.root → h < s.nodes.length → ∃ p : List Bool, PathTo s.nodes h p

/-- R90: two unrelated nodes, neither the root, exchange place and id; every entry afterwards. Operands stand in
latches (log 3). -/
def Obligations.SwapExchangesPlaces : Prop :=
  ∀ (s : State) (a b : Handle) (na nb : Node), TreeShape s.nodes s.root → s.args.a = some a → s.args.b = some b →
    Swappable s.nodes a b na nb →
    ∃ ns : Store, exec .nodeSwap s = .next { s with nodes := ns } ∧
      ∀ h : Handle, ns[h]? = (s.nodes[h]?).map (swappedNode a b na nb h)

/-- R91: equal operands, or the root among them. Operands stand in latches (log 3). -/
def Obligations.SwapWithRootDoesNothing : Prop :=
  ∀ (s : State) (a b : Handle) (na nb : Node), s.args.a = some a → s.args.b = some b →
    s.nodes[a]? = some na → s.nodes[b]? = some nb → a = b ∨ na.parent = none ∨ nb.parent = none →
    exec .nodeSwap s = .next s

/-- R92: related operands, neither the root, have no meaning. The refusal is log 14. -/
def Obligations.SwapOfRelatedRefused : Prop :=
  ∀ (s : State) (a b : Handle) (na nb : Node), TreeShape s.nodes s.root → s.args.a = some a → s.args.b = some b →
    s.nodes[a]? = some na → s.nodes[b]? = some nb → na.parent ≠ none → nb.parent ≠ none → a ≠ b →
    Ancestor s.nodes a b ∨ Ancestor s.nodes b a →
    exec .nodeSwap s = .refused .swapOfRelatedNodes

/-- R86: a tree stays one under NODE.SWAP. -/
def Obligations.SwapKeepsTree : Prop :=
  ∀ s t : State, TreeShape s.nodes s.root → exec .nodeSwap s = .next t →
    TreeShape t.nodes t.root ∧ (t.nodes.map Node.id).Perm (s.nodes.map Node.id)

/-! ### TREE -/

/-- 42_tree.md R93. -/
def Obligations.NewTreeState : Prop :=
  ∀ s : State, exec .treeNew s = .next
    (let i : Int := 2 * 256 ^ s.symSize.toNat - 1
     { s with
      nodes := [{ id := i, weight := 0, sym := none, parent := none, left := none, right := none }]
      map := [], nextId := i, root := some 0, nyt := some 0 })

/-- R94, R96. The result stands in a latch (log 3). -/
def Obligations.LookupAndCurrentNyt : Prop :=
  (∀ (s : State) (h : Handle), Memory.wf s.nodes s.map → (s.symBuf, h) ∈ s.map →
    exec .treeLookup s = .next { s with res := .handle (some h) }) ∧
  (∀ s : State, (∀ h : Handle, (s.symBuf, h) ∉ s.map) → exec .treeLookup s = .next { s with res := .handle none }) ∧
  ∀ s : State, exec .treeCurNyt s = .next { s with res := .handle s.nyt }

/-- R99, under either leader rule; and that the leader is unique. The root as operand is log 20. -/
def Obligations.LeaderIsTheGreatest : Prop :=
  (∀ (s : State) (x : Handle) (n : Node), s.args.a = some x → s.nodes[x]? = some n → n.parent ≠ some x →
    ∃ l : Handle, IsLeader s.par s.nodes x l ∧ exec .treeLeader s = .next { s with res := .handle (some l) }) ∧
  ∀ (s : State) (x l l' : Handle), DistinctIds s.nodes → IsLeader s.par s.nodes x l → IsLeader s.par s.nodes x l' → l = l'

/-- R98, R100 to R103: TREE.UPDATE goes as the rules say, under both continuations and both leader rules; with the
chosen continuation it always ends; and where ids are distinct it ends in whatever way the rules give. The operand
stands in a latch (log 3). -/
def Obligations.UpdateFollowsTheRules : Prop :=
  (∀ s t : State, TreeShape s.nodes s.root → (∀ x : Handle, s.args.a = some x → x < s.nodes.length) →
    exec .treeUpdate s = .next t → ∃ e : Ending, UpdateEnds s.par s.nodes s.args.a e ∧ t = e.after 0#6 s id) ∧
  (∀ s : State, TreeShape s.nodes s.root → (∀ x : Handle, s.args.a = some x → x < s.nodes.length) →
    s.par.updateChain = .original → ∃ t : State, exec .treeUpdate s = .next t) ∧
  ∀ (s : State) (e : Ending), TreeShape s.nodes s.root → (∀ x : Handle, s.args.a = some x → x < s.nodes.length) →
    s.par.updateChain = .original → DistinctIds s.nodes → UpdateEnds s.par s.nodes s.args.a e →
    exec .treeUpdate s = .next (e.after 0#6 s id)

/-- R103: a complete TREE.UPDATE raises the operand and its ancestors as they stood when it began by 1 each, and no
other weight; one that faults, some of them (60_exceptions.md R159). -/
def Obligations.UpdateRaisesTheChain : Prop :=
  ∀ (s t : State) (x : Handle), s.treeOk → s.par.updateChain = .original → s.args.a = some x →
    x < s.nodes.length → s.nyt ≠ some x → exec .treeUpdate s = .next t →
    (t = { s with nodes := t.nodes } ∧ Rebuilt s.nodes t.nodes s.root (OnChain s.nodes x)) ∨
    ∃ (c : FCode) (up : Handle → Prop), (c = .swapRelated ∨ c = .weightOvf) ∧
      t = raise c 0#6 { s with nodes := t.nodes } ∧ Rebuilt s.nodes t.nodes s.root up ∧
      ∀ h : Handle, up h → OnChain s.nodes x h

/-- R95, R97: TREE.ADDSYM splits the NYT and then updates from its parent; and however that ends, the map gives the symbol
the new leaf and every other key what it gave before (10_state.md R22, 45_decompress.md R141). -/
def Obligations.AddSymbolSplitsAndUpdates : Prop :=
  (∀ (s : State) (N : Handle) (n : Node), TreeShape s.nodes s.root → s.par.updateChain = .original →
    s.nyt = some N → s.nodes[N]? = some n → n.isLeaf = true → s.symBuf ≠ [] → Roomy s →
    ∃ (ns1 : Store) (e : Ending), SplitOf s.nodes N s.nextId s.symBuf ns1 ∧ UpdateEnds s.par ns1 n.parent e ∧
      exec .treeAddSym s = .next (e.after 0#6 (afterSplit s s.symBuf ns1) id)) ∧
  (∀ (s : State) (N : Handle) (n : Node) (ns1 ns2 : Store), TreeShape s.nodes s.root → s.par.updateChain = .original →
    DistinctIds s.nodes → (∀ m ∈ s.nodes, s.nextId ≤ m.id) →
    s.nyt = some N → s.nodes[N]? = some n → n.isLeaf = true → s.symBuf ≠ [] → Roomy s →
    SplitOf s.nodes N s.nextId s.symBuf ns1 → UpdateEnds s.par ns1 n.parent (.done ns2) →
    exec .treeAddSym s = .next { afterSplit s s.symBuf ns1 with nodes := ns2 }) ∧
  (∀ s : State, ¬ Roomy s → exec .treeAddSym s = .next (raise .nodeCap 0#6 s)) ∧
  ∀ s t : State, Roomy s → exec .treeAddSym s = .next t →
    t.map.lookup s.symBuf = some s.nodes.length ∧
    (∀ sym : Symbol, sym ≠ s.symBuf → t.map.lookup sym = s.map.lookup sym) ∧
    ∃ n : Node, t.nodes[s.nodes.length]? = some n ∧ n.sym = some s.symBuf

/-- R104 (b): the sibling property holds after every complete TREE.UPDATE and TREE.ADDSYM, and so between all steps of a
job, with the parent excluded from the leader search (P_LEADER_RULE as chosen) and the chosen continuation. -/
def Obligations.UpdateKeepsSiblingProperty : Prop :=
  (∀ (s t : State) (r : Handle) (nr : Node), s.par.updateChain = .original → s.par.leaderRule = .excludeThenMax →
    TreeShape s.nodes s.root → DistinctIds s.nodes → Sibling s.nodes → s.root = some r → s.nodes[r]? = some nr →
    (∀ n ∈ s.nodes, n.id ≤ nr.id) → s.phase ≠ .fault →
    ((∀ x : Handle, s.args.a = some x → x < s.nodes.length) → exec .treeUpdate s = .next t → t.phase ≠ .fault →
      Sibling t.nodes) ∧
    (s.treeOk → (∀ n ∈ s.nodes, s.nextId ≤ n.id) → exec .treeAddSym s = .next t → t.phase ≠ .fault →
      Sibling t.nodes)) ∧
  ∀ s t : State, JobInv s → JobFacts s → s.par.leaderRule = .excludeThenMax →
    (s.phase.hasTree = true → Sibling s.nodes) → step s = .next t → t.phase.hasTree = true → Sibling t.nodes

/-! ### BIT -/

/-- 43_framer.md R107 to R111: the next bits of the stream, most significant first; where too few are left EXHAUSTED with
nothing consumed, F8 where the token needed is ERR, and nothing yet where it has not come. When ERR is noticed is log
8, the wait log 7. -/
def Obligations.BitReads : Prop :=
  ∀ (s : State) (bs : List Byte) (rest : List Token), s.outErr = .low → s.inp = bs.map .byte ++ rest →
    (s.inBitPos + 1 ≤ 8 * bs.length → exec .bitRd s = .next { s with
      res := .bit ((bs.getD (s.inBitPos / 8) 0#8).getLsbD (7 - s.inBitPos % 8)), inBitPos := s.inBitPos + 1 }) ∧
    (s.inBitPos + 8 ≤ 8 * bs.length → ∃ v : Byte, byteBits v = ((bytesBits bs).drop s.inBitPos).take 8 ∧
      exec .bitRdByte s = .next { s with res := .byte v, inBitPos := s.inBitPos + 8 }) ∧
    (s.inBitPos + 4 ≤ 8 * bs.length → ∃ v : BitVec 4, msbBits 4 v.toNat = ((bytesBits bs).drop s.inBitPos).take 4 ∧
      exec .bitRdHdr s = .next { s with res := .hdr v, inBitPos := s.inBitPos + 4 }) ∧
    ∀ (i : Instr) (n : Nat), (i = .bitRd ∧ n = 1) ∨ (i = .bitRdByte ∧ n = 8) ∨ (i = .bitRdHdr ∧ n = 4) →
      8 * bs.length < s.inBitPos + n →
      (∀ ts : List Token, rest = .stop :: ts → exec i s = .next { s with res := .exhausted }) ∧
      (∀ ts : List Token, rest = .err :: ts → exec i s = .next (raise .ioError 0#6 s)) ∧
      (rest = [] → exec i s = .next s)

/-- R112: the place of the bit in OACC, the byte boundary, the counter; F8 from the sink. When `out_err` is noticed is
log 9. -/
def Obligations.BitWrite : Prop :=
  ∀ s : State, (s.outErr = .high → exec .bitWr s = .next (raise .ioError 0#6 s)) ∧
    (s.outErr = .low → ∃ acc : Byte,
      (∀ j < 8, acc.getLsbD j = if j = 7 - s.ocnt.val then s.args.bit else s.oacc.getLsbD j) ∧
      exec .bitWr s = .next
        (if s.ocnt = 7 then { s with out := s.out ++ [acc], oacc := 0#8, ocnt := 0, outBitPos := s.outBitPos + 1 }
          else { s with oacc := acc, ocnt := s.ocnt + 1, outBitPos := s.outBitPos + 1 }))

/-- R113, R114: the bits of a byte and of the header, most significant first, go where BIT.WR puts them; nothing else
changes, and the unused bits of OACC stay 0 (R116). -/
def Obligations.ByteAndHeaderWrites : Prop :=
  ∀ s : State, s.outErr = .low →
    (∃ t : State, exec .bitWrByte s = .next t ∧ t.written = s.written ++ byteBits s.args.byte ∧
      t = { s with out := t.out, oacc := t.oacc, ocnt := t.ocnt, outBitPos := s.outBitPos + 8 } ∧
      (FramerOk s → FramerOk t)) ∧
    (∃ t : State, exec .bitWrHdr s = .next t ∧ t.written = s.written ++ msbBits 4 s.args.hdr.toNat ∧
      t = { s with out := t.out, oacc := t.oacc, ocnt := t.ocnt, outBitPos := s.outBitPos + 4 } ∧
      (FramerOk s → FramerOk t))

/-- R117, 30_encoding.md R61. -/
def Obligations.FlushPadsAndCloses : Prop :=
  ∀ s : State, s.outErr = .low →
    (s.ocnt = 0 → exec .bitFlush s = .next { s with outClosed := true }) ∧
    (s.ocnt ≠ 0 → ∃ v : Byte,
      byteBits v = (byteBits s.oacc).take s.ocnt.val ++ List.replicate (8 - s.ocnt.val) s.par.padBit ∧
      exec .bitFlush s = .next { s with out := s.out ++ [v], oacc := 0#8, ocnt := 0, outClosed := true })

/-! ### Faults -/

/-- 60_exceptions.md R152: what fault entry writes. -/
def Obligations.FaultEntryWrites : Prop :=
  ∀ (c : FCode) (u : BitVec 6) (s : State),
    raise c u s = { s with fcode := c, fuop := u, fpos := s.inBitPos, phase := .fault }

/-- R162, 43_framer.md R119: an operation in progress that meets `out_err` high raises F8 with its code, at its start or at
any bit or byte of it, what was written before staying (R154); between two operations of a job the code is 0; outside a
job it is ignored (R166). The moments at which an operation notices it are log 9's. -/
def Obligations.SinkErrorFaults : Prop :=
  (∀ (s : State) (i : Instr), s.outErr = .high ∨ s.outErr = .risesIn 0 → driverOp s.phase = some i →
    exec i s = .next
      { s with outErr := .high, fcode := .ioError, fuop := uopCode i, fpos := s.inBitPos, phase := .fault }) ∧
  (∀ (s : State) (i : Instr), s.outErr = .high ∨ s.outErr = .risesIn 0 →
    i = .symGather ∨ i = .symScatter ∨ i = .bitRd ∨ i = .bitRdByte ∨ i = .bitRdHdr ∨ i = .bitWr ∨ i = .bitWrByte ∨
      i = .bitWrHdr ∨ i = .bitFlush →
    exec i s = .next { s with outErr := .high, fcode := .ioError, fuop := 0#6, fpos := s.inBitPos, phase := .fault }) ∧
  (∀ (s : State) (p : List Bool) (h : Handle) (b : Bool) (j : Nat), PathTo s.nodes h p →
    (if b then (s.symBuf, h) ∈ s.map ∧ Memory.wf s.nodes s.map else (∀ g : Handle, (s.symBuf, g) ∉ s.map) ∧ s.nyt = some h) →
    j ≤ (p ++ if b then [] else bytesBits s.symBuf).length →
    ∃ (n : Nat) (t : State), exec .encSymbol { s with outErr := .risesIn n } = .next t ∧
      t.written = s.written ++ (p ++ if b then [] else bytesBits s.symBuf).take j ∧
      t = { s with
        found := b, cur := some h, pathBuf := p, out := t.out, oacc := t.oacc, ocnt := t.ocnt
        outBitPos := s.outBitPos + j, outErr := .high
        fcode := .ioError, fuop := uopCode .encSymbol, fpos := s.inBitPos, phase := .fault }) ∧
  (∀ (s : State) (j : Nat), j < s.symBuf.length →
    ∃ n : Nat, exec .symScatter { s with outErr := .risesIn n } = .next
      { s with
        out := s.out ++ s.symBuf.take j, outErr := .high
        fcode := .ioError, fuop := 0#6, fpos := s.inBitPos, phase := .fault }) ∧
  (∀ (s : State) (r : List HostEvent), s.rst = .low → s.sched = .ioErr :: r →
    step s = .next (if 1 ≤ s.phase.code ∧ s.phase.code ≤ 13
      then { s with sched := r, fcode := .ioError, fuop := 0#6, fpos := s.inBitPos, phase := .fault }
      else { s with sched := r })) ∧
  (∀ (s : State) (r : List HostEvent), s.rst = .low → s.sched = .outErr .high :: r →
    step s = .next (if 1 ≤ s.phase.code ∧ s.phase.code ≤ 13
      then { s with sched := r, outErr := .high, fcode := .ioError, fuop := 0#6, fpos := s.inBitPos, phase := .fault }
      else { s with sched := r, outErr := .high }))

/-- R165, R166: in FAULT only CMD.ABORT and hardware reset change the job's state. -/
def Obligations.FaultLeftOnlyByAbortOrReset : Prop :=
  ∀ s t : State, s.phase = .fault → s.hostOnly → step s = .next t →
    (∃ v : Nat, s.sched.head? = some (.regWr 0 v) ∧ v % 256 = 0xf0 ∧ t.phase = .idle ∧ t.fcode = .none ∧ t.fuop = 0#6 ∧
      t.fpos = 0) ∨
    (s.sched.head? = some .rst ∧ t.phase = .idle) ∨
    t = { s with
      sched := t.sched, inp := t.inp, outErr := t.outErr, rst := t.rst, nodeSel := t.nodeSel, rdData := t.rdData
      freeCtr := t.freeCtr }

/-! ### ENC -/

/-- 44_compress.md R122, R127, R128. -/
def Obligations.CompressorWritesMarks : Prop :=
  ∀ s : State, s.outErr = .low →
    (∃ t : State, exec .encHdr s = .next t ∧ t.written = s.written ++ msbBits 4 s.symSize.toNat ∧
      t = { s with out := t.out, oacc := t.oacc, ocnt := t.ocnt, outBitPos := s.outBitPos + 4, phase := .cFetch } ∧
      (FramerOk s → FramerOk t)) ∧
    (s.more = true → ∃ t : State, exec .encFrame s = .next t ∧ t.written = s.written ++ [false] ∧
      t = { s with out := t.out, oacc := t.oacc, ocnt := t.ocnt, outBitPos := s.outBitPos + 1, phase := .cFetch } ∧
      (FramerOk s → FramerOk t)) ∧
    (s.more = false → exec .encFrame s = .next { s with phase := .cEos }) ∧
    (∃ t : State, exec .encEos s = .next t ∧ t.written = s.written ++ [true] ∧
      t = { s with out := t.out, oacc := t.oacc, ocnt := t.ocnt, outBitPos := s.outBitPos + 1, phase := .cFlush } ∧
      (FramerOk s → FramerOk t))

/-- R123: SYM.GATHER, then the phase. F8 where the loop or MORE needs the token that is ERR, with FUOP ENC.FETCH
(60_exceptions.md R162); nothing yet where it has not come (43_framer.md R111; log 7, 8). -/
def Obligations.CompressorFetches : Prop :=
  ∀ (s : State) (bs : List Byte) (rest : List Token), s.outErr = .low → s.inp = bs.map .byte ++ rest →
    ((∃ ts : List Token, rest = .stop :: ts) ∨ s.inBitPos + 8 * s.symSize.toNat + 8 ≤ 8 * bs.length →
      ∃ vs : List Byte, vs.length = min s.symSize.toNat ((8 * bs.length - s.inBitPos) / 8) ∧
        bytesBits vs = ((bytesBits bs).drop s.inBitPos).take (8 * vs.length) ∧
        exec .encFetch s = .next { s with
          symBuf := vs
          inBitPos := s.inBitPos + 8 * vs.length
          more := decide (8 ≤ 8 * bs.length - (s.inBitPos + 8 * vs.length))
          phase := if vs.length = 0 then .cEos else .cEmit }) ∧
    (8 * bs.length < s.inBitPos + 8 * s.symSize.toNat + 8 →
      (rest = [] → exec .encFetch s = .next s) ∧
      ∀ ts : List Token, rest = .err :: ts → ∃ vs : List Byte, vs.length = (8 * bs.length - s.inBitPos) / 8 ∧
        bytesBits vs = ((bytesBits bs).drop s.inBitPos).take (8 * vs.length) ∧
        exec .encFetch s = .next (raise .ioError (uopCode .encFetch) { s with
          inBitPos := s.inBitPos + 8 * vs.length
          symBuf := if vs.length = s.symSize.toNat then vs else (vs ++ s.symBuf.drop vs.length).take s.symBuf.length }))

/-- R124, R125: a HIT record is the path of the symbol's leaf, at least one bit; a NEW record the path of the NYT and the
raw bytes. -/
def Obligations.CompressorEmitsRecord : Prop :=
  (∀ (s : State) (h : Handle) (p : List Bool), s.outErr = .low → s.treeOk → Memory.wf s.nodes s.map →
    (s.symBuf, h) ∈ s.map → PathTo s.nodes h p →
    ∃ t : State, exec .encSymbol s = .next t ∧ t.written = s.written ++ p ∧ p ≠ [] ∧
      t = { s with
        found := true, cur := some h, pathBuf := p, out := t.out, oacc := t.oacc, ocnt := t.ocnt
        outBitPos := s.outBitPos + p.length, phase := .cUpdate } ∧ (FramerOk s → FramerOk t)) ∧
  (∀ (s : State) (h : Handle) (p : List Bool), s.outErr = .low → (∀ g : Handle, (s.symBuf, g) ∉ s.map) →
    s.nyt = some h → PathTo s.nodes h p →
    ∃ t : State, exec .encSymbol s = .next t ∧ t.written = s.written ++ p ++ bytesBits s.symBuf ∧
      t = { s with
        found := false, cur := some h, pathBuf := p, out := t.out, oacc := t.oacc, ocnt := t.ocnt
        outBitPos := s.outBitPos + p.length + 8 * s.symBuf.length, phase := .cUpdate } ∧ (FramerOk s → FramerOk t))

/-- R126, 45_decompress.md R141: with FOUND, TREE.UPDATE of CUR; without, TREE.ADDSYM; then SYM_COUNT and the phase. On
a fault neither. -/
def Obligations.RecordIsApplied : Prop :=
  ∀ (s : State) (i : Instr) (ph : Phase), (i = .encUpdate ∧ ph = .cFrame) ∨ (i = .decUpdate ∧ ph = .dFrame) →
    s.outErr = .low → TreeShape s.nodes s.root → s.par.updateChain = .original →
    (∀ x : Handle, s.found = true → s.cur = some x → x < s.nodes.length →
      (∃ e : Ending, UpdateEnds s.par s.nodes (some x) e ∧
        exec i s = .next (e.after (uopCode i) s fun t => { t with symCount := s.symCount + 1, phase := ph })) ∧
      ∀ ns : Store, DistinctIds s.nodes → UpdateEnds s.par s.nodes (some x) (.done ns) →
        exec i s = .next { s with nodes := ns, symCount := s.symCount + 1, phase := ph }) ∧
    (∀ (N : Handle) (n : Node), s.found = false → s.nyt = some N → s.nodes[N]? = some n → n.isLeaf = true →
      s.symBuf ≠ [] → Roomy s →
      (∃ (ns1 : Store) (e : Ending), SplitOf s.nodes N s.nextId s.symBuf ns1 ∧ UpdateEnds s.par ns1 n.parent e ∧
        exec i s = .next (e.after (uopCode i) (afterSplit s s.symBuf ns1)
          fun t => { t with symCount := s.symCount + 1, phase := ph })) ∧
      ∀ ns1 ns2 : Store, DistinctIds s.nodes → (∀ m ∈ s.nodes, s.nextId ≤ m.id) →
        SplitOf s.nodes N s.nextId s.symBuf ns1 → UpdateEnds s.par ns1 n.parent (.done ns2) →
        exec i s = .next { afterSplit s s.symBuf ns1 with nodes := ns2, symCount := s.symCount + 1, phase := ph }) ∧
    (s.found = false → ¬ Roomy s → exec i s = .next (raise .nodeCap (uopCode i) s))

/-- R129: the flush, the END token of the input taken, DONE; F8 on an ERR token before it; nothing yet where END has not
come (log 7). The tokens after END are log 11. However it ends, in FAULT nothing is flushed and no END has been sent
(43_framer.md R118, 60_exceptions.md R154); how R129 and those are held together is log 28. -/
def Obligations.CompressorFlushes : Prop :=
  (∀ (s : State) (bs : List Byte) (rest : List Token), s.outErr = .low → s.inp = bs.map .byte ++ rest →
    (rest = [] → exec .encFlush s = .next s) ∧
    ∀ ts : List Token,
      (rest = .err :: ts → exec .encFlush s = .next (raise .ioError (uopCode .encFlush) s)) ∧
      (rest = .stop :: ts → ∃ t : State, exec .encFlush s = .next t ∧
        bytesBits t.out = s.written ++ List.replicate ((8 - s.ocnt.val) % 8) s.par.padBit ∧
        t = { s with
          out := t.out, oacc := if s.ocnt = 0 then s.oacc else 0#8, ocnt := 0, outClosed := true, inp := ts
          phase := .done })) ∧
  ∀ s t : State, exec .encFlush s = .next t →
    t = s ∨ (t.phase = .done ∧ t.outClosed = true) ∨
      ∃ p : OutErr, t = raise .ioError (uopCode .encFlush) { s with outErr := p }

/-! ### DEC -/

/-- 45_decompress.md R134, 60_exceptions.md R156, R157 (a), R162; the wait is 43_framer.md R111's (log 7, 8). -/
def Obligations.DecompressorReadsHeader : Prop :=
  ∀ (s : State) (bs : List Byte) (rest : List Token), s.outErr = .low → s.inp = bs.map .byte ++ rest →
    (8 * bs.length < s.inBitPos + 4 →
      (∀ ts : List Token, rest = .stop :: ts → exec .decHdr s = .next (raise .truncated (uopCode .decHdr) s)) ∧
      (∀ ts : List Token, rest = .err :: ts → exec .decHdr s = .next (raise .ioError (uopCode .decHdr) s)) ∧
      (rest = [] → exec .decHdr s = .next s)) ∧
    ∀ v : BitVec 4, s.inBitPos + 4 ≤ 8 * bs.length → msbBits 4 v.toNat = ((bytesBits bs).drop s.inBitPos).take 4 →
      (v = 0#4 → exec .decHdr s = .next (raise .badHeader (uopCode .decHdr) { s with inBitPos := s.inBitPos + 4 })) ∧
      (v ≠ 0#4 → exec .decHdr s = .next
        (let i : Int := 2 * 256 ^ v.toNat - 1
         { s with
          inBitPos := s.inBitPos + 4, symSize := v
          nodes := [{ id := i, weight := 0, sym := none, parent := none, left := none, right := none }]
          map := [], nextId := i, root := some 0, nyt := some 0, cur := some 0, phase := .dWalk }))

/-- R136, 60_exceptions.md R157 (b), R162; the wait is 43_framer.md R111's (log 7, 8). -/
def Obligations.DecompressorWalks : Prop :=
  ∀ (s : State) (h : Handle) (n : Node), s.outErr = .low → s.cur = some h → s.nodes[h]? = some n →
    (n.isLeaf = true → exec .decWalk s = .next { s with phase := .dLeaf }) ∧
    ∀ (bs : List Byte) (rest : List Token), n.isLeaf = false → s.inp = bs.map .byte ++ rest →
      (8 * bs.length < s.inBitPos + 1 →
        (∀ ts : List Token, rest = .stop :: ts → exec .decWalk s = .next (raise .truncated (uopCode .decWalk) s)) ∧
        (∀ ts : List Token, rest = .err :: ts → exec .decWalk s = .next (raise .ioError (uopCode .decWalk) s)) ∧
        (rest = [] → exec .decWalk s = .next s)) ∧
      ∀ b : Bool, (bytesBits bs)[s.inBitPos]? = some b → exec .decWalk s = .next
        { s with cur := if b then n.right else n.left, inBitPos := s.inBitPos + 1, phase := .dWalk }

/-- R138, R139, R140, 60_exceptions.md R157 (c), R162: the raw bytes at the NYT, as many as P_RAW_MIN_BITS allows; the
empty record; F8 where the next byte's tokens are ERR, with the bytes read before it in place; nothing yet where they
have not come (log 7, 8); a leaf's symbol. -/
def Obligations.DecompressorLeafAction : Prop :=
  ∀ (s : State) (h : Handle) (n : Node), s.outErr = .low → s.cur = some h → s.nodes[h]? = some n →
    (∀ (bs : List Byte) (rest : List Token), n.weight = 0 → s.inp = bs.map .byte ++ rest →
      ∃ vs : List Byte,
        vs.length = min s.symSize.toNat ((8 * bs.length - s.inBitPos + 8 - s.par.rawMinBits.toNat) / 8) ∧
        bytesBits vs = ((bytesBits bs).drop s.inBitPos).take (8 * vs.length) ∧
        ((∃ ts : List Token, rest = .stop :: ts) ∨ vs.length = s.symSize.toNat → exec .decLeaf s = .next
          (if vs.length = 0 then
            if s.nodes.length = 1 then { s with symBuf := [], emptyRec := true, phase := .dFrame }
            else raise .truncated (uopCode .decLeaf) { s with symBuf := [] }
          else { s with
            symBuf := vs, inBitPos := s.inBitPos + 8 * vs.length, found := false, out := s.out ++ vs
            outBitPos := s.outBitPos + 8 * vs.length, phase := .dUpdate })) ∧
        (vs.length ≠ s.symSize.toNat →
          (rest = [] → exec .decLeaf s = .next s) ∧
          ∀ ts : List Token, rest = .err :: ts → exec .decLeaf s = .next (raise .ioError (uopCode .decLeaf) { s with
            inBitPos := s.inBitPos + 8 * vs.length
            symBuf := (vs ++ s.symBuf.drop vs.length).take s.symBuf.length }))) ∧
    ∀ sym : Symbol, n.weight ≠ 0 → n.sym = some sym →
      exec .decLeaf s = .next { s with
        symBuf := sym, found := true, out := s.out ++ sym, outBitPos := s.outBitPos + 8 * sym.length, phase := .dUpdate }

/-- R142, 60_exceptions.md R157 (d), R158, R162; the wait is 43_framer.md R111's (log 7, 8). -/
def Obligations.DecompressorReadsFrame : Prop :=
  ∀ (s : State) (bs : List Byte) (rest : List Token), s.outErr = .low → s.inp = bs.map .byte ++ rest →
    (8 * bs.length < s.inBitPos + 1 →
      (∀ ts : List Token, rest = .stop :: ts → exec .decFrame s = .next (raise .truncated (uopCode .decFrame) s)) ∧
      (∀ ts : List Token, rest = .err :: ts → exec .decFrame s = .next (raise .ioError (uopCode .decFrame) s)) ∧
      (rest = [] → exec .decFrame s = .next s)) ∧
    ∀ b : Bool, (bytesBits bs)[s.inBitPos]? = some b →
      exec .decFrame s = .next
        (let t : State := { s with inBitPos := s.inBitPos + 1 }
         if b then { t with phase := .dDrain }
         else if s.emptyRec then raise .malformedEmpty (uopCode .decFrame) t
         else { t with cur := s.root, phase := .dWalk })

/-- R143: everything up to END is discarded, IN_BITPOS stays; F8 on an ERR token; nothing yet where END has not come (log
7). The tokens after END are log 11. However it ends, in FAULT no END has been sent (43_framer.md R118). -/
def Obligations.DecompressorDrains : Prop :=
  (∀ (s : State) (bs : List Byte) (ts : List Token), s.outErr = .low →
    (s.inp = sent bs ts → exec .decDrain s = .next { s with inp := ts, outClosed := true, phase := .done }) ∧
    (s.inp = bs.map .byte ++ .err :: ts → exec .decDrain s = .next (raise .ioError (uopCode .decDrain) s)) ∧
    (s.inp = bs.map .byte → exec .decDrain s = .next s)) ∧
  ∀ s t : State, exec .decDrain s = .next t →
    t = s ∨ (t.phase = .done ∧ t.outClosed = true) ∨
      ∃ (p : OutErr) (ts : List Token), t = raise .ioError (uopCode .decDrain) { s with inp := ts, outErr := p }

/-! ### The elements of the stream -/

/-- 30_encoding.md R54 to R61, R82 (log 15): the elements as the compressor writes them. -/
def Obligations.ElementsAsWritten : Prop :=
  ∀ s : State, s.outErr = .low →
    (s.phase = .cHdr → ∃ t : State, exec (.hdr s.symSize) s = .next t ∧ exec .encHdr s = .next t ∧
      t.written = s.written ++ encode (.hdr s.symSize)) ∧
    (s.phase = .cFrame → s.more = true → ∃ t : State, exec .f0 s = .next t ∧ exec .encFrame s = .next t ∧
      t.written = s.written ++ encode .f0) ∧
    (s.phase = .cEos → ∃ t : State, exec .eos s = .next t ∧ exec .encEos s = .next t ∧
      t.written = s.written ++ encode .eos) ∧
    (∀ (bs : List Byte) (ts : List Token) (xs : List Bool), s.phase = .cFlush → s.inp = sent bs ts →
      xs = List.replicate ((8 - s.ocnt.val) % 8) s.par.padBit →
      ∃ t : State, exec (.pad xs) s = .next t ∧ exec .encFlush s = .next t ∧
        bytesBits t.out = s.written ++ encode (.pad xs)) ∧
    (∀ (h : Handle) (p : List Bool), s.phase = .cEmit → recordLeaf s = some h → PathTo s.nodes h p →
      ∃ t : State, exec (.path p) s = .next t ∧ t.written = s.written ++ encode (.path p) ∧
        t = { s with
          pathBuf := p, out := t.out, oacc := t.oacc, ocnt := t.ocnt, outBitPos := s.outBitPos + p.length }) ∧
    (s.phase = .cEmit → (∀ g : Handle, (s.symBuf, g) ∉ s.map) →
      ∃ t : State, exec (.raw s.symBuf) s = .next t ∧ t.written = s.written ++ encode (.raw s.symBuf) ∧
        t = { s with
          out := t.out, oacc := t.oacc, ocnt := t.ocnt, outBitPos := s.outBitPos + 8 * s.symBuf.length })

/-- R55 to R62, R65 (log 15): the elements as the decompressor executes them, each with the bits of its encoding next
on the stream: HDR, RAW, F0, EOS and PAD are their micro-operations; PATH walks to its leaf. -/
def Obligations.ElementsAsRead : Prop :=
  ∀ (s : State) (bs : List Byte) (ts : List Token), s.outErr = .low → s.inp = sent bs ts →
    (∀ (v : BitVec 4) (rest : List Bool), s.phase = .dHdr → v ≠ 0#4 → s.unread = encode (.hdr v) ++ rest →
      ∃ t : State, exec (.hdr v) s = .next t ∧ exec .decHdr s = .next t ∧ t.phase = .dWalk) ∧
    (∀ rest : List Bool, s.phase = .dFrame → s.emptyRec = false → s.unread = encode .f0 ++ rest →
      ∃ t : State, exec .f0 s = .next t ∧ exec .decFrame s = .next t ∧ t.phase = .dWalk) ∧
    (∀ rest : List Bool, s.phase = .dFrame → s.unread = encode .eos ++ rest →
      ∃ t : State, exec .eos s = .next t ∧ exec .decFrame s = .next t ∧ t.phase = .dDrain) ∧
    (∀ xs : List Bool, s.phase = .dDrain →
      ∃ t : State, exec (.pad xs) s = .next t ∧ exec .decDrain s = .next t ∧ t.phase = .done) ∧
    (∀ (vs : List Byte) (h : Handle) (n : Node) (rest : List Bool), s.phase = .dLeaf → s.cur = some h →
      s.nodes[h]? = some n → n.weight = 0 → vs ≠ [] → s.unread = encode (.raw vs) ++ rest →
      vs.length = min s.symSize.toNat ((s.inRem + 8 - s.par.rawMinBits.toNat) / 8) →
      ∃ t : State, exec (.raw vs) s = .next t ∧ exec .decLeaf s = .next t ∧ t.phase = .dUpdate) ∧
    (∀ (p : List Bool) (h : Handle) (n : Node) (rest : List Bool), s.phase = .dWalk → TreeShape s.nodes s.root →
      s.cur = s.root → PathTo s.nodes h p → s.nodes[h]? = some n → n.isLeaf = true → s.unread = encode (.path p) ++ rest →
      exec (.path p) s = .next { s with cur := some h, inBitPos := s.inBitPos + p.length, phase := .dLeaf })

/-- R56 (log 15): a whole record, as the compressor writes it and as the decompressor executes it, where the update it
is applied with completes. -/
def Obligations.RecordsOnBothSides : Prop :=
  (∀ (s : State) (h : Handle) (p : List Bool) (ns : Store), s.outErr = .low → s.treeOk → Memory.wf s.nodes s.map →
    s.par.updateChain = .original → DistinctIds s.nodes → PathTo s.nodes h p →
    UpdateEnds s.par s.nodes (some h) (.done ns) →
    (s.phase = .cEmit → (s.symBuf, h) ∈ s.map →
      ∃ t : State, exec (.recHit p) s = .next t ∧ t.written = s.written ++ encode (.recHit p) ∧
        t = { s with
          found := true, cur := some h, pathBuf := p, out := t.out, oacc := t.oacc, ocnt := t.ocnt
          outBitPos := s.outBitPos + p.length, nodes := ns, symCount := s.symCount + 1, phase := .cFrame }) ∧
    (∀ (n : Node) (sym : Symbol) (bs : List Byte) (ts : List Token) (rest : List Bool), s.phase = .dWalk →
      s.cur = s.root → s.nodes[h]? = some n → n.isLeaf = true → n.sym = some sym → s.inp = sent bs ts →
      s.unread = encode (.recHit p) ++ rest →
      exec (.recHit p) s = .next { s with
        cur := some h, symBuf := sym, found := true, out := s.out ++ sym, outBitPos := s.outBitPos + 8 * sym.length
        inBitPos := s.inBitPos + p.length, nodes := ns, symCount := s.symCount + 1, phase := .dFrame })) ∧
  (∀ (s : State) (N : Handle) (n : Node) (p : List Bool) (vs : List Byte) (ns1 ns2 : Store), s.outErr = .low → s.treeOk →
    s.par.updateChain = .original → DistinctIds s.nodes → (∀ m ∈ s.nodes, s.nextId ≤ m.id) → Roomy s →
    s.nyt = some N → s.nodes[N]? = some n → PathTo s.nodes N p → vs ≠ [] → SplitOf s.nodes N s.nextId vs ns1 →
    UpdateEnds s.par ns1 n.parent (.done ns2) →
    (s.phase = .cEmit → vs = s.symBuf → (∀ g : Handle, (s.symBuf, g) ∉ s.map) →
      ∃ t : State, exec (.recNew p vs) s = .next t ∧ t.written = s.written ++ encode (.recNew p vs) ∧
        t = { afterSplit s vs ns1 with
          found := false, cur := some N, pathBuf := p, out := t.out, oacc := t.oacc, ocnt := t.ocnt
          outBitPos := s.outBitPos + p.length + 8 * vs.length, nodes := ns2, symCount := s.symCount + 1, phase := .cFrame }) ∧
    (∀ (bs : List Byte) (ts : List Token) (rest : List Bool), s.phase = .dWalk → s.cur = s.root → s.inp = sent bs ts →
      s.unread = encode (.recNew p vs) ++ rest →
      vs.length = min s.symSize.toNat ((s.inRem - p.length + 8 - s.par.rawMinBits.toNat) / 8) →
      exec (.recNew p vs) s = .next { afterSplit s vs ns1 with
        cur := some N, symBuf := vs, found := false, out := s.out ++ vs, outBitPos := s.outBitPos + 8 * vs.length
        inBitPos := s.inBitPos + p.length + 8 * vs.length, nodes := ns2, symCount := s.symCount + 1, phase := .dFrame }))

/-- 00_scope.md R11: an element or a whole record run at once, by the sequencer alone, ends where some number of its
micro-operations end. -/
def Obligations.ItemIsItsMicroOperations : Prop :=
  ∀ (s t : State) (g : Grain) (i : Instr), JobInv s → s.sched = [] → s.outErr = .low → itemDue g s = some i →
    exec i s = .next t → Reaches s t

/-! ### The whole machine -/

/-- 20_memory.md R41: OUT only grows, "also not by a fault"; a job start empties it. -/
def Obligations.OutputOnlyGrows : Prop :=
  ∀ s t : State, step s = .next t → s.out <+: t.out ∨ (t.out = [] ∧ (t.phase = .cHdr ∨ t.phase = .dHdr))

/-- 10_state.md R15, R32, R35, R165: no step changes the parameters; IN_BITPOS never goes backwards but at a job start and
a reset; and the fault record changes only where a fault is entered, outside FAULT, and where hardware reset, CMD.ABORT or
the start of a job clears it. (In FAULT only an operation issued by code can raise another fault, log 3.) -/
def Obligations.ParametersPositionAndRecord : Prop :=
  ∀ s t : State, step s = .next t → t.par = s.par ∧
    (s.inBitPos ≤ t.inBitPos ∨ (t.inBitPos = 0 ∧ (t.phase = .cHdr ∨ t.phase = .dHdr ∨ s.sched.head? = some .rst))) ∧
    ((t.fcode = s.fcode ∧ t.fuop = s.fuop ∧ t.fpos = s.fpos) ∨
      (t.phase = .fault ∧ t.fpos = t.inBitPos ∧ t.fcode ≠ .none ∧
        (s.phase ≠ .fault ∨ ∃ (c : BitVec 6) (a : UopArgs), s.sched.head? = some (.issue c a))) ∨
      (t.fcode = .none ∧ t.fuop = 0#6 ∧ t.fpos = 0 ∧
        (s.sched.head? = some .rst ∨
          (∃ v : Nat, s.sched.head? = some (.regWr 0 v) ∧ (v % 256 = 0xf0 ∨
            ((s.phase = .idle ∨ s.phase = .done) ∧ (v % 256 = 0x20 ∨ v % 256 / 16 = 1)))) ∨
          ∃ (c : BitVec 6) (a : UopArgs), s.sched.head? = some (.issue c a) ∧ (c = 0b110011#6 ∨
            ((s.phase = .idle ∨ s.phase = .done) ∧ (c = 0b110001#6 ∨ c = 0b110010#6))))))

/-- R25: the operations that write each flag; every other instruction leaves it. A job start and an abort clear all
three. -/
def Obligations.FlagsWrittenOnlyByTheirOperations : Prop :=
  ∀ (s t : State) (i : Instr), exec i s = .next t →
    (∀ size : BitVec 4, i ≠ .cmdCompress size) → i ≠ .cmdDecompress → i ≠ .cmdAbort →
    (t.found = s.found ∨ i = .encSymbol ∨ i = .decLeaf ∨ (∃ bs, i = .raw bs) ∨ (∃ p, i = .recHit p) ∨ ∃ p bs, i = .recNew p bs) ∧
    (t.more = s.more ∨ i = .symGather ∨ i = .encFetch) ∧
    (t.emptyRec = s.emptyRec ∨ (i = .decLeaf ∧ t.emptyRec = true))

/-- R16, R20, R21, R74: but for TREE.NEW, which a job start and DEC.HDR contain, no instruction frees an entry or changes
an entry's symbol, or ROOT. -/
def Obligations.EntriesSymbolsAndRootStay : Prop :=
  ∀ (s t : State) (i : Instr), exec i s = .next t →
    (∀ size : BitVec 4, i ≠ .cmdCompress size) → i ≠ .cmdDecompress → i ≠ .treeNew → i ≠ .decHdr → (∀ v : BitVec 4, i ≠ .hdr v) →
    t.root = s.root ∧ ∀ (h : Handle) (n : Node), s.nodes[h]? = some n →
      ∃ n' : Node, t.nodes[h]? = some n' ∧ n'.sym = n.sym

/-- 20_memory.md R39, 43_framer.md R116, 70_reset_and_hazards.md R173: every step keeps the canonical form of the map, no
key twice, each handle that of a live entry; the unused bits of OACC at 0; and no job while the reset input is high or
in the cycle after. -/
def Obligations.StepKeepsCanonicalForm : Prop :=
  ∀ s t : State, Memory.wf s.nodes s.map ∧ FramerOk s ∧ (s.rst ≠ .low → s.phase = .idle) → step s = .next t →
    Memory.wf t.nodes t.map ∧ FramerOk t ∧ (t.rst ≠ .low → t.phase = .idle)

/-- 41_node.md R86, 42_tree.md R104 (a), 20_memory.md R38: under a real host every step of AHC goes on, never to an entry
that is not there, and keeps the invariant of a job. -/
def Obligations.StepGoesOnAndKeepsJob : Prop :=
  ∀ s : State, JobInv s → ∃ t : State, step s = .next t ∧ JobInv t

/-- 42_tree.md R104 (c), (e), 43_framer.md R116, R118, 20_memory.md R40, 60_exceptions.md R154: the ids, the root's
weight, the positions of a job, and OUT_CLOSED, 0 in a job that goes on or has ended in FAULT and 1 in DONE, kept by every
step. -/
def Obligations.StepKeepsJobFacts : Prop :=
  ∀ s t : State, JobInv s → JobFacts s → step s = .next t → JobFacts t

/-- The canonical form, the invariant and the facts hold after reset. -/
def Obligations.ResetMeetsTheInvariants : Prop :=
  (Memory.wf State.reset.nodes State.reset.map ∧ FramerOk State.reset ∧
    (State.reset.rst ≠ .low → State.reset.phase = .idle)) ∧ JobInv State.reset ∧ JobFacts State.reset

/-- 42_tree.md R105: if a compress job ends in DONE, a decompress job fed its output ends in DONE with the input of the
first, whatever came before on either side, for every symbol size, pad bit, store size and leader rule; with the chosen
P_UPDATE_CHAIN and P_RAW_MIN_BITS. -/
def Obligations.RoundTrip : Prop :=
  ∀ (s t u : State) (size : BitVec 4) (bs : List Byte) (ts us : List Token),
    s.par.updateChain = .original → s.par.rawMinBits = .nine →
    s.phase = .idle ∨ s.phase = .done → s.sched = [.regWr 0 (0x10 + size.toNat)] → s.inp = sent bs ts → s.outErr = .low →
    s.rst = .low → Reaches s t → t.phase = .done → t.sched = [] →
    u.par = s.par → u.phase = .idle ∨ u.phase = .done → u.sched = [.regWr 0 0x20] → u.inp = sent t.out us →
    u.outErr = .low → u.rst = .low →
    ∃ v : State, Reaches u v ∧ v.phase = .done ∧ v.sched = [] ∧ v.out = bs
end

