-- ==== Sys2Proof/Laws/Bits.lean ====
section
/-! SUPPORT. Bit strings and the numbers and bytes they spell (20_memory.md R42, R43). -/

namespace Sys2Proof

@[simp] theorem length_msbBits (n w : Nat) : (msbBits n w).length = n := by
  induction n with
  | zero => rfl
  | succ n ih => simp [msbBits, ih]

@[simp] theorem length_byteBits (v : Byte) : (byteBits v).length = 8 := length_msbBits 8 _

@[simp] theorem length_bytesBits (vs : List Byte) : (bytesBits vs).length = 8 * vs.length := by
  induction vs with
  | nil => rfl
  | cons v vs ih => simp [bytesBits, ih]; omega

@[simp] theorem bytesBits_append (vs ws : List Byte) : bytesBits (vs ++ ws) = bytesBits vs ++ bytesBits ws := by
  induction vs with
  | nil => rfl
  | cons v vs ih => simp [bytesBits, ih]

@[simp] theorem bytesBits_singleton (v : Byte) : bytesBits [v] = byteBits v := by simp [bytesBits]

theorem bitsVal_append_singleton (bs : List Bool) (b : Bool) : bitsVal (bs ++ [b]) = 2 * bitsVal bs + b.toNat := by
  simp [bitsVal]

theorem bitsVal_cons (b : Bool) (bs : List Bool) : bitsVal (b :: bs) = b.toNat * 2 ^ bs.length + bitsVal bs := by
  induction bs using List.reverseRecOn with
  | nil => simp [bitsVal]
  | append_singleton bs c ih =>
    rw [← List.cons_append, bitsVal_append_singleton, ih, bitsVal_append_singleton]
    simp [pow_succ]; ring

theorem bitsVal_lt (bs : List Bool) : bitsVal bs < 2 ^ bs.length := by
  induction bs with
  | nil => simp [bitsVal]
  | cons b bs ih => rw [bitsVal_cons]; cases b <;> simp [pow_succ] <;> omega

/-- Writing a number and reading the bits back. -/
theorem bitsVal_msbBits (n w : Nat) : bitsVal (msbBits n w) = w % 2 ^ n := by
  induction n with
  | zero => simp [msbBits, bitsVal, Nat.mod_one]
  | succ n ih =>
    rw [msbBits, bitsVal_cons, ih, length_msbBits, Nat.mod_pow_succ, Nat.testBit_eq_decide_div_mod_eq]
    rcases Nat.mod_two_eq_zero_or_one (w / 2 ^ n) with h | h <;> simp [h, add_comm]

/-- Reading bits as a number and writing them back. -/
theorem msbBits_bitsVal (bs : List Bool) : msbBits bs.length (bitsVal bs) = bs := by
  have key : ∀ bs : List Bool, ∀ k, msbBits bs.length (k * 2 ^ bs.length + bitsVal bs) = bs := by
    intro bs
    induction bs with
    | nil => intro k; rfl
    | cons b bs ih =>
      intro k
      have hl := bitsVal_lt bs
      rw [bitsVal_cons, List.length_cons, msbBits]
      have e : k * 2 ^ (bs.length + 1) + (b.toNat * 2 ^ bs.length + bitsVal bs) = (2 * k + b.toNat) * 2 ^ bs.length + bitsVal bs := by
        rw [pow_succ]; ring
      rw [e, ih]
      congr 1
      rw [Nat.testBit_eq_decide_div_mod_eq, Nat.add_comm, Nat.add_mul_div_right _ _ (by positivity), Nat.div_eq_of_lt hl]
      cases b <;> simp [Nat.add_mod]
  simpa using key bs 0

theorem byteOfBits_byteBits (v : Byte) : byteOfBits (byteBits v) = v := by
  apply BitVec.eq_of_toNat_eq
  simpa [byteOfBits, byteBits, bitsVal_msbBits] using v.isLt

theorem byteBits_byteOfBits {bs : List Bool} (h : bs.length = 8) : byteBits (byteOfBits bs) = bs := by
  have hl : bitsVal bs < 256 := by simpa [h] using bitsVal_lt bs
  have := msbBits_bitsVal bs
  rw [h] at this
  rw [byteBits, byteOfBits, BitVec.toNat_ofNat, Nat.mod_eq_of_lt (by simpa using hl), this]

theorem byteBits_injective {v w : Byte} (h : byteBits v = byteBits w) : v = w := by
  rw [← byteOfBits_byteBits v, h, byteOfBits_byteBits]

theorem bytesOfBits_bytesBits (vs : List Byte) (rest : List Bool) : bytesOfBits vs.length (bytesBits vs ++ rest) = vs := by
  induction vs with
  | nil => rfl
  | cons v vs ih =>
    have h8 : (byteBits v).length = 8 := length_byteBits v
    simp [bytesBits, bytesOfBits, ih, byteOfBits_byteBits, h8]

theorem bytesBits_bytesOfBits (n : Nat) (bits : List Bool) (h : bits.length = 8 * n) : bytesBits (bytesOfBits n bits) = bits := by
  induction n generalizing bits with
  | zero => simp at h; simp [bytesOfBits, bytesBits, h]
  | succ n ih =>
    have h8 : (bits.take 8).length = 8 := by simp; omega
    rw [bytesOfBits, bytesBits, byteBits_byteOfBits h8, ih _ (by simp; omega), List.take_append_drop]

@[simp] theorem length_bytesOfBits (n : Nat) (bits : List Bool) : (bytesOfBits n bits).length = n := by
  induction n generalizing bits with
  | zero => rfl
  | succ n ih => simp [bytesOfBits, ih]

theorem bytesBits_injective {vs ws : List Byte} (h : bytesBits vs = bytesBits ws) : vs = ws := by
  have hl : vs.length = ws.length := by simpa using congrArg List.length h
  have a := bytesOfBits_bytesBits vs []
  have b := bytesOfBits_bytesBits ws []
  rw [List.append_nil] at a b
  rw [← a, ← b, h, hl]

theorem getElem?_msbBits (n w i : Nat) : (msbBits n w)[i]? = if i < n then some (w.testBit (n - 1 - i)) else none := by
  induction n generalizing i with
  | zero => simp [msbBits]
  | succ n ih =>
    cases i with
    | zero => simp [msbBits]
    | succ i => simp [msbBits, ih, Nat.sub_sub, Nat.add_comm]

/-- Bit p of a byte string is bit 7 - p mod 8 of byte p div 8 (20_memory.md R42). -/
theorem getElem?_bytesBits (vs : List Byte) (p : Nat) :
    (bytesBits vs)[p]? = (vs[p / 8]?).map fun v => v.getLsbD (7 - p % 8) := by
  induction vs generalizing p with
  | nil => simp [bytesBits]
  | cons v vs ih =>
    rw [bytesBits]
    by_cases hp : p < 8
    · rw [List.getElem?_append_left (by simpa using hp), byteBits, getElem?_msbBits, if_pos hp,
        Nat.div_eq_of_lt hp, Nat.mod_eq_of_lt hp]
      simp [BitVec.getLsbD]
    · obtain ⟨q, rfl⟩ : ∃ q, p = q + 8 := ⟨p - 8, by omega⟩
      rw [List.getElem?_append_right (by simp), length_byteBits, Nat.add_sub_cancel, ih]
      simp

end Sys2Proof
end

