-- ==== Sys2Proof/Laws/State.lean ====
section
/-! SUPPORT. The fields of the named updates of the state: one lemma per field and update, each true by rfl. -/

namespace Sys2Proof.Machine

/-! ### raise -/

@[simp] theorem raise_par (n : FCode) (u : BitVec 6) (s : State) : (raise n u s).par = s.par := rfl
@[simp] theorem raise_nodes (n : FCode) (u : BitVec 6) (s : State) : (raise n u s).nodes = s.nodes := rfl
@[simp] theorem raise_root (n : FCode) (u : BitVec 6) (s : State) : (raise n u s).root = s.root := rfl
@[simp] theorem raise_nyt (n : FCode) (u : BitVec 6) (s : State) : (raise n u s).nyt = s.nyt := rfl
@[simp] theorem raise_nextId (n : FCode) (u : BitVec 6) (s : State) : (raise n u s).nextId = s.nextId := rfl
@[simp] theorem raise_map (n : FCode) (u : BitVec 6) (s : State) : (raise n u s).map = s.map := rfl
@[simp] theorem raise_cur (n : FCode) (u : BitVec 6) (s : State) : (raise n u s).cur = s.cur := rfl
@[simp] theorem raise_symBuf (n : FCode) (u : BitVec 6) (s : State) : (raise n u s).symBuf = s.symBuf := rfl
@[simp] theorem raise_found (n : FCode) (u : BitVec 6) (s : State) : (raise n u s).found = s.found := rfl
@[simp] theorem raise_more (n : FCode) (u : BitVec 6) (s : State) : (raise n u s).more = s.more := rfl
@[simp] theorem raise_emptyRec (n : FCode) (u : BitVec 6) (s : State) : (raise n u s).emptyRec = s.emptyRec := rfl
@[simp] theorem raise_pathBuf (n : FCode) (u : BitVec 6) (s : State) : (raise n u s).pathBuf = s.pathBuf := rfl
@[simp] theorem raise_oacc (n : FCode) (u : BitVec 6) (s : State) : (raise n u s).oacc = s.oacc := rfl
@[simp] theorem raise_ocnt (n : FCode) (u : BitVec 6) (s : State) : (raise n u s).ocnt = s.ocnt := rfl
@[simp] theorem raise_outClosed (n : FCode) (u : BitVec 6) (s : State) : (raise n u s).outClosed = s.outClosed := rfl
@[simp] theorem raise_out (n : FCode) (u : BitVec 6) (s : State) : (raise n u s).out = s.out := rfl
@[simp] theorem raise_symSize (n : FCode) (u : BitVec 6) (s : State) : (raise n u s).symSize = s.symSize := rfl
@[simp] theorem raise_mode (n : FCode) (u : BitVec 6) (s : State) : (raise n u s).mode = s.mode := rfl
@[simp] theorem raise_phase (n : FCode) (u : BitVec 6) (s : State) : (raise n u s).phase = .fault := rfl
@[simp] theorem raise_fcode (n : FCode) (u : BitVec 6) (s : State) : (raise n u s).fcode = n := rfl
@[simp] theorem raise_fuop (n : FCode) (u : BitVec 6) (s : State) : (raise n u s).fuop = u := rfl
@[simp] theorem raise_fpos (n : FCode) (u : BitVec 6) (s : State) : (raise n u s).fpos = s.inBitPos := rfl
@[simp] theorem raise_inBitPos (n : FCode) (u : BitVec 6) (s : State) : (raise n u s).inBitPos = s.inBitPos := rfl
@[simp] theorem raise_outBitPos (n : FCode) (u : BitVec 6) (s : State) : (raise n u s).outBitPos = s.outBitPos := rfl
@[simp] theorem raise_symCount (n : FCode) (u : BitVec 6) (s : State) : (raise n u s).symCount = s.symCount := rfl
@[simp] theorem raise_nodeSel (n : FCode) (u : BitVec 6) (s : State) : (raise n u s).nodeSel = s.nodeSel := rfl
@[simp] theorem raise_inp (n : FCode) (u : BitVec 6) (s : State) : (raise n u s).inp = s.inp := rfl
@[simp] theorem raise_outErr (n : FCode) (u : BitVec 6) (s : State) : (raise n u s).outErr = s.outErr := rfl
@[simp] theorem raise_rst (n : FCode) (u : BitVec 6) (s : State) : (raise n u s).rst = s.rst := rfl
@[simp] theorem raise_args (n : FCode) (u : BitVec 6) (s : State) : (raise n u s).args = s.args := rfl
@[simp] theorem raise_res (n : FCode) (u : BitVec 6) (s : State) : (raise n u s).res = s.res := rfl
@[simp] theorem raise_rdData (n : FCode) (u : BitVec 6) (s : State) : (raise n u s).rdData = s.rdData := rfl
@[simp] theorem raise_freeCtr (n : FCode) (u : BitVec 6) (s : State) : (raise n u s).freeCtr = s.freeCtr := rfl
@[simp] theorem raise_sched (n : FCode) (u : BitVec 6) (s : State) : (raise n u s).sched = s.sched := rfl

/-! ### setFound -/

@[simp] theorem setFound_par (b : Bool) (s : State) : (setFound b s).par = s.par := rfl
@[simp] theorem setFound_nodes (b : Bool) (s : State) : (setFound b s).nodes = s.nodes := rfl
@[simp] theorem setFound_root (b : Bool) (s : State) : (setFound b s).root = s.root := rfl
@[simp] theorem setFound_nyt (b : Bool) (s : State) : (setFound b s).nyt = s.nyt := rfl
@[simp] theorem setFound_nextId (b : Bool) (s : State) : (setFound b s).nextId = s.nextId := rfl
@[simp] theorem setFound_map (b : Bool) (s : State) : (setFound b s).map = s.map := rfl
@[simp] theorem setFound_cur (b : Bool) (s : State) : (setFound b s).cur = s.cur := rfl
@[simp] theorem setFound_symBuf (b : Bool) (s : State) : (setFound b s).symBuf = s.symBuf := rfl
@[simp] theorem setFound_found (b : Bool) (s : State) : (setFound b s).found = b := rfl
@[simp] theorem setFound_more (b : Bool) (s : State) : (setFound b s).more = s.more := rfl
@[simp] theorem setFound_emptyRec (b : Bool) (s : State) : (setFound b s).emptyRec = s.emptyRec := rfl
@[simp] theorem setFound_pathBuf (b : Bool) (s : State) : (setFound b s).pathBuf = s.pathBuf := rfl
@[simp] theorem setFound_oacc (b : Bool) (s : State) : (setFound b s).oacc = s.oacc := rfl
@[simp] theorem setFound_ocnt (b : Bool) (s : State) : (setFound b s).ocnt = s.ocnt := rfl
@[simp] theorem setFound_outClosed (b : Bool) (s : State) : (setFound b s).outClosed = s.outClosed := rfl
@[simp] theorem setFound_out (b : Bool) (s : State) : (setFound b s).out = s.out := rfl
@[simp] theorem setFound_symSize (b : Bool) (s : State) : (setFound b s).symSize = s.symSize := rfl
@[simp] theorem setFound_mode (b : Bool) (s : State) : (setFound b s).mode = s.mode := rfl
@[simp] theorem setFound_phase (b : Bool) (s : State) : (setFound b s).phase = s.phase := rfl
@[simp] theorem setFound_fcode (b : Bool) (s : State) : (setFound b s).fcode = s.fcode := rfl
@[simp] theorem setFound_fuop (b : Bool) (s : State) : (setFound b s).fuop = s.fuop := rfl
@[simp] theorem setFound_fpos (b : Bool) (s : State) : (setFound b s).fpos = s.fpos := rfl
@[simp] theorem setFound_inBitPos (b : Bool) (s : State) : (setFound b s).inBitPos = s.inBitPos := rfl
@[simp] theorem setFound_outBitPos (b : Bool) (s : State) : (setFound b s).outBitPos = s.outBitPos := rfl
@[simp] theorem setFound_symCount (b : Bool) (s : State) : (setFound b s).symCount = s.symCount := rfl
@[simp] theorem setFound_nodeSel (b : Bool) (s : State) : (setFound b s).nodeSel = s.nodeSel := rfl
@[simp] theorem setFound_inp (b : Bool) (s : State) : (setFound b s).inp = s.inp := rfl
@[simp] theorem setFound_outErr (b : Bool) (s : State) : (setFound b s).outErr = s.outErr := rfl
@[simp] theorem setFound_rst (b : Bool) (s : State) : (setFound b s).rst = s.rst := rfl
@[simp] theorem setFound_args (b : Bool) (s : State) : (setFound b s).args = s.args := rfl
@[simp] theorem setFound_res (b : Bool) (s : State) : (setFound b s).res = s.res := rfl
@[simp] theorem setFound_rdData (b : Bool) (s : State) : (setFound b s).rdData = s.rdData := rfl
@[simp] theorem setFound_freeCtr (b : Bool) (s : State) : (setFound b s).freeCtr = s.freeCtr := rfl
@[simp] theorem setFound_sched (b : Bool) (s : State) : (setFound b s).sched = s.sched := rfl

/-! ### setEmptyRec -/

@[simp] theorem setEmptyRec_par (s : State) : (setEmptyRec s).par = s.par := rfl
@[simp] theorem setEmptyRec_nodes (s : State) : (setEmptyRec s).nodes = s.nodes := rfl
@[simp] theorem setEmptyRec_root (s : State) : (setEmptyRec s).root = s.root := rfl
@[simp] theorem setEmptyRec_nyt (s : State) : (setEmptyRec s).nyt = s.nyt := rfl
@[simp] theorem setEmptyRec_nextId (s : State) : (setEmptyRec s).nextId = s.nextId := rfl
@[simp] theorem setEmptyRec_map (s : State) : (setEmptyRec s).map = s.map := rfl
@[simp] theorem setEmptyRec_cur (s : State) : (setEmptyRec s).cur = s.cur := rfl
@[simp] theorem setEmptyRec_symBuf (s : State) : (setEmptyRec s).symBuf = s.symBuf := rfl
@[simp] theorem setEmptyRec_found (s : State) : (setEmptyRec s).found = s.found := rfl
@[simp] theorem setEmptyRec_more (s : State) : (setEmptyRec s).more = s.more := rfl
@[simp] theorem setEmptyRec_emptyRec (s : State) : (setEmptyRec s).emptyRec = true := rfl
@[simp] theorem setEmptyRec_pathBuf (s : State) : (setEmptyRec s).pathBuf = s.pathBuf := rfl
@[simp] theorem setEmptyRec_oacc (s : State) : (setEmptyRec s).oacc = s.oacc := rfl
@[simp] theorem setEmptyRec_ocnt (s : State) : (setEmptyRec s).ocnt = s.ocnt := rfl
@[simp] theorem setEmptyRec_outClosed (s : State) : (setEmptyRec s).outClosed = s.outClosed := rfl
@[simp] theorem setEmptyRec_out (s : State) : (setEmptyRec s).out = s.out := rfl
@[simp] theorem setEmptyRec_symSize (s : State) : (setEmptyRec s).symSize = s.symSize := rfl
@[simp] theorem setEmptyRec_mode (s : State) : (setEmptyRec s).mode = s.mode := rfl
@[simp] theorem setEmptyRec_phase (s : State) : (setEmptyRec s).phase = s.phase := rfl
@[simp] theorem setEmptyRec_fcode (s : State) : (setEmptyRec s).fcode = s.fcode := rfl
@[simp] theorem setEmptyRec_fuop (s : State) : (setEmptyRec s).fuop = s.fuop := rfl
@[simp] theorem setEmptyRec_fpos (s : State) : (setEmptyRec s).fpos = s.fpos := rfl
@[simp] theorem setEmptyRec_inBitPos (s : State) : (setEmptyRec s).inBitPos = s.inBitPos := rfl
@[simp] theorem setEmptyRec_outBitPos (s : State) : (setEmptyRec s).outBitPos = s.outBitPos := rfl
@[simp] theorem setEmptyRec_symCount (s : State) : (setEmptyRec s).symCount = s.symCount := rfl
@[simp] theorem setEmptyRec_nodeSel (s : State) : (setEmptyRec s).nodeSel = s.nodeSel := rfl
@[simp] theorem setEmptyRec_inp (s : State) : (setEmptyRec s).inp = s.inp := rfl
@[simp] theorem setEmptyRec_outErr (s : State) : (setEmptyRec s).outErr = s.outErr := rfl
@[simp] theorem setEmptyRec_rst (s : State) : (setEmptyRec s).rst = s.rst := rfl
@[simp] theorem setEmptyRec_args (s : State) : (setEmptyRec s).args = s.args := rfl
@[simp] theorem setEmptyRec_res (s : State) : (setEmptyRec s).res = s.res := rfl
@[simp] theorem setEmptyRec_rdData (s : State) : (setEmptyRec s).rdData = s.rdData := rfl
@[simp] theorem setEmptyRec_freeCtr (s : State) : (setEmptyRec s).freeCtr = s.freeCtr := rfl
@[simp] theorem setEmptyRec_sched (s : State) : (setEmptyRec s).sched = s.sched := rfl

/-! ### scatter -/

@[simp] theorem scatter_par (s : State) : (scatter s).par = s.par := rfl
@[simp] theorem scatter_nodes (s : State) : (scatter s).nodes = s.nodes := rfl
@[simp] theorem scatter_root (s : State) : (scatter s).root = s.root := rfl
@[simp] theorem scatter_nyt (s : State) : (scatter s).nyt = s.nyt := rfl
@[simp] theorem scatter_nextId (s : State) : (scatter s).nextId = s.nextId := rfl
@[simp] theorem scatter_map (s : State) : (scatter s).map = s.map := rfl
@[simp] theorem scatter_cur (s : State) : (scatter s).cur = s.cur := rfl
@[simp] theorem scatter_symBuf (s : State) : (scatter s).symBuf = s.symBuf := rfl
@[simp] theorem scatter_found (s : State) : (scatter s).found = s.found := rfl
@[simp] theorem scatter_more (s : State) : (scatter s).more = s.more := rfl
@[simp] theorem scatter_emptyRec (s : State) : (scatter s).emptyRec = s.emptyRec := rfl
@[simp] theorem scatter_pathBuf (s : State) : (scatter s).pathBuf = s.pathBuf := rfl
@[simp] theorem scatter_oacc (s : State) : (scatter s).oacc = s.oacc := rfl
@[simp] theorem scatter_ocnt (s : State) : (scatter s).ocnt = s.ocnt := rfl
@[simp] theorem scatter_outClosed (s : State) : (scatter s).outClosed = s.outClosed := rfl
@[simp] theorem scatter_out (s : State) : (scatter s).out = s.out ++ s.symBuf := rfl
@[simp] theorem scatter_symSize (s : State) : (scatter s).symSize = s.symSize := rfl
@[simp] theorem scatter_mode (s : State) : (scatter s).mode = s.mode := rfl
@[simp] theorem scatter_phase (s : State) : (scatter s).phase = s.phase := rfl
@[simp] theorem scatter_fcode (s : State) : (scatter s).fcode = s.fcode := rfl
@[simp] theorem scatter_fuop (s : State) : (scatter s).fuop = s.fuop := rfl
@[simp] theorem scatter_fpos (s : State) : (scatter s).fpos = s.fpos := rfl
@[simp] theorem scatter_inBitPos (s : State) : (scatter s).inBitPos = s.inBitPos := rfl
@[simp] theorem scatter_outBitPos (s : State) : (scatter s).outBitPos = s.outBitPos + 8 * s.symBuf.length := rfl
@[simp] theorem scatter_symCount (s : State) : (scatter s).symCount = s.symCount := rfl
@[simp] theorem scatter_nodeSel (s : State) : (scatter s).nodeSel = s.nodeSel := rfl
@[simp] theorem scatter_inp (s : State) : (scatter s).inp = s.inp := rfl
@[simp] theorem scatter_outErr (s : State) : (scatter s).outErr = s.outErr := rfl
@[simp] theorem scatter_rst (s : State) : (scatter s).rst = s.rst := rfl
@[simp] theorem scatter_args (s : State) : (scatter s).args = s.args := rfl
@[simp] theorem scatter_res (s : State) : (scatter s).res = s.res := rfl
@[simp] theorem scatter_rdData (s : State) : (scatter s).rdData = s.rdData := rfl
@[simp] theorem scatter_freeCtr (s : State) : (scatter s).freeCtr = s.freeCtr := rfl
@[simp] theorem scatter_sched (s : State) : (scatter s).sched = s.sched := rfl

/-! ### treeNew -/

@[simp] theorem treeNew_par (k : Nat) (s : State) : (treeNew k s).par = s.par := rfl
@[simp] theorem treeNew_nodes (k : Nat) (s : State) : (treeNew k s).nodes = [{ id := 2 * (k : Int) - 1, weight := 0, sym := none, parent := none, left := none, right := none }] := rfl
@[simp] theorem treeNew_root (k : Nat) (s : State) : (treeNew k s).root = some 0 := rfl
@[simp] theorem treeNew_nyt (k : Nat) (s : State) : (treeNew k s).nyt = some 0 := rfl
@[simp] theorem treeNew_nextId (k : Nat) (s : State) : (treeNew k s).nextId = 2 * (k : Int) - 1 := rfl
@[simp] theorem treeNew_map (k : Nat) (s : State) : (treeNew k s).map = [] := rfl
@[simp] theorem treeNew_cur (k : Nat) (s : State) : (treeNew k s).cur = s.cur := rfl
@[simp] theorem treeNew_symBuf (k : Nat) (s : State) : (treeNew k s).symBuf = s.symBuf := rfl
@[simp] theorem treeNew_found (k : Nat) (s : State) : (treeNew k s).found = s.found := rfl
@[simp] theorem treeNew_more (k : Nat) (s : State) : (treeNew k s).more = s.more := rfl
@[simp] theorem treeNew_emptyRec (k : Nat) (s : State) : (treeNew k s).emptyRec = s.emptyRec := rfl
@[simp] theorem treeNew_pathBuf (k : Nat) (s : State) : (treeNew k s).pathBuf = s.pathBuf := rfl
@[simp] theorem treeNew_oacc (k : Nat) (s : State) : (treeNew k s).oacc = s.oacc := rfl
@[simp] theorem treeNew_ocnt (k : Nat) (s : State) : (treeNew k s).ocnt = s.ocnt := rfl
@[simp] theorem treeNew_outClosed (k : Nat) (s : State) : (treeNew k s).outClosed = s.outClosed := rfl
@[simp] theorem treeNew_out (k : Nat) (s : State) : (treeNew k s).out = s.out := rfl
@[simp] theorem treeNew_symSize (k : Nat) (s : State) : (treeNew k s).symSize = s.symSize := rfl
@[simp] theorem treeNew_mode (k : Nat) (s : State) : (treeNew k s).mode = s.mode := rfl
@[simp] theorem treeNew_phase (k : Nat) (s : State) : (treeNew k s).phase = s.phase := rfl
@[simp] theorem treeNew_fcode (k : Nat) (s : State) : (treeNew k s).fcode = s.fcode := rfl
@[simp] theorem treeNew_fuop (k : Nat) (s : State) : (treeNew k s).fuop = s.fuop := rfl
@[simp] theorem treeNew_fpos (k : Nat) (s : State) : (treeNew k s).fpos = s.fpos := rfl
@[simp] theorem treeNew_inBitPos (k : Nat) (s : State) : (treeNew k s).inBitPos = s.inBitPos := rfl
@[simp] theorem treeNew_outBitPos (k : Nat) (s : State) : (treeNew k s).outBitPos = s.outBitPos := rfl
@[simp] theorem treeNew_symCount (k : Nat) (s : State) : (treeNew k s).symCount = s.symCount := rfl
@[simp] theorem treeNew_nodeSel (k : Nat) (s : State) : (treeNew k s).nodeSel = s.nodeSel := rfl
@[simp] theorem treeNew_inp (k : Nat) (s : State) : (treeNew k s).inp = s.inp := rfl
@[simp] theorem treeNew_outErr (k : Nat) (s : State) : (treeNew k s).outErr = s.outErr := rfl
@[simp] theorem treeNew_rst (k : Nat) (s : State) : (treeNew k s).rst = s.rst := rfl
@[simp] theorem treeNew_args (k : Nat) (s : State) : (treeNew k s).args = s.args := rfl
@[simp] theorem treeNew_res (k : Nat) (s : State) : (treeNew k s).res = s.res := rfl
@[simp] theorem treeNew_rdData (k : Nat) (s : State) : (treeNew k s).rdData = s.rdData := rfl
@[simp] theorem treeNew_freeCtr (k : Nat) (s : State) : (treeNew k s).freeCtr = s.freeCtr := rfl
@[simp] theorem treeNew_sched (k : Nat) (s : State) : (treeNew k s).sched = s.sched := rfl

/-! ### stepTo -/

@[simp] theorem stepTo_par (n : Node) (b : Bool) (s : State) : (stepTo n b s).par = s.par := rfl
@[simp] theorem stepTo_nodes (n : Node) (b : Bool) (s : State) : (stepTo n b s).nodes = s.nodes := rfl
@[simp] theorem stepTo_root (n : Node) (b : Bool) (s : State) : (stepTo n b s).root = s.root := rfl
@[simp] theorem stepTo_nyt (n : Node) (b : Bool) (s : State) : (stepTo n b s).nyt = s.nyt := rfl
@[simp] theorem stepTo_nextId (n : Node) (b : Bool) (s : State) : (stepTo n b s).nextId = s.nextId := rfl
@[simp] theorem stepTo_map (n : Node) (b : Bool) (s : State) : (stepTo n b s).map = s.map := rfl
@[simp] theorem stepTo_cur (n : Node) (b : Bool) (s : State) : (stepTo n b s).cur = if b then n.right else n.left := rfl
@[simp] theorem stepTo_symBuf (n : Node) (b : Bool) (s : State) : (stepTo n b s).symBuf = s.symBuf := rfl
@[simp] theorem stepTo_found (n : Node) (b : Bool) (s : State) : (stepTo n b s).found = s.found := rfl
@[simp] theorem stepTo_more (n : Node) (b : Bool) (s : State) : (stepTo n b s).more = s.more := rfl
@[simp] theorem stepTo_emptyRec (n : Node) (b : Bool) (s : State) : (stepTo n b s).emptyRec = s.emptyRec := rfl
@[simp] theorem stepTo_pathBuf (n : Node) (b : Bool) (s : State) : (stepTo n b s).pathBuf = s.pathBuf := rfl
@[simp] theorem stepTo_oacc (n : Node) (b : Bool) (s : State) : (stepTo n b s).oacc = s.oacc := rfl
@[simp] theorem stepTo_ocnt (n : Node) (b : Bool) (s : State) : (stepTo n b s).ocnt = s.ocnt := rfl
@[simp] theorem stepTo_outClosed (n : Node) (b : Bool) (s : State) : (stepTo n b s).outClosed = s.outClosed := rfl
@[simp] theorem stepTo_out (n : Node) (b : Bool) (s : State) : (stepTo n b s).out = s.out := rfl
@[simp] theorem stepTo_symSize (n : Node) (b : Bool) (s : State) : (stepTo n b s).symSize = s.symSize := rfl
@[simp] theorem stepTo_mode (n : Node) (b : Bool) (s : State) : (stepTo n b s).mode = s.mode := rfl
@[simp] theorem stepTo_phase (n : Node) (b : Bool) (s : State) : (stepTo n b s).phase = .dWalk := rfl
@[simp] theorem stepTo_fcode (n : Node) (b : Bool) (s : State) : (stepTo n b s).fcode = s.fcode := rfl
@[simp] theorem stepTo_fuop (n : Node) (b : Bool) (s : State) : (stepTo n b s).fuop = s.fuop := rfl
@[simp] theorem stepTo_fpos (n : Node) (b : Bool) (s : State) : (stepTo n b s).fpos = s.fpos := rfl
@[simp] theorem stepTo_inBitPos (n : Node) (b : Bool) (s : State) : (stepTo n b s).inBitPos = s.inBitPos := rfl
@[simp] theorem stepTo_outBitPos (n : Node) (b : Bool) (s : State) : (stepTo n b s).outBitPos = s.outBitPos := rfl
@[simp] theorem stepTo_symCount (n : Node) (b : Bool) (s : State) : (stepTo n b s).symCount = s.symCount := rfl
@[simp] theorem stepTo_nodeSel (n : Node) (b : Bool) (s : State) : (stepTo n b s).nodeSel = s.nodeSel := rfl
@[simp] theorem stepTo_inp (n : Node) (b : Bool) (s : State) : (stepTo n b s).inp = s.inp := rfl
@[simp] theorem stepTo_outErr (n : Node) (b : Bool) (s : State) : (stepTo n b s).outErr = s.outErr := rfl
@[simp] theorem stepTo_rst (n : Node) (b : Bool) (s : State) : (stepTo n b s).rst = s.rst := rfl
@[simp] theorem stepTo_args (n : Node) (b : Bool) (s : State) : (stepTo n b s).args = s.args := rfl
@[simp] theorem stepTo_res (n : Node) (b : Bool) (s : State) : (stepTo n b s).res = s.res := rfl
@[simp] theorem stepTo_rdData (n : Node) (b : Bool) (s : State) : (stepTo n b s).rdData = s.rdData := rfl
@[simp] theorem stepTo_freeCtr (n : Node) (b : Bool) (s : State) : (stepTo n b s).freeCtr = s.freeCtr := rfl
@[simp] theorem stepTo_sched (n : Node) (b : Bool) (s : State) : (stepTo n b s).sched = s.sched := rfl

/-! ### clearJob -/

@[simp] theorem clearJob_par (s : State) : (clearJob s).par = s.par := rfl
@[simp] theorem clearJob_nodes (s : State) : (clearJob s).nodes = s.nodes := rfl
@[simp] theorem clearJob_root (s : State) : (clearJob s).root = s.root := rfl
@[simp] theorem clearJob_nyt (s : State) : (clearJob s).nyt = s.nyt := rfl
@[simp] theorem clearJob_nextId (s : State) : (clearJob s).nextId = s.nextId := rfl
@[simp] theorem clearJob_map (s : State) : (clearJob s).map = s.map := rfl
@[simp] theorem clearJob_cur (s : State) : (clearJob s).cur = none := rfl
@[simp] theorem clearJob_symBuf (s : State) : (clearJob s).symBuf = [] := rfl
@[simp] theorem clearJob_found (s : State) : (clearJob s).found = false := rfl
@[simp] theorem clearJob_more (s : State) : (clearJob s).more = false := rfl
@[simp] theorem clearJob_emptyRec (s : State) : (clearJob s).emptyRec = false := rfl
@[simp] theorem clearJob_pathBuf (s : State) : (clearJob s).pathBuf = [] := rfl
@[simp] theorem clearJob_oacc (s : State) : (clearJob s).oacc = 0#8 := rfl
@[simp] theorem clearJob_ocnt (s : State) : (clearJob s).ocnt = 0 := rfl
@[simp] theorem clearJob_outClosed (s : State) : (clearJob s).outClosed = false := rfl
@[simp] theorem clearJob_out (s : State) : (clearJob s).out = [] := rfl
@[simp] theorem clearJob_symSize (s : State) : (clearJob s).symSize = s.symSize := rfl
@[simp] theorem clearJob_mode (s : State) : (clearJob s).mode = s.mode := rfl
@[simp] theorem clearJob_phase (s : State) : (clearJob s).phase = s.phase := rfl
@[simp] theorem clearJob_fcode (s : State) : (clearJob s).fcode = .none := rfl
@[simp] theorem clearJob_fuop (s : State) : (clearJob s).fuop = 0#6 := rfl
@[simp] theorem clearJob_fpos (s : State) : (clearJob s).fpos = 0 := rfl
@[simp] theorem clearJob_inBitPos (s : State) : (clearJob s).inBitPos = 0 := rfl
@[simp] theorem clearJob_outBitPos (s : State) : (clearJob s).outBitPos = 0 := rfl
@[simp] theorem clearJob_symCount (s : State) : (clearJob s).symCount = 0 := rfl
@[simp] theorem clearJob_nodeSel (s : State) : (clearJob s).nodeSel = s.nodeSel := rfl
@[simp] theorem clearJob_inp (s : State) : (clearJob s).inp = s.inp := rfl
@[simp] theorem clearJob_outErr (s : State) : (clearJob s).outErr = s.outErr := rfl
@[simp] theorem clearJob_rst (s : State) : (clearJob s).rst = s.rst := rfl
@[simp] theorem clearJob_args (s : State) : (clearJob s).args = s.args := rfl
@[simp] theorem clearJob_res (s : State) : (clearJob s).res = s.res := rfl
@[simp] theorem clearJob_rdData (s : State) : (clearJob s).rdData = s.rdData := rfl
@[simp] theorem clearJob_freeCtr (s : State) : (clearJob s).freeCtr = s.freeCtr := rfl
@[simp] theorem clearJob_sched (s : State) : (clearJob s).sched = s.sched := rfl

/-! ### The host's actions and the reset input -/

theorem fetch_low {s : State} {e : HostEvent} {r : List HostEvent} (h : s.sched = e :: r) (hr : s.rst = .low) :
    fetch s = hostAction e { s with sched := r } := by
  obtain ⟨⟩ := s
  simp only at h hr
  subst h hr
  cases e <;> rfl

/-- The oldest pending action, under any level of the reset input. -/
theorem fetch_cons {s : State} {e : HostEvent} {r : List HostEvent} (h : s.sched = e :: r) :
    fetch s = if e.ignored s.rst then .quiet { s with sched := r, rst := s.rst.clocked }
      else hostAction e { s with sched := r, rst := s.rst.clocked } := by
  simp [fetch, h]

/-! ### Handles as register numbers -/

/-- The width of R16: the k with `2^(k-1) < NODE_CAP <= 2^k`. -/
theorem handleWidth_eq {c k : Nat} (h : c ≤ 2 ^ k) (hk : k = 0 ∨ 2 ^ (k - 1) < c) : handleWidth c = k := by
  unfold handleWidth
  rcases Nat.eq_zero_or_pos k with rfl | hp
  · exact if_pos (by simpa using h)
  · have hk := hk.resolve_left (by omega)
    have : 1 ≤ 2 ^ (k - 1) := Nat.one_le_two_pow
    have : Nat.log2 (c - 1) = k - 1 := by
      rw [Nat.log2_eq_iff (by omega), Nat.sub_add_cancel hp]
      omega
    rw [if_neg (by omega), this]
    omega

theorem handleOf_none {p : Params} (h : p.nodeCap = none) (v : Nat) : handleOf p v = v := by simp [handleOf, h]

theorem handleOf_some {p : Params} {c : Nat} (h : p.nodeCap = some c) (v : Nat) :
    handleOf p v = v % 2 ^ handleWidth c := by simp [handleOf, h]

end Sys2Proof.Machine
end

