-- ==== Sys2Proof/Laws/Leader.lean ====
section
/-! SUPPORT. TREE.LEADER (42_tree.md R99): the search finds an entry of the greatest id among those it admits. -/

namespace Sys2Proof.Machine

variable {ns : Store}

theorem add_one_add (k j : Handle) : k + 1 + j = k + (j + 1) := Nat.succ_add_eq_add_succ k j

theorem maxId_some {keep : Handle → Node → Bool} {k g : Handle} {i : Int} (h : maxId keep k ns = some (g, i)) :
    ∃ j n, g = k + j ∧ ns[j]? = some n ∧ keep g n = true ∧ n.id = i ∧
      ∀ j' n', ns[j']? = some n' → keep (k + j') n' = true → n'.id ≤ i := by
  induction ns generalizing k g i with
  | nil => simp [maxId] at h
  | cons n ns ih =>
    rw [maxId] at h
    have none_below : maxId keep (k + 1) ns = none → ∀ j n', ns[j]? = some n' → keep (k + 1 + j) n' = false := by
      clear h ih
      induction ns generalizing k with
      | nil => intro _ j n' e; simp at e
      | cons m ns ih =>
        intro e j n' hj
        rw [maxId] at e
        split at e
        · split_ifs at e
        · rename_i h0
          split_ifs at e with hk
          cases j with
          | zero => simp at hj; subst hj; simpa using hk
          | succ j =>
            have := ih h0 j n' (by simpa using hj)
            rwa [add_one_add (k + 1) j] at this
    split at h
    · rename_i g' i' e
      obtain ⟨j, m, hg, hm, hkeep, hid, hmax⟩ := ih e
      split_ifs at h with hc
      · simp only [Bool.and_eq_true, decide_eq_true_eq] at hc
        cases h
        refine ⟨0, n, rfl, rfl, hc.1, rfl, fun j' n' hj' hk' => ?_⟩
        cases j' with
        | zero => simp at hj'; simp [hj']
        | succ j' =>
          have := hmax j' n' (by simpa using hj') (by rwa [add_one_add])
          exact this.trans hc.2.le
      · cases h
        refine ⟨j + 1, m, by rw [hg, add_one_add], by simpa using hm, hkeep, hid, fun j' n' hj' hk' => ?_⟩
        cases j' with
        | zero =>
          simp at hj'; subst hj'
          simp only [Nat.add_zero] at hk'
          simp only [hk', Bool.true_and, decide_eq_true_eq, not_lt] at hc
          exact hc
        | succ j' => exact hmax j' n' (by simpa using hj') (by rwa [add_one_add])
    · rename_i e
      split_ifs at h with hk
      cases h
      refine ⟨0, n, rfl, rfl, hk, rfl, fun j' n' hj' hk' => ?_⟩
      cases j' with
      | zero => simp at hj'; simp [hj']
      | succ j' =>
        have := none_below e j' n' (by simpa using hj')
        rw [add_one_add] at this
        rw [this] at hk'; cases hk'

theorem maxId_isSome {keep : Handle → Node → Bool} {k j : Handle} {n : Node} (hj : ns[j]? = some n)
    (hk : keep (k + j) n = true) : ∃ g i, maxId keep k ns = some (g, i) := by
  induction ns generalizing k j with
  | nil => simp at hj
  | cons m ns ih =>
    rw [maxId]
    cases e : maxId keep (k + 1) ns with
    | some p =>
      dsimp only
      split_ifs
      · exact ⟨_, _, rfl⟩
      · exact ⟨p.1, p.2, rfl⟩
    | none =>
      cases j with
      | zero => simp at hj; subst hj; simp at hk; simp [hk]
      | succ j =>
        obtain ⟨g, i, e'⟩ := ih (k := k + 1) (j := j) (by simpa using hj) (by rwa [add_one_add])
        rw [e] at e'; cases e'

/-- The search with the parent left out: the leader has the weight of `x`, is not its parent, and no other such entry
has a greater id. -/
theorem leader_excludeThenMax {par : Params} {x : Handle} {n : Node} (hr : par.leaderRule = .excludeThenMax)
    (hx : ns[x]? = some n) (hp : n.parent ≠ some x) : ∃ l m, leader par ns x = .ok l ∧ ns[l]? = some m ∧
      m.weight = n.weight ∧ n.parent ≠ some l ∧
      ∀ (h : Handle) (m' : Node), ns[h]? = some m' → m'.weight = n.weight → n.parent ≠ some h → m'.id ≤ m.id := by
  obtain ⟨g, i, e⟩ := maxId_isSome (k := 0) (keep := fun h m => m.weight == n.weight && some h != n.parent) hx
    (by simpa using hp.symm)
  obtain ⟨j, m, hg, hm, hkeep, hid, hmax⟩ := maxId_some e
  simp only [Nat.zero_add] at hg
  subst hg
  simp only [Bool.and_eq_true, beq_iff_eq, bne_iff_ne, ne_eq] at hkeep
  refine ⟨g, m, by simp [leader, hx, hr, e], hm, hkeep.1, fun q => hkeep.2 q.symm, fun h m' hh hw hq => ?_⟩
  rw [hid]
  exact hmax h m' hh (by simpa [hw] using fun q => hq q.symm)

/-- The other reading: the entry of greatest id of the weight of `x`, and `x` itself where that is its parent. -/
theorem leader_maxThenSkip {par : Params} {x : Handle} {n : Node} (hr : par.leaderRule = .maxThenSkip)
    (hx : ns[x]? = some n) : ∃ l m, ns[l]? = some m ∧ m.weight = n.weight ∧
      (∀ (h : Handle) (m' : Node), ns[h]? = some m' → m'.weight = n.weight → m'.id ≤ m.id) ∧
      leader par ns x = .ok (if n.parent = some l then x else l) := by
  obtain ⟨g, i, e⟩ := maxId_isSome (k := 0) (keep := fun _ m => m.weight == n.weight) hx (by simp)
  obtain ⟨j, m, hg, hm, hkeep, hid, hmax⟩ := maxId_some e
  simp only [Nat.zero_add] at hg
  subst hg
  refine ⟨g, m, hm, by simpa using hkeep, fun h m' hh hw => ?_, ?_⟩
  · rw [hid]; exact hmax h m' hh (by simpa using hw)
  · simp only [leader, hx, hr, e, eq_comm (a := some g)]

/-- Under either rule: an entry of the same weight that is not the parent. -/
theorem leader_ok (par : Params) {x : Handle} {n : Node} (hx : ns[x]? = some n) (hp : n.parent ≠ some x) :
    ∃ l m, leader par ns x = .ok l ∧ ns[l]? = some m ∧ m.weight = n.weight ∧ n.parent ≠ some l := by
  cases hr : par.leaderRule with
  | excludeThenMax =>
    obtain ⟨l, m, h1, h2, h3, h4, -⟩ := leader_excludeThenMax hr hx hp
    exact ⟨l, m, h1, h2, h3, h4⟩
  | maxThenSkip =>
    obtain ⟨l, m, h2, h3, -, h1⟩ := leader_maxThenSkip hr hx
    by_cases q : n.parent = some l
    · exact ⟨x, n, by rw [h1, if_pos q], hx, rfl, hp⟩
    · exact ⟨l, m, by rw [h1, if_neg q], h2, h3, q⟩

end Sys2Proof.Machine
end

