-- ==== Sys2Proof/Laws/Paths.lean ====
section
/-! SUPPORT. Paths in a tree: NODE.PATH finds the path from the root, a path's bits lead the walker back, and the
ancestor test of TREE.UPDATE is exact. -/

namespace Sys2Proof.Machine

variable {ns : Store} {root : Option Handle}

theorem PathTo.live {h : Handle} {bs : List Bool} (p : PathTo ns h bs) : h < ns.length := by
  cases p with
  | root e _ => exact (List.getElem?_eq_some_iff.mp e).1
  | step e _ _ _ => exact (List.getElem?_eq_some_iff.mp e).1

theorem PathTo.unique {h : Handle} {bs cs : List Bool} (p : PathTo ns h bs) (q : PathTo ns h cs) : bs = cs := by
  induction p generalizing cs with
  | root e hp =>
    cases q with
    | root _ _ => rfl
    | step e' hp' _ _ => rw [e] at e'; cases e'; rw [hp] at hp'; cases hp'
  | step e hp hpn _ ih =>
    cases q with
    | root e' hp' => rw [e] at e'; cases e'; rw [hp] at hp'; cases hp'
    | step e' hp' hpn' q' =>
      rw [e] at e'; cases e'
      rw [hp] at hp'; cases hp'
      rw [hpn] at hpn'; cases hpn'
      rw [ih q']

/-- On the way down every depth up to that of `h` is met. -/
theorem PathTo.at_depth {h : Handle} {bs : List Bool} (p : PathTo ns h bs) :
    ∀ k ≤ bs.length, ∃ g cs, PathTo ns g cs ∧ cs.length = k := by
  induction p with
  | root e hp =>
    intro k hk
    exact ⟨_, [], .root e hp, by simpa using Eq.symm (Nat.le_zero.mp hk)⟩
  | @step h p n pn bs e hp hpn q ih =>
    intro k hk
    by_cases hk' : k ≤ bs.length
    · exact ih k hk'
    · exact ⟨h, _, .step e hp hpn q, by simp at hk ⊢; omega⟩

/-- A path is shorter than the store is long: the entries on it are all different. -/
theorem PathTo.length_lt {h : Handle} {bs : List Bool} (p : PathTo ns h bs) : bs.length < ns.length := by
  choose! g cs hg hl using p.at_depth
  have inj : Set.InjOn g (Finset.range (bs.length + 1) : Set Nat) := by
    intro i hi j hj e
    have hi' : i ≤ bs.length := by simpa [Nat.lt_succ_iff] using hi
    have hj' : j ≤ bs.length := by simpa [Nat.lt_succ_iff] using hj
    have := (hg i hi').unique (e ▸ hg j hj')
    rw [← hl i hi', ← hl j hj', this]
  have maps : ∀ i ∈ Finset.range (bs.length + 1), g i ∈ Finset.range ns.length := by
    intro i hi
    simpa using (hg i (by simpa [Nat.lt_succ_iff] using hi)).live
  simpa [Nat.succ_le_iff] using Finset.card_le_card_of_injOn g maps inj

theorem pathUp_of_path {h : Handle} {bs : List Bool} (p : PathTo ns h bs) :
    ∀ fuel seq, bs.length < fuel → pathUp ns fuel h seq = .ok (bs ++ seq) := by
  induction p with
  | root e hp =>
    intro fuel seq hf
    obtain ⟨f, rfl⟩ : ∃ f, fuel = f + 1 := ⟨fuel - 1, by simp at hf; omega⟩
    simp [pathUp, e, hp]
  | @step h p n pn bs e hp hpn q ih =>
    intro fuel seq hf
    obtain ⟨f, rfl⟩ : ∃ f, fuel = f + 1 := ⟨fuel - 1, by omega⟩
    simp only [pathUp, e, hp, hpn]
    rw [ih f _ (by simp at hf; omega)]
    by_cases hl : pn.left = some h <;> simp [hl]

theorem path_of_pathUp : ∀ fuel h seq cs, pathUp ns fuel h seq = .ok cs → ∃ bs, PathTo ns h bs ∧ cs = bs ++ seq := by
  intro fuel
  induction fuel with
  | zero => intro h seq cs e; simp [pathUp] at e
  | succ f ih =>
    intro h seq cs e
    simp only [pathUp] at e
    split at e
    · cases e
    · rename_i n hn
      split at e
      · rename_i hp
        cases e
        exact ⟨[], .root hn hp, rfl⟩
      · rename_i p hp
        split at e
        · cases e
        · rename_i pn hpn
          obtain ⟨bs, hbs, rfl⟩ := ih _ _ _ e
          refine ⟨_, .step hn hp hpn hbs, ?_⟩
          by_cases hl : pn.left = some h <;> simp [hl]

/-- NODE.PATH (41_node.md R89) answers exactly the path from the root. -/
theorem nodePath_eq_ok_iff {h : Handle} {bs : List Bool} : nodePath ns h = .ok bs ↔ PathTo ns h bs := by
  constructor
  · intro e
    obtain ⟨cs, hcs, rfl⟩ := path_of_pathUp _ _ _ _ e
    simpa using hcs
  · intro p
    simpa [nodePath] using pathUp_of_path p (ns.length + 1) [] (Nat.lt_succ_of_lt p.length_lt)

theorem TreeShape.live_path (t : TreeShape ns root) {h : Handle} (hl : h < ns.length) :
    ∃ bs, nodePath ns h = .ok bs := by
  obtain ⟨bs, p⟩ := t.reaches_root h hl
  exact ⟨bs, nodePath_eq_ok_iff.mpr p⟩

/-! ### Walking back down -/

theorem follow_append (h : Option Handle) (bs cs : List Bool) : follow ns h (bs ++ cs) = follow ns (follow ns h bs) cs := by
  induction bs generalizing h with
  | nil => rfl
  | cons b bs ih => simp [follow, ih]

/-- The walk along the path of `h` from the root ends at `h` (45_decompress.md R137). -/
theorem TreeShape.follow_path (t : TreeShape ns root) {h : Handle} {bs : List Bool} (p : PathTo ns h bs) :
    follow ns root bs = some h := by
  induction p with
  | root e hp => simpa [follow] using t.only_root _ _ e hp
  | @step h p n pn bs e hp hpn q ih =>
    rw [follow_append, ih]
    obtain ⟨pn', hpn', hc⟩ := t.parent_child h n p e hp
    rw [hpn] at hpn'; cases hpn'
    by_cases hl : pn.left = some h
    · simp [follow, hpn, hl]
    · simp [follow, hpn, hl, hc.resolve_left hl]

/-! ### Ancestors -/

theorem Ancestor.trans {x y z : Handle} (p : Ancestor ns x y) (q : Ancestor ns y z) : Ancestor ns x z := by
  induction p with
  | parent e hp => exact .step e hp q
  | step e hp _ ih => exact .step e hp (ih q)

/-- An ancestor's path is shorter. -/
theorem Ancestor.path_lt {x l : Handle} (a : Ancestor ns x l) :
    ∀ {bs : List Bool}, PathTo ns x bs → ∃ cs, PathTo ns l cs ∧ cs.length < bs.length := by
  induction a with
  | parent e hp =>
    intro bs q
    cases q with
    | root e' hp' => rw [e] at e'; cases e'; rw [hp] at hp'; cases hp'
    | step e' hp' hpn q' =>
      rw [e] at e'; cases e'
      rw [hp] at hp'; cases hp'
      exact ⟨_, q', by simp⟩
  | step e hp _ ih =>
    intro bs q
    cases q with
    | root e' hp' => rw [e] at e'; cases e'; rw [hp] at hp'; cases hp'
    | step e' hp' hpn q' =>
      rw [e] at e'; cases e'
      rw [hp] at hp'; cases hp'
      obtain ⟨cs, hcs, hlt⟩ := ih q'
      exact ⟨cs, hcs, by simp; omega⟩

theorem not_ancestor_self {x : Handle} {bs : List Bool} (p : PathTo ns x bs) : ¬ Ancestor ns x x := by
  intro a
  obtain ⟨cs, hcs, hlt⟩ := a.path_lt p
  rw [hcs.unique p] at hlt
  exact lt_irrefl _ hlt

/-- In a tree the walk of `related` ends, and says whether `l` stands above `x`. -/
theorem properAncestor_eq {x l : Handle} {bs : List Bool} (p : PathTo ns x bs) : ∀ {fuel : Nat}, bs.length < fuel →
    ∃ b : Bool, properAncestor ns fuel x l = .ok b ∧ (b = true ↔ Ancestor ns x l) := by
  induction p with
  | root hn hp =>
    rintro (_ | f) hf
    · cases hf
    refine ⟨false, by simp [properAncestor, hn, hp], by simp, fun a => ?_⟩
    cases a with
    | parent e e' => rw [hn] at e; cases e; rw [hp] at e'; cases e'
    | step e e' => rw [hn] at e; cases e; rw [hp] at e'; cases e'
  | @step h p n pn cs hn hp hpn q ih =>
    rintro (_ | f) hf
    · cases hf
    by_cases e : p = l
    · subst e
      exact ⟨true, by simp [properAncestor, hn, hp], by simp [Ancestor.parent hn hp]⟩
    · obtain ⟨b, hb, hiff⟩ := ih (fuel := f) (by simp at hf; omega)
      refine ⟨b, by simp [properAncestor, hn, hp, e, hb], hiff.trans ⟨.step hn hp, fun a => ?_⟩⟩
      cases a with
      | parent e1 e2 => rw [hn] at e1; cases e1; rw [hp] at e2; cases e2; exact absurd rfl e
      | step e1 e2 a => rw [hn] at e1; cases e1; rw [hp] at e2; cases e2; exact a

/-- The test of TREE.UPDATE in a tree (42_tree.md R100): it answers, and is exact. -/
theorem TreeShape.related_cases (t : TreeShape ns root) {x l : Handle} (hx : x < ns.length) (hl : l < ns.length) :
    (related ns x l = .ok true ∧ (Ancestor ns x l ∨ Ancestor ns l x)) ∨
      (related ns x l = .ok false ∧ ¬ (Ancestor ns x l ∨ Ancestor ns l x)) := by
  obtain ⟨bx, px⟩ := t.reaches_root x hx
  obtain ⟨bl, pl⟩ := t.reaches_root l hl
  obtain ⟨b, hb, ib⟩ := properAncestor_eq (l := l) px px.length_lt
  obtain ⟨c, hc, ic⟩ := properAncestor_eq (l := x) pl pl.length_lt
  unfold related
  rw [hb, hc, ← ib, ← ic]
  cases b <;> cases c <;> simp

theorem TreeShape.related_iff (t : TreeShape ns root) {x l : Handle} (hx : x < ns.length) (hl : l < ns.length) :
    related ns x l = .ok true ↔ Ancestor ns x l ∨ Ancestor ns l x := by
  rcases t.related_cases hx hl with ⟨e, r⟩ | ⟨e, r⟩ <;> rw [e] <;> simp [r]

end Sys2Proof.Machine
end

