-- ==== Sys2Proof/Laws/Swap.lean ====
section
/-! SUPPORT. NODE.SWAP of two unrelated nodes of a tree: every entry afterwards, and that it is a tree again (41_node.md
R86, R90, R92). -/

namespace Sys2Proof.Machine

variable {ns : Store} {root : Option Handle}

@[simp] theorem swapHandle_left (a b : Handle) : swapHandle a b a = b := by simp [swapHandle]

@[simp] theorem swapHandle_right (a b : Handle) : swapHandle a b b = a := by
  unfold swapHandle; split <;> simp_all

theorem swapHandle_other {a b h : Handle} (ha : h ≠ a) (hb : h ≠ b) : swapHandle a b h = h := by
  simp [swapHandle, ha, hb]

@[simp] theorem swapHandle_swapHandle (a b h : Handle) : swapHandle a b (swapHandle a b h) = h := by
  unfold swapHandle; split_ifs <;> simp_all

theorem swapHandle_injective (a b : Handle) : Function.Injective (swapHandle a b) := fun x y e => by
  rw [← swapHandle_swapHandle a b x, e, swapHandle_swapHandle]

/-! ### Two nodes of a tree have different parents or different sides -/

theorem TreeShape.child_parent (t : TreeShape ns root) {h c : Handle} {n cn : Node} (hn : ns[h]? = some n)
    (hc : ns[c]? = some cn) (e : n.left = some c ∨ n.right = some c) : cn.parent = some h := by
  rcases e with e | e
  · obtain ⟨m, hm, hp⟩ := t.left_parent _ _ _ hn e
    rw [hc] at hm; cases hm; exact hp
  · obtain ⟨m, hm, hp⟩ := t.right_parent _ _ _ hn e
    rw [hc] at hm; cases hm; exact hp

theorem TreeShape.live_of_parent (t : TreeShape ns root) {h p : Handle} {n : Node} (hn : ns[h]? = some n)
    (hp : n.parent = some p) : ∃ pn, ns[p]? = some pn := by
  obtain ⟨pn, hpn, -⟩ := t.parent_child _ _ _ hn hp
  exact ⟨pn, hpn⟩

theorem TreeShape.no_self_parent (t : TreeShape ns root) {h : Handle} {n : Node} (hn : ns[h]? = some n) :
    n.parent ≠ some h := by
  intro hp
  obtain ⟨bs, p⟩ := t.reaches_root h (List.getElem?_eq_some_iff.mp hn).1
  exact not_ancestor_self p (.parent hn hp)

/-! ### The entries after the swap -/

section
variable {a b : Handle} {na nb : Node}

theorem Swappable.symm (w : Swappable ns a b na nb) : Swappable ns b a nb na :=
  ⟨w.at_b, w.at_a, w.ne.symm, w.parent_b, w.parent_a, w.not_below, w.not_above⟩

theorem nodeSwap_eq_ok (t : TreeShape ns root) (w : Swappable ns a b na nb) : ∃ ns', nodeSwap a b ns = .ok ns' ∧
    ∀ h, ns'[h]? = (ns[h]?).map (swappedNode a b na nb h) := by
  obtain ⟨ha, hb, hne, hpa, hpb, hab, hba⟩ := w
  obtain ⟨pa, hpa⟩ := Option.isSome_iff_exists.mp hpa
  obtain ⟨pb, hpb⟩ := Option.isSome_iff_exists.mp hpb
  obtain ⟨npa, hnpa, ca⟩ := t.parent_child _ _ _ ha hpa
  obtain ⟨npb, hnpb, cb⟩ := t.parent_child _ _ _ hb hpb
  have hpab : pa ≠ b := fun e => hab (.parent ha (e ▸ hpa))
  have hpba : pb ≠ a := fun e => hba (.parent hb (e ▸ hpb))
  have hpaa : pa ≠ a := fun e => t.no_self_parent ha (e ▸ hpa)
  have hpbb : pb ≠ b := fun e => t.no_self_parent hb (e ▸ hpb)
  simp only [nodeSwap, ha, hb, hne, hpa, hpb, hnpa, hnpb, if_false]
  refine ⟨_, rfl, fun h => ?_⟩
  cases hn : ns[h]? with
  | none => simp [setChild, List.getElem?_modify, hn]
  | some n =>
    -- a child link to `a` stands in entry `pa` only, and one to `b` in entry `pb` only
    have la : ∀ c, (n.left = some c ∨ n.right = some c) → c = a → h = pa := by
      rintro c e rfl
      have := t.child_parent hn ha e
      rw [hpa] at this; cases this; rfl
    have lb : ∀ c, (n.left = some c ∨ n.right = some c) → c = b → h = pb := by
      rintro c e rfl
      have := t.child_parent hn hb e
      rw [hpb] at this; cases this; rfl
    have sd := fun c => t.sides_differ _ _ c hn
    have same : h ≠ pa → h ≠ pb → n.left.map (swapHandle a b) = n.left ∧ n.right.map (swapHandle a b) = n.right := by
      intro n1 n2
      constructor
      · cases e : n.left with
        | none => rfl
        | some c =>
          rw [Option.map_some, swapHandle_other (fun q => n1 (la c (.inl e) q)) (fun q => n2 (lb c (.inl e) q))]
      · cases e : n.right with
        | none => rfl
        | some c =>
          rw [Option.map_some, swapHandle_other (fun q => n1 (la c (.inr e) q)) (fun q => n2 (lb c (.inr e) q))]
    have other : ∀ {c}, c ≠ a → c ≠ b → swapHandle a b c = c := swapHandle_other
    rw [Option.map_some]
    simp only [setChild, List.getElem?_modify, hn]
    by_cases e1 : pa = h
    · subst e1
      rw [hnpa] at hn; cases hn
      by_cases e2 : pb = pa
      · subst e2
        rw [hnpa] at hnpb; cases hnpb
        rcases ca with ca | ca
        · have cb' : npa.right = some b := by
            rcases cb with cb | cb
            · rw [ca] at cb; cases cb; exact absurd rfl hne
            · exact cb
          simp [swappedNode, ca, cb', hpaa.symm, hpbb.symm, hne, hpaa, hpbb]
        · have cb' : npa.left = some b := by
            rcases cb with cb | cb
            · exact cb
            · rw [ca] at cb; cases cb; exact absurd rfl hne
          have hba' : ¬ b = a := hne.symm
          simp [swappedNode, ca, cb', hpaa.symm, hpbb.symm, hpaa, hpbb, hba']
      · have nb' : ∀ c, (npa.left = some c ∨ npa.right = some c) → c ≠ b := fun c e q => e2 (lb c e q).symm
        rcases ca with ca | ca
        · have nr : ∀ c, npa.right = some c → c ≠ a := fun c e q => sd a ca (q ▸ e)
          have er : npa.right.map (swapHandle a b) = npa.right := by
            cases e : npa.right with
            | none => rfl
            | some c => rw [Option.map_some, other (nr c e) (nb' c (.inr e))]
          simp [swappedNode, ca, hpaa.symm, hpab.symm, er, e2, hpaa, hpab]
        · have nl : ∀ c, npa.left = some c → c ≠ a := fun c e q => sd c e (q ▸ ca)
          have el : npa.left.map (swapHandle a b) = npa.left := by
            cases e : npa.left with
            | none => rfl
            | some c => rw [Option.map_some, other (nl c e) (nb' c (.inl e))]
          have hl : ¬ npa.left = some a := fun e => nl a e rfl
          simp [swappedNode, ca, hpaa.symm, hpab.symm, el, e2, hpaa, hpab, hl]
    · by_cases e2 : pb = h
      · subst e2
        rw [hnpb] at hn; cases hn
        have na' : ∀ c, (npb.left = some c ∨ npb.right = some c) → c ≠ a := fun c e q => e1 (la c e q).symm
        rcases cb with cb | cb
        · have nr : ∀ c, npb.right = some c → c ≠ b := fun c e q => sd b cb (q ▸ e)
          have er : npb.right.map (swapHandle a b) = npb.right := by
            cases e : npb.right with
            | none => rfl
            | some c => rw [Option.map_some, other (na' c (.inr e)) (nr c e)]
          simp [swappedNode, cb, hpba.symm, hpbb.symm, er, e1, hpba, hpbb]
        · have nl : ∀ c, npb.left = some c → c ≠ b := fun c e q => sd c e (q ▸ cb)
          have el : npb.left.map (swapHandle a b) = npb.left := by
            cases e : npb.left with
            | none => rfl
            | some c => rw [Option.map_some, other (na' c (.inl e)) (nl c e)]
          have hl : ¬ npb.left = some b := fun e => nl b e rfl
          simp [swappedNode, cb, hpba.symm, hpbb.symm, el, e1, hpba, hpbb, hl]
      · obtain ⟨el, er⟩ := same (fun q => e1 q.symm) (fun q => e2 q.symm)
        by_cases ea : a = h
        · subst ea
          rw [ha] at hn; cases hn
          simp [swappedNode, el, er, e1, e2, hpb, hne.symm]
        · by_cases eb : b = h
          · subst eb
            rw [hb] at hn; cases hn
            simp [swappedNode, el, er, e1, e2, hpa, hne, hne.symm]
          · have ea' : ¬ h = a := fun q => ea q.symm
            have eb' : ¬ h = b := fun q => eb q.symm
            simp [swappedNode, el, er, e1, e2, ea, eb, ea', eb']

/-! ### The tree after the swap -/

variable {ns' : Store}

theorem length_eq_of_get {f : Handle → Node → Node} (e : ∀ h, ns'[h]? = (ns[h]?).map (f h)) : ns'.length = ns.length := by
  apply Nat.le_antisymm
  · by_contra h
    have := e ns.length
    rw [List.getElem?_eq_none (le_refl _), List.getElem?_eq_getElem (by omega)] at this
    cases this
  · by_contra h
    have := e ns'.length
    rw [List.getElem?_eq_none (le_refl _), List.getElem?_eq_getElem (by omega : ns'.length < ns.length)] at this
    cases this

/-- A path that meets neither operand is a path after the swap too. -/
theorem PathTo.swap_of_apart (e : ∀ h, ns'[h]? = (ns[h]?).map (swappedNode a b na nb h)) {h : Handle} {bs : List Bool}
    (p : PathTo ns h bs) :
    h ≠ a → h ≠ b → ¬ Ancestor ns h a → ¬ Ancestor ns h b → ∃ cs, PathTo ns' h cs ∧ cs.length = bs.length := by
  induction p with
  | @root h n hn hp =>
    intro h1 h2 _ _
    exact ⟨[], .root (by rw [e, hn]; rfl) (by simp [swappedNode, h1, h2, hp]), rfl⟩
  | @step h p n pn bs hn hp hpn q ih =>
    intro h1 h2 h3 h4
    have p1 : p ≠ a := fun q => h3 (q ▸ .parent hn hp)
    have p2 : p ≠ b := fun q => h4 (q ▸ .parent hn hp)
    obtain ⟨cs, hcs, hl⟩ := ih p1 p2 (fun q => h3 (.step hn hp q)) (fun q => h4 (.step hn hp q))
    exact ⟨_, .step (by rw [e, hn]; rfl) (by simp [swappedNode, h1, h2, hp]) (by rw [e, hpn]; rfl) hcs, by simp [hl]⟩

theorem Swappable.shape (t : TreeShape ns root) (w : Swappable ns a b na nb)
    (e : ∀ h, ns'[h]? = (ns[h]?).map (swappedNode a b na nb h)) : TreeShape ns' root := by
  obtain ⟨ha, hb, hne, hpa, hpb, hab, hba⟩ := w
  obtain ⟨pa, hpa⟩ := Option.isSome_iff_exists.mp hpa
  obtain ⟨pb, hpb⟩ := Option.isSome_iff_exists.mp hpb
  have get : ∀ {h n'}, ns'[h]? = some n' → ∃ n, ns[h]? = some n ∧ n' = swappedNode a b na nb h n := by
    intro h n' hn'
    rw [e] at hn'
    obtain ⟨n, hn, rfl⟩ := Option.map_eq_some_iff.mp hn'
    exact ⟨n, hn, rfl⟩
  have put : ∀ {h n}, ns[h]? = some n → ns'[h]? = some (swappedNode a b na nb h n) := by
    intro h n hn; rw [e, hn]; rfl
  -- the parent of `h` afterwards is the parent that the handle exchanged with `h` had
  have par : ∀ {h n}, ns[h]? = some n → ∃ m, ns[swapHandle a b h]? = some m ∧ (swappedNode a b na nb h n).parent = m.parent := by
    intro h n hn
    by_cases h1 : h = a
    · subst h1; exact ⟨nb, by simpa using hb, by simp [swappedNode]⟩
    · by_cases h2 : h = b
      · subst h2; exact ⟨na, by simpa using ha, by simp [swappedNode, h1]⟩
      · exact ⟨n, by rw [swapHandle_other h1 h2]; exact hn, by simp [swappedNode, h1, h2]⟩
  have child : ∀ {h n c}, ns[h]? = some n → (n.left = some (swapHandle a b c) ∨ n.right = some (swapHandle a b c)) →
      ∃ cn, ns'[c]? = some cn ∧ cn.parent = some h := by
    intro h n c hn hc
    have hm : ∃ m, ns[swapHandle a b c]? = some m ∧ m.parent = some h := by
      rcases hc with hc | hc
      · exact t.left_parent _ _ _ hn hc
      · exact t.right_parent _ _ _ hn hc
    obtain ⟨m, hm, hmp⟩ := hm
    have hc : ∃ cn, ns[c]? = some cn := by
      by_cases c1 : c = a
      · exact ⟨na, c1 ▸ ha⟩
      · by_cases c2 : c = b
        · exact ⟨nb, c2 ▸ hb⟩
        · rw [swapHandle_other c1 c2] at hm; exact ⟨m, hm⟩
    obtain ⟨cn, hcn⟩ := hc
    obtain ⟨m', hm', hp'⟩ := par hcn
    rw [hm] at hm'; cases hm'
    exact ⟨_, put hcn, by rw [hp', hmp]⟩
  -- every entry but those under the operands keeps its path
  have up : ∀ {h}, h < ns.length → h ≠ a → h ≠ b → ¬ Ancestor ns h a → ¬ Ancestor ns h b → ∃ cs, PathTo ns' h cs := by
    intro h hl h1 h2 h3 h4
    obtain ⟨bs, p⟩ := t.reaches_root h hl
    obtain ⟨cs, hcs, -⟩ := p.swap_of_apart e h1 h2 h3 h4
    exact ⟨cs, hcs⟩
  have hl : ∀ {h n}, ns[h]? = some n → h < ns.length := fun hn => (List.getElem?_eq_some_iff.mp hn).1
  obtain ⟨bsa, qa⟩ := t.reaches_root a (hl ha)
  obtain ⟨bsb, qb⟩ := t.reaches_root b (hl hb)
  obtain ⟨npa, hnpa, -⟩ := t.parent_child _ _ _ ha hpa
  obtain ⟨npb, hnpb, -⟩ := t.parent_child _ _ _ hb hpb
  have upa : ∃ cs, PathTo ns' pa cs := up (hl hnpa) (fun q => t.no_self_parent ha (by rw [hpa, q]))
    (fun q => hab (q ▸ .parent ha hpa)) (fun q => not_ancestor_self qa (.step ha hpa q)) (fun q => hab (.step ha hpa q))
  have upb : ∃ cs, PathTo ns' pb cs := up (hl hnpb) (fun q => hba (q ▸ .parent hb hpb))
    (fun q => t.no_self_parent hb (by rw [hpb, q])) (fun q => hba (.step hb hpb q))
    (fun q => not_ancestor_self qb (.step hb hpb q))
  refine ⟨?_, ?_, ?_, ?_, ?_, ?_, ?_, ?_⟩
  · obtain ⟨r, n, hr, hn, hp⟩ := t.root_live
    obtain ⟨m, hm, hp'⟩ := par hn
    refine ⟨r, _, hr, put hn, ?_⟩
    have r1 : r ≠ a := by rintro rfl; rw [ha] at hn; cases hn; rw [hpa] at hp; cases hp
    have r2 : r ≠ b := by rintro rfl; rw [hb] at hn; cases hn; rw [hpb] at hp; cases hp
    simp [swappedNode, r1, r2, hp]
  · intro h n' hn' hp
    obtain ⟨n, hn, rfl⟩ := get hn'
    by_cases h1 : h = a
    · simp [swappedNode, h1, hpb] at hp
    · by_cases h2 : h = b
      · simp [swappedNode, h2, hne.symm, hpa] at hp
      · exact t.only_root _ _ hn (by simpa [swappedNode, h1, h2] using hp)
  · intro h n' p hn' hp
    obtain ⟨n, hn, rfl⟩ := get hn'
    obtain ⟨m, hm, hmp⟩ := par hn
    rw [hmp] at hp
    obtain ⟨pn, hpn, hc⟩ := t.parent_child _ _ _ hm hp
    refine ⟨_, put hpn, ?_⟩
    rcases hc with hc | hc
    · exact .inl (by simp [swappedNode, hc])
    · exact .inr (by simp [swappedNode, hc])
  · intro h n' c hn' hc
    obtain ⟨n, hn, rfl⟩ := get hn'
    obtain ⟨d, hd, rfl⟩ := Option.map_eq_some_iff.mp (show n.left.map (swapHandle a b) = some c from hc)
    exact child hn (.inl (by simpa using hd))
  · intro h n' c hn' hc
    obtain ⟨n, hn, rfl⟩ := get hn'
    obtain ⟨d, hd, rfl⟩ := Option.map_eq_some_iff.mp (show n.right.map (swapHandle a b) = some c from hc)
    exact child hn (.inr (by simpa using hd))
  · intro h n' hn'
    obtain ⟨n, hn, rfl⟩ := get hn'
    simpa [swappedNode] using t.both_or_none _ _ hn
  · intro h n' c hn' hc hc'
    obtain ⟨n, hn, rfl⟩ := get hn'
    obtain ⟨d, hd, rfl⟩ := Option.map_eq_some_iff.mp (show n.left.map (swapHandle a b) = some c from hc)
    obtain ⟨d', hd', e'⟩ := Option.map_eq_some_iff.mp (show n.right.map (swapHandle a b) = some _ from hc')
    rw [swapHandle_injective a b e'] at hd'
    exact t.sides_differ _ _ _ hn hd hd'
  · rw [length_eq_of_get e]
    intro h hlt
    obtain ⟨bs, p⟩ := t.reaches_root h hlt
    clear hlt
    induction p with
    | @root h n hn hp =>
      have r1 : h ≠ a := by rintro rfl; rw [ha] at hn; cases hn; rw [hpa] at hp; cases hp
      have r2 : h ≠ b := by rintro rfl; rw [hb] at hn; cases hn; rw [hpb] at hp; cases hp
      exact ⟨[], .root (put hn) (by simp [swappedNode, r1, r2, hp])⟩
    | @step h p n pn bs hn hp hpn q ih =>
      by_cases h1 : h = a
      · subst h1
        obtain ⟨cs, hcs⟩ := upb
        exact ⟨_, .step (put hn) (by simp [swappedNode, hpb]) (put hnpb) hcs⟩
      · by_cases h2 : h = b
        · subst h2
          obtain ⟨cs, hcs⟩ := upa
          exact ⟨_, .step (put hn) (by simp [swappedNode, h1, hpa]) (put hnpa) hcs⟩
        · obtain ⟨cs, hcs⟩ := ih
          exact ⟨_, .step (put hn) (by simp [swappedNode, h1, h2, hp]) (put hpn) hcs⟩

/-- Above an entry that is under neither operand, the ancestors are the same after the swap. -/
theorem ancestor_swap_of_apart (e : ∀ h, ns'[h]? = (ns[h]?).map (swappedNode a b na nb h)) {h y : Handle}
    (h1 : h ≠ a) (h2 : h ≠ b) (h3 : ¬ Ancestor ns h a) (h4 : ¬ Ancestor ns h b) : Ancestor ns' h y ↔ Ancestor ns h y := by
  constructor
  · intro q
    induction q with
    | @parent x l n' hn' hp =>
      rw [e] at hn'
      obtain ⟨n, hn, rfl⟩ := Option.map_eq_some_iff.mp hn'
      exact .parent hn (by simpa [swappedNode, h1, h2] using hp)
    | @step x p l n' hn' hp _ ih =>
      rw [e] at hn'
      obtain ⟨n, hn, rfl⟩ := Option.map_eq_some_iff.mp hn'
      have hp' : n.parent = some p := by simpa [swappedNode, h1, h2] using hp
      exact .step hn hp' (ih (fun q => h3 (q ▸ .parent hn hp')) (fun q => h4 (q ▸ .parent hn hp'))
        (fun q => h3 (.step hn hp' q)) (fun q => h4 (.step hn hp' q)))
  · intro q
    induction q with
    | @parent x l n hn hp => exact .parent (by rw [e, hn]; rfl) (by simp [swappedNode, h1, h2, hp])
    | @step x p l n hn hp _ ih =>
      exact .step (by rw [e, hn]; rfl) (by simp [swappedNode, h1, h2, hp])
        (ih (fun q => h3 (q ▸ .parent hn hp)) (fun q => h4 (q ▸ .parent hn hp))
          (fun q => h3 (.step hn hp q)) (fun q => h4 (.step hn hp q)))

end

end Sys2Proof.Machine
end

