-- ==== Sys2Proof/Laws/Update.lean ====
section
/-! SUPPORT. TREE.UPDATE with the parent captured before the swap (42_tree.md R98 to R103): one pass, and the whole
chain. -/

namespace Sys2Proof.Machine

variable {ns ns' ns'' : Store} {root : Option Handle}

/-! ### Stores with the same links -/

theorem getElem?_bump (x h : Handle) (ns : Store) :
    (bump x ns)[h]? = (ns[h]?).map fun n => if h = x then { n with weight := n.weight + 1 } else n := by
  rw [bump, List.getElem?_modify]
  by_cases e : x = h
  · subst e; simp
  · have : ¬ h = x := fun q => e q.symm
    simp [e, this]

@[simp] theorem length_bump (x : Handle) (ns : Store) : (bump x ns).length = ns.length := by simp [bump]

theorem map_id_bump (x : Handle) (ns : Store) : (bump x ns).map Node.id = ns.map Node.id := by
  apply List.ext_getElem?
  intro h
  rw [List.getElem?_map, List.getElem?_map, getElem?_bump]
  cases ns[h]? with
  | none => rfl
  | some n => by_cases e : h = x <;> simp [e]

/-- The parent, left and right links of every entry are the same. -/
def SameLinks (ns ns' : Store) : Prop :=
  ∀ h : Handle, (ns'[h]?).map (fun n => (n.parent, n.left, n.right)) = (ns[h]?).map fun n => (n.parent, n.left, n.right)

theorem SameLinks.symm (e : SameLinks ns ns') : SameLinks ns' ns := fun h => (e h).symm

theorem SameLinks.get (e : SameLinks ns ns') {h : Handle} {n : Node} (hn : ns[h]? = some n) :
    ∃ n', ns'[h]? = some n' ∧ n'.parent = n.parent ∧ n'.left = n.left ∧ n'.right = n.right := by
  have := e h
  rw [hn, Option.map_some] at this
  obtain ⟨n', hn', he⟩ := Option.map_eq_some_iff.mp this
  simp only [Prod.mk.injEq] at he
  exact ⟨n', hn', he⟩

theorem SameLinks.length (e : SameLinks ns ns') : ns'.length = ns.length := by
  apply Nat.le_antisymm
  · by_contra h
    have := e ns.length
    rw [List.getElem?_eq_none (le_refl _), List.getElem?_eq_getElem (by omega)] at this
    cases this
  · by_contra h
    have := e ns'.length
    rw [List.getElem?_eq_none (le_refl _), List.getElem?_eq_getElem (by omega : ns'.length < ns.length)] at this
    cases this

theorem sameLinks_bump (x : Handle) (ns : Store) : SameLinks ns (bump x ns) := by
  intro h
  rw [getElem?_bump]
  cases ns[h]? with
  | none => rfl
  | some n => by_cases e : h = x <;> simp [e]

theorem SameLinks.path (e : SameLinks ns ns') {h : Handle} {bs : List Bool} (p : PathTo ns h bs) : PathTo ns' h bs := by
  induction p with
  | root hn hp =>
    obtain ⟨n', hn', hp', -⟩ := e.get hn
    exact .root hn' (hp'.trans hp)
  | @step h p n pn bs hn hp hpn _ ih =>
    obtain ⟨n', hn', hp', -⟩ := e.get hn
    obtain ⟨pn', hpn', -, hl, -⟩ := e.get hpn
    rw [← hl]
    exact .step hn' (hp'.trans hp) hpn' ih

theorem SameLinks.ancestor (e : SameLinks ns ns') {x l : Handle} (a : Ancestor ns x l) : Ancestor ns' x l := by
  induction a with
  | parent hn hp =>
    obtain ⟨n', hn', hp', -⟩ := e.get hn
    exact .parent hn' (hp'.trans hp)
  | step hn hp _ ih =>
    obtain ⟨n', hn', hp', -⟩ := e.get hn
    exact .step hn' (hp'.trans hp) ih

theorem SameLinks.ancestor_iff (e : SameLinks ns ns') {x l : Handle} : Ancestor ns' x l ↔ Ancestor ns x l :=
  ⟨e.symm.ancestor, e.ancestor⟩

theorem SameLinks.shape (e : SameLinks ns ns') (t : TreeShape ns root) : TreeShape ns' root := by
  refine ⟨?_, ?_, ?_, ?_, ?_, ?_, ?_, ?_⟩
  · obtain ⟨r, n, hr, hn, hp⟩ := t.root_live
    obtain ⟨n', hn', hp', -⟩ := e.get hn
    exact ⟨r, n', hr, hn', hp'.trans hp⟩
  · intro h n' hn' hp
    obtain ⟨n, hn, hp', -⟩ := e.symm.get hn'
    exact t.only_root h n hn (hp'.trans hp)
  · intro h n' p hn' hp
    obtain ⟨n, hn, hp', -⟩ := e.symm.get hn'
    obtain ⟨pn, hpn, hc⟩ := t.parent_child h n p hn (hp'.trans hp)
    obtain ⟨pn', hpn', -, hl, hr⟩ := e.get hpn
    exact ⟨pn', hpn', by rwa [hl, hr]⟩
  · intro h n' c hn' hc
    obtain ⟨n, hn, -, hl, -⟩ := e.symm.get hn'
    obtain ⟨cn, hcn, hp⟩ := t.left_parent h n c hn (hl.trans hc)
    obtain ⟨cn', hcn', hp', -⟩ := e.get hcn
    exact ⟨cn', hcn', hp'.trans hp⟩
  · intro h n' c hn' hc
    obtain ⟨n, hn, -, -, hr⟩ := e.symm.get hn'
    obtain ⟨cn, hcn, hp⟩ := t.right_parent h n c hn (hr.trans hc)
    obtain ⟨cn', hcn', hp', -⟩ := e.get hcn
    exact ⟨cn', hcn', hp'.trans hp⟩
  · intro h n' hn'
    obtain ⟨n, hn, -, hl, hr⟩ := e.symm.get hn'
    rw [← hl, ← hr]; exact t.both_or_none h n hn
  · intro h n' c hn' hc
    obtain ⟨n, hn, -, hl, hr⟩ := e.symm.get hn'
    rw [← hr]; exact t.sides_differ h n c hn (hl.trans hc)
  · intro h hh
    obtain ⟨bs, p⟩ := t.reaches_root h (by rwa [← e.length])
    exact ⟨bs, e.path p⟩

/-! ### Rebuilt trees -/

theorem Rebuilt.get {up : Handle → Prop} (r : Rebuilt ns ns' root up) {h : Handle} {n : Node} (hn : ns[h]? = some n) :
    ∃ n', ns'[h]? = some n' := by
  have : h < ns'.length := by rw [r.length]; exact (List.getElem?_eq_some_iff.mp hn).1
  exact ⟨ns'[h], List.getElem?_eq_getElem this⟩

theorem Rebuilt.get' {up : Handle → Prop} (r : Rebuilt ns ns' root up) {h : Handle} {n' : Node} (hn : ns'[h]? = some n') :
    ∃ n, ns[h]? = some n := by
  have : h < ns.length := by rw [← r.length]; exact (List.getElem?_eq_some_iff.mp hn).1
  exact ⟨ns[h], List.getElem?_eq_getElem this⟩

theorem Rebuilt.refl (t : TreeShape ns root) : Rebuilt ns ns root fun _ => False := by
  refine ⟨t, rfl, ?_, ?_, ?_, ?_, .refl _, ?_⟩
  all_goals intro h n n' hn hn'; rw [hn] at hn'; cases hn'; simp

theorem Rebuilt.congr {A B : Handle → Prop} (r : Rebuilt ns ns' root A) (e : ∀ h, A h ↔ B h) : Rebuilt ns ns' root B := by
  have : A = B := funext fun h => propext (e h)
  rwa [← this]

theorem Rebuilt.trans {A B : Handle → Prop} (r : Rebuilt ns ns' root A) (q : Rebuilt ns' ns'' root B)
    (d : ∀ h, A h → ¬ B h) (z : ∀ h n, A h → ns[h]? = some n → n.weight ≠ 0) :
    Rebuilt ns ns'' root fun h => A h ∨ B h := by
  refine ⟨q.shape, q.length.trans r.length, ?_, ?_, ?_, ?_, q.ids.trans r.ids, ?_⟩
  all_goals
    intro h n n'' hn hn''
    obtain ⟨n', hn'⟩ := r.get hn
  · rw [q.sym h _ _ hn' hn'', r.sym h _ _ hn hn']
  · rw [q.leaf h _ _ hn' hn'', r.leaf h _ _ hn hn']
  · rintro (a | b)
    · rw [q.kept h _ _ hn' hn'' (d h a), r.raised h _ _ hn hn' a]
    · rw [q.raised h _ _ hn' hn'' b, r.kept h _ _ hn hn' fun a => d h a b]
  · intro c
    rw [q.kept h _ _ hn' hn'' fun b => c (.inr b), r.kept h _ _ hn hn' fun a => c (.inl a)]
  · intro c
    have w : n'.weight = 0 ∨ root = some h := c.imp_left fun w => by
      rw [r.kept h _ _ hn hn' fun a => z h n a hn w, w]
    rw [q.id_kept h _ _ hn' hn'' w, r.id_kept h _ _ hn hn' c]

theorem rebuilt_bump (t : TreeShape ns root) (x : Handle) : Rebuilt ns (bump x ns) root (· = x) := by
  refine ⟨(sameLinks_bump x ns).shape t, length_bump x ns, ?_, ?_, ?_, ?_, by rw [map_id_bump], ?_⟩
  all_goals
    intro h n n' hn hn'
    rw [getElem?_bump, hn, Option.map_some] at hn'
    cases hn'
  · split <;> rfl
  · split <;> rfl
  · intro e; simp [e]
  · intro e; simp [e]
  · intro _; split <;> rfl

/-- A swap exchanges ids only. -/
theorem Swappable.ids {a b : Handle} {na nb : Node} (w : Swappable ns a b na nb)
    (e : ∀ h, ns'[h]? = (ns[h]?).map (swappedNode a b na nb h)) : (ns'.map Node.id).Perm (ns.map Node.id) := by
  have ha := (List.getElem?_eq_some_iff.mp w.at_a)
  have hb := (List.getElem?_eq_some_iff.mp w.at_b)
  obtain ⟨la, ea⟩ := ha
  obtain ⟨lb, eb⟩ := hb
  have hl := length_eq_of_get e
  have hla : a < (ns.map Node.id).length := by simpa using la
  have hlb : b < (ns.map Node.id).length := by simpa using lb
  have key : ns'.map Node.id = ((ns.map Node.id).set a (ns.map Node.id)[b]).set b (ns.map Node.id)[a] := by
    apply List.ext_getElem?
    intro h
    rw [List.getElem?_map, e, List.getElem?_set, List.getElem?_set, List.getElem?_map]
    cases hn : ns[h]? with
    | none =>
      have : ns.length ≤ h := List.getElem?_eq_none_iff.mp hn
      rw [if_neg (by omega), if_neg (by omega)]; rfl
    | some n =>
      have hlt := (List.getElem?_eq_some_iff.mp hn).1
      by_cases h1 : b = h
      · subst h1
        have : ¬ b = a := w.ne.symm
        simp [swappedNode, this, ea, lb]
      · by_cases h2 : a = h
        · subst h2
          simp [swappedNode, h1, eb, la]
        · have h1' : ¬ h = b := fun q => h1 q.symm
          have h2' : ¬ h = a := fun q => h2 q.symm
          simp [swappedNode, h1, h2, h1', h2']
  rw [key]
  exact List.set_set_perm hla hlb

/-- A swap of two unrelated nodes of equal, nonzero weight. -/
theorem rebuilt_swap {a b : Handle} {na nb : Node} (t : TreeShape ns root) (w : Swappable ns a b na nb)
    (e : ∀ h, ns'[h]? = (ns[h]?).map (swappedNode a b na nb h)) (za : na.weight ≠ 0) (zb : nb.weight ≠ 0) :
    Rebuilt ns ns' root fun _ => False := by
  have rootNe : ∀ {h n}, ns[h]? = some n → n.parent.isSome → root ≠ some h := by
    intro h n hn hp q
    obtain ⟨r, m, hr, hm, hmp⟩ := t.root_live
    rw [q] at hr; cases hr
    rw [hn] at hm; cases hm
    rw [hmp] at hp; cases hp
  refine ⟨w.shape t e, length_eq_of_get e, ?_, ?_, ?_, ?_, w.ids e, ?_⟩
  all_goals
    intro h n n' hn hn'
    rw [e, hn, Option.map_some] at hn'
    cases hn'
  · rfl
  · simp [swappedNode, Node.isLeaf]
  · intro f; exact f.elim
  · intro _; rfl
  · intro c
    have h1 : h ≠ a := by
      rintro rfl
      have := w.at_a; rw [hn] at this; cases this
      exact c.elim za (rootNe hn w.parent_a)
    have h2 : h ≠ b := by
      rintro rfl
      have := w.at_b; rw [hn] at this; cases this
      exact c.elim zb (rootNe hn w.parent_b)
    simp [swappedNode, h1, h2]

/-! ### One pass -/

theorem incWeight_eq (ns : Store) (x : Handle) (n : Node) (goOn : Store → Restructured) :
    incWeight ns x n goOn = if n.weight = 2 ^ Config.weightWidth - 1 then .weightOvf ns else goOn (bump x ns) := rfl

/-- Everything one pass at `x`, with parent `p`, can do: stop with F5, nothing changed; or swap `x` with its leader, if
that is another entry, and then stop with F7 or raise `x` and go on at `p`, above which nothing has changed. -/
theorem treeUpdate_pass {par : Params} (hc : par.updateChain = .original) (t : TreeShape ns root) {x p : Handle} {n : Node}
    (hx : ns[x]? = some n) (hp : n.parent = some p) (hz : n.weight ≠ 0) :
    ∃ l m, leader par ns x = .ok l ∧ ns[l]? = some m ∧ m.weight = n.weight ∧ l ≠ p ∧
      ((l ≠ x ∧ (Ancestor ns x l ∨ Ancestor ns l x) ∧ ∀ f, treeUpdate par (f + 1) ns (some x) = .swapRelated ns) ∨
        ∃ ns1, ((l = x ∧ ns1 = ns) ∨
            (Swappable ns x l n m ∧ ∀ h, ns1[h]? = (ns[h]?).map (swappedNode x l n m h))) ∧
          Rebuilt ns ns1 root (fun _ => False) ∧ (∀ y, Ancestor ns1 p y ↔ Ancestor ns p y) ∧
          ((n.weight = 2 ^ Config.weightWidth - 1 ∧ ∀ f, treeUpdate par (f + 1) ns (some x) = .weightOvf ns1) ∨
            (n.weight ≠ 2 ^ Config.weightWidth - 1 ∧
              ∀ f, treeUpdate par (f + 1) ns (some x) = treeUpdate par f (bump x ns1) (some p)))) := by
  have hself : n.parent ≠ some x := t.no_self_parent hx
  obtain ⟨l, m, hl, hm, hw, hlp⟩ := leader_ok par hx hself
  rw [hp] at hlp
  have hlp' : l ≠ p := fun q => hlp (by rw [q])
  obtain ⟨bx, qx⟩ := t.reaches_root x (List.getElem?_eq_some_iff.mp hx).1
  refine ⟨l, m, hl, hm, hw, hlp', ?_⟩
  by_cases e : l = x
  · refine .inr ⟨ns, .inl ⟨e, rfl⟩, .refl t, fun _ => .rfl, ?_⟩
    by_cases ew : n.weight = 2 ^ Config.weightWidth - 1
    · exact .inl ⟨ew, fun f => by simp [treeUpdate, hx, hp, hl, e, incWeight_eq, ew]⟩
    · exact .inr ⟨ew, fun f => by simp [treeUpdate, hx, hp, hl, e, incWeight_eq, ew]⟩
  · obtain ⟨er, rel⟩ | ⟨er, nr⟩ := t.related_cases (List.getElem?_eq_some_iff.mp hx).1 (List.getElem?_eq_some_iff.mp hm).1
    · exact .inl ⟨e, rel, fun f => by simp [treeUpdate, hx, hp, hl, e, er]⟩
    · have hml : m.parent.isSome := by
        rw [Option.isSome_iff_ne_none]
        intro q
        -- the root is above every other entry
        have hr := t.only_root _ _ hm q
        have above : ∀ {h bs}, PathTo ns h bs → h = l ∨ Ancestor ns h l := by
          intro h bs p
          induction p with
          | root hn hp' => exact .inl (Option.some.inj ((t.only_root _ _ hn hp').symm.trans hr))
          | step hn hp' _ _ ih => exact .inr (ih.elim (fun q => q ▸ .parent hn hp') fun q => .step hn hp' q)
        exact (above qx).elim (fun q => e q.symm) fun q => nr (.inl q)
      have w : Swappable ns x l n m := ⟨hx, hm, fun q => e q.symm, by simp [hp], hml, fun q => nr (.inl q), fun q => nr (.inr q)⟩
      obtain ⟨ns1, h1, h2⟩ := nodeSwap_eq_ok t w
      have px : p ≠ x := fun q => hself (by rw [hp, q])
      have nx : ¬ Ancestor ns p x := fun q => not_ancestor_self qx (.step hx hp q)
      have nl : ¬ Ancestor ns p l := fun q => nr (.inl (.step hx hp q))
      refine .inr ⟨ns1, .inr ⟨w, h2⟩, rebuilt_swap t w h2 hz (by rwa [hw]), fun y =>
        ancestor_swap_of_apart h2 px (fun q => hlp' q.symm) nx nl, ?_⟩
      by_cases ew : n.weight = 2 ^ Config.weightWidth - 1
      · exact .inl ⟨ew, fun f => by simp [treeUpdate, hx, hp, hl, e, er, h1, incWeight_eq, ew]⟩
      · exact .inr ⟨ew, fun f => by simp [treeUpdate, hx, hp, hl, e, er, h1, incWeight_eq, ew, hc]⟩

/-! ### The whole chain -/

theorem ancestor_parent_iff {x p y : Handle} {n : Node} (hx : ns[x]? = some n) (hp : n.parent = some p) :
    Ancestor ns x y ↔ OnChain ns p y := by
  constructor
  · intro a
    cases a with
    | parent hn hp' => rw [hx] at hn; cases hn; rw [hp] at hp'; cases hp'; exact .inl rfl
    | step hn hp' q => rw [hx] at hn; cases hn; rw [hp] at hp'; cases hp'; exact .inr q
  · rintro (rfl | q)
    · exact .parent hx hp
    · exact .step hx hp q

/-- The depth of an entry is the number of its ancestors. -/
theorem PathTo.length_eq_card {x : Handle} {bs : List Bool} (p : PathTo ns x bs) :
    ∃ A : Finset Handle, A.card = bs.length ∧ ∀ y, y ∈ A ↔ Ancestor ns x y := by
  induction p with
  | root hn hp =>
    refine ⟨∅, rfl, fun y => ⟨fun q => by simp at q, fun a => ?_⟩⟩
    cases a with
    | parent hn' hp' => rw [hn] at hn'; cases hn'; rw [hp] at hp'; cases hp'
    | step hn' hp' _ => rw [hn] at hn'; cases hn'; rw [hp] at hp'; cases hp'
  | @step h p n pn bs hn hp _ q ih =>
    obtain ⟨A, hA, hm⟩ := ih
    have hpA : p ∉ A := fun a => not_ancestor_self q ((hm p).mp a)
    refine ⟨insert p A, by rw [Finset.card_insert_of_notMem hpA, hA]; simp, fun y => ?_⟩
    rw [Finset.mem_insert, hm, ancestor_parent_iff hn hp, OnChain]

theorem path_length_eq {x : Handle} {bs cs : List Bool} (p : PathTo ns' x cs) (q : PathTo ns x bs)
    (e : ∀ y, Ancestor ns' x y ↔ Ancestor ns x y) : cs.length = bs.length := by
  obtain ⟨A, hA, mA⟩ := p.length_eq_card
  obtain ⟨B, hB, mB⟩ := q.length_eq_card
  have : A = B := Finset.ext fun y => by rw [mA, mB, e]
  rw [← hA, ← hB, this]

/-- TREE.UPDATE in a tree (R103): it visits the operand and its ancestors as they stood when it began, each once, and
raises each by 1; or it stops on the way with F5 or F7. -/
theorem treeUpdate_chain {par : Params} (hc : par.updateChain = .original) :
    ∀ d {ns : Store} {x : Handle} {bs : List Bool}, TreeShape ns root → PathTo ns x bs → bs.length = d →
      (∀ h n, OnChain ns x h → ns[h]? = some n → n.weight ≠ 0) →
      (∃ ns', (∀ f, d < f → treeUpdate par f ns (some x) = .done ns') ∧ Rebuilt ns ns' root (OnChain ns x)) ∨
      ∃ ns' A, ((∀ f, d < f → treeUpdate par f ns (some x) = .swapRelated ns') ∨
          (∀ f, d < f → treeUpdate par f ns (some x) = .weightOvf ns')) ∧
        (∀ h, A h → OnChain ns x h) ∧ Rebuilt ns ns' root A := by
  intro d
  induction d with
  | zero =>
    intro ns x bs t q hd hz
    cases q with
    | @root _ n hn hp =>
      have chain : ∀ h, h = x ↔ OnChain ns x h := fun h => ⟨.inl, fun c => c.resolve_right fun a => by
        cases a with
        | parent hn' hp' => rw [hn] at hn'; cases hn'; rw [hp] at hp'; cases hp'
        | step hn' hp' _ => rw [hn] at hn'; cases hn'; rw [hp] at hp'; cases hp'⟩
      have one : ∀ f, 0 < f → treeUpdate par f ns (some x) =
          if n.weight = 2 ^ Config.weightWidth - 1 then .weightOvf ns else .done (bump x ns) := by
        intro f hf
        obtain ⟨g, rfl⟩ : ∃ g, f = g + 1 := ⟨f - 1, by omega⟩
        simp [treeUpdate, hn, hp, incWeight_eq]
      by_cases ew : n.weight = 2 ^ Config.weightWidth - 1
      · exact .inr ⟨ns, fun _ => False, .inr fun f hf => by rw [one f hf, if_pos ew], fun _ h => h.elim, .refl t⟩
      · exact .inl ⟨bump x ns, fun f hf => by rw [one f hf, if_neg ew], (rebuilt_bump t x).congr chain⟩
    | step _ _ _ _ => simp at hd
  | succ d ih =>
    intro ns x bs t q hd hz
    cases q with
    | root _ _ => simp at hd
    | @step _ p n pn bs hn hp hpn q =>
      have hd : bs.length = d := by simpa using hd
      have qx : PathTo ns x _ := .step hn hp hpn q
      have chain : ∀ h, OnChain ns x h ↔ h = x ∨ OnChain ns p h := fun h => by
        rw [OnChain, ancestor_parent_iff hn hp]
      have xOff : ¬ OnChain ns p x := fun c => not_ancestor_self qx ((ancestor_parent_iff hn hp).mpr c)
      obtain ⟨l, m, hl, hm, hw, hlp, fate⟩ := treeUpdate_pass hc t hn hp (hz x n (.inl rfl) hn)
      rcases fate with ⟨-, -, stop⟩ | ⟨ns1, hs, r1, anc1, fate⟩
      · refine .inr ⟨ns, fun _ => False, .inl fun f hf => ?_, fun _ h => h.elim, .refl t⟩
        obtain ⟨g, rfl⟩ : ∃ g, f = g + 1 := ⟨f - 1, by omega⟩
        exact stop g
      rcases fate with ⟨-, stop⟩ | ⟨-, go⟩
      · refine .inr ⟨ns1, fun _ => False, .inr fun f hf => ?_, fun _ h => h.elim, r1⟩
        obtain ⟨g, rfl⟩ : ∃ g, f = g + 1 := ⟨f - 1, by omega⟩
        exact stop g
      -- the store when the next pass begins
      have r2 : Rebuilt ns (bump x ns1) root (· = x) :=
        ((r1.trans (rebuilt_bump r1.shape x) (fun _ h => h.elim) fun _ _ h => h.elim)).congr fun h => by simp
      have anc2 : ∀ y, Ancestor (bump x ns1) p y ↔ Ancestor ns p y := fun y => by
        rw [(sameLinks_bump x ns1).ancestor_iff, anc1]
      have chain2 : ∀ h, OnChain (bump x ns1) p h ↔ OnChain ns p h := fun h => by rw [OnChain, anc2, OnChain]
      obtain ⟨cs, qp⟩ := r2.shape.reaches_root p (by rw [r2.length]; exact q.live)
      have hcs : cs.length = d := by
        rw [← hd]; exact path_length_eq qp q anc2
      have hz2 : ∀ h n', OnChain (bump x ns1) p h → (bump x ns1)[h]? = some n' → n'.weight ≠ 0 := by
        intro h n' c hn'
        rw [chain2] at c
        obtain ⟨n0, hn0⟩ := r2.get' hn'
        rw [r2.kept h _ _ hn0 hn' (fun q => xOff (q ▸ c))]
        exact hz h n0 ((chain h).mpr (.inr c)) hn0
      have zx : ∀ h n', h = x → ns[h]? = some n' → n'.weight ≠ 0 := fun h n' q => hz h n' (.inl q)
      rcases ih r2.shape qp hcs hz2 with ⟨ns', done, r⟩ | ⟨ns', A, stop, hA, r⟩
      · refine .inl ⟨ns', fun f hf => ?_, ?_⟩
        · obtain ⟨g, rfl⟩ : ∃ g, f = g + 1 := ⟨f - 1, by omega⟩
          rw [go, done g (by omega)]
        · refine (r2.trans r (fun h q c => xOff ?_) zx).congr fun h => ?_
          · rw [chain2] at c; rwa [← q]
          · rw [chain2, chain]
      · refine .inr ⟨ns', fun h => h = x ∨ A h, ?_, fun h c => ?_, ?_⟩
        · refine stop.imp (fun stop f hf => ?_) fun stop f hf => ?_
          all_goals
            obtain ⟨g, rfl⟩ : ∃ g, f = g + 1 := ⟨f - 1, by omega⟩
            rw [go, stop g (by omega)]
        · exact (chain h).mpr (c.imp_right fun a => (chain2 h).mp (hA h a))
        · exact r2.trans r (fun h q a => xOff (by have := (chain2 h).mp (hA h a); rwa [← q])) zx

end Sys2Proof.Machine
end

