-- ==== Sys2Proof/Laws/Tree.lean ====
section
/-! SUPPORT. The tree of a job: TREE.NEW makes it, TREE.UPDATE and TREE.ADDSYM keep it (41_node.md R86, 42_tree.md
R93 to R104), and never meet an entry that is not there (20_memory.md R38). -/

namespace Sys2Proof.Machine

variable {ns ns' : Store} {root nyt : Option Handle} {m : SymMap}

theorem live_of_get {h : Handle} {n : Node} (hn : ns[h]? = some n) : h < ns.length := (List.getElem?_eq_some_iff.mp hn).1

theorem get_of_live {h : Handle} (hl : h < ns.length) : ∃ n, ns[h]? = some n := ⟨ns[h], List.getElem?_eq_getElem hl⟩

/-! ### TREE.NEW -/

theorem treeNew_treeOk (k : Nat) (s : State) : (treeNew k s).treeOk := by
  have only : ∀ {h : Handle} {n : Node}, (treeNew k s).nodes[h]? = some n →
      h = 0 ∧ n = { id := 2 * (k : Int) - 1, weight := 0, sym := none, parent := none, left := none, right := none } := by
    intro h n hn
    cases h with
    | zero => simpa [treeNew, eq_comm] using hn
    | succ h => simp [treeNew] at hn
  refine ⟨⟨⟨0, _, rfl, rfl, rfl⟩, ?_, ?_, ?_, ?_, ?_, ?_, ?_⟩, ⟨0, _, rfl, rfl, rfl, rfl, rfl⟩, ?_, ?_, ?_, ?_⟩
  · intro h n hn _; obtain ⟨rfl, -⟩ := only hn; rfl
  · intro h n p hn hp; obtain ⟨-, rfl⟩ := only hn; cases hp
  · intro h n p hn hp; obtain ⟨-, rfl⟩ := only hn; cases hp
  · intro h n p hn hp; obtain ⟨-, rfl⟩ := only hn; cases hp
  · intro h n hn; obtain ⟨-, rfl⟩ := only hn; simp
  · intro h n c hn hp; obtain ⟨-, rfl⟩ := only hn; cases hp
  · intro h hh
    have : h = 0 := by simpa [treeNew] using hh
    subst this
    exact ⟨[], .root (n := { id := 2 * (k : Int) - 1, weight := 0, sym := none, parent := none, left := none, right := none }) rfl rfl⟩
  · intro h n hn hy; obtain ⟨rfl, -⟩ := only hn; exact absurd rfl hy
  · intro h n hn _ hy; obtain ⟨rfl, -⟩ := only hn; exact absurd rfl hy
  · intro h n sym hn hs; obtain ⟨-, rfl⟩ := only hn; cases hs
  · intro e he; simp [treeNew] at he

/-! ### Leaves -/

theorem TreeShape.isLeaf_iff (t : TreeShape ns root) {h : Handle} {n : Node} (hn : ns[h]? = some n) :
    n.isLeaf = true ↔ n.left = none := by
  simp only [Node.isLeaf, Bool.and_eq_true, Option.isNone_iff_eq_none]
  exact ⟨fun h => h.1, fun h => ⟨h, (t.both_or_none _ _ hn).mp h⟩⟩

/-- A leaf is no ancestor. -/
theorem TreeShape.leaf_not_above (t : TreeShape ns root) {x y : Handle} {n : Node} (hn : ns[y]? = some n)
    (hl : n.isLeaf = true) : ¬ Ancestor ns x y := by
  intro a
  induction a with
  | parent hx hp =>
    obtain ⟨pn, hpn, hc⟩ := t.parent_child _ _ _ hx hp
    rw [hn] at hpn; cases hpn
    simp only [Node.isLeaf, Bool.and_eq_true, Option.isNone_iff_eq_none] at hl
    rcases hc with hc | hc
    · rw [hl.1] at hc; cases hc
    · rw [hl.2] at hc; cases hc
  | step _ _ _ ih => exact ih hn

theorem Ancestor.live (t : TreeShape ns root) {x y : Handle} (a : Ancestor ns x y) : y < ns.length := by
  induction a with
  | parent hx hp => obtain ⟨pn, hpn⟩ := t.live_of_parent hx hp; exact live_of_get hpn
  | step _ _ _ ih => exact ih

theorem TreeOk.chain_weight (k : TreeOk ns root nyt m) {x : Handle} (hx : nyt ≠ some x) :
    ∀ h n, OnChain ns x h → ns[h]? = some n → n.weight ≠ 0 := by
  intro h n c hn
  have : nyt ≠ some h := by
    rcases c with rfl | c
    · exact hx
    · intro e
      obtain ⟨y, yn, hy, hyn, -, hl, -⟩ := k.nyt_leaf
      rw [hy] at e; cases e
      exact k.shape.leaf_not_above hyn hl c
  have := k.weight_pos h n hn this
  omega

theorem TreeOk.nyt_off_chain (k : TreeOk ns root nyt m) {x h : Handle} (hx : nyt ≠ some x) (c : OnChain ns x h) :
    nyt ≠ some h := by
  intro e
  obtain ⟨y, yn, hy, hyn, hw, -, -⟩ := k.nyt_leaf
  rw [hy] at e; cases e
  exact k.chain_weight hx _ _ c hyn hw

/-! ### TREE.UPDATE -/

theorem TreeOk.rebuilt {up : Handle → Prop} (k : TreeOk ns root nyt m) (r : Rebuilt ns ns' root up)
    (hy : ∀ h, up h → nyt ≠ some h) : TreeOk ns' root nyt m := by
  obtain ⟨y, yn, hyy, hyn, hyw, hyl, hys⟩ := k.nyt_leaf
  refine ⟨r.shape, ?_, ?_, ?_, ?_, ?_⟩
  · obtain ⟨yn', hyn'⟩ := r.get hyn
    exact ⟨y, yn', hyy, hyn', by rw [r.kept y _ _ hyn hyn' fun u => hy y u hyy, hyw],
      by rw [r.leaf y _ _ hyn hyn', hyl], by rw [r.sym y _ _ hyn hyn', hys]⟩
  · intro h n' hn' hne
    obtain ⟨n, hn⟩ := r.get' hn'
    have := k.weight_pos h n hn hne
    by_cases u : up h
    · rw [r.raised h _ _ hn hn' u]; omega
    · rwa [r.kept h _ _ hn hn' u]
  · intro h n' hn' hl hne
    obtain ⟨n, hn⟩ := r.get' hn'
    rw [r.leaf h _ _ hn hn'] at hl
    rw [r.sym h _ _ hn hn']
    exact k.leaf_sym h n hn hl hne
  · intro h n' sym hn' hs
    obtain ⟨n, hn⟩ := r.get' hn'
    rw [r.sym h _ _ hn hn'] at hs
    exact k.sym_len h n sym hn hs
  · intro e he
    obtain ⟨n, hn, hl, hs⟩ := k.map_leaf e he
    obtain ⟨n', hn'⟩ := r.get hn
    exact ⟨n', hn', by rw [r.leaf _ _ _ hn hn', hl], by rw [r.sym _ _ _ hn hn', hs]⟩

/-- Everything TREE.UPDATE does in a job's tree: complete, with each visited weight raised; or F5 or F7, on the way. -/
theorem updateTree_cases {u : BitVec 6} {s : State} {x : Handle} (hc : s.par.updateChain = .original) (k : s.treeOk)
    (hx : x < s.nodes.length) (hy : s.nyt ≠ some x) :
    ∃ ns' up, Rebuilt s.nodes ns' s.root up ∧ TreeOk ns' s.root s.nyt s.map ∧ (∀ h, up h → OnChain s.nodes x h) ∧
      ((updateTree u (some x) s = .ok () { s with nodes := ns' } ∧ ∀ h, up h ↔ OnChain s.nodes x h) ∨
        updateTree u (some x) s = .raised (raise .swapRelated u { s with nodes := ns' }) ∨
        updateTree u (some x) s = .raised (raise .weightOvf u { s with nodes := ns' })) := by
  obtain ⟨bs, p⟩ := k.shape.reaches_root x hx
  have hf : bs.length < s.nodes.length + 1 := Nat.lt_succ_of_lt p.length_lt
  rcases treeUpdate_chain hc _ k.shape p rfl (k.chain_weight hy) with ⟨ns', done, r⟩ | ⟨ns', A, stop, hA, r⟩
  · refine ⟨ns', _, r, k.rebuilt r (fun h c => k.nyt_off_chain hy c), fun _ => id, .inl ⟨?_, fun _ => .rfl⟩⟩
    simp [updateTree, done _ hf]
  · refine ⟨ns', A, r, k.rebuilt r (fun h c => k.nyt_off_chain hy (hA h c)), hA, .inr (stop.imp (fun stop => ?_) fun stop => ?_)⟩
    · simp [updateTree, stop _ hf, Flow.fail]
    · simp [updateTree, stop _ hf, Flow.fail]

theorem updateTree_none (u : BitVec 6) (s : State) : updateTree u none s = .ok () s := by
  simp [updateTree, treeUpdate]

/-! ### TREE.ADDSYM -/

/-- The new leaf and the new NYT that TREE.ADDSYM makes of NYT node `N` (R95). -/
def newLeaf (N : Handle) (i : Int) (sym : Symbol) : Node :=
  { id := i - 1, weight := 1, sym := some sym, parent := some N, left := none, right := none }

def newNyt (N : Handle) (i : Int) : Node :=
  { id := i - 2, weight := 0, sym := none, parent := some N, left := none, right := none }

/-- The split node afterwards. -/
def splitNode (ns : Store) (n : Node) : Node := { n with left := some (ns.length + 1), right := some ns.length, weight := 1 }

@[simp] theorem length_splitNyt (ns : Store) (N : Handle) (i : Int) (sym : Symbol) :
    (splitNyt ns N i sym).length = ns.length + 2 := by simp [splitNyt]

theorem getElem?_splitNyt (ns : Store) (N h : Handle) (i : Int) (sym : Symbol) : (splitNyt ns N i sym)[h]? =
    if h < ns.length then (ns[h]?).map fun n => if h = N then splitNode ns n else n
    else if h = ns.length then some (newLeaf N i sym)
    else if h = ns.length + 1 then some (newNyt N i) else none := by
  unfold splitNyt
  dsimp only
  by_cases h1 : h < ns.length
  · rw [List.getElem?_append_left (by simpa using h1), List.getElem?_modify, if_pos h1]
    by_cases e : N = h
    · subst e; simp [splitNode]
    · have e' : ¬ h = N := fun q => e q.symm
      simp [e, e']
  · rw [List.getElem?_append_right (by simpa using Nat.le_of_not_lt h1), if_neg h1, List.length_modify]
    by_cases h2 : h = ns.length
    · subst h2; simp [newLeaf]
    · by_cases h3 : h = ns.length + 1
      · subst h3; simp [newNyt]
      · rw [if_neg h2, if_neg h3, List.getElem?_eq_none]
        have : ns.length + 2 ≤ h := by
          rcases Nat.lt_or_ge h (ns.length + 2) with q | q
          · exfalso
            rcases Nat.lt_succ_iff_lt_or_eq.mp q with q | q
            · rcases Nat.lt_succ_iff_lt_or_eq.mp q with q | q
              · exact h1 q
              · exact h2 q
            · exact h3 q
          · exact q
        simpa using Nat.le_sub_of_add_le' this

section
variable {N : Handle} {nN : Node} {i : Int} {sym : Symbol}

/-- The three kinds of entries after the split. -/
theorem splitNyt_cases {h : Handle} {n' : Node} (e : (splitNyt ns N i sym)[h]? = some n') :
    (∃ n, ns[h]? = some n ∧ h ≠ N ∧ n' = n) ∨ (∃ n, ns[h]? = some n ∧ h = N ∧ n' = splitNode ns n) ∨
      (h = ns.length ∧ n' = newLeaf N i sym) ∨ (h = ns.length + 1 ∧ n' = newNyt N i) := by
  rw [getElem?_splitNyt] at e
  split_ifs at e with h1 q h2 h3
  · obtain ⟨n, hn, e⟩ := Option.map_eq_some_iff.mp e
    exact .inr (.inl ⟨n, hn, q, e.symm⟩)
  · obtain ⟨n, hn, e⟩ := Option.map_eq_some_iff.mp e
    exact .inl ⟨n, hn, q, e.symm⟩
  · exact .inr (.inr (.inl ⟨h2, (Option.some.inj e).symm⟩))
  · exact .inr (.inr (.inr ⟨h3, (Option.some.inj e).symm⟩))

theorem splitNyt_other {h : Handle} {n : Node} (hn : ns[h]? = some n) (hN : h ≠ N) :
    (splitNyt ns N i sym)[h]? = some n := by
  rw [getElem?_splitNyt, if_pos (live_of_get hn), hn]; simp [hN]

theorem splitNyt_self (hN : ns[N]? = some nN) : (splitNyt ns N i sym)[N]? = some (splitNode ns nN) := by
  rw [getElem?_splitNyt, if_pos (live_of_get hN), hN]; simp

theorem splitNyt_leaf : (splitNyt ns N i sym)[ns.length]? = some (newLeaf N i sym) := by
  rw [getElem?_splitNyt]; simp

theorem splitNyt_nyt : (splitNyt ns N i sym)[ns.length + 1]? = some (newNyt N i) := by
  rw [getElem?_splitNyt]; simp

/-- An entry of the tree before, as it stands after the split: its parent is the same. -/
theorem splitNyt_old {h : Handle} {n : Node} (hn : ns[h]? = some n) :
    ∃ n', (splitNyt ns N i sym)[h]? = some n' ∧ n'.parent = n.parent ∧ n'.sym = n.sym := by
  by_cases e : h = N
  · subst e; exact ⟨_, splitNyt_self hn, rfl, rfl⟩
  · exact ⟨n, splitNyt_other hn e, rfl, rfl⟩

theorem splitNyt_shape (t : TreeShape ns root) (hN : ns[N]? = some nN) (hl : nN.isLeaf = true) :
    TreeShape (splitNyt ns N i sym) root := by
  have lN := live_of_get hN
  simp only [Node.isLeaf, Bool.and_eq_true, Option.isNone_iff_eq_none] at hl
  have child : ∀ {h : Handle} {n : Node} {c : Handle}, ns[h]? = some n → (∃ cn : Node, ns[c]? = some cn ∧ cn.parent = some h) →
      ∃ cn : Node, (splitNyt ns N i sym)[c]? = some cn ∧ cn.parent = some h := by
    rintro h n c - ⟨cn, hcn, hp⟩
    obtain ⟨cn', hcn', hp', -⟩ := splitNyt_old (N := N) (i := i) (sym := sym) hcn
    exact ⟨cn', hcn', hp'.trans hp⟩
  have keepPath : ∀ {h bs}, PathTo ns h bs → PathTo (splitNyt ns N i sym) h bs := by
    intro h bs p
    induction p with
    | root hn hp =>
      obtain ⟨n', hn', hp', -⟩ := splitNyt_old (N := N) (i := i) (sym := sym) hn
      exact .root hn' (hp'.trans hp)
    | @step h p n pn bs hn hp hpn q ih =>
      obtain ⟨n', hn', hp', -⟩ := splitNyt_old (N := N) (i := i) (sym := sym) hn
      have pN : p ≠ N := by
        rintro rfl
        rw [hN] at hpn; cases hpn
        obtain ⟨pn, hpn, hc⟩ := t.parent_child _ _ _ hn hp
        rw [hN] at hpn; cases hpn
        rw [hl.1, hl.2] at hc
        rcases hc with hc | hc <;> cases hc
      exact .step hn' (hp'.trans hp) (splitNyt_other hpn pN) ih
  refine ⟨?_, ?_, ?_, ?_, ?_, ?_, ?_, ?_⟩
  · obtain ⟨r, n, hr, hn, hp⟩ := t.root_live
    obtain ⟨n', hn', hp', -⟩ := splitNyt_old (N := N) (i := i) (sym := sym) hn
    exact ⟨r, n', hr, hn', hp'.trans hp⟩
  · intro h n' hn' hp
    rcases splitNyt_cases hn' with ⟨n, hn, -, rfl⟩ | ⟨n, hn, -, rfl⟩ | ⟨-, rfl⟩ | ⟨-, rfl⟩
    · exact t.only_root h _ hn hp
    · exact t.only_root h _ hn hp
    · cases hp
    · cases hp
  · intro h n' p hn' hp
    have old : ∀ n : Node, ns[h]? = some n → n.parent = some p → ∃ pn : Node, (splitNyt ns N i sym)[p]? = some pn ∧
        (pn.left = some h ∨ pn.right = some h) := by
      intro n hn hp
      obtain ⟨pn, hpn, hc⟩ := t.parent_child h n p hn hp
      have pN : p ≠ N := by
        rintro rfl
        rw [hN] at hpn; cases hpn
        rw [hl.1, hl.2] at hc
        rcases hc with hc | hc <;> cases hc
      exact ⟨pn, splitNyt_other hpn pN, hc⟩
    rcases splitNyt_cases hn' with ⟨n, hn, -, rfl⟩ | ⟨n, hn, -, rfl⟩ | ⟨rfl, rfl⟩ | ⟨rfl, rfl⟩
    · exact old _ hn hp
    · exact old _ hn hp
    · cases hp; exact ⟨_, splitNyt_self hN, .inr rfl⟩
    · cases hp; exact ⟨_, splitNyt_self hN, .inl rfl⟩
  · intro h n' c hn' hc
    rcases splitNyt_cases hn' with ⟨n, hn, -, rfl⟩ | ⟨n, hn, rfl, rfl⟩ | ⟨-, rfl⟩ | ⟨-, rfl⟩
    · exact child hn (t.left_parent h _ c hn hc)
    · cases hc; exact ⟨_, splitNyt_nyt, rfl⟩
    · cases hc
    · cases hc
  · intro h n' c hn' hc
    rcases splitNyt_cases hn' with ⟨n, hn, -, rfl⟩ | ⟨n, hn, rfl, rfl⟩ | ⟨-, rfl⟩ | ⟨-, rfl⟩
    · exact child hn (t.right_parent h _ c hn hc)
    · cases hc; exact ⟨_, splitNyt_leaf, rfl⟩
    · cases hc
    · cases hc
  · intro h n' hn'
    rcases splitNyt_cases hn' with ⟨n, hn, -, rfl⟩ | ⟨n, hn, rfl, rfl⟩ | ⟨-, rfl⟩ | ⟨-, rfl⟩
    · exact t.both_or_none h _ hn
    · simp [splitNode]
    · simp [newLeaf]
    · simp [newNyt]
  · intro h n' c hn' hc
    rcases splitNyt_cases hn' with ⟨n, hn, -, rfl⟩ | ⟨n, hn, rfl, rfl⟩ | ⟨-, rfl⟩ | ⟨-, rfl⟩
    · exact t.sides_differ h _ c hn hc
    · cases hc; simp [splitNode]
    · cases hc
    · cases hc
  · intro h hh
    obtain ⟨bs, p⟩ := t.reaches_root N lN
    have p' := keepPath p
    rw [length_splitNyt] at hh
    by_cases h1 : h < ns.length
    · obtain ⟨bs, p⟩ := t.reaches_root h h1
      exact ⟨bs, keepPath p⟩
    · by_cases h2 : h = ns.length
      · subst h2; exact ⟨_, .step splitNyt_leaf rfl (splitNyt_self hN) p'⟩
      · have h3 : h = ns.length + 1 := by omega
        subst h3; exact ⟨_, .step splitNyt_nyt rfl (splitNyt_self hN) p'⟩

theorem mem_mapInsert {s : Symbol} {h : Handle} {e : Symbol × Handle} :
    e ∈ mapInsert s h m ↔ (e ∈ m ∧ e.1 ≠ s) ∨ e = (s, h) := by
  simp [mapInsert]

/-- What the map gives a key after an insertion (10_state.md R22). -/
theorem lookup_mapInsert (m : SymMap) (a b : Symbol) (h : Handle) :
    (mapInsert a h m).lookup b = if b = a then some h else m.lookup b := by
  have cons : ∀ (c : Symbol) (v : Handle) (l : SymMap), ((c, v) :: l).lookup b = if b = c then some v else l.lookup b := by
    intro c v l
    rw [List.lookup_cons]
    by_cases e : b = c
    · simp [e]
    · rw [beq_eq_false_iff_ne.mpr e, if_neg e]
  unfold mapInsert
  induction m with
  | nil => exact cons a h []
  | cons k m ih =>
    obtain ⟨c, v⟩ := k
    by_cases q : c = a
    · subst q
      rw [List.filter_cons_of_neg (by simp), ih, cons]
      split_ifs <;> rfl
    · rw [List.filter_cons_of_pos (by simpa using q), List.cons_append, cons, ih, cons]
      by_cases e : b = a
      · subst e; simp [Ne.symm q]
      · simp [e]

theorem TreeOk.split (k : TreeOk ns root nyt m) (hy : nyt = some N) (h1 : 1 ≤ sym.length) (h15 : sym.length ≤ 15) :
    TreeOk (splitNyt ns N i sym) root (some (ns.length + 1)) (mapInsert sym ns.length m) := by
  obtain ⟨y, nN, hyy, hN, hw, hl, hs⟩ := k.nyt_leaf
  rw [hy] at hyy; cases hyy
  refine ⟨splitNyt_shape k.shape hN hl, ⟨_, _, rfl, splitNyt_nyt, rfl, rfl, rfl⟩, ?_, ?_, ?_, ?_⟩
  · intro h n' hn' hne
    rcases splitNyt_cases hn' with ⟨n, hn, q, rfl⟩ | ⟨n, hn, rfl, rfl⟩ | ⟨-, rfl⟩ | ⟨rfl, -⟩
    · exact k.weight_pos h _ hn (by rw [hy]; exact fun e => q (Option.some.inj e).symm)
    · exact le_refl 1
    · exact le_refl 1
    · exact absurd rfl hne
  · intro h n' hn' hlf hne
    rcases splitNyt_cases hn' with ⟨n, hn, q, rfl⟩ | ⟨n, hn, rfl, rfl⟩ | ⟨-, rfl⟩ | ⟨rfl, -⟩
    · exact k.leaf_sym h _ hn hlf (by rw [hy]; exact fun e => q (Option.some.inj e).symm)
    · simp [splitNode, Node.isLeaf] at hlf
    · exact ⟨sym, rfl⟩
    · exact absurd rfl hne
  · intro h n' s hn' hsym
    rcases splitNyt_cases hn' with ⟨n, hn, q, rfl⟩ | ⟨n, hn, rfl, rfl⟩ | ⟨-, rfl⟩ | ⟨-, rfl⟩
    · exact k.sym_len h _ s hn hsym
    · exact k.sym_len h _ s hn hsym
    · cases hsym; exact ⟨h1, h15⟩
    · cases hsym
  · intro e he
    rcases mem_mapInsert.mp he with ⟨he, -⟩ | rfl
    · obtain ⟨n, hn, hlf, hsym⟩ := k.map_leaf e he
      have : e.2 ≠ N := by
        intro q
        rw [q, hN] at hn; cases hn
        rw [hs] at hsym; cases hsym
      exact ⟨n, splitNyt_other hn this, hlf, hsym⟩
    · exact ⟨_, splitNyt_leaf, rfl, rfl⟩

end

theorem addSymbol_eq {u : BitVec 6} {sym : Symbol} {s : State} {N : Handle} {n : Node}
    (hcap : capExceeded s.par s.nodes.length = false) (hs : sym ≠ []) (hN : s.nyt = some N) (hn : s.nodes[N]? = some n) :
    addSymbol u sym s = updateTree u n.parent (afterSplit s sym (splitNyt s.nodes N s.nextId sym)) := by
  simp [addSymbol, hcap, hs, hN, hn, afterSplit]

/-- Everything TREE.ADDSYM does in a job's tree: F6 with nothing changed; or the split, and the contained update
complete, stopped by F5 or stopped by F7. -/
theorem addSymbol_cases {u : BitVec 6} {sym : Symbol} {s : State} (hc : s.par.updateChain = .original) (k : s.treeOk)
    (h1 : 1 ≤ sym.length) (h15 : sym.length ≤ 15) :
    (capExceeded s.par s.nodes.length = true ∧ addSymbol u sym s = .raised (raise .nodeCap u s)) ∨
    ∃ N n, s.nyt = some N ∧ s.nodes[N]? = some n ∧ capExceeded s.par s.nodes.length = false ∧
      ∃ ns' up, Rebuilt (splitNyt s.nodes N s.nextId sym) ns' s.root up ∧
        TreeOk ns' s.root (some (s.nodes.length + 1)) (mapInsert sym s.nodes.length s.map) ∧
        (∀ h, up h → Ancestor s.nodes N h) ∧
        ((addSymbol u sym s = .ok () { afterSplit s sym (splitNyt s.nodes N s.nextId sym) with nodes := ns' } ∧ ∀ h, up h ↔ Ancestor s.nodes N h) ∨
          addSymbol u sym s = .raised (raise .swapRelated u { afterSplit s sym (splitNyt s.nodes N s.nextId sym) with nodes := ns' }) ∨
          addSymbol u sym s = .raised (raise .weightOvf u { afterSplit s sym (splitNyt s.nodes N s.nextId sym) with nodes := ns' })) := by
  cases hcap : capExceeded s.par s.nodes.length with
  | true => exact .inl ⟨rfl, by simp [addSymbol, hcap, Flow.fail]⟩
  | false =>
    have hs : sym ≠ [] := by rintro rfl; simp at h1
    obtain ⟨N, n, hN, hn, hw, hl, hsy⟩ := k.nyt_leaf
    have k' : (afterSplit s sym (splitNyt s.nodes N s.nextId sym)).treeOk := k.split hN h1 h15
    refine .inr ⟨N, n, hN, hn, rfl, ?_⟩
    rw [addSymbol_eq hcap hs hN hn]
    cases hp : n.parent with
    | none =>
      refine ⟨_, fun _ => False, .refl k'.shape, k', fun _ f => f.elim, .inl ⟨updateTree_none _ _, fun h => ?_⟩⟩
      refine ⟨fun f => f.elim, fun a => ?_⟩
      cases a with
      | parent hn' hp' => rw [hn] at hn'; cases hn'; rw [hp] at hp'; cases hp'
      | step hn' hp' _ => rw [hn] at hn'; cases hn'; rw [hp] at hp'; cases hp'
    | some p =>
      obtain ⟨pn, hpn⟩ := k.shape.live_of_parent hn hp
      have hpl := live_of_get hpn
      -- the ancestors above the split node are those before the split
      have up : ∀ {x y}, Ancestor s.nodes x y → Ancestor (afterSplit s sym (splitNyt s.nodes N s.nextId sym)).nodes x y := by
        intro x y a
        induction a with
        | parent hx hp =>
          obtain ⟨n', hn', hp', -⟩ := splitNyt_old (N := N) (i := s.nextId) (sym := sym) hx
          exact .parent hn' (hp'.trans hp)
        | step hx hp _ ih =>
          obtain ⟨n', hn', hp', -⟩ := splitNyt_old (N := N) (i := s.nextId) (sym := sym) hx
          exact .step hn' (hp'.trans hp) ih
      have down : ∀ {x y}, Ancestor (afterSplit s sym (splitNyt s.nodes N s.nextId sym)).nodes x y → x < s.nodes.length → Ancestor s.nodes x y := by
        intro x y a
        induction a with
        | parent hx hp =>
          intro hxl
          obtain ⟨n, hn⟩ := get_of_live hxl
          obtain ⟨n', hn', hp', -⟩ := splitNyt_old (N := N) (i := s.nextId) (sym := sym) hn
          rw [show (afterSplit s sym (splitNyt s.nodes N s.nextId sym)).nodes = splitNyt s.nodes N s.nextId sym from rfl, hn'] at hx; cases hx
          exact .parent hn (hp'.symm.trans hp)
        | step hx hp _ ih =>
          intro hxl
          obtain ⟨n, hn⟩ := get_of_live hxl
          obtain ⟨n', hn', hp', -⟩ := splitNyt_old (N := N) (i := s.nextId) (sym := sym) hn
          rw [show (afterSplit s sym (splitNyt s.nodes N s.nextId sym)).nodes = splitNyt s.nodes N s.nextId sym from rfl, hn'] at hx; cases hx
          obtain ⟨pn, hpn⟩ := k.shape.live_of_parent hn (hp'.symm.trans hp)
          exact .step hn (hp'.symm.trans hp) (ih (live_of_get hpn))
      have chain : ∀ h, OnChain (afterSplit s sym (splitNyt s.nodes N s.nextId sym)).nodes p h ↔ Ancestor s.nodes N h := fun h => by
        rw [ancestor_parent_iff hn hp]
        exact ⟨fun c => c.imp_right fun a => down a hpl, fun c => c.imp_right up⟩
      have hne : (afterSplit s sym (splitNyt s.nodes N s.nextId sym)).nyt ≠ some p := fun e => by
        have : s.nodes.length + 1 = p := Option.some.inj e
        rw [← this] at hpl
        exact absurd hpl (by simp)
      obtain ⟨ns', A, r, k'', hA, fate⟩ := updateTree_cases (u := u) (s := afterSplit s sym (splitNyt s.nodes N s.nextId sym)) (x := p) hc k'
        (Nat.lt_of_lt_of_le hpl (by simp [afterSplit])) hne
      refine ⟨ns', A, r, k'', fun h a => (chain h).mp (hA h a), fate.imp_left fun q => ⟨q.1, fun h => ?_⟩⟩
      rw [q.2, chain]

end Sys2Proof.Machine
end

