-- ==== Sys2Proof/Laws/Rules.lean ====
section
/-! SUPPORT. TREE.LEADER and TREE.UPDATE go as their rules say (42_tree.md R98 to R103), under either leader rule and
either continuation; and where ids are distinct the rules leave one way to go. -/

namespace Sys2Proof.Machine

variable {ns ns' ns1 : Store} {root : Option Handle} {par : Params}

/-! ### The leader -/

theorem leader_isLeader (par : Params) {x : Handle} {n : Node} (hx : ns[x]? = some n) (hp : n.parent ≠ some x) :
    ∃ l, leader par ns x = .ok l ∧ IsLeader par ns x l := by
  cases hr : par.leaderRule with
  | excludeThenMax =>
    obtain ⟨l, m, h1, h2, h3, h4, h5⟩ := leader_excludeThenMax hr hx hp
    exact ⟨l, h1, n, m, hx, h2, h3, h4, by rw [hr]; exact h5⟩
  | maxThenSkip =>
    obtain ⟨l, m, h2, h3, h4, h1⟩ := leader_maxThenSkip hr hx
    by_cases q : n.parent = some l
    · exact ⟨x, by rw [h1, if_pos q], n, n, hx, hx, rfl, hp, by rw [hr]; exact .inr ⟨rfl, l, m, q, h2, h3, h4⟩⟩
    · exact ⟨l, by rw [h1, if_neg q], n, m, hx, h2, h3, q, by rw [hr]; exact .inl h4⟩

theorem DistinctIds.eq (d : DistinctIds ns) {h g : Handle} {n m : Node} (hn : ns[h]? = some n) (hm : ns[g]? = some m)
    (e : n.id = m.id) : h = g := by
  have ha : (ns.map Node.id)[h]? = some n.id := by simp [hn]
  have hb : (ns.map Node.id)[g]? = some n.id := by simp [hm, e]
  obtain ⟨la, ea⟩ := List.getElem?_eq_some_iff.mp ha
  obtain ⟨lb, eb⟩ := List.getElem?_eq_some_iff.mp hb
  exact (List.Nodup.getElem_inj_iff d).mp (ea.trans eb.symm)

theorem IsLeader.unique (d : DistinctIds ns) {x l l' : Handle} (a : IsLeader par ns x l) (b : IsLeader par ns x l') :
    l = l' := by
  obtain ⟨nx, nl, hx, hl, hw, hp, a⟩ := a
  obtain ⟨nx', nl', hx', hl', hw', hp', b⟩ := b
  rw [hx] at hx'; cases hx'
  cases hr : par.leaderRule with
  | excludeThenMax =>
    rw [hr] at a b
    exact d.eq hl hl' (le_antisymm (b l nl hl hw hp) (a l' nl' hl' hw' hp'))
  | maxThenSkip =>
    rw [hr] at a b
    rcases a with a | ⟨rfl, p, np, hpp, hnp, hpw, ap⟩ <;> rcases b with b | ⟨rfl, p', np', hpp', hnp', hpw', bp⟩
    · exact d.eq hl hl' (le_antisymm (b l nl hl hw) (a l' nl' hl' hw'))
    · have := d.eq hl hnp' (le_antisymm (bp l nl hl hw) (a p' np' hnp' hpw'))
      rw [this] at hp; exact absurd hpp' hp
    · have := d.eq hl' hnp (le_antisymm (ap l' nl' hl' hw') (b p np hnp hpw))
      rw [this] at hp'; exact absurd hpp hp'
    · rfl

/-! ### The swap of step 3 -/

theorem SwapWithLeader.shape (t : TreeShape ns root) {x l : Handle} (w : SwapWithLeader ns x l ns1) :
    TreeShape ns1 root := by
  rcases w with ⟨-, rfl⟩ | ⟨nx, nl, w, e⟩
  · exact t
  · exact w.shape t e

theorem SwapWithLeader.ids {x l : Handle} (w : SwapWithLeader ns x l ns1) : (ns1.map Node.id).Perm (ns.map Node.id) := by
  rcases w with ⟨-, rfl⟩ | ⟨nx, nl, w, e⟩
  · exact .refl _
  · exact w.ids e

theorem SwapWithLeader.get {x l : Handle} (w : SwapWithLeader ns x l ns1) {h : Handle} {n : Node} (hn : ns[h]? = some n) :
    ∃ n1, ns1[h]? = some n1 ∧ n1.weight = n.weight ∧ n1.sym = n.sym ∧ n1.isLeaf = n.isLeaf := by
  rcases w with ⟨-, rfl⟩ | ⟨nx, nl, w, e⟩
  · exact ⟨n, hn, rfl, rfl, rfl⟩
  · exact ⟨swappedNode x l nx nl h n, by rw [e, hn]; rfl, rfl, rfl, by simp [swappedNode, Node.isLeaf]⟩

theorem SwapWithLeader.unique {x l : Handle} {ns2 : Store} (a : SwapWithLeader ns x l ns1) (b : SwapWithLeader ns x l ns2) :
    ns1 = ns2 := by
  rcases a with ⟨h, rfl⟩ | ⟨nx, nl, w, e⟩ <;> rcases b with ⟨h', rfl⟩ | ⟨nx', nl', w', e'⟩
  · rfl
  · exact absurd h.symm w'.ne
  · exact absurd h'.symm w.ne
  · have hx := w'.at_a; rw [w.at_a] at hx; cases hx
    have hl := w'.at_b; rw [w.at_b] at hl; cases hl
    exact List.ext_getElem? fun h => (e h).trans (e' h).symm

theorem SwapWithLeader.not_related {x l : Handle} (w : SwapWithLeader ns x l ns1) (h : l ≠ x) :
    ¬ (Ancestor ns x l ∨ Ancestor ns l x) := by
  rcases w with ⟨h', -⟩ | ⟨nx, nl, w, -⟩
  · exact absurd h' h
  · exact fun c => c.elim w.not_above w.not_below

theorem DistinctIds.perm (d : DistinctIds ns) (p : (ns'.map Node.id).Perm (ns.map Node.id)) : DistinctIds ns' :=
  p.nodup_iff.mpr d

theorem DistinctIds.bump (d : DistinctIds ns) (x : Handle) : DistinctIds (bump x ns) :=
  d.perm (by rw [map_id_bump])

/-! ### The rules leave one way to go -/

theorem UpdateEnds.unique {node : Option Handle} {e e' : Ending} (a : UpdateEnds par ns node e) (d : DistinctIds ns)
    (b : UpdateEnds par ns node e') : e = e' := by
  induction a with
  | absent => cases b; rfl
  | atRoot hx hp hw =>
    cases b with
    | atRoot => rfl
    | rootFull hx' _ hw' => rw [hx] at hx'; cases hx'; exact absurd hw' hw
    | related hx' hp' => rw [hx] at hx'; cases hx'; rw [hp] at hp'; cases hp'
    | full hx' hp' => rw [hx] at hx'; cases hx'; rw [hp] at hp'; cases hp'
    | pass hx' hp' => rw [hx] at hx'; cases hx'; rw [hp] at hp'; cases hp'
  | rootFull hx hp hw =>
    cases b with
    | atRoot hx' _ hw' => rw [hx] at hx'; cases hx'; exact absurd hw hw'
    | rootFull => rfl
    | related hx' hp' => rw [hx] at hx'; cases hx'; rw [hp] at hp'; cases hp'
    | full hx' hp' => rw [hx] at hx'; cases hx'; rw [hp] at hp'; cases hp'
    | pass hx' hp' => rw [hx] at hx'; cases hx'; rw [hp] at hp'; cases hp'
  | related hx hp hl hne hr =>
    cases b with
    | atRoot hx' hp' => rw [hx] at hx'; cases hx'; rw [hp] at hp'; cases hp'
    | rootFull hx' hp' => rw [hx] at hx'; cases hx'; rw [hp] at hp'; cases hp'
    | related => rfl
    | full hx' _ hl' w => cases hl.unique d hl'; exact absurd hr (w.not_related hne)
    | pass hx' _ hl' w => cases hl.unique d hl'; exact absurd hr (w.not_related hne)
  | full hx hp hl w hw =>
    cases b with
    | atRoot hx' hp' => rw [hx] at hx'; cases hx'; rw [hp] at hp'; cases hp'
    | rootFull hx' hp' => rw [hx] at hx'; cases hx'; rw [hp] at hp'; cases hp'
    | related _ _ hl' hne hr => cases hl.unique d hl'; exact absurd hr (w.not_related hne)
    | full _ _ hl' w' => cases hl.unique d hl'; rw [w.unique w']
    | pass hx' _ _ _ hw' => rw [hx] at hx'; cases hx'; exact absurd hw hw'
  | pass hx hp hl w hw hx1 _ ih =>
    cases b with
    | atRoot hx' hp' => rw [hx] at hx'; cases hx'; rw [hp] at hp'; cases hp'
    | rootFull hx' hp' => rw [hx] at hx'; cases hx'; rw [hp] at hp'; cases hp'
    | related _ _ hl' hne hr => cases hl.unique d hl'; exact absurd hr (w.not_related hne)
    | full hx' _ _ _ hw' => rw [hx] at hx'; cases hx'; exact absurd hw' hw
    | pass hx' hp' hl' w' _ hx1' q =>
      rw [hx] at hx'; cases hx'
      rw [hp] at hp'; cases hp'
      cases hl.unique d hl'
      cases w.unique w'
      rw [hx1] at hx1'; cases hx1'
      exact ih ((d.perm w.ids).bump _) q

/-! ### One pass of the model is one pass of the rules -/

/-- The end of a restructuring that has one. -/
def Restructured.ends : Restructured → Option Ending
  | .done ns => some (.done ns)
  | .swapRelated ns => some (.swapRelated ns)
  | .weightOvf ns => some (.weightOvf ns)
  | .stops _ => none

theorem getElem?_modify_parent (ns1 : Store) (x : Handle) : ((bump x ns1)[x]?).bind Node.parent = (ns1[x]?).bind Node.parent := by
  rw [getElem?_bump]; cases ns1[x]? <;> simp

theorem incWeight_max (ns : Store) (x : Handle) (n : Node) (goOn : Store → Restructured) :
    incWeight ns x n goOn = if n.weight = maxWeight then .weightOvf ns else goOn (bump x ns) := rfl

/-- One pass at `x`, with parent `p`: it stops with F5; or swaps and stops with F7; or swaps, raises `x` and goes on. -/
theorem treeUpdate_step (t : TreeShape ns root) {x p : Handle} {n : Node} (hx : ns[x]? = some n) (hp : n.parent = some p) :
    ∃ l, IsLeader par ns x l ∧
      ((l ≠ x ∧ (Ancestor ns x l ∨ Ancestor ns l x) ∧ ∀ f, treeUpdate par (f + 1) ns (some x) = .swapRelated ns) ∨
        ∃ ns1 n1, SwapWithLeader ns x l ns1 ∧ ns1[x]? = some n1 ∧ (∀ y, Ancestor ns1 p y ↔ Ancestor ns p y) ∧
          ((n.weight = maxWeight ∧ ∀ f, treeUpdate par (f + 1) ns (some x) = .weightOvf ns1) ∨
            (n.weight ≠ maxWeight ∧ ∀ f, treeUpdate par (f + 1) ns (some x) =
              treeUpdate par f (bump x ns1) (match par.updateChain with | .original => some p | .current => n1.parent)))) := by
  have hself : n.parent ≠ some x := t.no_self_parent hx
  obtain ⟨l, hl, il⟩ := leader_isLeader par hx hself
  refine ⟨l, il, ?_⟩
  obtain ⟨nx, m, hx', hm, hw, hlp, -⟩ := il
  rw [hx] at hx'; cases hx'
  rw [hp] at hlp
  have hlp' : l ≠ p := fun q => hlp (by rw [q])
  have lx := live_of_get hx
  have lm := live_of_get hm
  by_cases e : l = x
  · refine .inr ⟨ns, n, .inl ⟨e, rfl⟩, hx, fun _ => .rfl, ?_⟩
    by_cases ew : n.weight = maxWeight
    · exact .inl ⟨ew, fun f => by simp only [treeUpdate, hx, hp, hl, e, if_true, incWeight_max]; rw [if_pos ew]⟩
    · refine .inr ⟨ew, fun f => ?_⟩
      simp only [treeUpdate, hx, hp, hl, e, if_true, incWeight_max]
      rw [if_neg ew]
      cases hc : par.updateChain with
      | original => rfl
      | current => rfl
  · obtain ⟨er, rel⟩ | ⟨er, nr⟩ := t.related_cases lx lm
    · exact .inl ⟨e, rel, fun f => by simp [treeUpdate, hx, hp, hl, e, er]⟩
    · obtain ⟨bx, qx⟩ := t.reaches_root x lx
      have hml : m.parent.isSome := by
        rw [Option.isSome_iff_ne_none]
        intro q
        have hr := t.only_root _ _ hm q
        have above : ∀ {h bs}, PathTo ns h bs → h = l ∨ Ancestor ns h l := by
          intro h bs p
          induction p with
          | root hn hp' => exact .inl (Option.some.inj ((t.only_root _ _ hn hp').symm.trans hr))
          | step hn hp' _ _ ih => exact .inr (ih.elim (fun q => q ▸ .parent hn hp') fun q => .step hn hp' q)
        exact (above qx).elim (fun q => e q.symm) fun q => nr (.inl q)
      have w : Swappable ns x l n m := ⟨hx, hm, fun q => e q.symm, by simp [hp], hml, fun q => nr (.inl q), fun q => nr (.inr q)⟩
      obtain ⟨ns1, h1, h2⟩ := nodeSwap_eq_ok t w
      have px : p ≠ x := fun q => hself (by rw [hp, q])
      have nx : ¬ Ancestor ns p x := fun q => not_ancestor_self qx (.step hx hp q)
      have nl : ¬ Ancestor ns p l := fun q => nr (.inl (.step hx hp q))
      have hx1 : ns1[x]? = some (swappedNode x l n m x n) := by rw [h2, hx]; rfl
      refine .inr ⟨ns1, _, .inr ⟨n, m, w, h2⟩, hx1,
        fun y => ancestor_swap_of_apart h2 px (fun q => hlp' q.symm) nx nl, ?_⟩
      by_cases ew : n.weight = maxWeight
      · refine .inl ⟨ew, fun f => ?_⟩
        simp only [treeUpdate, hx, hp, hl, e, er, h1, if_false, incWeight_max, Bool.false_eq_true]
        rw [if_pos ew]
      · refine .inr ⟨ew, fun f => ?_⟩
        simp only [treeUpdate, hx, hp, hl, e, er, h1, if_false, incWeight_max, Bool.false_eq_true]
        rw [if_neg ew, getElem?_modify_parent, hx1]
        rfl

/-- Whatever end TREE.UPDATE comes to in a tree, the rules come to it. -/
theorem treeUpdate_ends : ∀ f {ns : Store} {node : Option Handle} {e : Ending}, TreeShape ns root →
    (∀ x, node = some x → x < ns.length) → (treeUpdate par f ns node).ends = some e → UpdateEnds par ns node e := by
  intro f
  induction f with
  | zero => intro ns node e _ _ h; cases h
  | succ f ih =>
    intro ns node e t hl h
    cases node with
    | none => cases h; exact .absent
    | some x =>
      obtain ⟨n, hx⟩ := get_of_live (hl x rfl)
      cases hp : n.parent with
      | none =>
        simp only [treeUpdate, hx, hp, incWeight_max] at h
        split_ifs at h with hw <;> cases h
        · exact .rootFull hx hp hw
        · exact .atRoot hx hp hw
      | some p =>
        obtain ⟨l, il, ⟨hne, hr, q⟩ | ⟨ns1, n1, w, hx1, -, ⟨hw, q⟩ | ⟨hw, q⟩⟩⟩ := treeUpdate_step (par := par) t hx hp
        · rw [q] at h; cases h; exact .related hx hp il hne hr
        · rw [q] at h; cases h; exact .full hx hp il w hw
        · rw [q] at h
          have t1 := w.shape t
          have lb : (bump x ns1).length = ns1.length := length_bump _ _
          refine .pass hx hp il w hw hx1 (ih ((sameLinks_bump x ns1).shape t1) ?_ h)
          intro y hy
          rw [lb]
          cases hc : par.updateChain with
          | original =>
            rw [hc] at hy; cases hy
            obtain ⟨pn, hpn⟩ := t.live_of_parent hx hp
            obtain ⟨pn1, hpn1, -⟩ := w.get hpn
            exact live_of_get hpn1
          | current =>
            rw [hc] at hy
            obtain ⟨yn, hyn⟩ := t1.live_of_parent hx1 hy
            exact live_of_get hyn

/-- With the chosen continuation TREE.UPDATE comes to an end in a tree, after as many passes as the operand has entries
on its way to the root. -/
theorem treeUpdate_ends_original (hc : par.updateChain = .original) : ∀ d {ns : Store} {x : Handle} {bs : List Bool},
    TreeShape ns root → PathTo ns x bs → bs.length = d → ∃ e, ∀ f, d < f → (treeUpdate par f ns (some x)).ends = some e := by
  intro d
  induction d with
  | zero =>
    intro ns x bs t q hd
    cases q with
    | @root _ n hn hp =>
      refine ⟨if n.weight = maxWeight then .weightOvf ns else .done (bump x ns), fun f hf => ?_⟩
      obtain ⟨g, rfl⟩ : ∃ g, f = g + 1 := ⟨f - 1, by omega⟩
      simp only [treeUpdate, hn, hp, incWeight_max]
      by_cases hw : n.weight = maxWeight
      · rw [if_pos hw, if_pos hw]; rfl
      · rw [if_neg hw, if_neg hw]; rfl
    | step _ _ _ _ => simp at hd
  | succ d ih =>
    intro ns x bs t q hd
    cases q with
    | root _ _ => simp at hd
    | @step _ p n pn bs hn hp hpn q =>
      have hd : bs.length = d := by simpa using hd
      obtain ⟨l, il, ⟨hne, hr, g⟩ | ⟨ns1, n1, w, hx1, anc, ⟨hw, g⟩ | ⟨hw, g⟩⟩⟩ := treeUpdate_step (par := par) t hn hp
      · refine ⟨.swapRelated ns, fun f hf => ?_⟩
        obtain ⟨g', rfl⟩ : ∃ g, f = g + 1 := ⟨f - 1, by omega⟩
        rw [g]; rfl
      · refine ⟨.weightOvf ns1, fun f hf => ?_⟩
        obtain ⟨g', rfl⟩ : ∃ g, f = g + 1 := ⟨f - 1, by omega⟩
        rw [g]; rfl
      · have t2 := (sameLinks_bump x ns1).shape (w.shape t)
        obtain ⟨pn1, hpn1, -⟩ := w.get hpn
        obtain ⟨cs, qp⟩ := t2.reaches_root p (by rw [length_bump]; exact live_of_get hpn1)
        have hcs : cs.length = d := by
          rw [← hd]
          exact path_length_eq qp q fun y => by rw [(sameLinks_bump x ns1).ancestor_iff, anc]
        obtain ⟨e, he⟩ := ih t2 qp hcs
        refine ⟨e, fun f hf => ?_⟩
        obtain ⟨g', rfl⟩ : ∃ g, f = g + 1 := ⟨f - 1, by omega⟩
        rw [g, hc]
        exact he g' (by omega)

/-! ### The operations on the state -/

/-- The flow of an operation that ends so. -/
def Ending.flow (u : BitVec 6) (s : State) : Ending → Flow Unit
  | .done ns => .ok () { s with nodes := ns }
  | .swapRelated ns => .raised (raise .swapRelated u { s with nodes := ns })
  | .weightOvf ns => .raised (raise .weightOvf u { s with nodes := ns })

theorem Ending.flow_bind (u : BitVec 6) (s s₀ : State) (fin : State → State) (e : Ending) :
    ((e.flow u s).bind fun _ t => .ok () (fin t)).outcome s₀ = .next (e.after u s fin) := by
  cases e <;> rfl

theorem Ending.flow_outcome (u : BitVec 6) (s s₀ : State) (e : Ending) : (e.flow u s).outcome s₀ = .next (e.after u s id) := by
  cases e <;> rfl

/-- A whole TREE.UPDATE, where it comes to an end. -/
theorem updateTree_of_ends {u : BitVec 6} {s : State} {node : Option Handle} {e : Ending}
    (h : (treeUpdate s.par (s.nodes.length + 1) s.nodes node).ends = some e) :
    updateTree u node s = e.flow u s := by
  unfold updateTree
  cases q : treeUpdate s.par (s.nodes.length + 1) s.nodes node <;> rw [q] at h <;> cases h <;> rfl

/-- TREE.UPDATE of a live entry, or of NONE, with the chosen continuation: the end the rules come to. -/
theorem updateTree_follows {u : BitVec 6} {s : State} {node : Option Handle} (hc : s.par.updateChain = .original)
    (t : TreeShape s.nodes s.root) (hl : ∀ x, node = some x → x < s.nodes.length) :
    ∃ e, UpdateEnds s.par s.nodes node e ∧ updateTree u node s = e.flow u s := by
  have : ∃ e, (treeUpdate s.par (s.nodes.length + 1) s.nodes node).ends = some e := by
    cases node with
    | none => exact ⟨_, rfl⟩
    | some x =>
      obtain ⟨bs, q⟩ := t.reaches_root x (hl x rfl)
      obtain ⟨e, he⟩ := treeUpdate_ends_original hc _ t q rfl
      exact ⟨e, he _ (Nat.lt_succ_of_lt q.length_lt)⟩
  obtain ⟨e, he⟩ := this
  exact ⟨e, treeUpdate_ends _ t hl he, updateTree_of_ends he⟩

/-! ### The split -/

theorem SplitOf.eq {N : Handle} {i : Int} {sym : Symbol} {n : Node} (w : SplitOf ns N i sym ns1) (hn : ns[N]? = some n) :
    ns1 = splitNyt ns N i sym := by
  apply List.ext_getElem?
  intro h
  rw [getElem?_splitNyt]
  by_cases h1 : h < ns.length
  · rw [if_pos h1]
    obtain ⟨m, hm⟩ := get_of_live h1
    by_cases q : h = N
    · subst q; rw [hn] at hm; cases hm; rw [w.node n hn, hn]; simp [splitNode]
    · rw [w.others h q h1, hm]; simp [q]
  · rw [if_neg h1]
    by_cases h2 : h = ns.length
    · rw [if_pos h2, h2]; exact w.leaf
    · rw [if_neg h2]
      by_cases h3 : h = ns.length + 1
      · rw [if_pos h3, h3]; exact w.nyt
      · rw [if_neg h3, List.getElem?_eq_none]
        rw [w.length]
        have : ns.length ≤ h := Nat.le_of_not_lt h1
        have : h ≠ ns.length := h2
        have : h ≠ ns.length + 1 := h3
        omega

theorem splitNyt_splitOf {N : Handle} {i : Int} {sym : Symbol} :
    SplitOf ns N i sym (splitNyt ns N i sym) := by
  refine ⟨length_splitNyt _ _ _ _, splitNyt_leaf, splitNyt_nyt, fun n hn => splitNyt_self hn, fun h hN hl => ?_⟩
  obtain ⟨m, hm⟩ := get_of_live hl
  rw [splitNyt_other hm hN, hm]

theorem map_id_splitNyt (ns : Store) (N : Handle) (i : Int) (sym : Symbol) :
    (splitNyt ns N i sym).map Node.id = ns.map Node.id ++ [i - 1, i - 2] := by
  unfold splitNyt
  simp only [List.map_append, List.map_cons, List.map_nil]
  congr 1
  apply List.ext_getElem?
  intro h
  rw [List.getElem?_map, List.getElem?_map, List.getElem?_modify]
  cases ns[h]? <;> simp
  split_ifs <;> rfl

theorem DistinctIds.split (d : DistinctIds ns) {i : Int} (hi : ∀ m ∈ ns, i ≤ m.id) (N : Handle) (sym : Symbol) :
    DistinctIds (splitNyt ns N i sym) := by
  unfold DistinctIds
  rw [map_id_splitNyt]
  have below : ∀ j, j < i → j ∉ ns.map Node.id := by
    intro j hj hm
    obtain ⟨m, hm', rfl⟩ := List.mem_map.mp hm
    exact absurd (hi m hm') (by omega)
  rw [List.nodup_append]
  refine ⟨d, by simp, ?_⟩
  rintro a ha b hb rfl
  simp only [List.mem_cons, List.not_mem_nil, or_false] at hb
  rcases hb with rfl | rfl
  · exact below _ (by omega) ha
  · exact below _ (by omega) ha

theorem capExceeded_eq_false_iff (s : State) : capExceeded s.par s.nodes.length = false ↔ Roomy s := by
  unfold capExceeded Roomy
  cases s.par.nodeCap with
  | none => simp
  | some c => simp

/-- TREE.ADDSYM with room, with the chosen continuation: the split, then the end the rules come to from the parent. -/
theorem addSymbol_follows {u : BitVec 6} {s : State} {sym : Symbol} {N : Handle} {n : Node}
    (hc : s.par.updateChain = .original) (t : TreeShape s.nodes s.root) (hN : s.nyt = some N) (hn : s.nodes[N]? = some n)
    (hlf : n.isLeaf = true) (hs : sym ≠ []) (hr : Roomy s) :
    ∃ e, UpdateEnds s.par (splitNyt s.nodes N s.nextId sym) n.parent e ∧ addSymbol u sym s = e.flow u (afterSplit s sym (splitNyt s.nodes N s.nextId sym)) := by
  rw [addSymbol_eq ((capExceeded_eq_false_iff s).mpr hr) hs hN hn]
  refine updateTree_follows (s := afterSplit s sym (splitNyt s.nodes N s.nextId sym)) hc (splitNyt_shape t hn hlf) ?_
  intro x hx
  obtain ⟨pn, hpn⟩ := t.live_of_parent hn hx
  show x < (splitNyt s.nodes N s.nextId sym).length
  rw [length_splitNyt]
  exact Nat.lt_of_lt_of_le (live_of_get hpn) (Nat.le_add_right _ _)

theorem addSymbol_full {u : BitVec 6} {s : State} {sym : Symbol} (hr : ¬ Roomy s) :
    addSymbol u sym s = .raised (raise .nodeCap u s) := by
  have : capExceeded s.par s.nodes.length = true := by
    rw [← Bool.not_eq_false]; exact fun h => hr ((capExceeded_eq_false_iff s).mp h)
  simp [addSymbol, this, Flow.fail]

end Sys2Proof.Machine
end

