-- ==== Sys2Proof/Laws/Flow.lean ====
section
/-! SUPPORT. What a micro-operation guarantees, said over its flow: once per operation, and put together by `bind`. -/

namespace Sys2Proof.Machine

@[simp] theorem bind_ok {α β : Type} (a : α) (s : State) (k : α → State → Flow β) : (Flow.ok a s).bind k = k a s := rfl

@[simp] theorem bind_raised {α β : Type} (s : State) (k : α → State → Flow β) :
    (Flow.raised s : Flow α).bind k = .raised s := rfl

@[simp] theorem bind_waits {α β : Type} (k : α → State → Flow β) : (Flow.waits : Flow α).bind k = .waits := rfl

@[simp] theorem bind_stops {α β : Type} (f : Fault) (k : α → State → Flow β) : (Flow.stops f : Flow α).bind k = .stops f :=
  rfl

@[simp] theorem bind_refuses {α β : Type} (r : Refusal) (k : α → State → Flow β) :
    (Flow.refuses r : Flow α).bind k = .refuses r := rfl

theorem bind_assoc {α β γ : Type} (x : Flow α) (k : α → State → Flow β) (l : β → State → Flow γ) :
    (x.bind k).bind l = x.bind fun a s => (k a s).bind l := by
  cases x <;> rfl

@[simp] theorem ofExcept_ok {α : Type} (s : State) (a : α) : Flow.ofExcept s (.ok a) = .ok a s := rfl

@[simp] theorem ofExcept_error {α : Type} (s : State) (f : Fault) : Flow.ofExcept s (.error f : Except Fault α) = .stops f :=
  rfl

theorem leafEmpty_eq (s : State) : leafEmpty s =
    if s.nodes.length = 1 then .ok () { s with symBuf := [], emptyRec := true, phase := .dFrame }
    else .raised (raise .truncated (uopCode .decLeaf) { s with symBuf := [] }) := rfl

/-- `x` ends well: with a value and a state of `Q`, in a fault of AHC and a state of `R`, or it waits; where it stops or
is refused, `S` holds. -/
def Flow.Sat {α : Type} (x : Flow α) (Q : α → State → Prop) (R : State → Prop) (S : Prop) : Prop :=
  match x with
  | .ok a s => Q a s
  | .raised s => R s
  | .waits => True
  | .stops _ => S
  | .refuses _ => S

variable {α β : Type} {Q : α → State → Prop} {Q' : β → State → Prop} {R : State → Prop} {S : Prop}

@[simp] theorem sat_ok {a : α} {s : State} : (Flow.ok a s).Sat Q R S ↔ Q a s := Iff.rfl

@[simp] theorem sat_raised {s : State} : (Flow.raised s : Flow α).Sat Q R S ↔ R s := Iff.rfl

@[simp] theorem sat_waits : (Flow.waits : Flow α).Sat Q R S := trivial

@[simp] theorem sat_stops {f : Fault} : (Flow.stops f : Flow α).Sat Q R S ↔ S := Iff.rfl

@[simp] theorem sat_refuses {r : Refusal} : (Flow.refuses r : Flow α).Sat Q R S ↔ S := Iff.rfl

@[simp] theorem sat_fail {n : FCode} {u : BitVec 6} {s : State} : (Flow.fail n u s : Flow α).Sat Q R S ↔ R (raise n u s) :=
  Iff.rfl

theorem Flow.Sat.bind {x : Flow α} {k : α → State → Flow β} (h : x.Sat Q R S)
    (hk : ∀ a s, Q a s → (k a s).Sat Q' R S) : (x.bind k).Sat Q' R S := by
  cases x with
  | ok a s => exact hk a s h
  | raised s => exact h
  | waits => trivial
  | stops f => exact h
  | refuses r => exact h

theorem Flow.Sat.mono {Q₁ : α → State → Prop} {R₁ : State → Prop} {x : Flow α} (h : x.Sat Q R S)
    (hq : ∀ a s, Q a s → Q₁ a s) (hr : ∀ s, R s → R₁ s) : x.Sat Q₁ R₁ S := by
  cases x with
  | ok a s => exact hq a s h
  | raised s => exact hr s h
  | waits => trivial
  | stops f => exact h
  | refuses r => exact h

/-- Every next state of a whole operation. -/
theorem Flow.Sat.outcome {P : State → Prop} {x : Flow Unit} {s₀ t : State} (h : x.Sat (fun _ => P) P S) (h₀ : P s₀)
    (e : x.outcome s₀ = .next t) : P t := by
  cases x with
  | ok a s => cases e; exact h
  | raised s => cases e; exact h
  | waits => cases e; exact h₀
  | stops f => cases e
  | refuses r => cases e

/-- An operation that never stops answers a next state. -/
theorem Flow.Sat.completes {P : State → Prop} {x : Flow Unit} {s₀ : State} (h : x.Sat (fun _ => P) P False) (h₀ : P s₀) :
    ∃ t, x.outcome s₀ = .next t ∧ P t := by
  cases x with
  | ok a s => exact ⟨s, rfl, h⟩
  | raised s => exact ⟨s, rfl, h⟩
  | waits => exact ⟨s₀, rfl, h₀⟩
  | stops f => exact h.elim
  | refuses r => exact h.elim

/-! ### The sink's pin -/

section

variable {u : BitVec 6} {s : State} {k : Nat} {cut : Nat → State} {done : State}

@[simp] theorem actions_low (h : s.outErr = .low) : actions u k cut done s = .ok () done := by simp [actions, h]

/-- Where the pin rises at the n-th moment from now on. -/
theorem actions_rises {n : Nat} (h : s.outErr = .risesIn n) : actions u k cut done s =
    if n < k then .raised (raise .ioError u { cut n with outErr := .high }) else .ok () { done with outErr := .risesIn (n - k) } := by
  simp [actions, h, Flow.fail]

@[simp] theorem moment_low (h : s.outErr = .low) : moment u s = .ok () s := actions_low h

@[simp] theorem writeBits_low {bs : List Bool} (h : s.outErr = .low) : writeBits u bs s = .ok () (bitsWr bs s) := actions_low h

@[simp] theorem scatterOut_low (h : s.outErr = .low) : scatterOut u s = .ok () (scatter s) := actions_low h

@[simp] theorem readActions_low {bs : List Byte} (h : s.outErr = .low) :
    readActions u bs s = .ok () { s with inBitPos := s.inBitPos + 8 * bs.length } := actions_low h

/-- Everything a run of actions can do: all of them; or F8 after some of them. The pin, if it is low, stays so. -/
theorem actions_sat : (actions u k cut done s).Sat
    (fun _ t => t = done ∨ ∃ p, s.outErr ≠ .low ∧ t = { done with outErr := p })
    (fun t => s.outErr ≠ .low ∧ ∃ j p, j < k ∧ t = raise .ioError u { cut j with outErr := p }) S := by
  unfold actions
  split
  · exact .inl rfl
  · rename_i h
    split
    · exact .inl rfl
    · exact ⟨by simp [h], 0, (cut 0).outErr, by omega, rfl⟩
  · rename_i n h
    split
    · rename_i hn
      exact ⟨by simp [h], n, .high, hn, rfl⟩
    · exact .inr ⟨_, by simp [h], rfl⟩

/-- What holds after the actions whatever the pin does, and in a fault after any of them. -/
theorem actions_keep {Q : Unit → State → Prop} (hd : ∀ p, Q () { done with outErr := p })
    (hc : ∀ j p, R (raise .ioError u { cut j with outErr := p })) : (actions u k cut done s).Sat Q R S := by
  refine actions_sat.mono ?_ ?_
  · rintro _ t (rfl | ⟨p, -, rfl⟩)
    · exact hd t.outErr
    · exact hd p
  · rintro t ⟨-, j, p, -, rfl⟩; exact hc j p

theorem moment_keep {Q : Unit → State → Prop} (hd : ∀ p, Q () { s with outErr := p })
    (hc : ∀ p, R (raise .ioError u { s with outErr := p })) : (moment u s).Sat Q R S :=
  actions_keep hd fun _ => hc

/-- One moment, then what follows it. -/
theorem moment_bind {Q : β → State → Prop} {l : Unit → State → Flow β} (h : ∀ p, (l () { s with outErr := p }).Sat Q R S)
    (hc : ∀ p, R (raise .ioError u { s with outErr := p })) : ((moment u s).bind l).Sat Q R S :=
  (moment_keep (Q := fun _ t => ∃ p, t = { s with outErr := p }) (fun p => ⟨p, rfl⟩) hc).bind fun _ _ ⟨p, e⟩ => e ▸ h p

theorem goTo_keep {Q : Unit → State → Prop} {ph : Phase} (hd : ∀ p, Q () { s with outErr := p, phase := ph })
    (hc : ∀ p, R (raise .ioError u { s with outErr := p })) : (goTo u ph () s).Sat Q R S :=
  moment_bind (l := fun _ s => .ok () { s with phase := ph }) hd hc

@[simp] theorem goTo_low {ph : Phase} (h : s.outErr = .low) : goTo u ph () s = .ok () { s with phase := ph } := by
  simp [goTo, h]

/-- An operation whose body keeps `P` whatever the pin does. -/
theorem withSink_sat {P : State → Prop} {body : State → Flow Unit}
    (h : ∀ p, (body { s with outErr := p }).Sat (fun _ => P) P S)
    (hr : ∀ p, P (raise .ioError u { s with outErr := p })) : ((moment u s).bind fun _ s => body s).Sat (fun _ => P) P S :=
  moment_bind (l := fun _ s => body s) h hr

theorem withSink_next {P : State → Prop} {body : State → Flow Unit} {t : State}
    (h : ∀ p, (body { s with outErr := p }).Sat (fun _ => P) P S) (h₀ : P s)
    (hr : ∀ p, P (raise .ioError u { s with outErr := p })) (e : withSink u body s = .next t) : P t :=
  (withSink_sat h hr).outcome h₀ e

theorem withSink_completes {P : State → Prop} {body : State → Flow Unit}
    (h : ∀ p, (body { s with outErr := p }).Sat (fun _ => P) P False) (h₀ : P s)
    (hr : ∀ p, P (raise .ioError u { s with outErr := p })) : ∃ t, withSink u body s = .next t ∧ P t :=
  (withSink_sat h hr).completes h₀

theorem withSink_low {body : State → Flow Unit} (ho : s.outErr = .low) : withSink u body s = (body s).outcome s := by
  simp [withSink, ho]

theorem withSink_high {body : State → Flow Unit} (ho : s.outErr = .high) : withSink u body s = .next (raise .ioError u s) := by
  simp [withSink, moment, actions, ho, Flow.fail, Flow.outcome]

theorem withSink_low_completes {P : State → Prop} {body : State → Flow Unit} (ho : s.outErr = .low)
    (h : (body s).Sat (fun _ => P) P False) (h₀ : P s) : ∃ t, withSink u body s = .next t ∧ P t := by
  rw [withSink_low ho]; exact h.completes h₀

end

end Sys2Proof.Machine
end

