-- ==== Sys2Proof/Laws/Framer.lean ====
section
/-! SUPPORT. The output framer: what the write operations do to the bits written so far, and that they touch nothing
else. -/

namespace Sys2Proof.Machine

/-! ### One bit of a byte -/

theorem getLsbD_setBit (v : Byte) (i j : Nat) (b : Bool) (hi : i < 8) :
    (setBit v i b).getLsbD j = if j = i then b else v.getLsbD j := by
  unfold setBit
  by_cases hj : j < 8
  · by_cases e : j = i
    · subst e; cases b <;> simp [hj]
    · have e' : ¬ i = j := fun h => e h.symm
      cases b
      · simp [e, hj]
      · simp [BitVec.getLsbD_twoPow, e, e']
  · have hji : ¬ j = i := by omega
    rw [if_neg hji, BitVec.getLsbD_of_ge _ _ (by omega), BitVec.getLsbD_of_ge _ _ (by omega)]

/-- The bits below place `k` of a byte. -/
theorem take_byteBits (v : Byte) (k : Nat) : (byteBits v).take k = (List.range (min k 8)).map fun i => v.getLsbD (7 - i) := by
  apply List.ext_getElem?
  intro i
  rw [List.getElem?_take, byteBits, getElem?_msbBits]
  by_cases h : i < k <;> by_cases h8 : i < 8 <;> simp [h, h8, BitVec.getLsbD]

theorem take_setBit (v : Byte) (k : Nat) (b : Bool) (hk : k < 8) :
    (byteBits (setBit v (7 - k) b)).take k = (byteBits v).take k := by
  rw [take_byteBits, take_byteBits]
  apply List.map_congr_left
  intro i hi
  have : i < k := by simp at hi; omega
  rw [getLsbD_setBit _ _ _ _ (by omega), if_neg (by omega)]

theorem take_succ_setBit (v : Byte) (k : Nat) (b : Bool) (hk : k < 8) :
    (byteBits (setBit v (7 - k) b)).take (k + 1) = (byteBits v).take k ++ [b] := by
  rw [← take_setBit v k b hk, take_byteBits, take_byteBits, Nat.min_eq_left (by omega), Nat.min_eq_left (by omega),
    List.range_succ, List.map_append, List.map_singleton, getLsbD_setBit _ _ _ _ (by omega), if_pos rfl]

/-! ### BIT.WR -/

/-- What BIT.WR leaves alone, whatever its bit. -/
theorem bitWr_eq (b : Bool) (s : State) :
    bitWr b s = { s with
      out := (bitWr b s).out, oacc := (bitWr b s).oacc, ocnt := (bitWr b s).ocnt
      outBitPos := s.outBitPos + 1 } := by
  unfold bitWr; dsimp only; split <;> rfl

theorem bitWr_written (b : Bool) (s : State) : (bitWr b s).written = s.written ++ [b] := by
  have hc := s.ocnt.isLt
  unfold bitWr State.written
  dsimp only
  split
  · rename_i h7
    have : s.ocnt.val = 7 := by rw [h7]; rfl
    have key := take_succ_setBit s.oacc 7 b (by omega)
    rw [List.take_of_length_le (by simp), Nat.sub_self] at key
    simp [this, key]
  · rename_i h7
    have h7' : s.ocnt.val < 7 := by
      rcases Nat.lt_or_ge s.ocnt.val 7 with h | h
      · exact h
      · exact absurd (Fin.ext (by have := s.ocnt.isLt; show s.ocnt.val = 7; omega)) h7
    have hv : (s.ocnt + 1).val = s.ocnt.val + 1 := by
      rw [Fin.val_add_one_of_lt' (by omega)]
    dsimp only
    rw [hv, take_succ_setBit _ _ _ hc, List.append_assoc]

/-! ### Bits, bytes and the header -/

theorem bitsWr_append (bs cs : List Bool) (s : State) : bitsWr (bs ++ cs) s = bitsWr cs (bitsWr bs s) := by
  induction bs generalizing s with
  | nil => rfl
  | cons b bs ih => exact ih _

theorem bitsWr_written (bs : List Bool) (s : State) : (bitsWr bs s).written = s.written ++ bs := by
  induction bs generalizing s with
  | nil => simp [bitsWr]
  | cons b bs ih => rw [bitsWr, ih, bitWr_written]; simp

theorem bitsWr_eq (bs : List Bool) (s : State) :
    bitsWr bs s = { s with
      out := (bitsWr bs s).out, oacc := (bitsWr bs s).oacc, ocnt := (bitsWr bs s).ocnt
      outBitPos := s.outBitPos + bs.length } := by
  induction bs generalizing s with
  | nil => rfl
  | cons b bs ih =>
    rw [bitsWr]
    rw [ih (bitWr b s)]
    generalize (bitsWr bs (bitWr b s)).out = o
    generalize (bitsWr bs (bitWr b s)).oacc = a
    generalize (bitsWr bs (bitWr b s)).ocnt = c
    rw [bitWr_eq b s]
    simp [Nat.add_left_comm, Nat.add_comm]

/-- The pin plays no part in a write. -/
theorem bitWr_pin (b : Bool) (s : State) (q : OutErr) : bitWr b { s with outErr := q } = { bitWr b s with outErr := q } := by
  unfold bitWr; dsimp only; split <;> rfl

theorem bitsWr_pin (bs : List Bool) (s : State) (q : OutErr) :
    bitsWr bs { s with outErr := q } = { bitsWr bs s with outErr := q } := by
  induction bs generalizing s with
  | nil => rfl
  | cons b bs ih => rw [bitsWr, bitWr_pin, ih]; rfl

/-! ### The bits below the written ones are 0 (43_framer.md R116) -/

theorem framerOk_iff (s : State) : FramerOk s ↔ ∀ j, j < 8 - s.ocnt.val → s.oacc.getLsbD j = false := by
  unfold FramerOk
  constructor
  · intro h j hj
    have : s.oacc.toNat.testBit j = (s.oacc.toNat % 2 ^ (8 - s.ocnt.val)).testBit j := by
      rw [Nat.testBit_mod_two_pow]; simp [hj]
    rw [BitVec.getLsbD, this, h]; simp
  · intro h
    apply Nat.eq_of_testBit_eq
    intro j
    rw [Nat.testBit_mod_two_pow]
    by_cases hj : j < 8 - s.ocnt.val
    · have := h j hj
      rw [BitVec.getLsbD] at this
      simp [this]
    · simp [hj]

theorem bitWr_framerOk (b : Bool) (s : State) (h : FramerOk s) : FramerOk (bitWr b s) := by
  have hc := s.ocnt.isLt
  unfold bitWr
  dsimp only
  split
  · simp [FramerOk]
  · rename_i h7
    have h7' : s.ocnt.val < 7 := by
      rcases Nat.lt_or_ge s.ocnt.val 7 with h | h
      · exact h
      · exact absurd (Fin.ext (by show s.ocnt.val = 7; omega)) h7
    have hv : (s.ocnt + 1).val = s.ocnt.val + 1 := by
      rw [Fin.val_add_one_of_lt' (by omega)]
    rw [framerOk_iff] at h ⊢
    intro j hj
    dsimp only at hj ⊢
    rw [hv] at hj
    rw [getLsbD_setBit _ _ _ _ (by omega), if_neg (by omega)]
    exact h j (by omega)

theorem bitsWr_framerOk (bs : List Bool) (s : State) (h : FramerOk s) : FramerOk (bitsWr bs s) := by
  induction bs generalizing s with
  | nil => exact h
  | cons b bs ih => exact ih _ (bitWr_framerOk b s h)

/-! ### BIT.FLUSH -/

theorem length_written (s : State) : s.written.length = 8 * s.out.length + s.ocnt.val := by
  have := s.ocnt.isLt
  simp [State.written]
  try omega

theorem take_padAcc (acc : Byte) (cnt : Nat) (xs : List Bool) (h : cnt + xs.length ≤ 8) :
    (byteBits (padAcc acc cnt xs)).take (cnt + xs.length) = (byteBits acc).take cnt ++ xs := by
  induction xs generalizing acc cnt with
  | nil => simp [padAcc]
  | cons x xs ih =>
    simp only [List.length_cons] at h
    rw [padAcc, List.length_cons, show cnt + (xs.length + 1) = cnt + 1 + xs.length from by omega, ih _ _ (by omega),
      take_succ_setBit _ _ _ (by omega), List.append_assoc, List.singleton_append]

/-- The bytes out after a flush hold the bits written, then the padding. -/
theorem flushWith_out (xs : List Bool) (s : State) (h : xs.length = padLen s.ocnt) :
    bytesBits (flushWith xs s).out = s.written ++ xs := by
  have hc := s.ocnt.isLt
  unfold flushWith
  split
  · rename_i h0
    have : xs = [] := by simpa [padLen, h0] using h
    simp [State.written, h0, this]
  · rename_i h0
    have h0' : s.ocnt.val ≠ 0 := fun e => h0 (Fin.ext e)
    have hl : s.ocnt.val + xs.length = 8 := by rw [h, padLen, if_neg h0]; omega
    have key := take_padAcc s.oacc s.ocnt.val xs (by omega)
    rw [hl, List.take_of_length_le (by simp)] at key
    simp [State.written, key]

theorem flushWith_eq (xs : List Bool) (s : State) :
    flushWith xs s = { s with out := (flushWith xs s).out, oacc := (flushWith xs s).oacc, ocnt := 0, outClosed := true } := by
  unfold flushWith
  split
  · rename_i h; simp [← h]
  · rfl

theorem flushWith_framerOk (xs : List Bool) (s : State) (h : FramerOk s) : FramerOk (flushWith xs s) := by
  unfold flushWith
  split
  · exact h
  · simp [FramerOk]

end Sys2Proof.Machine
end

