-- ==== Sys2Proof/Laws/Input.lean ====
section
/-! SUPPORT. The input framer on an input the host has sent whole: the token tests decide by the number of unread bits,
and a read gives the next bits of the stream. -/

namespace Sys2Proof.Machine

/-! ### Tokens and bytes -/

@[simp] theorem inBytesOf_sent (bs : List Byte) (rest : List Token) :
    inBytesOf (sent bs rest) = bs := by
  unfold sent
  induction bs with
  | nil => rfl
  | cons b bs ih => simp [inBytesOf, ih]

theorem lookTokens_sent (bs : List Byte) (rest : List Token) (m : Nat) :
    lookTokens (sent bs rest) m = if m ≤ bs.length then .yes else .no := by
  unfold sent
  induction bs generalizing m with
  | nil => cases m <;> simp [lookTokens]
  | cons b bs ih => cases m <;> simp [lookTokens, ih]

/-- The token test of `InRem() >= n` is the test (43_framer.md R107, R111). -/
theorem lookBits_sent (bs : List Byte) (rest : List Token) (pos n : Nat) :
    lookBits (sent bs rest) pos n = if pos + n ≤ 8 * bs.length then .yes else .no := by
  rw [lookBits, lookTokens_sent]
  by_cases h : pos + n ≤ 8 * bs.length
  · rw [if_pos h, if_pos (by omega)]
  · rw [if_neg h, if_neg (by omega)]

theorem lookTokens_yes {inp : List Token} {m : Nat} : lookTokens inp m = .yes ↔ m ≤ (inBytesOf inp).length := by
  induction inp generalizing m with
  | nil => cases m <;> simp [lookTokens, inBytesOf]
  | cons t ts ih => cases t <;> cases m <;> simp [lookTokens, inBytesOf, ih]

theorem lookBits_yes {inp : List Token} {pos n : Nat} :
    lookBits inp pos n = .yes ↔ pos + n ≤ 8 * (inBytesOf inp).length := by
  rw [lookBits, lookTokens_yes]; omega

/-! ### The bits read -/

@[simp] theorem length_bitsAt (bs : List Byte) (p n : Nat) : (bitsAt bs p n).length = n := by
  induction n generalizing p with
  | zero => rfl
  | succ n ih => simp [bitsAt, ih]

theorem bitsAt_add (bs : List Byte) (p m n : Nat) : bitsAt bs p (m + n) = bitsAt bs p m ++ bitsAt bs (p + m) n := by
  induction m generalizing p with
  | zero => simp [bitsAt]
  | succ m ih => rw [Nat.succ_add, bitsAt, ih, bitsAt, Nat.add_right_comm]; rfl

theorem getElem?_bitsAt (bs : List Byte) (p n i : Nat) : (bitsAt bs p n)[i]? = if i < n then some (bitAt bs (p + i)) else none := by
  induction n generalizing p i with
  | zero => simp [bitsAt]
  | succ n ih => cases i <;> simp [bitsAt, ih, Nat.add_left_comm, Nat.add_comm]

theorem bitAt_eq (bs : List Byte) (p : Nat) (h : p < 8 * bs.length) : (bytesBits bs)[p]? = some (bitAt bs p) := by
  rw [getElem?_bytesBits, bitAt, List.getD_eq_getElem?_getD]
  rw [List.getElem?_eq_getElem (by omega)]
  rfl

/-- The bits a read takes are those of the byte sequence, first bit most significant (20_memory.md R42). -/
theorem bitsAt_eq (bs : List Byte) (p n : Nat) (h : p + n ≤ 8 * bs.length) :
    bitsAt bs p n = ((bytesBits bs).drop p).take n := by
  apply List.ext_getElem?
  intro i
  rw [getElem?_bitsAt, List.getElem?_take, List.getElem?_drop]
  by_cases hi : i < n
  · rw [if_pos hi, if_pos hi, bitAt_eq _ _ (by omega)]
  · rw [if_neg hi, if_neg hi]

/-! ### Reads -/

theorem readBits_sent {u : BitVec 6} {n : Nat} {s : State} {bs : List Byte} {rest : List Token}
    (h : s.inp = sent bs rest) :
    readBits u n s = if s.inBitPos + n ≤ 8 * bs.length
      then .ok (some (bitsAt bs s.inBitPos n)) { s with inBitPos := s.inBitPos + n } else .ok none s := by
  unfold readBits State.inBytes
  rw [h, lookBits_sent]
  by_cases hn : s.inBitPos + n ≤ 8 * bs.length <;> simp [hn]

/-- Everything a read can do: the next n bits, which are there; EXHAUSTED; F8; a wait. -/
theorem readBits_cases (u : BitVec 6) (n : Nat) (s : State) :
    (s.inBitPos + n ≤ 8 * s.inBytes.length ∧
      readBits u n s = .ok (some (bitsAt s.inBytes s.inBitPos n)) { s with inBitPos := s.inBitPos + n }) ∨
    readBits u n s = .ok none s ∨ readBits u n s = .raised (raise .ioError u s) ∨ readBits u n s = .waits := by
  unfold readBits
  cases e : lookBits s.inp s.inBitPos n with
  | yes => exact .inl ⟨lookBits_yes.mp e, rfl⟩
  | no => exact .inr (.inl rfl)
  | err => exact .inr (.inr (.inl rfl))
  | wait => exact .inr (.inr (.inr rfl))

/-- Everything a required read can do. -/
theorem needBits_cases (u : BitVec 6) (n : Nat) (s : State) :
    (s.inBitPos + n ≤ 8 * s.inBytes.length ∧
      needBits u n s = .ok (bitsAt s.inBytes s.inBitPos n) { s with inBitPos := s.inBitPos + n }) ∨
    needBits u n s = .raised (raise .truncated u s) ∨ needBits u n s = .raised (raise .ioError u s) ∨
    needBits u n s = .waits := by
  unfold needBits
  rcases readBits_cases u n s with ⟨h, e⟩ | e | e | e <;> rw [e]
  · exact .inl ⟨h, rfl⟩
  · exact .inr (.inl rfl)
  · exact .inr (.inr (.inl rfl))
  · exact .inr (.inr (.inr rfl))

/-! ### The byte loops -/

/-- How many bytes a loop "while k < size and InRem() >= minBits" reads: the (k+1)th needs minBits unread bits. -/
def rawBytes (len pos minBits : Nat) : Nat → Nat
  | 0 => 0
  | k + 1 => if pos + minBits ≤ 8 * len then rawBytes len (pos + 8) minBits k + 1 else 0

theorem rawBytes_eq (len pos minBits k : Nat) (hm : 8 ≤ minBits) :
    rawBytes len pos minBits k = min k ((8 * len - pos + 8 - minBits) / 8) := by
  induction k generalizing pos with
  | zero => simp [rawBytes]
  | succ k ih =>
    rw [rawBytes]
    split
    · rw [ih]; omega
    · omega

theorem readBytes_sent (bs : List Byte) (rest : List Token) (minBits k p : Nat) :
    readBytes (sent bs rest) minBits k p =
      .got (bytesOfBits (rawBytes bs.length p minBits k) (bitsAt bs p (8 * rawBytes bs.length p minBits k))) := by
  induction k generalizing p with
  | zero => rfl
  | succ k ih =>
    rw [readBytes, lookBits_sent, rawBytes]
    by_cases h : p + minBits ≤ 8 * bs.length
    · simp only [h, if_true, ih, BytesRead.cons, inBytesOf_sent]
      rw [bytesOfBits, Nat.mul_add, Nat.mul_one, Nat.add_comm (8 * _) 8, bitsAt_add]
      rw [List.take_left' (by simp), List.drop_left' (by simp)]
    · simp [h, bytesOfBits]

/-- A loop that ends has read at most `k` bytes. -/
theorem readBytes_length {inp : List Token} {minBits k p : Nat} {bs : List Byte}
    (h : readBytes inp minBits k p = .got bs ∨ readBytes inp minBits k p = .failed bs) : bs.length ≤ k := by
  induction k generalizing p bs with
  | zero => rcases h with h | h <;> simp [readBytes] at h; simp [← h]
  | succ k ih =>
    rw [readBytes] at h
    split at h
    · cases e : readBytes inp minBits k (p + 8) with
      | got cs =>
        rw [e] at h; simp [BytesRead.cons] at h; subst h
        simpa using ih (.inl e)
      | failed cs =>
        rw [e] at h; simp [BytesRead.cons] at h; subst h
        simpa using ih (.inr e)
      | waits => rw [e] at h; simp [BytesRead.cons] at h
    all_goals
      rcases h with h | h <;> cases h <;> simp

/-! ### Any input: the bytes offered so far, and what follows them -/

theorem inBytesOf_bytes (bs : List Byte) (rest : List Token) : inBytesOf (bs.map .byte ++ rest) = bs ++ inBytesOf rest := by
  induction bs with
  | nil => rfl
  | cons b bs ih => exact congrArg (b :: ·) ih

theorem lookTokens_bytes (bs : List Byte) (rest : List Token) (m : Nat) :
    lookTokens (bs.map .byte ++ rest) m = if m ≤ bs.length then .yes else lookTokens rest (m - bs.length) := by
  induction bs generalizing m with
  | nil => cases m <;> simp [lookTokens]
  | cons b bs ih => cases m <;> simp [lookTokens, ih]

theorem lookBits_bytes {bs : List Byte} {rest : List Token} {p n : Nat} (h : p + n ≤ 8 * bs.length) :
    lookBits (bs.map .byte ++ rest) p n = .yes := by
  rw [lookBits, lookTokens_bytes, if_pos (by omega)]

/-- Past the bytes offered, the test answers what the next token says: `wait` for none, `no` for END, `err` for ERR. -/
theorem lookBits_short {bs : List Byte} {rest : List Token} {p n : Nat} {r : Look} (h : 8 * bs.length < p + n)
    (hr : ∀ m, lookTokens rest (m + 1) = r) : lookBits (bs.map .byte ++ rest) p n = r := by
  rw [lookBits, lookTokens_bytes, if_neg (by omega), show (p + n + 7) / 8 - bs.length = (p + n + 7) / 8 - bs.length - 1 + 1 by omega]
  exact hr _

theorem bitsAt_append {bs cs : List Byte} {p n : Nat} (h : p + n ≤ 8 * bs.length) : bitsAt (bs ++ cs) p n = bitsAt bs p n := by
  apply List.ext_getElem?
  intro i
  rw [getElem?_bitsAt, getElem?_bitsAt]
  by_cases hi : i < n
  · rw [if_pos hi, if_pos hi, bitAt, bitAt, List.getD_eq_getElem?_getD, List.getD_eq_getElem?_getD,
      List.getElem?_append_left (by omega)]
  · rw [if_neg hi, if_neg hi]

theorem readBits_bytes {u : BitVec 6} {n : Nat} {s : State} {bs : List Byte} {rest : List Token}
    (h : s.inp = bs.map .byte ++ rest) (hn : s.inBitPos + n ≤ 8 * bs.length) :
    readBits u n s = .ok (some (bitsAt bs s.inBitPos n)) { s with inBitPos := s.inBitPos + n } := by
  unfold readBits State.inBytes
  rw [h, lookBits_bytes hn, inBytesOf_bytes, bitsAt_append hn]

/-- The byte loops on any input: how many bytes, and how they end. -/
theorem readBytes_bytes {bs : List Byte} {rest : List Token} {m : Nat} {r : Look} (hm : 8 ≤ m) (hy : r ≠ .yes)
    (hr : ∀ m, lookTokens rest (m + 1) = r) (k p : Nat) :
    readBytes (bs.map .byte ++ rest) m k p =
      if rawBytes bs.length p m k = k ∨ r = .no then
        .got (bytesOfBits (rawBytes bs.length p m k) (bitsAt bs p (8 * rawBytes bs.length p m k)))
      else if r = .err then
        .failed (bytesOfBits (rawBytes bs.length p m k) (bitsAt bs p (8 * rawBytes bs.length p m k)))
      else .waits := by
  induction k generalizing p with
  | zero => simp [readBytes, rawBytes, bytesOfBits]
  | succ k ih =>
    rw [readBytes, rawBytes]
    by_cases h : p + m ≤ 8 * bs.length
    · rw [lookBits_bytes h, if_pos h]
      simp only [ih, Nat.add_left_inj]
      rw [bytesOfBits, Nat.mul_add, Nat.mul_one, Nat.add_comm (8 * _) 8, bitsAt_add, List.take_left' (by simp),
        List.drop_left' (by simp), inBytesOf_bytes, bitsAt_append (by omega)]
      split_ifs <;> rfl
    · rw [lookBits_short (by omega) hr, if_neg h]
      cases r <;> simp [bytesOfBits] at hy ⊢

end Sys2Proof.Machine
end

