-- ==== Sys2Proof/Laws/Job.lean ====
section
/-! SUPPORT. The driver operations keep the invariant of a job, each in its phase, and never stop the model
(20_memory.md R38). -/

namespace Sys2Proof.Machine

variable {α : Type} {u : BitVec 6} {s : State} {S : Prop}

/-! ### What the shared operations do, as flows -/

theorem needBits_sat (n : Nat) : (needBits u n s).Sat
    (fun bits t => s.inBitPos + n ≤ 8 * s.inBytes.length ∧ bits = bitsAt s.inBytes s.inBitPos n ∧
      t = { s with inBitPos := s.inBitPos + n })
    (fun t => ∃ c, c ≠ .none ∧ t = raise c u s) S := by
  rcases needBits_cases u n s with ⟨h, e⟩ | e | e | e <;> rw [e]
  · exact ⟨h, rfl, rfl⟩
  · exact ⟨_, by simp, rfl⟩
  · exact ⟨_, by simp, rfl⟩
  · trivial

theorem length_overlay_le (new old : Symbol) : (overlay new old).length ≤ old.length := by
  simp [overlay]

theorem readActions_sat (bs : List Byte) : (readActions u bs s).Sat
    (fun _ t => ∃ q, (s.outErr = .low → q = .low) ∧ t = { s with inBitPos := s.inBitPos + 8 * bs.length, outErr := q })
    (fun t => ∃ q p bs, t = raise .ioError u { s with outErr := q, inBitPos := p, symBuf := bs } ∧ s.inBitPos ≤ p ∧
      bs.length ≤ s.symBuf.length) S := by
  refine actions_sat.mono ?_ ?_
  · rintro - t (rfl | ⟨q, hq, rfl⟩)
    · exact ⟨s.outErr, id, rfl⟩
    · exact ⟨q, fun h => absurd h hq, rfl⟩
  · rintro t ⟨-, j, q, -, rfl⟩
    exact ⟨q, _, _, rfl, Nat.le_add_right _ _, length_overlay_le _ _⟩

/-- Everything the byte-reading loop does: the bytes read, or F8 after some of them. The pin, if it is low, stays so. -/
theorem readSymBytes_sat (m : Nat) : (readSymBytes u m s).Sat
    (fun bs t => bs.length ≤ s.symSize.toNat ∧ readBytes s.inp m s.symSize.toNat s.inBitPos = .got bs ∧
      ∃ q, (s.outErr = .low → q = .low) ∧ t = { s with inBitPos := s.inBitPos + 8 * bs.length, outErr := q })
    (fun t => ∃ q p bs, t = raise .ioError u { s with outErr := q, inBitPos := p, symBuf := bs } ∧ s.inBitPos ≤ p ∧
      bs.length ≤ s.symBuf.length) S := by
  unfold readSymBytes
  cases e : readBytes s.inp m s.symSize.toNat s.inBitPos with
  | got bs =>
    refine (readActions_sat bs).bind ?_
    rintro - t ⟨q, hq, rfl⟩
    exact ⟨readBytes_length (.inl e), rfl, q, hq, rfl⟩
  | failed bs =>
    refine (readActions_sat bs).bind ?_
    rintro - t ⟨q, -, rfl⟩
    exact ⟨q, _, _, rfl, Nat.le_add_right _ _, length_overlay_le _ _⟩
  | waits => trivial

theorem symSize_le (s : State) : s.symSize.toNat ≤ 15 := Nat.le_of_lt_succ s.symSize.isLt

theorem gather_sat : (gather u s).Sat
    (fun _ t => ∃ q bs b, (s.outErr = .low → q = .low) ∧ bs.length ≤ s.symSize.toNat ∧
      t = { s with symBuf := bs, more := b, inBitPos := s.inBitPos + 8 * bs.length, outErr := q })
    (fun t => ∃ q p bs, t = raise .ioError u { s with outErr := q, inBitPos := p, symBuf := bs } ∧ s.inBitPos ≤ p ∧
      bs.length ≤ 15 ⊔ s.symBuf.length) S := by
  refine ((readSymBytes_sat 8).mono (fun _ _ h => h) fun t ⟨q, p, bs, e, hp, hl⟩ =>
    ⟨q, p, bs, e, hp, le_sup_of_le_right hl⟩).bind ?_
  rintro bs t ⟨hl, -, q, hq, rfl⟩
  unfold setMore
  cases lookBits s.inp (s.inBitPos + 8 * bs.length) 8 with
  | yes => exact ⟨q, bs, true, hq, hl, rfl⟩
  | no => exact ⟨q, bs, false, hq, hl, rfl⟩
  | err => exact ⟨q, _, bs, rfl, Nat.le_add_right _ _, le_sup_of_le_left (hl.trans (symSize_le s))⟩
  | wait => trivial

theorem takeEnd_sat : (takeEnd u s).Sat (fun _ t => ∃ ts, t = { s with inp := ts }) (fun t => t = raise .ioError u s) S := by
  unfold takeEnd
  split
  · exact ⟨_, rfl⟩
  · trivial
  · rfl
  · trivial

/-! ### A fault ends the job -/

/-- What the invariant asks in every phase. -/
structure JobBase (s : State) : Prop where
  host : s.hostOnly
  chain : s.par.updateChain = .original
  sym_len : s.symBuf.length ≤ 15

theorem JobInv.base (j : JobInv s) : JobBase s := ⟨j.host, j.chain, j.sym_len⟩

/-- In the phases without a tree nothing more is asked. -/
theorem JobBase.inv (b : JobBase s) (h : s.phase.hasTree = false) : JobInv s := by
  refine ⟨b.host, b.chain, fun q => by simp [h] at q, b.sym_len, fun q => ?_, fun q => ?_, fun q => ?_, fun q => ?_⟩
  · simp [q, Phase.hasTree] at h
  · rcases q with q | q <;> simp [q, Phase.hasTree] at h
  · simp [q, Phase.hasTree] at h
  · simp [q, Phase.hasTree] at h

theorem JobBase.fault (b : JobBase s) (c : FCode) : JobInv (raise c u s) :=
  JobBase.inv ⟨b.host, b.chain, b.sym_len⟩ rfl

/-- The pin is no part of the invariant. -/
theorem JobInv.pin (j : JobInv s) (p : OutErr) : JobInv { s with outErr := p } :=
  ⟨j.host, j.chain, j.tree, j.sym_len, j.emit, j.update, j.walk, j.leaf⟩

theorem JobBase.pin (b : JobBase s) (p : OutErr) : JobBase { s with outErr := p } := ⟨b.host, b.chain, b.sym_len⟩

theorem JobBase.pinFault (b : JobBase s) (p : OutErr) : JobInv (raise .ioError u { s with outErr := p }) := (b.pin p).fault _

/-! ### Writes, as flows -/

/-- Bits written: all of them, or F8 after some. -/
theorem writeBits_sat (bs : List Bool) : (writeBits u bs s).Sat
    (fun _ t => ∃ q, (s.outErr = .low → q = .low) ∧ t = { bitsWr bs s with outErr := q })
    (fun t => s.outErr ≠ .low ∧ ∃ j q, j < bs.length ∧ t = raise .ioError u { bitsWr (bs.take j) s with outErr := q }) S := by
  refine actions_sat.mono ?_ fun _ h => h
  rintro - t (rfl | ⟨q, hq, rfl⟩)
  · exact ⟨s.outErr, id, by rw [bitsWr_eq]⟩
  · exact ⟨q, fun h => absurd h hq, rfl⟩

/-- The bytes of SYMBUF written: all of them, or F8 after some. -/
theorem scatterOut_sat : (scatterOut u s).Sat
    (fun _ t => ∃ q, (s.outErr = .low → q = .low) ∧ t = { scatter s with outErr := q })
    (fun t => s.outErr ≠ .low ∧ ∃ j q, t = raise .ioError u { s with out := s.out ++ s.symBuf.take j, outErr := q }) S := by
  refine actions_sat.mono ?_ ?_
  · rintro - t (rfl | ⟨q, hq, rfl⟩)
    · exact ⟨s.outErr, id, rfl⟩
    · exact ⟨q, fun h => absurd h hq, rfl⟩
  · rintro t ⟨h, j, q, -, rfl⟩; exact ⟨h, j, q, rfl⟩

/-- What a write of bits followed by the last line leaves of the invariant. -/
theorem writeGo_job (bs : List Bool) (b : JobBase s) {ph : Phase}
    (hj : ∀ out acc cnt obp q, JobInv
      { s with out := out, oacc := acc, ocnt := cnt, outBitPos := obp, outErr := q, phase := ph }) :
    ((writeBits u bs s).bind (goTo u ph)).Sat (fun _ => JobInv) JobInv False := by
  refine ((writeBits_sat bs).mono (fun _ _ h => h) ?_).bind ?_
  · rintro t ⟨-, j, q, -, rfl⟩
    rw [bitsWr_eq]
    apply JobBase.fault; exact ⟨b.host, b.chain, b.sym_len⟩
  · rintro - t ⟨q, -, rfl⟩
    rw [bitsWr_eq]
    exact goTo_keep (fun p => hj _ _ _ _ p) fun p => by apply JobBase.fault; exact ⟨b.host, b.chain, b.sym_len⟩

/-! ### The compress driver -/

theorem encHdrLines_job (j : JobInv s) (hp : s.phase = .cHdr) : (encHdrLines s).Sat (fun _ => JobInv) JobInv False :=
  writeGo_job _ j.base fun _ _ _ _ _ =>
    ⟨j.host, j.chain, fun _ => j.tree (by simp [hp, Phase.hasTree]), j.sym_len, by simp, by simp, by simp, by simp⟩

theorem encFetchLines_job (j : JobInv s) (hp : s.phase = .cFetch) : (encFetchLines s).Sat (fun _ => JobInv) JobInv False := by
  have tree := j.tree (by simp [hp, Phase.hasTree])
  refine (gather_sat.mono (fun _ _ h => h) ?_).bind ?_
  · rintro t ⟨q, p, bs, rfl, -, hl⟩
    (apply JobBase.fault; exact ⟨j.host, j.chain, hl.trans (sup_le (le_refl _) j.sym_len)⟩)
  · rintro - t ⟨q, bs, b, -, hl, rfl⟩
    have hl := hl.trans (symSize_le s)
    refine goTo_keep (fun p => ?_) fun p => by apply JobBase.fault; exact ⟨j.host, j.chain, hl⟩
    by_cases e : bs = []
    · simp only [e, if_true]
      exact ⟨j.host, j.chain, fun _ => tree, by simp, by simp, by simp, by simp, by simp⟩
    · simp only [e, if_false]
      exact ⟨j.host, j.chain, fun _ => tree, hl, fun _ => e, by simp, by simp, by simp⟩

theorem pathOf_sat {h : Handle} (t : TreeShape s.nodes s.root) (hh : h < s.nodes.length) {Q : Unit → State → Prop}
    {R : State → Prop} (hq : ∀ p, PathTo s.nodes h p → Q () { s with pathBuf := p }) : (pathOf h s).Sat Q R S := by
  obtain ⟨p, hp⟩ := t.reaches_root h hh
  simp only [pathOf, nodePath_eq_ok_iff.mpr hp, Flow.ofExcept, Flow.bind]
  exact hq p hp

/-- F8 inside ENC.SYMBOL: what stays of the record written so far. -/
def SymbolCut (s t : State) : Prop := s.outErr ≠ .low ∧ ∃ c : State, t = raise .ioError (uopCode .encSymbol) c ∧
  c.sched = s.sched ∧ c.par = s.par ∧ c.symBuf = s.symBuf

/-- ENC.SYMBOL's path: written, and held in PATHBUF. -/
theorem emitPath_sat {h : Handle} (t : TreeShape s.nodes s.root) (hh : h < s.nodes.length) : (emitPath h s).Sat
    (fun _ t => ∃ p q, PathTo s.nodes h p ∧ (s.outErr = .low → q = .low) ∧
      t = { bitsWr p { s with pathBuf := p } with outErr := q }) (SymbolCut s) S := by
  unfold emitPath moment
  refine (actions_sat.mono (fun _ _ h => h) ?_).bind ?_
  · rintro t ⟨hl, -, q, -, rfl⟩; exact ⟨hl, _, rfl, rfl, rfl, rfl⟩
  have rest : ∀ q, (s.outErr = .low → q = .low) →
      ((pathOf h { s with outErr := q }).bind fun _ s => writeBits (uopCode .encSymbol) s.pathBuf s).Sat
        (fun _ t => ∃ p q, PathTo s.nodes h p ∧ (s.outErr = .low → q = .low) ∧
          t = { bitsWr p { s with pathBuf := p } with outErr := q }) (SymbolCut s) S := by
    intro q hq
    refine (pathOf_sat (s := { s with outErr := q }) t hh (Q := fun _ t => ∃ p, PathTo s.nodes h p ∧
      t = { s with outErr := q, pathBuf := p }) fun p hp => ⟨p, hp, rfl⟩).bind ?_
    rintro - t ⟨p, hp, rfl⟩
    refine (writeBits_sat p).mono ?_ ?_
    · rintro - t ⟨q', hq', rfl⟩
      exact ⟨p, q', hp, fun h => hq' (hq h),
        congrArg (fun x : State => { x with outErr := q' }) (bitsWr_pin p { s with pathBuf := p } q)⟩
    · rintro t ⟨hl, j, q', -, rfl⟩
      refine ⟨fun h => hl (hq h), _, rfl, ?_, ?_, ?_⟩ <;> rw [bitsWr_eq]
  rintro - t (e | ⟨q, hq, rfl⟩)
  · rw [e]; exact rest s.outErr id
  · exact rest q fun h => absurd h hq

theorem emitNew_eq {h : Handle} (hy : s.nyt = some h) : emitNew s =
    (emitPath h { setFound false s with cur := some h }).bind fun _ t =>
      writeBits (uopCode .encSymbol) (bytesBits t.symBuf) t := by
  unfold emitNew
  simp only [hy, setFound_nyt, getHandle, ofExcept_ok, bind_ok]

/-- Everything ENC.SYMBOL does in a job's tree: the record of the symbol's leaf, or of the NYT and the raw bytes; or F8
where the sink fails inside it. -/
theorem encSymbolLines_sat (k : s.treeOk) : (encSymbolLines s).Sat
    (fun _ t => ∃ h p b out acc cnt q, t = { s with
        found := b, cur := some h, pathBuf := p, out := out, oacc := acc, ocnt := cnt, phase := .cUpdate
        outBitPos := s.outBitPos + (p.length + if b then 0 else 8 * s.symBuf.length), outErr := q } ∧
      PathTo s.nodes h p ∧ h < s.nodes.length ∧
      (if b then lookupSym s.symBuf s = some h ∧ s.nyt ≠ some h else lookupSym s.symBuf s = none ∧ s.nyt = some h) ∧
      t.written = s.written ++ p ++ (if b then [] else bytesBits s.symBuf) ∧ (FramerOk s → FramerOk t) ∧
      (s.outErr = .low → q = .low))
    (SymbolCut s) S := by
  unfold encSymbolLines
  refine Flow.Sat.bind (Q := fun _ t => ∃ h p b out acc cnt q, t = { s with
        found := b, cur := some h, pathBuf := p, out := out, oacc := acc, ocnt := cnt
        outBitPos := s.outBitPos + (p.length + if b then 0 else 8 * s.symBuf.length), outErr := q } ∧
      PathTo s.nodes h p ∧ h < s.nodes.length ∧
      (if b then lookupSym s.symBuf s = some h ∧ s.nyt ≠ some h else lookupSym s.symBuf s = none ∧ s.nyt = some h) ∧
      t.written = s.written ++ p ++ (if b then [] else bytesBits s.symBuf) ∧ (FramerOk s → FramerOk t) ∧
      (s.outErr = .low → q = .low)) ?_ ?_
  · cases e : lookupSym s.opSym s with
    | some h =>
      obtain ⟨l₁, l₂, hl, -⟩ := List.lookup_eq_some_iff.mp e
      obtain ⟨n, hn, hlf, hsym⟩ := k.map_leaf (s.opSym, h) (by rw [hl]; simp)
      refine (emitPath_sat (s := { setFound true s with cur := some h }) k.shape (live_of_get hn)).mono ?_ fun _ h => h
      rintro - t ⟨p, q, hp, hq, rfl⟩
      refine ⟨h, p, true, _, _, _, q, congrArg (fun x : State => { x with outErr := q })
        (bitsWr_eq p { setFound true s with cur := some h, pathBuf := p }), hp, live_of_get hn, ⟨e, fun q => ?_⟩, ?_, ?_, hq⟩
      · obtain ⟨y, yn, hy, hyn, -, -, hys⟩ := k.nyt_leaf
        rw [q] at hy; cases hy
        rw [hn] at hyn; cases hyn
        rw [hys] at hsym; cases hsym
      · refine (bitsWr_written p { setFound true s with cur := some h, pathBuf := p }).trans ?_
        simp [State.written]
      · exact fun f => bitsWr_framerOk p { setFound true s with cur := some h, pathBuf := p } f
    | none =>
      obtain ⟨y, yn, hy, hyn, -, -, -⟩ := k.nyt_leaf
      simp only [emitNew_eq hy]
      refine (emitPath_sat (s := { setFound false s with cur := some y }) k.shape (live_of_get hyn)).bind ?_
      rintro - t ⟨p, q, hp, hq, rfl⟩
      have hsb : (bitsWr p { setFound false s with cur := some y, pathBuf := p }).symBuf = s.symBuf := by
        rw [bitsWr_eq]; rfl
      refine (writeBits_sat _).mono ?_ ?_
      · rintro - t ⟨q', hq', e'⟩
        have pin := bitsWr_pin (bytesBits (bitsWr p { setFound false s with cur := some y, pathBuf := p }).symBuf)
          (bitsWr p { setFound false s with cur := some y, pathBuf := p }) q
        have e'' := e'.trans (congrArg (fun x : State => { x with outErr := q' }) pin)
        rw [hsb, ← bitsWr_append] at e''
        dsimp only at e''
        clear e' pin
        have fr := bitsWr_framerOk (p ++ bytesBits s.symBuf) { setFound false s with cur := some y, pathBuf := p }
        have wr := bitsWr_written (p ++ bytesBits s.symBuf) { setFound false s with cur := some y, pathBuf := p }
        have eq := bitsWr_eq (p ++ bytesBits s.symBuf) { setFound false s with cur := some y, pathBuf := p }
        generalize bitsWr (p ++ bytesBits s.symBuf) { setFound false s with cur := some y, pathBuf := p } = b at fr wr eq e''
        subst e''
        refine ⟨y, p, false, b.out, b.oacc, b.ocnt, q', ?_, hp, live_of_get hyn, ⟨e, hy⟩, ?_, fr, fun h => hq' (hq h)⟩
        · rw [eq]; simp [setFound]
        · refine wr.trans ?_; simp [State.written]
      · rintro t ⟨hl, j, q', -, rfl⟩
        refine ⟨fun h => hl (hq h), _, rfl, ?_, ?_, ?_⟩ <;> rw [bitsWr_eq, bitsWr_eq]
  · rintro - t ⟨h, p, b, out, acc, cnt, q, rfl, hp, hh, hb, hw, hf, hq⟩
    unfold goTo moment
    refine (actions_sat.mono (fun _ _ h => h) ?_).bind ?_
    · rintro t ⟨hl, -, q', -, rfl⟩; exact ⟨fun h => hl (hq h), _, rfl, rfl, rfl, rfl⟩
    · rintro - t (rfl | ⟨q', hq', rfl⟩)
      · exact ⟨h, p, b, out, acc, cnt, q, rfl, hp, hh, hb, hw, hf, hq⟩
      · exact ⟨h, p, b, out, acc, cnt, q', rfl, hp, hh, hb, hw, hf, fun h => absurd (hq h) hq'⟩

theorem encSymbolLines_job (j : JobInv s) (hp : s.phase = .cEmit) : (encSymbolLines s).Sat
    (fun _ t => JobInv t ∧ t.phase = .cUpdate) JobInv False := by
  have tree := j.tree (by simp [hp, Phase.hasTree])
  refine (encSymbolLines_sat tree).mono ?_ ?_
  rotate_left
  · rintro t ⟨-, c, rfl, h1, h2, h3⟩
    apply JobBase.fault
    exact ⟨by rw [State.hostOnly, h1]; exact j.host, by rw [h2]; exact j.chain, by rw [h3]; exact j.sym_len⟩
  rintro - t ⟨h, p, b, out, acc, cnt, q, rfl, hp', hh, hb, -, -, -⟩
  refine ⟨⟨j.host, j.chain, fun _ => tree, j.sym_len, by simp, fun _ => ?_, by simp, by simp⟩, rfl⟩
  cases b with
  | true => exact ⟨h, rfl, hh, hb.2⟩
  | false => exact j.emit hp

/-- The condition under which a record can be applied to the tree: set by the operations that come before. -/
abbrev Appliable (s : State) : Prop :=
  if s.found then ∃ h, s.cur = some h ∧ h < s.nodes.length ∧ s.nyt ≠ some h else s.symBuf ≠ []

/-- Applying a record keeps the tree of a job, or faults. -/
theorem applyRecord_job (b : JobBase s) (k : s.treeOk) (a : Appliable s) : (applyRecord u s).Sat
    (fun _ t => JobBase t ∧ t.treeOk ∧ t.phase = s.phase) JobInv False := by
  unfold applyRecord
  refine Flow.Sat.bind (Q := fun _ t => JobBase t ∧ t.treeOk ∧ t.phase = s.phase) ?_ fun _ t h =>
    moment_bind (fun p => ⟨⟨h.1.host, h.1.chain, h.1.sym_len⟩, h.2.1, h.2.2⟩) fun p => h.1.pinFault p
  unfold Appliable at a
  split
  · rename_i hf
    rw [if_pos hf] at a
    obtain ⟨x, hx, hxl, hxy⟩ := a
    rw [hx]
    obtain ⟨ns', up, r, k', -, e | e | e⟩ := updateTree_cases (u := u) b.chain k hxl hxy
    · rw [e.1]; exact ⟨⟨b.host, b.chain, b.sym_len⟩, k', rfl⟩
    · rw [e]; (apply JobBase.fault; exact ⟨b.host, b.chain, b.sym_len⟩)
    · rw [e]; (apply JobBase.fault; exact ⟨b.host, b.chain, b.sym_len⟩)
  · rename_i hf
    rw [if_neg hf] at a
    have h1 : 1 ≤ s.opSym.length := List.length_pos_iff.mpr a
    obtain ⟨-, e⟩ | ⟨N, n, -, -, -, ns', up, r, k', -, e | e | e⟩ := addSymbol_cases (u := u) b.chain k h1 b.sym_len
    · rw [e]; exact b.fault _
    · rw [e.1]; exact ⟨⟨b.host, b.chain, b.sym_len⟩, k', rfl⟩
    · rw [e]; (apply JobBase.fault; exact ⟨b.host, b.chain, b.sym_len⟩)
    · rw [e]; (apply JobBase.fault; exact ⟨b.host, b.chain, b.sym_len⟩)

theorem encUpdateLines_job (j : JobInv s) (hp : s.phase = .cUpdate) : (encUpdateLines s).Sat (fun _ => JobInv) JobInv False := by
  refine (applyRecord_job j.base (j.tree (by simp [hp, Phase.hasTree])) (j.update (.inl hp))).bind ?_
  rintro - t ⟨b, k, -⟩
  exact ⟨b.host, b.chain, fun _ => k, b.sym_len, by simp, by simp, by simp, by simp⟩

theorem encFrameLines_job (j : JobInv s) (hp : s.phase = .cFrame) : (encFrameLines s).Sat (fun _ => JobInv) JobInv False := by
  have tree := j.tree (by simp [hp, Phase.hasTree])
  unfold encFrameLines
  split
  · exact writeGo_job _ j.base fun _ _ _ _ _ =>
      ⟨j.host, j.chain, fun _ => tree, j.sym_len, by simp, by simp, by simp, by simp⟩
  · exact goTo_keep (fun _ => ⟨j.host, j.chain, fun _ => tree, j.sym_len, by simp, by simp, by simp, by simp⟩) j.base.pinFault

theorem encEosLines_job (j : JobInv s) (hp : s.phase = .cEos) : (encEosLines s).Sat (fun _ => JobInv) JobInv False :=
  writeGo_job _ j.base fun _ _ _ _ _ =>
    ⟨j.host, j.chain, fun _ => j.tree (by simp [hp, Phase.hasTree]), j.sym_len, by simp, by simp, by simp, by simp⟩

theorem encFlushLines_sat (xs : List Bool) : (encFlushLines xs s).Sat
    (fun _ t => ∃ ts, t = { flushWith xs { s with inp := ts } with phase := .done })
    (fun t => t = raise .ioError (uopCode .encFlush) s) S :=
  takeEnd_sat.bind fun _ _ ⟨ts, e⟩ => e ▸ ⟨ts, rfl⟩

theorem encFlushLines_job (j : JobInv s) (xs : List Bool) : (encFlushLines xs s).Sat (fun _ => JobInv) JobInv False := by
  refine (encFlushLines_sat xs).mono ?_ ?_
  · rintro - t ⟨ts, rfl⟩
    rw [flushWith_eq]
    exact JobBase.inv ⟨j.host, j.chain, j.sym_len⟩ rfl
  · rintro t rfl; exact j.base.fault _

/-! ### The decompress driver -/

theorem decHdrWith_job (b : JobBase s) (v : BitVec 4) : (decHdrWith v s).Sat (fun _ => JobInv) JobInv False := by
  refine moment_bind (fun p => ?_) b.pinFault
  split
  · exact (b.pin p).fault _
  · have k := treeNew_treeOk (256 ^ v.toNat) { s with outErr := p, symSize := v }
    refine moment_bind (fun q => ?_) fun q => JobBase.inv ⟨b.host, b.chain, b.sym_len⟩ rfl
    exact ⟨b.host, b.chain, fun _ => k, b.sym_len, by simp, by simp, fun _ => ⟨0, rfl, by simp [treeNew]⟩, by simp⟩

theorem decHdrLines_job (j : JobInv s) : (decHdrLines s).Sat (fun _ => JobInv) JobInv False := by
  refine ((needBits_sat 4).mono (fun _ _ h => h) ?_).bind ?_
  · rintro t ⟨c, -, rfl⟩; exact j.base.fault _
  · rintro bits t ⟨-, -, rfl⟩
    apply decHdrWith_job; exact ⟨j.host, j.chain, j.sym_len⟩

theorem curNode_eq {h : Handle} {n : Node} (hc : s.cur = some h) (hn : s.nodes[h]? = some n) : curNode s = .ok n := by
  simp [curNode, hc, getHandle, getNode, hn, Except.bind]

/-- Both links of an internal node lead to live entries. -/
theorem TreeShape.child_live {ns : Store} {root : Option Handle} (t : TreeShape ns root) {h : Handle} {n : Node}
    (hn : ns[h]? = some n) (hl : n.isLeaf = false) (b : Bool) :
    ∃ c, (if b then n.right else n.left) = some c ∧ c < ns.length := by
  have hln : n.left ≠ none := fun q => by rw [(t.isLeaf_iff hn).mpr q] at hl; cases hl
  have hrn : n.right ≠ none := fun q => hln ((t.both_or_none _ _ hn).mpr q)
  cases b with
  | true =>
    obtain ⟨c, hc⟩ := Option.ne_none_iff_exists'.mp hrn
    obtain ⟨m, hm, -⟩ := t.right_parent _ _ _ hn hc
    exact ⟨c, by simpa using hc, live_of_get hm⟩
  | false =>
    obtain ⟨c, hc⟩ := Option.ne_none_iff_exists'.mp hln
    obtain ⟨m, hm, -⟩ := t.left_parent _ _ _ hn hc
    exact ⟨c, by simpa using hc, live_of_get hm⟩

theorem stepTo_job {n : Node} (b : JobBase s) (k : s.treeOk) {h : Handle} (hn : s.nodes[h]? = some n)
    (hl : n.isLeaf = false) (bit : Bool) : JobInv (stepTo n bit s) := by
  obtain ⟨c, hc, hcl⟩ := k.shape.child_live hn hl bit
  exact ⟨b.host, b.chain, fun _ => k, b.sym_len, by simp, by simp, fun _ => ⟨c, hc, hcl⟩, by simp⟩

theorem decWalkLines_job (j : JobInv s) (hp : s.phase = .dWalk) : (decWalkLines s).Sat (fun _ => JobInv) JobInv False := by
  have tree := j.tree (by simp [hp, Phase.hasTree])
  obtain ⟨h, hc, hl⟩ := j.walk hp
  obtain ⟨n, hn⟩ := get_of_live hl
  unfold decWalkLines
  rw [curNode_eq hc hn]
  simp only [ofExcept_ok, bind_ok]
  split
  · rename_i hlf
    exact goTo_keep (fun _ => ⟨j.host, j.chain, fun _ => tree, j.sym_len, by simp, by simp, by simp,
      fun _ => ⟨h, n, hc, hn, hlf⟩⟩) j.base.pinFault
  · rename_i hlf
    refine ((needBits_sat 1).mono (fun _ _ h => h) ?_).bind ?_
    · rintro t ⟨c, -, rfl⟩; exact j.base.fault _
    · rintro bits t ⟨-, -, rfl⟩
      refine moment_bind (fun p => ?_) fun p => JobBase.inv ⟨j.host, j.chain, j.sym_len⟩ rfl
      rw [sat_ok]
      exact stepTo_job (s := { s with inBitPos := s.inBitPos + 1, outErr := p }) ⟨j.host, j.chain, j.sym_len⟩ tree hn
        (by simpa using hlf) _

/-- The leaf's symbol written out and the last line. -/
theorem scatterGo_job (b : JobBase s) (hj : ∀ out obp q, JobInv
      { s with out := out, outBitPos := obp, outErr := q, phase := .dUpdate }) :
    ((scatterOut u s).bind (goTo u .dUpdate)).Sat (fun _ t => JobInv t ∧ t.phase = .dUpdate) JobInv False := by
  refine (scatterOut_sat.mono (fun _ _ h => h) ?_).bind ?_
  · rintro t ⟨-, j, q, rfl⟩
    apply JobBase.fault; exact ⟨b.host, b.chain, b.sym_len⟩
  · rintro - t ⟨q, -, rfl⟩
    exact goTo_keep (fun p => ⟨hj _ _ p, rfl⟩) fun p => by apply JobBase.fault; exact ⟨b.host, b.chain, b.sym_len⟩

theorem leafNew_job (b : JobBase s) (k : s.treeOk) {bs : List Byte} (hne : bs ≠ []) (hl : bs.length ≤ 15) :
    (leafNew bs s).Sat (fun _ t => JobInv t ∧ t.phase = .dUpdate) JobInv False :=
  scatterGo_job ⟨b.host, b.chain, hl⟩ fun _ _ _ =>
    ⟨b.host, b.chain, fun _ => k, hl, by simp, fun _ => hne, by simp, by simp⟩

theorem leafHit_job (j : JobInv s) (k : s.treeOk) {h : Handle} {n : Node} (hc : s.cur = some h) (hn : s.nodes[h]? = some n)
    (hlf : n.isLeaf = true) (hy : n.isNyt = false) :
    (leafHit n s).Sat (fun _ t => JobInv t ∧ t.phase = .dUpdate) JobInv False := by
  have ne : s.nyt ≠ some h := by
    intro q
    obtain ⟨y, yn, hy', hyn, hw, -, -⟩ := k.nyt_leaf
    rw [q] at hy'; cases hy'
    rw [hn] at hyn; cases hyn
    simp [Node.isNyt, hw] at hy
  obtain ⟨sym, hs⟩ := k.leaf_sym h n hn hlf ne
  unfold leafHit
  rw [hs]
  exact scatterGo_job ⟨j.host, j.chain, (k.sym_len h n sym hn hs).2⟩ fun _ _ _ =>
    ⟨j.host, j.chain, fun _ => k, (k.sym_len h n sym hn hs).2, by simp, fun _ => ⟨h, hc, live_of_get hn, ne⟩, by simp,
      by simp⟩

theorem readRaw_job (j : JobInv s) {Q : List Byte → State → Prop}
    (hq : ∀ bs, bs.length ≤ 15 → readBytes s.inp s.par.rawMinBits.toNat s.symSize.toNat s.inBitPos = .got bs →
      ∀ q, Q bs { s with inBitPos := s.inBitPos + 8 * bs.length, outErr := q }) : (readRaw s).Sat Q JobInv False := by
  refine (readSymBytes_sat _).mono ?_ ?_
  · rintro bs t ⟨hl, e, q, -, rfl⟩; exact hq bs (hl.trans (symSize_le s)) e q
  · rintro t ⟨q, p, bs, rfl, -, hl⟩
    (apply JobBase.fault; exact ⟨j.host, j.chain, hl.trans j.sym_len⟩)

theorem decLeafLines_job (j : JobInv s) (hp : s.phase = .dLeaf) : (decLeafLines s).Sat (fun _ => JobInv) JobInv False := by
  have tree := j.tree (by simp [hp, Phase.hasTree])
  obtain ⟨h, n, hc, hn, hlf⟩ := j.leaf hp
  unfold decLeafLines
  rw [curNode_eq hc hn]
  simp only [ofExcept_ok, bind_ok]
  split
  · refine (readRaw_job j (Q := fun bs t => bs.length ≤ 15 ∧
      ∃ q, t = { s with inBitPos := s.inBitPos + 8 * bs.length, outErr := q }) fun bs hl _ q => ⟨hl, q, rfl⟩).bind ?_
    rintro bs t ⟨hl, q, rfl⟩
    split
    · rw [leafEmpty_eq]
      split
      · exact ⟨j.host, j.chain, fun _ => tree, by simp, by simp, by simp, by simp, by simp⟩
      · (apply JobBase.fault; exact ⟨j.host, j.chain, by simp⟩)
    · rename_i hne
      exact (leafNew_job (s := { s with inBitPos := s.inBitPos + 8 * bs.length, outErr := q })
        ⟨j.host, j.chain, j.sym_len⟩ tree hne hl).mono (fun _ _ h => h.1) fun _ h => h
  · rename_i hy
    exact (leafHit_job j tree hc hn hlf (by simpa using hy)).mono (fun _ _ h => h.1) fun _ h => h

theorem decUpdateLines_job (j : JobInv s) (hp : s.phase = .dUpdate) : (decUpdateLines s).Sat (fun _ => JobInv) JobInv False := by
  refine (applyRecord_job j.base (j.tree (by simp [hp, Phase.hasTree])) (j.update (.inr hp))).bind ?_
  rintro - t ⟨b, k, -⟩
  exact ⟨b.host, b.chain, fun _ => k, b.sym_len, by simp, by simp, by simp, by simp⟩

theorem decFrameWith_job (b : JobBase s) (k : s.treeOk) (bit : Bool) : (decFrameWith bit s).Sat (fun _ => JobInv) JobInv False := by
  refine moment_bind (fun p => ?_) b.pinFault
  split
  · exact ⟨b.host, b.chain, fun _ => k, b.sym_len, by simp, by simp, by simp, by simp⟩
  · split
    · exact (b.pin p).fault _
    · obtain ⟨r, n, hr, hn, -⟩ := k.shape.root_live
      exact ⟨b.host, b.chain, fun _ => k, b.sym_len, by simp, by simp, fun _ => ⟨r, hr, live_of_get hn⟩, by simp⟩

theorem decFrameLines_job (j : JobInv s) (hp : s.phase = .dFrame) : (decFrameLines s).Sat (fun _ => JobInv) JobInv False := by
  have tree := j.tree (by simp [hp, Phase.hasTree])
  refine ((needBits_sat 1).mono (fun _ _ h => h) ?_).bind ?_
  · rintro t ⟨c, -, rfl⟩; exact j.base.fault _
  · rintro bits t ⟨-, -, rfl⟩
    exact decFrameWith_job (s := { s with inBitPos := s.inBitPos + 1 }) ⟨j.host, j.chain, j.sym_len⟩ tree _

theorem decDrainLines_job (j : JobInv s) : (decDrainLines s).Sat (fun _ => JobInv) JobInv False := by
  refine (takeEnd_sat.mono (fun _ _ h => h) ?_).bind ?_
  · rintro t rfl; exact j.base.fault _
  · rintro - t ⟨ts, rfl⟩
    exact moment_bind (fun _ => JobBase.inv ⟨j.host, j.chain, j.sym_len⟩ rfl) fun _ =>
      JobBase.inv ⟨j.host, j.chain, j.sym_len⟩ rfl

end Sys2Proof.Machine
end

