-- ==== Sys2Proof/Laws/Step.lean ====
section
/-! SUPPORT. The items of the stream and the commands keep the invariant of a job; so every step of AHC under a real host
goes on and keeps it. -/

namespace Sys2Proof.Machine

variable {s : State} {S : Prop}

/-! ### The item that is due -/

theorem decodeHere_eq {d : Due} {i : Instr} (h : decodeHere d s = some i) :
    s.inBitPos + (Format.stream d).width ≤ 8 * s.inBytes.length ∧
      decodeDue d (bitsAt s.inBytes s.inBitPos (Format.stream d).width) = .ok i := by
  unfold decodeHere at h
  dsimp only at h
  split at h
  · rename_i hy
    refine ⟨lookBits_yes.mp hy, ?_⟩
    unfold decode at h
    rw [if_neg (by simp), List.take_of_length_le (by simp)] at h
    unfold decodeItem at h
    dsimp only at h
    cases e : decodeDue d (bitsAt s.inBytes s.inBitPos (Format.stream d).width) with
    | ok j => rw [e] at h; simp [Except.toOption] at h; rw [h]
    | error r => rw [e] at h; simp [Except.toOption] at h
  · cases h

/-- The leaf a walk along `bits` comes to. -/
theorem leafBelow_eq {ns : Store} {bits : List Bool} {h : Option Handle} {k : Nat} {n : Node}
    (e : leafBelow ns bits h = some (k, n)) : k ≤ bits.length ∧ n.isLeaf = true := by
  induction bits generalizing h k with
  | nil =>
    cases h with
    | none => simp [leafBelow] at e
    | some h =>
      simp only [leafBelow] at e
      split at e
      · split_ifs at e with hl; cases e; exact ⟨le_refl _, hl⟩
      · cases e
  | cons b bits ih =>
    cases h with
    | none => simp [leafBelow] at e
    | some h =>
      simp only [leafBelow] at e
      split at e
      · rename_i m hm
        by_cases hl : m.isLeaf = true
        · rw [if_pos hl] at e; cases e; exact ⟨Nat.zero_le _, hl⟩
        · rw [if_neg hl] at e
          obtain ⟨⟨k', n'⟩, e', q⟩ := Option.map_eq_some_iff.mp e
          cases q
          obtain ⟨h1, h2⟩ := ih e'
          exact ⟨Nat.succ_le_succ h1, h2⟩
      · cases e

/-- The state after a walk of `k` bits that comes to entry `h`. -/
def walked (k : Nat) (h : Handle) (s : State) : State :=
  { s with cur := some h, inBitPos := s.inBitPos + k, phase := .dLeaf }

/-- A PATH that leads to a leaf and meets none before is walked whole. -/
theorem walkPath_sat {bits : List Bool} {k : Nat} {n : Node} (b : JobBase s)
    (e : leafBelow s.nodes bits s.cur = some (k, n)) : (walkPath (bits.take k) s).Sat
      (fun _ t => ∃ h, s.nodes[h]? = some n ∧ t = walked k h s) JobInv False := by
  induction bits generalizing s k with
  | nil =>
    cases hc : s.cur with
    | none => rw [hc] at e; simp [leafBelow] at e
    | some h =>
      rw [hc] at e
      simp only [leafBelow] at e
      split at e
      · rename_i m hm
        split_ifs at e with hl
        cases e
        simp only [List.take_nil, walkPath, curNode_eq hc hm, ofExcept_ok, bind_ok, hl, if_true, sat_ok]
        exact ⟨h, hm, by rw [walked, ← hc]; rfl⟩
      · cases e
  | cons bit bits ih =>
    cases hc : s.cur with
    | none => rw [hc] at e; simp [leafBelow] at e
    | some h =>
      rw [hc] at e
      simp only [leafBelow] at e
      split at e
      · rename_i m hm
        by_cases hl : m.isLeaf = true
        · rw [if_pos hl] at e
          cases e
          simp only [List.take_zero, walkPath, curNode_eq hc hm, ofExcept_ok, bind_ok, hl, if_true, sat_ok]
          exact ⟨h, hm, by rw [walked, ← hc]; rfl⟩
        · rw [if_neg hl] at e
          obtain ⟨⟨k', n'⟩, e', q⟩ := Option.map_eq_some_iff.mp e
          cases q
          simp only [List.take_succ_cons, walkPath, curNode_eq hc hm, ofExcept_ok, bind_ok, hl, Bool.false_eq_true, if_false]
          refine ((needBits_sat 1).mono (fun _ _ h => h) ?_).bind ?_
          · rintro t ⟨c, -, rfl⟩; exact b.fault _
          · rintro _ t ⟨-, -, rfl⟩
            refine (ih (s := stepTo m bit { s with inBitPos := s.inBitPos + 1 }) ⟨b.host, b.chain, b.sym_len⟩ e').mono ?_ fun _ h => h
            rintro _ t ⟨g, hg, rfl⟩
            exact ⟨g, hg, by simp [walked, stepTo, Nat.add_assoc, Nat.add_comm 1]⟩
      · cases e

theorem walked_job (j : JobInv s) (hp : s.phase = .dWalk) {k : Nat} {h : Handle} {n : Node} (hn : s.nodes[h]? = some n)
    (hl : n.isLeaf = true) : JobInv (walked k h s) :=
  ⟨j.host, j.chain, fun _ => j.tree (by simp [hp, Phase.hasTree]), j.sym_len, by simp [walked], by simp [walked],
    by simp [walked], fun _ => ⟨h, n, rfl, hn, hl⟩⟩

/-- The raw bytes that are due are those DEC.LEAF reads. -/
theorem rawElement_job (j : JobInv s) (hp : s.phase = .dLeaf) {h : Handle} {n : Node} (hc : s.cur = some h)
    (hn : s.nodes[h]? = some n) (hy : n.isNyt = true) {bs : List Byte} (hb : bs.length = rawCount s s.inBitPos)
    (h1 : 1 ≤ bs.length) (h15 : bs.length ≤ 15) :
    (rawElement bs s).Sat (fun _ t => JobInv t ∧ t.phase = .dUpdate) JobInv False := by
  have tree := j.tree (by simp [hp, Phase.hasTree])
  have hne : bs ≠ [] := by rintro rfl; simp at h1
  unfold rawElement
  simp only [curNode_eq hc hn, ofExcept_ok, bind_ok, hy, if_true]
  refine (readRaw_job j (Q := fun bs' t => bs'.length = bs.length ∧
    ∃ q, t = { s with inBitPos := s.inBitPos + 8 * bs'.length, outErr := q })
    fun bs' _ e q => ⟨by simp [hb, rawCount, e], q, rfl⟩).bind ?_
  rintro bs' t ⟨hl, q, rfl⟩
  rw [if_pos ⟨hl, hne⟩]
  exact leafNew_job (s := { s with inBitPos := s.inBitPos + 8 * bs'.length, outErr := q }) ⟨j.host, j.chain, j.sym_len⟩ tree
    hne h15

theorem toOption_map_eq {β : Type} {x : Except Fault β} {f : β → Instr} {i : Instr} (h : x.toOption.map f = some i) :
    ∃ p, x = .ok p ∧ f p = i := by
  cases x with
  | ok p => exact ⟨p, rfl, by simpa [Except.toOption] using h⟩
  | error e => simp [Except.toOption] at h

theorem encRecord_job (j : JobInv s) (hp : s.phase = .cEmit) : (encRecord s).Sat (fun _ => JobInv) JobInv False :=
  (encSymbolLines_job j hp).bind fun _ _ h => encUpdateLines_job h.1 h.2

/-- Every item the sequencer can run at once, the pin low, runs, and keeps the invariant. -/
theorem elementDue_job (j : JobInv s) (ho : s.outErr = .low) {i : Instr} (e : elementDue s = some i) : ∃ t, exec i s = .next t ∧ JobInv t := by
  unfold elementDue at e
  split at e <;> rename_i hp
  · cases e
    simp only [exec, execHdr, hp, if_true]
    exact withSink_low_completes ho (encHdrLines_job j hp) j
  · unfold encRecordDue at e
    split at e
    · rename_i h hlk
      obtain ⟨p, hpath, rfl⟩ := toOption_map_eq e
      simp only [exec, execRecHit, hp, hlk, hpath, if_true]
      exact withSink_low_completes ho (encRecord_job j hp) j
    · rename_i hlk
      split at e
      · rename_i h hy
        obtain ⟨p, hpath, rfl⟩ := toOption_map_eq e
        simp only [exec, execRecNew, hp, hlk, hy, hpath, and_self, if_true]
        exact withSink_low_completes ho (encRecord_job j hp) j
      · cases e
  · split_ifs at e with hm
    cases e
    simp only [exec, execF0, hp, hm, if_true]
    exact withSink_low_completes ho (encFrameLines_job j hp) j
  · cases e
    simp only [exec, execEos, hp]
    exact withSink_low_completes ho (encEosLines_job j hp) j
  · cases e
    simp only [exec, execPad, hp, if_true]
    exact withSink_low_completes ho (encFlushLines_job j _) j
  · obtain ⟨-, e⟩ := decodeHere_eq e
    simp only [decodeDue] at e
    split_ifs at e with h0
    cases e
    simp only [exec, execHdr, hp]
    refine withSink_low_completes ho ?_ j
    refine ((needBits_sat 4).mono (fun _ _ h => h) ?_).bind ?_
    · rintro t ⟨c, -, rfl⟩; exact j.base.fault _
    · rintro bits t ⟨-, -, rfl⟩
      exact decHdrWith_job (s := { s with inBitPos := s.inBitPos + 4 }) ⟨j.host, j.chain, j.sym_len⟩ _
  · obtain ⟨⟨k, n⟩, hlb, e⟩ := Option.bind_eq_some_iff.mp e
    obtain ⟨hw, e⟩ := decodeHere_eq e
    simp only [decodeDue] at e
    cases e
    simp only [exec, execPath, hp]
    refine withSink_low_completes ho ?_ j
    obtain ⟨hk, hlf⟩ := leafBelow_eq hlb
    have hbits : s.unread.take k = bitsAt s.inBytes s.inBitPos (Format.stream (.path k)).width := by
      have hk' : k ≤ s.inRem := by simpa [State.unread] using hk
      rw [State.unread, show s.inRem = k + (s.inRem - k) by omega, bitsAt_add, List.take_left' (by simp)]
      rfl
    rw [← hbits]
    refine (walkPath_sat j.base hlb).mono ?_ fun _ h => h
    rintro _ t ⟨h, hn, rfl⟩
    exact walked_job j hp hn hlf
  · obtain ⟨h, n, hc, hn, hlf⟩ := j.leaf hp
    rw [curNode_eq hc hn] at e
    dsimp only at e
    split_ifs at e with hy
    obtain ⟨-, e⟩ := decodeHere_eq e
    simp only [decodeDue] at e
    split_ifs at e with h115
    cases e
    simp only [exec, execRaw, hp]
    refine withSink_low_completes ho ?_ j
    exact (rawElement_job j hp hc hn hy (by simp) (by simpa using h115.1) (by simpa using h115.2)).mono
      (fun _ _ h => h.1) fun _ h => h
  · obtain ⟨-, e⟩ := decodeHere_eq e
    have tree := j.tree (by simp [hp, Phase.hasTree])
    have key : ∀ b, ∃ t, withSink (uopCode .decFrame) (frameElement b) s = .next t ∧ JobInv t := by
      intro b
      refine withSink_low_completes ho ?_ j
      refine ((needBits_sat 1).mono (fun _ _ h => h) ?_).bind ?_
      · rintro t ⟨c, -, rfl⟩; exact j.base.fault _
      · rintro bits t ⟨-, -, rfl⟩
        exact decFrameWith_job (s := { s with inBitPos := s.inBitPos + 1 }) ⟨j.host, j.chain, j.sym_len⟩ tree _
    simp only [decodeDue] at e
    split_ifs at e
    · cases e; simp only [exec, execEos, hp]; exact key true
    · cases e; simp only [exec, execF0, hp]; exact key false
  · obtain ⟨-, e⟩ := decodeHere_eq e
    simp only [decodeDue] at e
    split_ifs at e
    cases e
    simp only [exec, execPad, hp]
    exact withSink_low_completes ho (decDrainLines_job j) j
  · cases e

theorem decUpdateAfter_job {Q : Unit → State → Prop} (x : Flow Unit)
    (h : x.Sat (fun _ t => JobInv t ∧ t.phase = .dUpdate) JobInv False) (hq : ∀ t, JobInv t → Q () t) :
    (x.bind fun _ t => decUpdateLines t).Sat Q JobInv False :=
  h.bind fun _ _ ht => (decUpdateLines_job ht.1 ht.2).mono (fun _ t h => hq t h) fun _ h => h

theorem recordDue_job (j : JobInv s) (ho : s.outErr = .low) {i : Instr} (e : recordDue s = some i) : ∃ t, exec i s = .next t ∧ JobInv t := by
  unfold recordDue at e
  split at e
  · rename_i hp
    split_ifs at e with hroot
    obtain ⟨⟨k, n⟩, hlb, e⟩ := Option.bind_eq_some_iff.mp e
    obtain ⟨hk, hlf⟩ := leafBelow_eq hlb
    have hk' : k ≤ s.inRem := by simpa [State.unread] using hk
    have hbits : s.unread.take k = bitsAt s.inBytes s.inBitPos k := by
      rw [State.unread, show s.inRem = k + (s.inRem - k) by omega, bitsAt_add, List.take_left' (by simp)]
    dsimp only at e
    split_ifs at e with hy
    · obtain ⟨-, e⟩ := decodeHere_eq e
      simp only [decodeDue] at e
      split_ifs at e with h115
      cases e
      rw [Format.width, bitsAt_add, List.take_left' (by simp)]
      generalize hbs : bytesOfBits (rawCount s (s.inBitPos + k)) _ = bs
      have hbl : bs.length = rawCount s (s.inBitPos + k) := by rw [← hbs]; simp
      simp only [exec, execRecNew, hp]
      refine withSink_low_completes ho ?_ j
      unfold decRecord
      rw [if_pos hroot, ← hbits]
      refine (walkPath_sat j.base hlb).bind ?_
      rintro _ t ⟨h, hn, rfl⟩
      refine decUpdateAfter_job _ ?_ fun _ h => h
      exact rawElement_job (walked_job j hp hn hlf) rfl (s := walked k h s) rfl hn hy hbl (by omega) (by omega)
    · obtain ⟨-, e⟩ := decodeHere_eq e
      simp only [decodeDue] at e
      split_ifs at e with h1
      cases e
      rw [Format.width]
      simp only [exec, execRecHit, hp]
      refine withSink_low_completes ho ?_ j
      unfold decRecord
      rw [if_pos hroot, ← hbits]
      refine (walkPath_sat j.base hlb).bind ?_
      rintro _ t ⟨h, hn, rfl⟩
      refine decUpdateAfter_job _ ?_ fun _ h => h
      have jw := walked_job (k := k) j hp hn hlf
      have hcn : curNode (walked k h s) = .ok n := curNode_eq (s := walked k h s) rfl hn
      unfold hitElement
      simp only [hcn, ofExcept_ok, bind_ok, hy, Bool.false_eq_true, if_false]
      exact leafHit_job jw (jw.tree rfl) rfl hn hlf (by simpa using hy)
  · exact elementDue_job j ho e

/-! ### Driver operations, commands and the host -/

theorem driverOp_job (j : JobInv s) {i : Instr} (e : driverOp s.phase = some i) : ∃ t, exec i s = .next t ∧ JobInv t := by
  have fault : ∀ u p, JobInv (raise .ioError u { s with outErr := p }) := fun u p => j.base.pinFault p
  cases hp : s.phase <;> rw [hp] at e <;> cases e
  · exact withSink_completes (fun p => encHdrLines_job (j.pin p) hp) j (fault _)
  · exact withSink_completes (fun p => encFetchLines_job (j.pin p) hp) j (fault _)
  · exact withSink_completes (fun p => (encSymbolLines_job (j.pin p) hp).mono (fun _ _ h => h.1) fun _ h => h) j (fault _)
  · exact withSink_completes (fun p => encUpdateLines_job (j.pin p) hp) j (fault _)
  · exact withSink_completes (fun p => encFrameLines_job (j.pin p) hp) j (fault _)
  · exact withSink_completes (fun p => encEosLines_job (j.pin p) hp) j (fault _)
  · exact withSink_completes (fun p => encFlushLines_job (j.pin p) _) j (fault _)
  · exact withSink_completes (fun p => decHdrLines_job (j.pin p)) j (fault _)
  · exact withSink_completes (fun p => decWalkLines_job (j.pin p) hp) j (fault _)
  · exact withSink_completes (fun p => decLeafLines_job (j.pin p) hp) j (fault _)
  · exact withSink_completes (fun p => decUpdateLines_job (j.pin p) hp) j (fault _)
  · exact withSink_completes (fun p => decFrameLines_job (j.pin p) hp) j (fault _)
  · exact withSink_completes (fun p => decDrainLines_job (j.pin p)) j (fault _)

theorem startCompress_job (b : JobBase s) (size : BitVec 4) : JobInv (startCompress size s) :=
  ⟨b.host, b.chain, fun _ => treeNew_treeOk (256 ^ (clampSize size).toNat) s, by simp [startCompress], by simp [startCompress], by simp [startCompress],
    by simp [startCompress], by simp [startCompress]⟩

theorem startDecompress_job (b : JobBase s) : JobInv (startDecompress s) :=
  JobBase.inv ⟨b.host, b.chain, by simp [startDecompress]⟩ rfl

theorem abort_job (b : JobBase s) : JobInv (abort s) :=
  JobBase.inv ⟨b.host, b.chain, by simp [abort]⟩ rfl

theorem cmd_job (j : JobInv s) {w : BitVec 8} {i : Instr} (e : decodeCmd w = .ok i) :
    ∃ t, exec i s = .next t ∧ JobInv t := by
  unfold decodeCmd at e
  split_ifs at e <;> cases e
  · exact ⟨s, rfl, j⟩
  · refine ⟨_, rfl, ?_⟩
    split
    · exact startCompress_job j.base _
    · exact j
  · refine ⟨_, rfl, ?_⟩
    split
    · exact startDecompress_job j.base
    · exact j
  · exact ⟨_, rfl, abort_job j.base⟩

/-- What the host changes outside the job leaves the invariant alone. -/
theorem JobInv.host_change (j : JobInv s) {sc : List HostEvent} {ts : List Token} {oe : OutErr} {rp : RstPin} {ns : Nat}
    {rd : RegVal} {fc : Nat} (hh : ∀ e ∈ sc, e.isHost = true) :
    JobInv { s with sched := sc, inp := ts, outErr := oe, rst := rp, nodeSel := ns, rdData := rd, freeCtr := fc } :=
  ⟨hh, j.chain, j.tree, j.sym_len, j.emit, j.update, j.walk, j.leaf⟩

end Sys2Proof.Machine
end

