-- ==== Sys2Proof/Laws/Facts.lean ====
section
/-! SUPPORT. The numbers of a job (42_tree.md R104 (c), (e), 43_framer.md R116, 20_memory.md R40): each driver operation
keeps them. -/

namespace Sys2Proof.Machine

variable {s t : State} {S : Prop} {u : BitVec 6}

/-- Outside a job nothing is asked but that OUT_CLOSED is as it should be. -/
theorem JobFacts.idle (h1 : s.phase.hasTree = false) (h2 : s.phase.compressing = false) (h3 : s.phase ≠ .dHdr)
    (hc : (s.phase.busy = true ∨ s.phase = .fault ∧ s.fcode ≠ .badCmd → s.outClosed = false) ∧
      (s.phase = .done → s.outClosed = true)) : JobFacts s :=
  ⟨fun q => by simp [h1] at q, fun q => by simp [h1] at q, fun q => by simp [h1] at q, fun q => by simp [h1] at q,
    fun q => absurd q h3, fun q => by simp [h2] at q, fun q => by simp [h2] at q, hc⟩

theorem JobFacts.fault {c : FCode} (hc : c ≠ .badCmd → s.outClosed = false) : JobFacts (raise c u s) :=
  .idle rfl rfl (by simp) ⟨by rintro (h | h); exacts [by simp [Phase.busy] at h, hc h.2], by simp⟩

/-! ### The ids of the tree -/

/-- "The live ids are exactly the integers from NEXT_ID to `2*256^SYMSIZE - 1`; the root has the greatest; the NYT has
the least, NEXT_ID" (R104 (c)), and the root's weight is `k` (R104 (e)). -/
structure TreeFacts (ns : Store) (root nyt : Option Handle) (i : Int) (size k : Nat) : Prop where
  ids : (ns.map Node.id).Perm ((List.range ns.length).map fun j : Nat => i + (j : Int))
  span : i + ns.length = 2 * 256 ^ size
  ends : ∀ (h : Handle) (n : Node), ns[h]? = some n →
    (root = some h → n.id = 2 * 256 ^ size - 1) ∧ (nyt = some h → n.id = i)
  count : ∀ (h : Handle) (n : Node), ns[h]? = some n → root = some h → n.weight = k

abbrev State.treeFacts (s : State) (k : Nat) : Prop := TreeFacts s.nodes s.root s.nyt s.nextId s.symSize.toNat k

theorem JobFacts.tree (f : JobFacts s) (h : s.phase.hasTree = true) : s.treeFacts s.symCount :=
  ⟨(f.ids h).1, (f.ids h).2, f.ends h, f.count h⟩

theorem treeNew_facts (s : State) : (treeNew (256 ^ s.symSize.toNat) s).treeFacts 0 := by
  refine ⟨?_, ?_, ?_, ?_⟩
  · simp [treeNew]
  · simp [treeNew]
  · intro h n hn
    cases h with
    | zero => simp [treeNew] at hn; subst hn; simp [treeNew]
    | succ h => simp [treeNew] at hn
  · intro h n hn
    cases h with
    | zero => simp [treeNew] at hn; subst hn; simp
    | succ h => simp [treeNew] at hn

theorem TreeFacts.rebuilt {ns ns' : Store} {root nyt : Option Handle} {i : Int} {size k : Nat} {up : Handle → Prop}
    (f : TreeFacts ns root nyt i size k) (r : Rebuilt ns ns' root up) {k' : Nat}
    (hz : ∀ (h : Handle) (n : Node), nyt = some h → ns[h]? = some n → n.weight = 0)
    (hk : ∀ (h : Handle) (n n' : Node), root = some h → ns[h]? = some n → ns'[h]? = some n' → n'.weight = k') :
    TreeFacts ns' root nyt i size k' := by
  refine ⟨r.ids.trans (by rw [r.length]; exact f.ids), by rw [r.length]; exact f.span, fun h n' hn' => ?_, fun h n' hn' hr => ?_⟩
  · obtain ⟨n, hn⟩ := r.get' hn'
    obtain ⟨e1, e2⟩ := f.ends h n hn
    exact ⟨fun q => by rw [r.id_kept h n n' hn hn' (.inr q)]; exact e1 q,
      fun q => by rw [r.id_kept h n n' hn hn' (.inl (hz h n q hn))]; exact e2 q⟩
  · obtain ⟨n, hn⟩ := r.get' hn'
    exact hk h n n' hr hn hn'

/-- The root is on every chain. -/
theorem TreeShape.root_onChain {ns : Store} {root : Option Handle} (t : TreeShape ns root) {x r : Handle}
    (hx : x < ns.length) (hr : root = some r) : OnChain ns x r := by
  have above : ∀ {h bs}, PathTo ns h bs → h = r ∨ Ancestor ns h r := by
    intro h bs p
    induction p with
    | root hn hp => exact .inl (Option.some.inj ((t.only_root _ _ hn hp).symm.trans hr))
    | step hn hp _ _ ih => exact .inr (ih.elim (fun q => q ▸ .parent hn hp) fun q => .step hn hp q)
  obtain ⟨bs, p⟩ := t.reaches_root x hx
  exact (above p).elim (fun q => .inl q.symm) .inr

theorem range_two (n : Nat) (i : Int) : ((List.range (n + 2)).map fun j : Nat => i - 2 + (j : Int)).Perm
    (((List.range n).map fun j : Nat => i + (j : Int)) ++ [i - 1, i - 2]) := by
  rw [show n + 2 = 2 + n from Nat.add_comm _ _, List.range_add, List.map_append, List.map_map]
  refine List.perm_append_comm.trans ?_
  refine List.Perm.append ?_ ?_
  · apply List.Perm.of_eq
    apply List.map_congr_left
    intro j _
    simp
    omega
  · rw [show (List.range 2) = [0, 1] from rfl]
    simp only [List.map_cons, List.map_nil]
    rw [show i - 2 + ((0 : Nat) : Int) = i - 2 by simp, show i - 2 + ((1 : Nat) : Int) = i - 1 by push_cast; omega]
    exact .swap _ _ _

/-- The split, before the contained update: the ids and the ends. -/
theorem TreeFacts.split {ns : Store} {root : Option Handle} {N : Handle} {i : Int} {size k : Nat} {sym : Symbol}
    (f : TreeFacts ns root (some N) i size k) (lr : ∀ r, root = some r → r < ns.length) : TreeFacts (splitNyt ns N i sym) root (some (ns.length + 1)) (i - 2) size
      (if root = some N then 1 else k) := by
  refine ⟨?_, ?_, ?_, ?_⟩
  · rw [map_id_splitNyt, length_splitNyt]
    exact (f.ids.append_right _).trans (range_two _ _).symm
  · rw [length_splitNyt]
    have := f.span
    push_cast
    omega
  · intro h n' hn'
    refine ⟨fun q => ?_, fun q => ?_⟩
    · rcases splitNyt_cases hn' with ⟨n, hn, -, rfl⟩ | ⟨n, hn, -, rfl⟩ | ⟨rfl, -⟩ | ⟨rfl, -⟩
      · exact (f.ends _ _ hn).1 q
      · exact (f.ends _ _ hn).1 q
      · exact absurd (lr _ q) (by simp)
      · exact absurd (lr _ q) (by simp)
    · cases q
      rw [splitNyt_nyt] at hn'
      cases hn'
      rfl
  · intro h n' hn' q
    rcases splitNyt_cases hn' with ⟨n, hn, hN, rfl⟩ | ⟨n, hn, rfl, rfl⟩ | ⟨rfl, -⟩ | ⟨rfl, -⟩
    · rw [if_neg (fun e => hN (Option.some.inj (q.symm.trans e)))]
      exact f.count _ _ hn q
    · rw [if_pos q]; rfl
    · exact absurd (lr _ q) (by simp)
    · exact absurd (lr _ q) (by simp)

/-- Applying a record raises the root's weight by 1 and keeps the ids. -/
theorem applyRecord_facts (j : JobBase s) (k : s.treeOk) (a : Appliable s) (f : s.treeFacts s.symCount) :
    (applyRecord u s).Sat
      (fun _ t => t.treeFacts t.symCount ∧ t.symSize = s.symSize ∧ t.out = s.out ∧ t.ocnt = s.ocnt ∧
        t.outBitPos = s.outBitPos ∧ t.inBitPos = s.inBitPos)
      (fun t => t.phase = .fault) S := by
  obtain ⟨r, rn, hr, hrn, -⟩ := k.shape.root_live
  obtain ⟨y, yn, hy, hyn, hyw, hyl, hys⟩ := k.nyt_leaf
  have lr : ∀ r, s.root = some r → r < s.nodes.length := fun r' q => by rw [hr] at q; cases q; exact live_of_get hrn
  unfold applyRecord
  refine Flow.Sat.bind (Q := fun _ t => t.treeFacts (s.symCount + 1) ∧ t.symSize = s.symSize ∧ t.out = s.out ∧ t.ocnt = s.ocnt ∧
      t.outBitPos = s.outBitPos ∧ t.inBitPos = s.inBitPos ∧ t.symCount = s.symCount) ?_ ?_
  · unfold Appliable at a
    split
    · rename_i hf
      rw [if_pos hf] at a
      obtain ⟨x, hx, hxl, hxy⟩ := a
      rw [hx]
      obtain ⟨ns', up, rb, -, -, ⟨e, hup⟩ | e | e⟩ := updateTree_cases (u := u) j.chain k hxl hxy <;> rw [e]
      · refine ⟨f.rebuilt rb ?_ ?_, rfl, rfl, rfl, rfl, rfl, rfl⟩
        · intro h n q hn; rw [hy] at q; cases q; rw [hyn] at hn; cases hn; exact hyw
        · intro h n n' q hn hn'
          rw [rb.raised h n n' hn hn' ((hup h).mpr (k.shape.root_onChain hxl q)), f.count h n hn q]
      · rfl
      · rfl
    · rename_i hf
      rw [if_neg hf] at a
      have h1 : 1 ≤ s.opSym.length := List.length_pos_iff.mpr a
      obtain ⟨-, e⟩ | ⟨N, n, hN, hn, -, ns', up, rb, -, -, ⟨e, hup⟩ | e | e⟩ :=
        addSymbol_cases (u := u) j.chain k h1 j.sym_len <;> rw [e]
      · rfl
      · have fN : TreeFacts s.nodes s.root (some N) s.nextId s.symSize.toNat s.symCount := by
          have := f; unfold State.treeFacts at this; rwa [hN] at this
        have f1 := fN.split (sym := s.opSym) lr
        refine ⟨f1.rebuilt rb ?_ ?_, rfl, rfl, rfl, rfl, rfl, rfl⟩
        · intro h n q hn
          cases q
          rw [splitNyt_nyt] at hn; cases hn; rfl
        · intro h m m' q hm hm'
          have c := f1.count h m hm q
          by_cases hrN : s.root = some N
          · rw [if_pos hrN] at c
            rw [hrN] at q; cases q
            have notUp : ¬ up N := fun a => not_ancestor_self (k.shape.reaches_root N (live_of_get hn)).choose_spec ((hup N).mp a)
            rw [rb.kept N m m' hm hm' notUp, c]
            rw [hy] at hN; cases hN
            have := f.count y yn hyn hrN
            omega
          · rw [if_neg hrN] at c
            have isUp : up h := by
              rw [hup]
              rcases k.shape.root_onChain (live_of_get hn) q with e | e
              · rw [e] at q; exact absurd q hrN
              · exact e
            rw [rb.raised h m m' hm hm' isUp, c]
      · rfl
      · rfl
  · rintro - t ⟨h1, h2, h3, h4, h5, h6, h7⟩
    refine moment_bind (fun p => ⟨?_, h2, h3, h4, h5, h6⟩) fun _ => rfl
    show t.treeFacts (t.symCount + 1)
    rw [h7]
    exact h1

end Sys2Proof.Machine
end

