-- ==== Sys2Proof/Laws/Frame.lean ====
section
/-! SUPPORT. What every operation leaves alone, whatever the state: the parameters, the reset input, the bytes already sent,
OUT_CLOSED, the entries of the store, the canonical form of the map (20_memory.md R39), the unused bits of OACC; said once per operation. -/

namespace Sys2Proof.Machine

/-! ### The relation -/

/-- The parts of the state only some operations write. -/
inductive Part
  | found
  | more
  | empty
  | closed
  | tree
  deriving DecidableEq, Repr

/-- No entry is freed and no symbol of one changed (10_state.md R16, R20). -/
def KeepsEntries (ns ns' : Store) : Prop :=
  ∀ (h : Handle) (n : Node), ns[h]? = some n → ∃ n', ns'[h]? = some n' ∧ n'.sym = n.sym

/-- From `s` to `t`, with the parts `A` perhaps written. -/
structure Goes (A : Part → Prop) (s t : State) : Prop where
  par : t.par = s.par
  rst : t.rst = s.rst
  out : s.out <+: t.out
  pos : s.inBitPos ≤ t.inBitPos
  found : A .found ∨ t.found = s.found
  more : A .more ∨ t.more = s.more
  empty : (A .empty ∧ t.emptyRec = true) ∨ t.emptyRec = s.emptyRec
  closed : A .closed ∨ t.outClosed = s.outClosed
  root : A .tree ∨ t.root = s.root
  entries : A .tree ∨ KeepsEntries s.nodes t.nodes
  wf : Memory.wf s.nodes s.map → Memory.wf t.nodes t.map
  framer : FramerOk s → FramerOk t

/-- The fault record is as it was (10_state.md R32). -/
def SameRecord (s t : State) : Prop := t.fcode = s.fcode ∧ t.fuop = s.fuop ∧ t.fpos = s.fpos

/-- A fault has been entered, at the present position (60_exceptions.md R152). -/
def InFault (t : State) : Prop := t.phase = .fault ∧ t.fpos = t.inBitPos ∧ t.fcode ≠ .none

/-- A flow from `s` goes on with the fault record unchanged, or enters a fault. -/
abbrev Flow.Goes {α : Type} (x : Flow α) (A : Part → Prop) (s : State) : Prop :=
  x.Sat (fun _ t => Machine.Goes A s t ∧ SameRecord s t) (fun t => Machine.Goes A s t ∧ InFault t) True

variable {α β : Type} {A B : Part → Prop} {s t r : State} {u : BitVec 6}

theorem KeepsEntries.refl (ns : Store) : KeepsEntries ns ns := fun _ n hn => ⟨n, hn, rfl⟩

theorem KeepsEntries.trans {ns ns' ns'' : Store} (a : KeepsEntries ns ns') (b : KeepsEntries ns' ns'') :
    KeepsEntries ns ns'' := fun h n hn => by
  obtain ⟨n', hn', e⟩ := a h n hn
  obtain ⟨n'', hn'', e'⟩ := b h n' hn'
  exact ⟨n'', hn'', e'.trans e⟩

theorem Goes.refl (A : Part → Prop) (s : State) : Goes A s s :=
  ⟨rfl, rfl, List.prefix_refl _, le_refl _, .inr rfl, .inr rfl, .inr rfl, .inr rfl, .inr rfl, .inr (.refl _), id, id⟩

theorem Goes.trans (a : Goes A s t) (b : Goes A t r) : Goes A s r where
  par := b.par.trans a.par
  rst := b.rst.trans a.rst
  out := a.out.trans b.out
  pos := a.pos.trans b.pos
  found := b.found.elim .inl fun e => a.found.imp_right e.trans
  more := b.more.elim .inl fun e => a.more.imp_right e.trans
  empty := b.empty.elim .inl fun e => a.empty.imp (fun q => ⟨q.1, e.trans q.2⟩) e.trans
  closed := b.closed.elim .inl fun e => a.closed.imp_right e.trans
  root := b.root.elim .inl fun e => a.root.imp_right e.trans
  entries := b.entries.elim .inl fun e => a.entries.imp_right fun q => q.trans e
  wf := fun w => b.wf (a.wf w)
  framer := fun f => b.framer (a.framer f)

theorem SameRecord.refl (s : State) : SameRecord s s := ⟨rfl, rfl, rfl⟩

theorem SameRecord.trans (a : SameRecord s t) (b : SameRecord t r) : SameRecord s r :=
  ⟨b.1.trans a.1, b.2.1.trans a.2.1, b.2.2.trans a.2.2⟩

theorem Goes.raise (a : Goes A s t) {c : FCode} (hc : c ≠ .none) : Goes A s (raise c u t) ∧ InFault (Machine.raise c u t) :=
  ⟨⟨a.par, a.rst, a.out, a.pos, a.found, a.more, a.empty, a.closed, a.root, a.entries, a.wf, a.framer⟩, rfl, rfl, hc⟩

theorem goes_ok (a : α) (g : Goes A s t) (e : SameRecord s t) : (Flow.ok a t).Goes A s := ⟨g, e⟩

theorem goes_fail (g : Goes A s t) {c : FCode} (hc : c ≠ .none) : (Flow.fail c u t : Flow α).Goes A s := g.raise hc

theorem goes_bind {x : Flow α} {k : α → State → Flow β} (h : x.Goes A s) (hk : ∀ a t, (k a t).Goes A t) :
    (x.bind k).Goes A s := by
  refine Flow.Sat.bind h fun a t ⟨g, e⟩ => ?_
  refine (hk a t).mono (fun b r ⟨g', e'⟩ => ⟨g.trans g', e.trans e'⟩) fun r ⟨g', f⟩ => ⟨g.trans g', f⟩

theorem goes_ofExcept (x : Except Fault α) : (Flow.ofExcept s x).Goes A s := by
  cases x with
  | ok a => exact ⟨.refl _ _, .refl _⟩
  | error f => trivial

/-! ### The sink's pin -/

theorem Goes.pin (g : Goes A s t) (p : OutErr) : Goes A s { t with outErr := p } :=
  ⟨g.par, g.rst, g.out, g.pos, g.found, g.more, g.empty, g.closed, g.root, g.entries, g.wf, g.framer⟩

/-- The pin is none of the parts. -/
theorem actions_goes {k : Nat} {cut : Nat → State} {done : State} (hd : Goes A s done ∧ SameRecord s done)
    (hc : ∀ j, Goes A s (cut j)) : (actions u k cut done s).Goes A s :=
  actions_keep (fun p => ⟨hd.1.pin p, hd.2⟩) fun j p => ((hc j).pin p).raise (by simp)

theorem moment_goes : (moment u s).Goes A s := actions_goes ⟨.refl A s, .refl s⟩ fun _ => .refl A s

/-! ### Reads -/

theorem needBits_goes (n : Nat) : (needBits u n s).Goes A s := by
  refine (needBits_sat n).mono ?_ ?_
  · rintro bits t ⟨-, -, rfl⟩
    exact ⟨⟨rfl, rfl, List.prefix_refl _, Nat.le_add_right _ _, .inr rfl, .inr rfl, .inr rfl, .inr rfl, .inr rfl, .inr (.refl _), id, id⟩, .refl _⟩
  · rintro t ⟨c, hc, rfl⟩
    exact (Goes.refl A s).raise hc

theorem readSymBytes_goes (m : Nat) : (readSymBytes u m s).Goes A s := by
  refine (readSymBytes_sat m).mono ?_ ?_
  · rintro bs t ⟨-, -, q, -, rfl⟩
    exact ⟨⟨rfl, rfl, List.prefix_refl _, Nat.le_add_right _ _, .inr rfl, .inr rfl, .inr rfl, .inr rfl, .inr rfl, .inr (.refl _), id, id⟩, .refl _⟩
  · rintro t ⟨q, p, bs, rfl, hp, -⟩
    have g : Goes A s { s with outErr := q, inBitPos := p, symBuf := bs } :=
      ⟨rfl, rfl, List.prefix_refl _, hp, .inr rfl, .inr rfl, .inr rfl, .inr rfl, .inr rfl, .inr (.refl _), id, id⟩
    exact g.raise (by simp)

theorem gather_goes (hm : A .more) : (gather u s).Goes A s := by
  refine gather_sat.mono ?_ ?_
  · rintro - t ⟨q, bs, b, -, -, rfl⟩
    exact ⟨⟨rfl, rfl, List.prefix_refl _, Nat.le_add_right _ _, .inr rfl, .inl hm, .inr rfl, .inr rfl, .inr rfl, .inr (.refl _), id, id⟩, .refl _⟩
  · rintro t ⟨q, p, bs, rfl, hp, -⟩
    have g : Goes A s { s with outErr := q, inBitPos := p, symBuf := bs } :=
      ⟨rfl, rfl, List.prefix_refl _, hp, .inr rfl, .inr rfl, .inr rfl, .inr rfl, .inr rfl, .inr (.refl _), id, id⟩
    exact g.raise (by simp)

theorem takeEnd_goes : (takeEnd u s).Goes A s := by
  refine takeEnd_sat.mono ?_ ?_
  · rintro - t ⟨ts, rfl⟩
    exact ⟨⟨rfl, rfl, List.prefix_refl _, le_refl _, .inr rfl, .inr rfl, .inr rfl, .inr rfl, .inr rfl, .inr (.refl _), id, id⟩, .refl _⟩
  · rintro t rfl
    exact (Goes.refl A s).raise (by simp)

/-! ### Writes -/

theorem bitWr_out (b : Bool) (s : State) : s.out <+: (bitWr b s).out := by
  unfold bitWr; dsimp only; split
  · exact List.prefix_append _ _
  · exact List.prefix_refl _

theorem bitsWr_out (bs : List Bool) (s : State) : s.out <+: (bitsWr bs s).out := by
  induction bs generalizing s with
  | nil => exact List.prefix_refl _
  | cons b bs ih => exact (bitWr_out b s).trans (ih _)

theorem bitsWr_goes (bs : List Bool) (s : State) : Goes A s (bitsWr bs s) ∧ SameRecord s (bitsWr bs s) := by
  have o := bitsWr_out bs s
  have f := bitsWr_framerOk bs s
  rw [bitsWr_eq] at o f ⊢
  exact ⟨⟨rfl, rfl, o, le_refl _, .inr rfl, .inr rfl, .inr rfl, .inr rfl, .inr rfl, .inr (.refl _), id, f⟩, .refl _⟩

theorem writeBits_goes (bs : List Bool) : (writeBits u bs s).Goes A s :=
  actions_goes (bitsWr_goes bs s) fun _ => (bitsWr_goes _ s).1

theorem flushWith_goes (xs : List Bool) (hc : A .closed) (s : State) : Goes A s (flushWith xs s) ∧ SameRecord s (flushWith xs s) := by
  have o : s.out <+: (flushWith xs s).out := by
    unfold flushWith; split
    · exact List.prefix_refl _
    · exact List.prefix_append _ _
  have f := flushWith_framerOk xs s
  rw [flushWith_eq] at o f ⊢
  exact ⟨⟨rfl, rfl, o, le_refl _, .inr rfl, .inr rfl, .inr rfl, .inl hc, .inr rfl, .inr (.refl _), id, f⟩, .refl _⟩

theorem scatter_goes (s : State) : Goes A s (scatter s) ∧ SameRecord s (scatter s) :=
  ⟨⟨rfl, rfl, List.prefix_append _ _, le_refl _, .inr rfl, .inr rfl, .inr rfl, .inr rfl, .inr rfl, .inr (.refl _), id, id⟩, .refl _⟩

theorem scatterOut_goes : (scatterOut u s).Goes A s :=
  actions_goes (scatter_goes s) fun _ =>
    ⟨rfl, rfl, List.prefix_append _ _, le_refl _, .inr rfl, .inr rfl, .inr rfl, .inr rfl, .inr rfl, .inr (.refl _), id, id⟩

theorem pathOf_goes (h : Handle) : (pathOf h s).Goes A s :=
  goes_bind (goes_ofExcept _) fun _ t =>
    ⟨⟨rfl, rfl, List.prefix_refl _, le_refl _, .inr rfl, .inr rfl, .inr rfl, .inr rfl, .inr rfl, .inr (.refl _), id, id⟩, .refl t⟩

theorem emitPath_goes (h : Handle) : (emitPath h s).Goes A s :=
  goes_bind moment_goes fun _ _ => goes_bind (pathOf_goes h) fun _ _ => writeBits_goes _

/-! ### The tree -/

theorem KeepsEntries.modify (ns : Store) (x : Handle) (f : Node → Node) (hf : ∀ n, (f n).sym = n.sym) :
    KeepsEntries ns (ns.modify x f) := fun h n hn => by
  rw [List.getElem?_modify, hn]
  by_cases e : x = h
  · exact ⟨f n, by simp [e], hf n⟩
  · exact ⟨n, by simp [e], rfl⟩

/-- A store operation keeps the entries and their number. -/
def StoreOk (ns ns' : Store) : Prop := KeepsEntries ns ns' ∧ ns'.length = ns.length

theorem StoreOk.refl (ns : Store) : StoreOk ns ns := ⟨.refl ns, rfl⟩

theorem StoreOk.trans {ns ns' ns'' : Store} (a : StoreOk ns ns') (b : StoreOk ns' ns'') : StoreOk ns ns'' :=
  ⟨a.1.trans b.1, b.2.trans a.2⟩

theorem StoreOk.modify (ns : Store) (x : Handle) (f : Node → Node) (hf : ∀ n, (f n).sym = n.sym) :
    StoreOk ns (ns.modify x f) := ⟨.modify ns x f hf, by simp⟩

theorem setChild_storeOk (p : Handle) (l : Bool) (c : Handle) (ns : Store) : StoreOk ns (setChild p l c ns) :=
  .modify ns p _ fun n => by cases l <;> rfl

theorem nodeSwap_storeOk {a b : Handle} {ns ns' : Store} (h : nodeSwap a b ns = .ok ns') : StoreOk ns ns' := by
  unfold nodeSwap at h
  split at h
  · split_ifs at h
    · cases h; exact .refl _
    · split at h
      · split at h
        · cases h
          refine StoreOk.trans ?_ (.modify _ _ _ ?_)
          · refine StoreOk.trans ?_ (.modify _ _ _ ?_)
            · exact (setChild_storeOk _ _ _ _).trans (setChild_storeOk _ _ _ _)
            · intro n; rfl
          · intro n; rfl
        · cases h
      · cases h; exact .refl _
  · cases h

/-- The store a restructuring ends with. -/
def Restructured.Leaves (P : Store → Prop) : Restructured → Prop
  | .done ns => P ns
  | .swapRelated ns => P ns
  | .weightOvf ns => P ns
  | .stops _ => True

theorem incWeight_leaves {P : Store → Prop} {ns : Store} {x : Handle} {n : Node} {k : Store → Restructured} (h : P ns)
    (hk : (k (bump x ns)).Leaves P) : (incWeight ns x n k).Leaves P := by
  unfold incWeight
  split
  · exact h
  · exact hk

theorem treeUpdate_storeOk (par : Params) : ∀ (f : Nat) (ns : Store) (node : Option Handle),
    (treeUpdate par f ns node).Leaves (StoreOk ns) := by
  intro f
  induction f with
  | zero => intro ns node; trivial
  | succ f ih =>
    intro ns node
    have mono : ∀ {ns' : Store} {r : Restructured}, StoreOk ns ns' → r.Leaves (StoreOk ns') → r.Leaves (StoreOk ns) := by
      intro ns' r a h
      cases r with
      | done _ => exact a.trans h
      | swapRelated _ => exact a.trans h
      | weightOvf _ => exact a.trans h
      | stops _ => trivial
    have bumped : ∀ {ns' : Store} (x : Handle), StoreOk ns ns' → StoreOk ns (bump x ns') := fun x a =>
      a.trans (.modify _ x _ fun n => rfl)
    cases node with
    | none => exact StoreOk.refl ns
    | some x =>
      unfold treeUpdate
      split
      · trivial
      · split
        · exact incWeight_leaves (.refl ns) (bumped x (.refl ns))
        · split
          · trivial
          · split_ifs
            · exact incWeight_leaves (.refl ns) (mono (bumped x (.refl ns)) (ih _ _))
            · split
              · trivial
              · exact .refl ns
              · split
                · trivial
                · rename_i e
                  have a := nodeSwap_storeOk e
                  exact incWeight_leaves a (mono (bumped x a) (ih _ _))

theorem Memory.wf_length {ns ns' : Store} {m : SymMap} (h : ns'.length = ns.length) (w : Memory.wf ns m) : Memory.wf ns' m :=
  ⟨w.1, w.2.1, fun e he => by rw [h]; exact w.2.2 e he⟩

theorem updateTree_goes (node : Option Handle) : (updateTree u node s).Goes A s := by
  have k := treeUpdate_storeOk s.par (s.nodes.length + 1) s.nodes node
  have g : ∀ {ns : Store}, StoreOk s.nodes ns → Goes A s { s with nodes := ns } := fun k =>
    ⟨rfl, rfl, List.prefix_refl _, le_refl _, .inr rfl, .inr rfl, .inr rfl, .inr rfl, .inr rfl, .inr k.1, Memory.wf_length k.2, id⟩
  unfold updateTree
  cases e : treeUpdate s.par (s.nodes.length + 1) s.nodes node <;> rw [e] at k
  · exact ⟨g k, .refl _⟩
  · exact goes_fail (g k) (by simp)
  · exact goes_fail (g k) (by simp)
  · trivial

/-- The insertion of a new symbol, at the first free handle, keeps the canonical form. -/
theorem Memory.wf_insert {ns ns' : Store} {m : SymMap} (sym : Symbol) (w : Memory.wf ns m) (h : ns.length < ns'.length) :
    Memory.wf ns' (mapInsert sym ns.length m) := by
  obtain ⟨w1, w2, w3⟩ := w
  unfold mapInsert
  refine ⟨?_, ?_, ?_⟩
  · rw [List.map_append, List.pairwise_append]
    refine ⟨List.Pairwise.sublist (List.filter_sublist.map _) w1, by simp, ?_⟩
    intro a ha b hb
    obtain ⟨e, he, rfl⟩ := List.mem_map.mp ha
    simp only [List.map_cons, List.map_nil, List.mem_singleton] at hb
    rw [hb]
    exact w3 e (List.mem_of_mem_filter he)
  · rw [List.map_append, List.nodup_append]
    refine ⟨(List.filter_sublist.map _).nodup w2, by simp, ?_⟩
    rintro a ha b hb rfl
    obtain ⟨e, he, rfl⟩ := List.mem_map.mp ha
    simp only [List.map_cons, List.map_nil, List.mem_singleton] at hb
    have := (List.mem_filter.mp he).2
    simp [hb] at this
  · intro e he
    rcases List.mem_append.mp he with q | q
    · exact Nat.lt_trans (w3 e (List.mem_of_mem_filter q)) h
    · simp only [List.mem_singleton] at q
      rw [q]; exact h

theorem Memory.wf_nil (ns : Store) : Memory.wf ns [] := ⟨by simp, by simp, by simp⟩

theorem splitNyt_keeps (ns : Store) (N : Handle) (i : Int) (sym : Symbol) : KeepsEntries ns (splitNyt ns N i sym) :=
  fun h n hn => by
    obtain ⟨n', hn', -, hs⟩ := splitNyt_old (N := N) (i := i) (sym := sym) hn
    exact ⟨n', hn', hs⟩

theorem addSymbol_goes (sym : Symbol) : (addSymbol u sym s).Goes A s := by
  unfold addSymbol
  split_ifs
  · exact goes_fail (.refl A s) (by simp)
  · trivial
  · split
    · trivial
    · rename_i N hN
      split
      · trivial
      · have g : Goes A s (afterSplit s sym (splitNyt s.nodes N s.nextId sym)) :=
          ⟨rfl, rfl, List.prefix_refl _, le_refl _, .inr rfl, .inr rfl, .inr rfl, .inr rfl, .inr rfl, .inr (splitNyt_keeps _ _ _ _),
            fun w => Memory.wf_insert sym w (by simp [afterSplit]), id⟩
        refine (updateTree_goes (A := A) (s := afterSplit s sym (splitNyt s.nodes N s.nextId sym)) _).mono ?_ ?_
        · exact fun _ t ⟨g', e⟩ => ⟨g.trans g', ⟨e.1, e.2.1, e.2.2⟩⟩
        · exact fun t ⟨g', f⟩ => ⟨g.trans g', f⟩

theorem treeNew_goes (k : Nat) (ht : A .tree) : Goes A s (treeNew k s) ∧ SameRecord s (treeNew k s) :=
  ⟨⟨rfl, rfl, List.prefix_refl _, le_refl _, .inr rfl, .inr rfl, .inr rfl, .inr rfl, .inl ht, .inl ht, fun _ => Memory.wf_nil _, id⟩, .refl _⟩

/-! ### The drivers -/

/-- What a line that writes only the phase, CUR, SYMBUF or SYM_COUNT leaves. -/
theorem Goes.lines {nodes : Store} {cur : Option Handle} {sb : Symbol} {sc : Nat} {ph : Phase} (g : Goes A s t)
    (e : SameRecord s t) (hn : nodes = t.nodes) :
    Goes A s { t with nodes := nodes, cur := cur, symBuf := sb, symCount := sc, phase := ph } ∧
      SameRecord s { t with nodes := nodes, cur := cur, symBuf := sb, symCount := sc, phase := ph } := by
  subst hn
  exact ⟨⟨g.par, g.rst, g.out, g.pos, g.found, g.more, g.empty, g.closed, g.root, g.entries, g.wf, g.framer⟩, e⟩

theorem setFound_goes (b : Bool) (hf : A .found) (s : State) : Goes A s (setFound b s) ∧ SameRecord s (setFound b s) :=
  ⟨⟨rfl, rfl, List.prefix_refl _, le_refl _, .inl hf, .inr rfl, .inr rfl, .inr rfl, .inr rfl, .inr (.refl _), id, id⟩, .refl _⟩

theorem goTo_goes {ph : Phase} : (goTo u ph () s).Goes A s :=
  goes_bind moment_goes fun _ t => (Goes.refl A t).lines (.refl t) rfl

theorem encHdrLines_goes : (encHdrLines s).Goes A s := goes_bind (writeBits_goes _) fun _ _ => goTo_goes

theorem encFetchLines_goes (hm : A .more) : (encFetchLines s).Goes A s := goes_bind (gather_goes hm) fun _ _ => goTo_goes

theorem encSymbolLines_goes (hf : A .found) : (encSymbolLines s).Goes A s := by
  have start : ∀ (b : Bool) (c : Option Handle), Goes A s { setFound b s with cur := c } ∧ SameRecord s { setFound b s with cur := c } :=
    fun b c => (setFound_goes b hf s).1.lines (setFound_goes (A := A) b hf s).2 rfl
  refine goes_bind ?_ fun _ _ => goTo_goes
  split
  · rename_i h _
    exact goes_bind (x := .ok () { setFound true s with cur := some h }) (k := fun _ => emitPath h) (start _ _)
      fun _ _ => emitPath_goes h
  · refine goes_bind (x := .ok () { setFound false s with cur := s.nyt })
      (k := fun _ t => (Flow.ofExcept t (getHandle s.nyt)).bind fun h t => (emitPath h t).bind fun _ t =>
        writeBits (uopCode .encSymbol) (bytesBits t.symBuf) t)
      (start _ _) fun _ t => goes_bind (goes_ofExcept _) fun h t => goes_bind (emitPath_goes h) fun _ _ => writeBits_goes _

theorem applyRecord_goes : (applyRecord u s).Goes A s := by
  refine goes_bind ?_ fun _ _ => goes_bind moment_goes fun _ t => (Goes.refl A t).lines (.refl t) rfl
  split
  · exact updateTree_goes _
  · exact addSymbol_goes _

theorem encUpdateLines_goes : (encUpdateLines s).Goes A s :=
  goes_bind applyRecord_goes fun _ t => (Goes.refl A t).lines (.refl t) rfl

theorem encFrameLines_goes : (encFrameLines s).Goes A s := by
  unfold encFrameLines
  split
  · exact goes_bind (writeBits_goes _) fun _ _ => goTo_goes
  · exact goTo_goes

theorem encEosLines_goes : (encEosLines s).Goes A s := goes_bind (writeBits_goes _) fun _ _ => goTo_goes

theorem encFlushLines_goes (xs : List Bool) (hc : A .closed) : (encFlushLines xs s).Goes A s :=
  goes_bind takeEnd_goes fun _ t => (flushWith_goes xs hc t).1.lines (flushWith_goes (A := A) xs hc t).2 rfl

theorem decHdrWith_goes (v : BitVec 4) (ht : A .tree) : (decHdrWith v s).Goes A s := by
  refine goes_bind moment_goes fun _ s => ?_
  split
  · exact goes_fail (.refl A s) (by simp)
  · have g := treeNew_goes (A := A) (s := { s with symSize := v }) (256 ^ v.toNat) ht
    refine goes_bind (x := .ok () (treeNew (256 ^ v.toNat) { s with symSize := v })) (k := fun _ s =>
        (moment (uopCode .decHdr) s).bind fun _ s => .ok () { s with cur := s.root, phase := .dWalk })
      ⟨⟨g.1.par, g.1.rst, g.1.out, g.1.pos, g.1.found, g.1.more, g.1.empty, g.1.closed, g.1.root, g.1.entries, g.1.wf, g.1.framer⟩, g.2⟩
      fun _ _ => goes_bind moment_goes fun _ t => (Goes.refl A t).lines (.refl t) rfl

theorem decHdrLines_goes (ht : A .tree) : (decHdrLines s).Goes A s :=
  goes_bind (needBits_goes 4) fun _ _ => decHdrWith_goes _ ht

theorem decWalkLines_goes : (decWalkLines s).Goes A s := by
  refine goes_bind (goes_ofExcept _) fun n t => ?_
  split
  · exact goTo_goes
  · exact goes_bind (needBits_goes 1) fun _ _ => goes_bind moment_goes fun _ t => (Goes.refl A t).lines (.refl t) rfl

theorem walkPath_goes (bs : List Bool) : ∀ {s : State}, (walkPath bs s).Goes A s := by
  induction bs with
  | nil =>
    intro s
    refine goes_bind (goes_ofExcept _) fun n t => ?_
    split
    · exact (Goes.refl A t).lines (.refl t) rfl
    · trivial
  | cons b bs ih =>
    intro s
    refine goes_bind (goes_ofExcept _) fun n t => ?_
    split
    · trivial
    · refine goes_bind (needBits_goes 1) fun _ t => ?_
      exact goes_bind (x := .ok () (stepTo n b t)) (k := fun _ => walkPath bs) ((Goes.refl A t).lines (.refl t) rfl) fun _ _ => ih

/-- A symbol taken into SYMBUF with FOUND, written out, and the last line. -/
theorem leafOut_goes (b : Bool) (sym : Symbol) (hf : A .found) : ((scatterOut u (setFound b { s with symBuf := sym })).bind
    (goTo u .dUpdate)).Goes A s := by
  have g : Goes A s { s with symBuf := sym } ∧ SameRecord s { s with symBuf := sym } := (Goes.refl A s).lines (.refl s) rfl
  have g' := setFound_goes (A := A) b hf { s with symBuf := sym }
  exact goes_bind (x := .ok () (setFound b { s with symBuf := sym })) (k := fun _ s => (scatterOut u s).bind (goTo u .dUpdate))
    ⟨g.1.trans g'.1, g.2.trans g'.2⟩ fun _ _ => goes_bind scatterOut_goes fun _ _ => goTo_goes

theorem leafNew_goes (bs : List Byte) (hf : A .found) : (leafNew bs s).Goes A s := leafOut_goes false bs hf

theorem leafHit_goes (n : Node) (hf : A .found) : (leafHit n s).Goes A s := by
  unfold leafHit
  split
  · exact leafOut_goes true _ hf
  · trivial

theorem leafEmpty_goes (he : A .empty) : (leafEmpty s).Goes A s := by
  have g : Goes A s { s with symBuf := [] } ∧ SameRecord s { s with symBuf := [] } := (Goes.refl A s).lines (.refl s) rfl
  rw [leafEmpty_eq]
  split
  · exact ⟨⟨rfl, rfl, List.prefix_refl _, le_refl _, .inr rfl, .inr rfl, .inl ⟨he, rfl⟩, .inr rfl, .inr rfl, .inr (.refl _), id, id⟩, .refl _⟩
  · exact g.1.raise (by simp)

theorem decLeafLines_goes (hf : A .found) (he : A .empty) : (decLeafLines s).Goes A s := by
  refine goes_bind (goes_ofExcept _) fun n t => ?_
  split
  · refine goes_bind (readSymBytes_goes _) fun bs t => ?_
    split
    · exact leafEmpty_goes he
    · exact leafNew_goes bs hf
  · exact leafHit_goes n hf

theorem decUpdateLines_goes : (decUpdateLines s).Goes A s :=
  goes_bind applyRecord_goes fun _ t => (Goes.refl A t).lines (.refl t) rfl

theorem decFrameWith_goes (b : Bool) : (decFrameWith b s).Goes A s := by
  refine goes_bind moment_goes fun _ s => ?_
  split
  · exact (Goes.refl A s).lines (.refl s) rfl
  · split
    · exact goes_fail (.refl A s) (by simp)
    · exact (Goes.refl A s).lines (.refl s) rfl

theorem decFrameLines_goes : (decFrameLines s).Goes A s := goes_bind (needBits_goes 1) fun _ _ => decFrameWith_goes _

theorem decDrainLines_goes (hc : A .closed) : (decDrainLines s).Goes A s :=
  goes_bind takeEnd_goes fun _ _ => goes_bind moment_goes fun _ _ =>
    ⟨⟨rfl, rfl, List.prefix_refl _, le_refl _, .inr rfl, .inr rfl, .inr rfl, .inl hc, .inr rfl, .inr (.refl _), id, id⟩, .refl _⟩

theorem rawElement_goes (bs : List Byte) (hf : A .found) : (rawElement bs s).Goes A s := by
  refine goes_bind (goes_ofExcept _) fun n t => ?_
  split
  · refine goes_bind (readSymBytes_goes _) fun bs' t => ?_
    split
    · exact leafNew_goes bs hf
    · trivial
  · trivial

theorem hitElement_goes (hf : A .found) : (hitElement s).Goes A s := by
  refine goes_bind (goes_ofExcept _) fun n t => ?_
  split
  · trivial
  · exact leafHit_goes n hf

/-! ### A whole meaning -/

/-- The next states of a meaning: the fault record is as it was, or a fault is entered. -/
def Next (A : Part → Prop) (s t : State) : Prop := Goes A s t ∧ (SameRecord s t ∨ InFault t)

theorem next_outcome {x : Flow Unit} (h : x.Goes A s) (e : x.outcome s = .next t) : Next A s t :=
  (h.mono (fun _ _ q => ⟨q.1, .inl q.2⟩) fun _ q => ⟨q.1, .inr q.2⟩ : x.Sat (fun _ => Next A s) (Next A s) True).outcome
    ⟨.refl A s, .inl (.refl s)⟩ e

theorem next_withSink {body : State → Flow Unit} (h : ∀ s, (body s).Goes A s) (e : withSink u body s = .next t) :
    Next A s t := next_outcome (goes_bind moment_goes fun _ s => h s) e

end Sys2Proof.Machine
end

