-- ==== Sys2Proof/Laws/Walk.lean ====
section
/-! SUPPORT. Reads from an input whose next bits are known, the walk along a path (30_encoding.md R57, R62), and the symbol
map's lookup (42_tree.md R94). -/

namespace Sys2Proof.Machine

variable {s : State} {u : BitVec 6}

/-! ### A whole input, and one that ends in ERR -/

theorem needBits_sent {n : Nat} {bs : List Byte} {ts : List Token} (h : s.inp = sent bs ts) :
    needBits u n s = if s.inBitPos + n ≤ 8 * bs.length
      then .ok (bitsAt bs s.inBitPos n) { s with inBitPos := s.inBitPos + n } else .raised (raise .truncated u s) := by
  unfold needBits
  rw [readBits_sent h]
  split <;> rfl

theorem afterEnd_bytes (bs : List Byte) (rest : List Token) : afterEnd (bs.map .byte ++ rest) = afterEnd rest := by
  induction bs with
  | nil => rfl
  | cons b bs ih => exact ih

theorem afterEnd_sent (bs : List Byte) (ts : List Token) : afterEnd (sent bs ts) = (.yes, ts) := afterEnd_bytes bs _

theorem afterEnd_broken (bs : List Byte) (ts : List Token) : afterEnd (bs.map .byte ++ .err :: ts) = (.err, []) :=
  afterEnd_bytes bs _

theorem lookBits_broken (bs : List Byte) (ts : List Token) (p n : Nat) :
    lookBits (bs.map .byte ++ .err :: ts) p n = if p + n ≤ 8 * bs.length then .yes else .err := by
  split
  · rename_i h; exact lookBits_bytes h
  · rename_i h; exact lookBits_short (by omega) fun _ => rfl

theorem hdrOf_msbBits (v : BitVec 4) : hdrOf (msbBits 4 v.toNat) = v := by
  apply BitVec.eq_of_toNat_eq
  rw [hdrOf, bitsVal_msbBits]
  simp
  omega

/-! ### The unread bits -/

theorem unread_split (n : Nat) (h : n ≤ s.inRem) :
    s.unread = bitsAt s.inBytes s.inBitPos n ++ bitsAt s.inBytes (s.inBitPos + n) (s.inRem - n) := by
  rw [State.unread, ← bitsAt_add]
  congr 1
  omega

theorem pos_add_le {n : Nat} (h : n ≤ s.inRem) (h0 : n ≠ 0) : s.inBitPos + n ≤ 8 * s.inBytes.length := by
  unfold State.inRem at h
  omega

theorem unread_prefix {p rest : List Bool} (h : s.unread = p ++ rest) :
    bitsAt s.inBytes s.inBitPos p.length = p ∧ p.length ≤ s.inRem := by
  have hl : p.length ≤ s.inRem := by
    have := congrArg List.length h
    simp [State.unread] at this
    omega
  rw [unread_split _ hl] at h
  exact ⟨(List.append_inj h (by simp)).1, hl⟩

/-- What is unread after a read. -/
theorem unread_after {t : State} {p rest : List Bool} (h : s.unread = p ++ rest) (hi : t.inp = s.inp)
    (hp : t.inBitPos = s.inBitPos + p.length) : t.unread = rest := by
  obtain ⟨-, hl⟩ := unread_prefix h
  rw [unread_split _ hl] at h
  have : t.unread = bitsAt s.inBytes (s.inBitPos + p.length) (s.inRem - p.length) := by
    unfold State.unread State.inRem State.inBytes
    rw [hi, hp, Nat.sub_sub]
  rw [this]
  exact (List.append_inj h (by simp)).2

theorem needBits_unread {p rest : List Bool} {bs : List Byte} {ts : List Token} (hi : s.inp = sent bs ts)
    (h : s.unread = p ++ rest) (h0 : p ≠ []) : needBits u p.length s = .ok p { s with inBitPos := s.inBitPos + p.length } := by
  obtain ⟨h1, h2⟩ := unread_prefix h
  have h3 := pos_add_le h2 (by simpa using h0)
  have hb : s.inBytes = bs := by simp [State.inBytes, hi]
  rw [hb] at h1 h3
  rw [needBits_sent hi, if_pos h3, h1]

/-- The raw bytes that stand next on a whole input, as many as the rule of R139 allows. -/
theorem readSymBytes_unread {m : Nat} (hm : 8 ≤ m) (ho : s.outErr = .low) {vs : List Byte} {rest : List Bool} {bs : List Byte} {ts : List Token}
    (hi : s.inp = sent bs ts) (h : s.unread = bytesBits vs ++ rest)
    (hl : vs.length = min s.symSize.toNat ((s.inRem + 8 - m) / 8)) :
    readSymBytes u m s = .ok vs { s with inBitPos := s.inBitPos + 8 * vs.length } := by
  have hb : s.inBytes = bs := by simp [State.inBytes, hi]
  have e := readBytes_sent bs ts m s.symSize.toNat s.inBitPos
  have hr : rawBytes bs.length s.inBitPos m s.symSize.toNat = vs.length := by
    rw [rawBytes_eq _ _ _ _ hm, hl, State.inRem, hb]
  have hbits := (unread_prefix h).1
  rw [hb, length_bytesBits] at hbits
  have q := bytesOfBits_bytesBits vs []
  rw [List.append_nil] at q
  rw [hr, hbits, q] at e
  simp only [readSymBytes, hi, e, readActions_low ho, bind_ok]

theorem decodeHere_of_unread {d : Due} {p rest : List Bool} {i : Instr} (h : s.unread = p ++ rest)
    (hl : p.length = (Format.stream d).width) (hpos : s.inBitPos ≤ 8 * s.inBytes.length) (e : decodeDue d p = .ok i) :
    decodeHere d s = some i := by
  obtain ⟨h1, h2⟩ := unread_prefix h
  have h3 : s.inBitPos + p.length ≤ 8 * s.inBytes.length := by unfold State.inRem at h2; omega
  unfold decodeHere
  simp only [← hl]
  rw [lookBits_yes.mpr h3, if_pos rfl, h1]
  unfold decode decodeItem
  rw [if_neg (by simp [hl]), ← hl, List.take_length]
  simp [e, Except.toOption]

/-! ### The walk -/

/-- Every proper prefix of `p` leads from `c` to an internal entry. -/
def InternalAbove (ns : Store) (c : Option Handle) (p : List Bool) : Prop :=
  ∀ (q : List Bool) (b : Bool) (q' : List Bool), p = q ++ b :: q' →
    ∃ (g : Handle) (m : Node), follow ns c q = some g ∧ ns[g]? = some m ∧ m.isLeaf = false

theorem InternalAbove.tail {ns : Store} {c : Option Handle} {b : Bool} {p : List Bool} (h : InternalAbove ns c (b :: p))
    {g : Handle} {m : Node} (hg : c = some g) (hm : ns[g]? = some m) :
    InternalAbove ns (if b then m.right else m.left) p := by
  intro q b' q' e
  obtain ⟨g', m', h1, h2⟩ := h (b :: q) b' q' (by rw [e]; rfl)
  simp only [follow, hg, Option.bind_some, hm] at h1
  exact ⟨g', m', h1, h2⟩

theorem leafBelow_of_follow {ns : Store} : ∀ {p rest : List Bool} {c : Option Handle} {h : Handle} {n : Node},
    follow ns c p = some h → ns[h]? = some n → n.isLeaf = true → InternalAbove ns c p →
    leafBelow ns (p ++ rest) c = some (p.length, n) := by
  intro p
  induction p with
  | nil =>
    intro rest c h n hf hn hl _
    simp only [follow] at hf
    subst hf
    cases rest <;> simp [leafBelow, hn, hl]
  | cons b p ih =>
    intro rest c h n hf hn hl hq
    obtain ⟨g, m, hg, hm, hml⟩ := hq [] b p rfl
    simp only [follow] at hg
    have hq' := hq.tail hg hm
    subst hg
    simp only [List.cons_append, leafBelow, hm, hml, Bool.false_eq_true, if_false]
    simp only [follow, Option.bind_some, hm] at hf
    rw [ih hf hn hl hq']
    simp

theorem walkPath_of_follow {bs : List Byte} {ts : List Token} : ∀ {p rest : List Bool} {s : State} {h : Handle} {n : Node},
    s.inp = sent bs ts → s.unread = p ++ rest → follow s.nodes s.cur p = some h → s.nodes[h]? = some n → n.isLeaf = true →
    InternalAbove s.nodes s.cur p → walkPath p s = .ok () (walked p.length h s) := by
  intro p
  induction p with
  | nil =>
    intro rest s h n hi hu hf hn hl _
    simp only [follow] at hf
    simp [walkPath, curNode_eq hf hn, hl, walked, hf]
  | cons b p ih =>
    intro rest s h n hi hu hf hn hl hq
    obtain ⟨g, m, hg, hm, hml⟩ := hq [] b p rfl
    simp only [follow] at hg
    have nb := needBits_unread (u := uopCode .decWalk) (p := [b]) (rest := p ++ rest) hi hu (by simp)
    rw [List.length_singleton] at nb
    simp only [walkPath, curNode_eq hg hm, hml, ofExcept_ok, bind_ok, Bool.false_eq_true, if_false]
    rw [nb]
    simp only [bind_ok]
    have hf' : follow s.nodes (if b then m.right else m.left) p = some h := by
      simpa only [follow, hg, Option.bind_some, hm] using hf
    rw [ih (s := stepTo m b { s with inBitPos := s.inBitPos + 1 }) (rest := rest) hi
      (unread_after (p := [b]) hu rfl rfl) hf' hn hl (hq.tail hg hm)]
    simp [walked, stepTo, Nat.add_assoc, Nat.add_comm 1]

/-- On the way to an entry every earlier entry is internal. -/
theorem TreeShape.internalAbove {ns : Store} {root : Option Handle} (t : TreeShape ns root) {h : Handle} {p : List Bool}
    (hp : PathTo ns h p) : InternalAbove ns root p := by
  induction hp with
  | root => intro q b q' e; simp at e
  | @step h p n pn bs hn hpar hpn hp ih =>
    have inner : pn.isLeaf = false := by
      obtain ⟨pn', hpn', hc⟩ := t.parent_child _ _ _ hn hpar
      rw [hpn] at hpn'; cases hpn'
      rw [Bool.eq_false_iff]
      intro hl
      simp only [Node.isLeaf, Bool.and_eq_true, Option.isNone_iff_eq_none] at hl
      rcases hc with hc | hc
      · rw [hl.1] at hc; cases hc
      · rw [hl.2] at hc; cases hc
    intro q b q' e
    rcases List.append_eq_append_iff.mp e with ⟨a, h1, h2⟩ | ⟨a, h1, h2⟩
    · have : a = [] := by
        cases a with
        | nil => rfl
        | cons x a => have := congrArg List.length h2; simp at this
      subst this
      simp at h1
      subst h1
      exact ⟨p, pn, t.follow_path hp, hpn, inner⟩
    · cases a with
      | nil =>
        simp at h1 h2
        subst h1
        exact ⟨p, pn, t.follow_path hp, hpn, inner⟩
      | cons x a =>
        simp at h2
        exact ih q b a (by rw [h1, h2.1])

/-- The decoder's walk from the root along the path of a leaf. -/
theorem walkPath_of_path {bs : List Byte} {ts : List Token} {p rest : List Bool} {h : Handle} {n : Node}
    (hi : s.inp = sent bs ts) (hu : s.unread = p ++ rest) (t : TreeShape s.nodes s.root) (hc : s.cur = s.root)
    (hp : PathTo s.nodes h p) (hn : s.nodes[h]? = some n) (hl : n.isLeaf = true) :
    walkPath p s = .ok () (walked p.length h s) :=
  walkPath_of_follow hi hu (by rw [hc]; exact t.follow_path hp) hn hl (by rw [hc]; exact t.internalAbove hp)

/-! ### The symbol map -/

theorem lookupSym_of_mem {h : Handle} {sym : Symbol} (w : Memory.wf s.nodes s.map) (m : (sym, h) ∈ s.map) :
    lookupSym sym s = some h := by
  unfold lookupSym
  have nd := w.2.1
  generalize s.map = l at m nd
  induction l with
  | nil => simp at m
  | cons e l ih =>
    obtain ⟨k, g⟩ := e
    simp only [List.map_cons, List.nodup_cons] at nd
    rcases List.mem_cons.mp m with q | q
    · cases q; simp [List.lookup]
    · have hne : (sym == k) = false := by
        rw [beq_eq_false_iff_ne]
        rintro rfl
        exact nd.1 (List.mem_map.mpr ⟨_, q, rfl⟩)
      simp [List.lookup, hne, ih q nd.2]

theorem lookupSym_none {sym : Symbol} (m : ∀ g : Handle, (sym, g) ∉ s.map) : lookupSym sym s = none := by
  unfold lookupSym
  rw [List.lookup_eq_none_iff]
  rintro ⟨k, g⟩ hp
  rw [bne_iff_ne]
  rintro rfl
  exact m g hp

end Sys2Proof.Machine
end

