-- ==== Sys2Proof/Laws/Lockstep.lean ====
section
/-! SUPPORT. Runs of the sequencer alone, the steps of a record on both sides, and that a record applied to equal trees
leaves equal trees (45_decompress.md R137). -/

namespace Sys2Proof.Machine

variable {s t d : State} {u u' : BitVec 6}

/-! ### Runs -/

section

variable {M : Host.Core} {a b c : M.State}

theorem run_eq (M : Host.Core) (k : Nat) (a : M.State) : M.run (k + 1) a =
    match M.step a with
    | .next b => M.run k b
    | .fault f => .fault f
    | .refused q => .refused q := rfl

theorem run_succ (k : Nat) (h : M.step a = .next b) : M.run (k + 1) a = M.run k b := by
  rw [run_eq, h]

theorem run_succ_next {k : Nat} (h : M.run (k + 1) a = .next c) : ∃ b, M.step a = .next b ∧ M.run k b = .next c := by
  rw [run_eq] at h
  cases e : M.step a with
  | next b => rw [e] at h; exact ⟨b, rfl, h⟩
  | fault f => rw [e] at h; cases h
  | refused q => rw [e] at h; cases h

theorem run_add (j k : Nat) (h : M.run j a = .next b) : M.run (j + k) a = M.run k b := by
  induction j generalizing a with
  | zero => cases h; rw [Nat.zero_add]
  | succ j ih =>
    obtain ⟨a', e, h'⟩ := run_succ_next h
    rw [Nat.add_right_comm, run_succ _ e, ih h']

/-- The rest of a run after its first step. -/
theorem run_peel {k : Nat} (h : M.run k a = .next c) (hs : M.step a = .next b) (hne : a ≠ c) :
    ∃ j < k, M.run j b = .next c := by
  cases k with
  | zero => cases h; exact absurd rfl hne
  | succ k => exact ⟨k, Nat.lt_succ_self k, by rwa [run_succ k hs] at h⟩

/-- A machine that steps to itself stays. -/
theorem run_still (k : Nat) (hs : M.step a = .next a) : M.run k a = .next a := by
  induction k with
  | zero => rfl
  | succ k ih => rw [run_succ k hs, ih]

end

theorem Reaches.refl (s : State) : Reaches s s := ⟨0, rfl⟩

theorem Reaches.trans {r : State} : Reaches s t → Reaches t r → Reaches s r
  | ⟨j, hj⟩, ⟨k, hk⟩ => ⟨j + k, (run_add (M := Sys2Proof.core) j k hj).trans hk⟩

theorem Reaches.one (h : step s = .next t) : Reaches s t := ⟨1, run_succ (M := Sys2Proof.core) 0 h⟩

/-! ### A step of the sequencer alone -/

theorem step_driver (hs : s.sched = []) {i : Instr} (hd : driverOp s.phase = some i) : step s = exec i s := by
  simp [step, fetch, hs, sequence, itemDue, hd]

theorem step_rest (hs : s.sched = []) (hd : driverOp s.phase = none) : step s = .next s := by
  simp [step, fetch, hs, sequence, itemDue, hd]

theorem withSink_ok {body : State → Flow Unit} (ho : s.outErr = .low) (h : body s = .ok () t) :
    withSink u body s = .next t := by
  rw [withSink_low ho, h]; rfl

/-- The sequencer walks a path whose bits stand next on the stream, one DEC.WALK for each bit and one for the leaf
(45_decompress.md R136). -/
theorem reaches_walk : ∀ {p : List Bool} {s t : State}, walkPath p s = .ok () t → bitsAt s.inBytes s.inBitPos p.length = p →
    s.sched = [] → s.outErr = .low → s.phase = .dWalk → Reaches s t := by
  intro p
  induction p with
  | nil =>
    intro s t h _ hs ho hp
    refine .one ?_
    rw [step_driver hs (i := .decWalk) (by rw [hp]; rfl)]
    refine withSink_ok (body := decWalkLines) ho ?_
    simp only [walkPath] at h
    unfold decWalkLines
    cases e : curNode s with
    | error f => rw [e] at h; simp at h
    | ok n =>
      rw [e] at h
      simp only [ofExcept_ok, bind_ok] at h ⊢
      by_cases hl : n.isLeaf = true
      · rw [if_pos hl] at h ⊢; rw [goTo_low ho]; exact h
      · rw [if_neg hl] at h; cases h
  | cons b p ih =>
    intro s t h hb hs ho hp
    simp only [walkPath] at h
    cases e : curNode s with
    | error f => rw [e] at h; simp at h
    | ok n =>
      rw [e] at h
      simp only [ofExcept_ok, bind_ok] at h
      by_cases hl : n.isLeaf = true
      · rw [if_pos hl] at h; cases h
      · rw [if_neg hl] at h
        have one : bitsAt s.inBytes s.inBitPos 1 = [b] ∧ bitsAt s.inBytes (s.inBitPos + 1) p.length = p := by
          rw [List.length_cons, Nat.add_comm, bitsAt_add] at hb
          exact List.append_inj (t₁ := bitsAt s.inBytes (s.inBitPos + 1) p.length) (s₂ := [b]) hb (by simp)
        rcases needBits_cases (uopCode .decWalk) 1 s with ⟨-, e'⟩ | e' | e' | e'
        · rw [e', bind_ok] at h
          refine Reaches.trans (.one ?_) (ih h one.2 hs ho rfl)
          rw [step_driver hs (i := .decWalk) (by rw [hp]; rfl)]
          refine withSink_ok (body := decWalkLines) ho ?_
          unfold decWalkLines
          simp only [e, ofExcept_ok, bind_ok, hl, Bool.false_eq_true, if_false, e', one.1]
          rw [moment_low (s := { s with inBitPos := s.inBitPos + 1 }) ho]; rfl
        all_goals rw [e'] at h; cases h

/-! ### ENC.SYMBOL -/

theorem emitPath_eq {h : Handle} {p : List Bool} (ho : s.outErr = .low) (hp : PathTo s.nodes h p) :
    emitPath h s = .ok () (bitsWr p { s with pathBuf := p }) := by
  simp [emitPath, pathOf, nodePath_eq_ok_iff.mpr hp, ho]

theorem bitsWr_outErr (bs : List Bool) (s : State) : (bitsWr bs s).outErr = s.outErr := by rw [bitsWr_eq]

/-- A HIT record written (44_compress.md R124). -/
theorem encSymbolLines_hit {h : Handle} {p : List Bool} (ho : s.outErr = .low) (hl : lookupSym s.symBuf s = some h) (hp : PathTo s.nodes h p) :
    encSymbolLines s = .ok () { bitsWr p { s with found := true, cur := some h, pathBuf := p } with phase := .cUpdate } := by
  have : lookupSym s.opSym s = some h := hl
  unfold encSymbolLines
  rw [this]
  dsimp only
  rw [emitHit, emitPath_eq (s := { setFound true s with cur := some h }) ho hp, bind_ok,
    goTo_low (by rw [bitsWr_outErr]; exact ho)]
  rfl

/-- A NEW record written (R124, R125). -/
theorem encSymbolLines_new {h : Handle} {p : List Bool} (ho : s.outErr = .low) (hl : lookupSym s.symBuf s = none) (hy : s.nyt = some h)
    (hp : PathTo s.nodes h p) : encSymbolLines s = .ok ()
      { bitsWr (p ++ bytesBits s.symBuf) { s with found := false, cur := some h, pathBuf := p } with phase := .cUpdate } := by
  have : lookupSym s.opSym s = none := hl
  unfold encSymbolLines
  rw [this]
  dsimp only
  rw [emitNew_eq hy, emitPath_eq (s := { setFound false s with cur := some h }) ho hp, bind_ok,
    writeBits_low (by rw [bitsWr_outErr]; exact ho), bind_ok, goTo_low (by rw [bitsWr_outErr, bitsWr_outErr]; exact ho)]
  have hb : (bitsWr p { setFound false s with cur := some h, pathBuf := p }).symBuf = s.symBuf := by rw [bitsWr_eq]; rfl
  rw [hb, ← bitsWr_append]
  rfl

/-! ### The record applied -/

/-- The same tree on both sides. -/
structure SameTree (s d : State) : Prop where
  par : d.par = s.par
  nodes : d.nodes = s.nodes
  root : d.root = s.root
  nyt : d.nyt = s.nyt
  nextId : d.nextId = s.nextId
  map : d.map = s.map

/-- The part of a state that a record applied changes. -/
def State.withTree (d t : State) : State := { d with nodes := t.nodes, nyt := t.nyt, nextId := t.nextId, map := t.map }

theorem updateTree_same {x : Option Handle} (hp : d.par = s.par) (hn : d.nodes = s.nodes) (h : updateTree u x s = .ok () t) :
    t = { s with nodes := t.nodes } ∧ updateTree u' x d = .ok () { d with nodes := t.nodes } := by
  unfold updateTree at h ⊢
  rw [hp, hn]
  cases e : treeUpdate s.par (s.nodes.length + 1) s.nodes x with
  | done ns => rw [e] at h; cases h; exact ⟨rfl, rfl⟩
  | swapRelated ns => rw [e] at h; cases h
  | weightOvf ns => rw [e] at h; cases h
  | stops f => rw [e] at h; cases h

theorem addSymbol_same {sym : Symbol} (e : SameTree s d) (h : addSymbol u sym s = .ok () t) :
    t = s.withTree t ∧ addSymbol u' sym d = .ok () (d.withTree t) := by
  unfold addSymbol Flow.fail at h ⊢
  rw [e.par, e.nodes, e.nyt]
  split_ifs at h ⊢ with hc hs
  split at h
  · cases h
  · split at h
    · cases h
    · rename_i N hN _ n hn
      obtain ⟨h1, h2⟩ := updateTree_same (u' := u') (s := afterSplit s sym (splitNyt s.nodes N s.nextId sym))
        (d := afterSplit d sym (splitNyt d.nodes N d.nextId sym)) e.par
        (by simp [afterSplit, e.nodes, e.nextId]) h
      constructor
      · rw [h1]; rfl
      · rw [h1]
        simpa [afterSplit, State.withTree, e.par, e.nodes, e.nextId, e.map] using h2

/-- A record applied on two sides with the same tree and the same operand leaves the same tree. -/
theorem applyRecord_same (hos : s.outErr = .low) (hod : d.outErr = .low) (e : SameTree s d) (hf : d.found = s.found) (hc : s.found = true → d.cur = s.cur)
    (hb : s.found = false → d.symBuf = s.symBuf) (h : applyRecord u s = .ok () t) :
    t = { s.withTree t with symCount := s.symCount + 1 } ∧
      applyRecord u' d = .ok () { d.withTree t with symCount := d.symCount + 1 } := by
  unfold applyRecord at h ⊢
  rw [hf]
  cases hq : s.found with
  | true =>
    rw [hq] at h
    simp only [if_true] at h ⊢
    rw [hc hq]
    cases q : updateTree u s.cur s with
    | ok a r =>
      obtain ⟨h1, h2⟩ := updateTree_same (u' := u') e.par e.nodes q
      rw [q, bind_ok, moment_low (by rw [h1]; exact hos)] at h
      cases h
      rw [h1, h2, bind_ok, moment_low (s := { d with nodes := r.nodes }) hod]
      refine ⟨rfl, ?_⟩
      simp [State.withTree, ← e.nyt, ← e.nextId, ← e.map]
    | raised r => rw [q] at h; cases h
    | waits => rw [q] at h; cases h
    | stops f => rw [q] at h; cases h
    | refuses r => rw [q] at h; cases h
  | false =>
    rw [hq] at h
    simp only [Bool.false_eq_true, if_false] at h ⊢
    have hb' : d.opSym = s.opSym := hb hq
    rw [hb']
    cases q : addSymbol u s.opSym s with
    | ok a r =>
      obtain ⟨h1, h2⟩ := addSymbol_same (u' := u') e q
      rw [q, bind_ok, moment_low (by rw [h1]; exact hos)] at h
      cases h
      rw [h2, bind_ok, moment_low (s := d.withTree r) hod]
      exact ⟨by rw [h1]; rfl, rfl⟩
    | raised r => rw [q] at h; cases h
    | waits => rw [q] at h; cases h
    | stops f => rw [q] at h; cases h
    | refuses r => rw [q] at h; cases h

/-- A TREE.UPDATE that the rules bring to completion. -/
theorem updateTree_done {x : Handle} {ns : Store} (hc : s.par.updateChain = .original) (t : TreeShape s.nodes s.root)
    (hl : x < s.nodes.length) (d : DistinctIds s.nodes)
    (e : UpdateEnds s.par s.nodes (some x) (.done ns)) : updateTree u (some x) s = .ok () { s with nodes := ns } := by
  obtain ⟨e', h1, h2⟩ := updateTree_follows (u := u) (node := some x) hc t (by rintro y q; cases q; exact hl)
  have := UpdateEnds.unique e d h1
  subst this
  exact h2

/-- A HIT record applied. -/
theorem applyRecord_hit {x : Handle} {ns : Store} (ho : s.outErr = .low) (hf : s.found = true) (hx : s.cur = some x)
    (hc : s.par.updateChain = .original) (t : TreeShape s.nodes s.root) (hl : x < s.nodes.length)
    (d : DistinctIds s.nodes)
    (e : UpdateEnds s.par s.nodes (some x) (.done ns)) : applyRecord u s = .ok ()
      { s with nodes := ns, symCount := s.symCount + 1 } := by
  unfold applyRecord
  rw [if_pos hf, hx, updateTree_done hc t hl d e, bind_ok, moment_low (s := { s with nodes := ns }) ho, ← hx]; rfl

/-- A NEW record applied. -/
theorem applyRecord_new {N : Handle} {n : Node} {ns1 ns2 : Store} (ho : s.outErr = .low) (hf : s.found = false)
    (hc : s.par.updateChain = .original) (t : TreeShape s.nodes s.root) (d : DistinctIds s.nodes)
    (hi : ∀ m ∈ s.nodes, s.nextId ≤ m.id) (hN : s.nyt = some N) (hn : s.nodes[N]? = some n) (hlf : n.isLeaf = true)
      (hs : s.symBuf ≠ []) (hr : Roomy s)
    (w : SplitOf s.nodes N s.nextId s.symBuf ns1) (e : UpdateEnds s.par ns1 n.parent (.done ns2)) :
    applyRecord u s = .ok () { afterSplit s s.symBuf ns1 with nodes := ns2, symCount := s.symCount + 1 } := by
  obtain ⟨e', h1, h2⟩ := addSymbol_follows (u := u) hc t hN hn hlf hs hr
  have hw := w.eq hn
  subst hw
  have := UpdateEnds.unique e (d.split hi N s.symBuf) h1
  subst this
  unfold applyRecord State.opSym
  rw [if_neg (by simp [hf]), h2]
  show (moment u { afterSplit s s.symBuf (splitNyt s.nodes N s.nextId s.symBuf) with nodes := ns2 }).bind _ = _
  rw [moment_low (s := { afterSplit s s.symBuf (splitNyt s.nodes N s.nextId s.symBuf) with nodes := ns2 }) ho]; rfl

/-! ### The items of the stream and the operations they stand for -/

/-- What a read of raw bytes gets is what stands there. -/
theorem readBytes_got {inp : List Token} {m : Nat} : ∀ {k p : Nat} {bs : List Byte}, readBytes inp m k p = .got bs →
    bytesBits bs = bitsAt (inBytesOf inp) p (8 * bs.length) := by
  intro k
  induction k with
  | zero => intro p bs h; cases h; rfl
  | succ k ih =>
    intro p bs h
    unfold readBytes at h
    cases hl : lookBits inp p m with
    | yes =>
      rw [hl] at h
      dsimp only at h
      cases hr : readBytes inp m k (p + 8) with
      | got vs =>
        rw [hr] at h
        cases h
        rw [bytesBits, byteBits_byteOfBits (by simp), ih hr, List.length_cons, Nat.mul_succ, Nat.add_comm (8 * _) 8,
          bitsAt_add]
      | failed vs => rw [hr] at h; cases h
      | waits => rw [hr] at h; cases h
    | no => rw [hl] at h; cases h; rfl
    | err => rw [hl] at h; cases h
    | wait => rw [hl] at h; cases h

/-- The raw bytes due are those DEC.LEAF takes. -/
theorem rawElement_eq {bs : List Byte} {n : Node} (ho : s.outErr = .low) (hc : curNode s = .ok n) (hy : n.isNyt = true)
    (hb : bs = bytesOfBits (rawCount s s.inBitPos) (bitsAt s.inBytes s.inBitPos (8 * rawCount s s.inBitPos)))
    (h1 : 1 ≤ rawCount s s.inBitPos) : rawElement bs s = decLeafLines s := by
  unfold rawElement decLeafLines readRaw readSymBytes
  simp only [hc, ofExcept_ok, bind_ok, hy, if_true]
  unfold rawCount at hb h1
  cases e : readBytes s.inp s.par.rawMinBits.toNat s.symSize.toNat s.inBitPos with
  | got vs =>
    rw [e] at hb h1
    dsimp only at hb h1
    have : bs = vs := by
      rw [hb, State.inBytes, ← readBytes_got e]
      have := bytesOfBits_bytesBits vs []
      rwa [List.append_nil] at this
    subst this
    have hne : bs ≠ [] := by rintro rfl; simp at h1
    simp [hne, readActions_low ho]
  | failed vs => rw [e] at h1; simp at h1
  | waits => rw [e] at h1; simp at h1

theorem needBits_here {n : Nat} (h : s.inBitPos + n ≤ 8 * s.inBytes.length) :
    needBits u n s = .ok (bitsAt s.inBytes s.inBitPos n) { s with inBitPos := s.inBitPos + n } := by
  unfold needBits readBits
  rw [lookBits_yes.mpr h]; rfl

/-- A walk whose bits are all there is not cut short. -/
theorem walkPath_here {bits : List Bool} {k : Nat} {n : Node} (e : leafBelow s.nodes bits s.cur = some (k, n))
    (hw : s.inBitPos + k ≤ 8 * s.inBytes.length) :
    ∃ h, s.nodes[h]? = some n ∧ walkPath (bits.take k) s = .ok () (walked k h s) := by
  induction bits generalizing s k with
  | nil =>
    cases hc : s.cur with
    | none => rw [hc] at e; simp [leafBelow] at e
    | some h =>
      rw [hc] at e
      simp only [leafBelow] at e
      split at e
      · rename_i m hm
        split_ifs at e with hl
        cases e
        exact ⟨h, hm, by simp [walkPath, curNode_eq hc hm, hl, walked, ← hc]⟩
      · cases e
  | cons bit bits ih =>
    cases hc : s.cur with
    | none => rw [hc] at e; simp [leafBelow] at e
    | some h =>
      rw [hc] at e
      simp only [leafBelow] at e
      split at e
      · rename_i m hm
        by_cases hl : m.isLeaf = true
        · rw [if_pos hl] at e
          cases e
          exact ⟨h, hm, by simp [walkPath, curNode_eq hc hm, hl, walked, ← hc]⟩
        · rw [if_neg hl] at e
          obtain ⟨⟨k', n'⟩, e', q⟩ := Option.map_eq_some_iff.mp e
          cases q
          obtain ⟨g, hg, hr⟩ := ih (s := stepTo m bit { s with inBitPos := s.inBitPos + 1 }) e' (by
            show s.inBitPos + 1 + k' ≤ 8 * s.inBytes.length; omega)
          refine ⟨g, hg, ?_⟩
          simp only [List.take_succ_cons, walkPath, curNode_eq hc hm, ofExcept_ok, bind_ok, hl, Bool.false_eq_true,
            if_false]
          rw [needBits_here (by omega), bind_ok, hr]
          simp [walked, stepTo, Nat.add_assoc, Nat.add_comm 1]
      · cases e

/-- TREE.UPDATE, TREE.ADDSYM and the record they apply never wait for input. -/
theorem updateTree_not_waits (x : Option Handle) (s : State) : updateTree u x s ≠ .waits := by
  unfold updateTree
  cases treeUpdate s.par (s.nodes.length + 1) s.nodes x <;> simp [Flow.fail]

theorem bind_not_waits {x : Flow Unit} {k : State → Flow Unit} (h : x ≠ .waits) (hk : ∀ t, k t ≠ .waits) :
    (x.bind fun _ s => k s) ≠ .waits := by
  cases x <;> simp at h ⊢
  exact hk _

theorem actions_not_waits {k : Nat} {cut : Nat → State} {done : State} : actions u k cut done s ≠ .waits := by
  unfold actions Flow.fail
  split
  · simp
  · split <;> simp
  · split <;> simp

theorem applyRecord_not_waits (s : State) : applyRecord u s ≠ .waits := by
  unfold applyRecord
  refine bind_not_waits ?_ fun t => bind_not_waits actions_not_waits fun _ => by simp
  split
  · exact updateTree_not_waits _ _
  · unfold addSymbol Flow.fail
    split_ifs
    · simp
    · simp
    split
    · simp
    split
    · simp
    · exact updateTree_not_waits _ _

/-- Two flows one after the other are two steps. -/
theorem two_steps {a b : Instr} {f g : State → Flow Unit} {s1 : State} (hs : s.sched = []) (ho : s.outErr = .low)
    (hd : driverOp s.phase = some a) (ha : exec a s = withSink (uopCode a) f s) (hf : f s = .ok () s1)
    (hs1 : s1.sched = []) (ho1 : s1.outErr = .low) (hd1 : driverOp s1.phase = some b) (hb : exec b s1 = withSink
      (uopCode b) g s1)
    (hw : g s1 ≠ .waits)
    (h : ((f s).bind fun _ s => g s).outcome s = .next t) : Reaches s t := by
  refine Reaches.trans (t := s1) (.one ?_) (.one ?_)
  · rw [step_driver hs hd, ha]; exact withSink_ok ho hf
  · rw [step_driver hs1 hd1, hb, withSink_low ho1]
    rw [hf, bind_ok] at h
    cases e : g s1 with
    | ok a r => rw [e] at h; exact h
    | raised r => rw [e] at h; exact h
    | waits => exact absurd e hw
    | stops f => rw [e] at h; cases h
    | refuses r => rw [e] at h; cases h

end Sys2Proof.Machine
end

