-- ==== Sys2Proof/Laws/PerInstr.lean ====
section
/-! SUPPORT. One law per instruction: its encoding has as many bits as its format (30_encoding.md R53 to R61, R67, R70). -/

namespace Sys2Proof.Laws.EncodeLength

/-- The encoding of `i` is as long as the format it is read under says. -/
def Statement (i : Instr) : Prop := (encode i).length = i.format.width

theorem hdr (s : BitVec 4) : Statement (.hdr s) :=
  length_msbBits 4 _
theorem path (p : List Bool) : Statement (.path p) := rfl
theorem raw (bs : List Byte) : Statement (.raw bs) :=
  length_bytesBits bs
theorem f0 : Statement (.f0) := rfl
theorem eos : Statement (.eos) := rfl
theorem pad (xs : List Bool) : Statement (.pad xs) := rfl
theorem recHit (p : List Bool) : Statement (.recHit p) := rfl
theorem recNew (p : List Bool) (bs : List Byte) : Statement (.recNew p bs) :=
  (List.length_append).trans (congrArg _ (length_bytesBits bs))
theorem cmdNop : Statement (.cmdNop) := rfl
theorem cmdCompress (s : BitVec 4) : Statement (.cmdCompress s) :=
  length_msbBits 8 _
theorem cmdDecompress : Statement (.cmdDecompress) := rfl
theorem cmdAbort : Statement (.cmdAbort) := rfl
theorem symGather : Statement (.symGather) := rfl
theorem symScatter : Statement (.symScatter) := rfl
theorem nodeIsLeaf : Statement (.nodeIsLeaf) := rfl
theorem nodeIsNyt : Statement (.nodeIsNyt) := rfl
theorem nodePath : Statement (.nodePath) := rfl
theorem nodeSwap : Statement (.nodeSwap) := rfl
theorem treeNew : Statement (.treeNew) := rfl
theorem treeLookup : Statement (.treeLookup) := rfl
theorem treeCurNyt : Statement (.treeCurNyt) := rfl
theorem treeAddSym : Statement (.treeAddSym) := rfl
theorem treeUpdate : Statement (.treeUpdate) := rfl
theorem treeLeader : Statement (.treeLeader) := rfl
theorem bitRd : Statement (.bitRd) := rfl
theorem bitRdByte : Statement (.bitRdByte) := rfl
theorem bitWr : Statement (.bitWr) := rfl
theorem bitWrByte : Statement (.bitWrByte) := rfl
theorem bitFlush : Statement (.bitFlush) := rfl
theorem bitWrHdr : Statement (.bitWrHdr) := rfl
theorem bitRdHdr : Statement (.bitRdHdr) := rfl
theorem encHdr : Statement (.encHdr) := rfl
theorem encFetch : Statement (.encFetch) := rfl
theorem encSymbol : Statement (.encSymbol) := rfl
theorem encUpdate : Statement (.encUpdate) := rfl
theorem encFrame : Statement (.encFrame) := rfl
theorem encEos : Statement (.encEos) := rfl
theorem encFlush : Statement (.encFlush) := rfl
theorem decHdr : Statement (.decHdr) := rfl
theorem decWalk : Statement (.decWalk) := rfl
theorem decLeaf : Statement (.decLeaf) := rfl
theorem decUpdate : Statement (.decUpdate) := rfl
theorem decFrame : Statement (.decFrame) := rfl
theorem decDrain : Statement (.decDrain) := rfl

end Sys2Proof.Laws.EncodeLength
end

