-- ==== Sys2Proof/Laws/RoundTrip.lean ====
section
/-! SUPPORT. The two sides of a job in lockstep (45_decompress.md R137, 42_tree.md R105): what the compressor writes from
C_FETCH on, and what the decoder makes of it. -/

namespace Sys2Proof.Machine

variable {s t c d : State} {u : BitVec 6} {bs : List Byte} {ts : List Token}

theorem inRem_unread {l : List Bool} (h : s.unread = l) : s.inRem = l.length := by
  rw [← h]; simp [State.unread]

theorem inRem_sent (hi : s.inp = sent bs ts) : s.inRem = 8 * bs.length - s.inBitPos := by simp [State.inRem, State.inBytes, hi]

/-! ### The compressor's steps -/

/-- ENC.FETCH of an input of which `rem` is left (44_compress.md R123). -/
theorem encFetch_unread {rem : List Byte} (ho : s.outErr = .low) (hi : s.inp = sent bs ts) (hu : s.unread = bytesBits rem)
    (hp : s.inBitPos ≤ 8 * bs.length) :
    encFetchLines s = .ok () { s with
      symBuf := rem.take s.symSize.toNat, inBitPos := s.inBitPos + 8 * (rem.take s.symSize.toNat).length
      more := decide (rem.drop s.symSize.toNat ≠ [])
      phase := if rem.take s.symSize.toNat = [] then .cEos else .cEmit } := by
  have h1 := inRem_unread hu
  have h2 := inRem_sent hi
  rw [length_bytesBits] at h1
  have r := readSymBytes_unread (u := uopCode .encFetch) (m := 8) (le_refl 8) ho (vs := rem.take s.symSize.toNat) (rest :=
    bytesBits (rem.drop s.symSize.toNat)) hi
    (by rw [hu, ← bytesBits_append, List.take_append_drop]) (by rw [List.length_take, h1]; congr 1; omega)
  have hl : (rem.take s.symSize.toNat).length = min s.symSize.toNat rem.length := List.length_take
  have m : lookBits s.inp (s.inBitPos + 8 * (rem.take s.symSize.toNat).length) 8 = if rem.drop s.symSize.toNat ≠ [] then .yes else .no := by
    rw [hi, lookBits_sent]
    congr 1
    rw [hl, eq_iff_iff, Ne, List.drop_eq_nil_iff]
    omega
  unfold encFetchLines gather
  rw [r]
  simp only [bind_ok]
  unfold setMore
  simp only [m]
  by_cases q : rem.drop s.symSize.toNat = []
  · simp [q, ho]
  · simp [q, ho]

/-- One driver operation taken off a run to DONE. -/
theorem run_driver {k : Nat} (h : Host.Core.run Sys2Proof.core k s = .next t) (ht : t.phase = .done) (hs : s.sched = [])
    (ho : s.outErr = .low) {i : Instr} (hd : driverOp s.phase = some i) {body : State → Flow Unit}
    (hx : exec i s = withSink (uopCode i) body s) (e : body s = .ok () c) : ∃ j < k,
      Host.Core.run Sys2Proof.core j c = .next t := by
  refine run_peel (M := Sys2Proof.core) h (by show step s = _; rw [step_driver hs hd, hx]; exact withSink_ok ho e) ?_
  rintro rfl
  rw [ht] at hd; cases hd

/-- Nothing leaves FAULT but the host (60_exceptions.md R165). -/
theorem fault_stays {k : Nat} (h : Host.Core.run Sys2Proof.core k s = .next t) (hs : s.sched = [])
    (hp : s.phase = .fault) : t.phase = .fault := by
  have := run_still (M := Sys2Proof.core) (a := s) k (step_rest hs (by rw [hp]; rfl))
  rw [this] at h; cases h; exact hp

/-- No run to DONE goes through a fault. -/
theorem run_driver_fault {k : Nat} (h : Host.Core.run Sys2Proof.core k s = .next t) (ht : t.phase = .done)
    (hs : s.sched = [])
    (ho : s.outErr = .low) {i : Instr} (hd : driverOp s.phase = some i) {body : State → Flow Unit}
    (hx : exec i s = withSink (uopCode i) body s) (e : body s = .raised c) (hc : c.sched = [])
      (hp : c.phase = .fault) : False := by
  obtain ⟨j, -, hj⟩ := run_peel (M := Sys2Proof.core) (b := c) h (by show step s = _; rw [step_driver hs hd, hx, withSink_low ho, e]; rfl) (by
    rintro rfl
    rw [ht] at hd; cases hd)
  have := fault_stays hj hc hp
  rw [this] at ht; cases ht

/-- The end mark, the padding and the end of a compress job (R128, R129). -/
theorem enc_close {k : Nat} (h : Host.Core.run Sys2Proof.core k s = .next t) (ht : t.phase = .done) (hs : s.sched = [])
    (ho : s.outErr = .low) (hi : s.inp = sent bs ts) (hp : s.phase = .cEos) :
    ∃ pad : List Bool, pad.length ≤ 7 ∧ bytesBits t.out = s.written ++ true :: pad := by
  obtain ⟨j, -, hj⟩ := run_driver (i := .encEos) h ht hs ho (by rw [hp]; rfl) rfl (show encEosLines s = .ok ()
    { bitWr true s with phase := .cFlush } by
      unfold encEosLines; rw [writeBits_low ho, bind_ok, goTo_low (by rw [bitsWr_outErr]; exact ho)]; rfl)
  have e := bitWr_eq true s
  have w := bitWr_written true s
  generalize bitWr true s = b at e w hj
  have k2 : encFlushLines (padBits b) { b with phase := .cFlush } = .ok ()
    { flushWith (padBits b) b with inp := ts, phase := .done } := by
    have fi : b.inp = s.inp := by rw [e]
    unfold encFlushLines takeEnd
    simp only [fi, hi, afterEnd_sent, bind_ok]
    unfold flushWith
    split <;> rfl
  obtain ⟨j', -, hj'⟩ := run_driver (i := .encFlush) (s := { b with phase := .cFlush }) hj ht (by rw [e]; exact hs)
    (by rw [e]; exact ho) rfl
    (body := fun s => encFlushLines (padBits s) s) rfl k2
  have still : step { flushWith (padBits b) b with inp := ts, phase := .done } = .next
    { flushWith (padBits b) b with inp := ts, phase := .done } :=
    step_rest (by show (flushWith (padBits b) b).sched = []; rw [flushWith_eq]; show b.sched = []; rw [e]; exact hs) rfl
  have := run_still (M := Sys2Proof.core) j' still
  rw [this] at hj'
  cases hj'
  refine ⟨padBits b, by simp [padBits, padLen]; split <;> omega, ?_⟩
  show bytesBits (flushWith (padBits b) b).out = _
  rw [flushWith_out _ _ (by simp [padBits]), w]
  simp

/-! ### The decoder's steps -/

theorem decFrame_unread {b : Bool} {rest : List Bool} (hi : s.inp = sent bs ts) (hu : s.unread = b :: rest) :
    decFrameLines s = decFrameWith b { s with inBitPos := s.inBitPos + 1 } := by
  have nb := needBits_unread (u := uopCode .decFrame) (p := [b]) (rest := rest) hi hu (by simp)
  rw [List.length_singleton] at nb
  unfold decFrameLines
  rw [nb]; rfl

/-- A driver operation that goes through is one step. -/
theorem reaches_driver (hs : s.sched = []) (ho : s.outErr = .low) {i : Instr} (hd : driverOp s.phase = some i)
    {body : State → Flow Unit}
    (hx : exec i s = withSink (uopCode i) body s) (e : body s = .ok () c) : Reaches s c :=
  .one (by rw [step_driver hs hd, hx]; exact withSink_ok ho e)

/-- The end mark read, the rest drained (45_decompress.md R142, R143). -/
theorem dec_close {pad : List Bool} (hs : s.sched = []) (ho : s.outErr = .low) (hi : s.inp = sent bs ts)
    (hp : s.phase = .dFrame)
    (hu : s.unread = true :: pad) : ∃ v, Reaches s v ∧ v.phase = .done ∧ v.sched = [] ∧ v.out = s.out := by
  have r1 := reaches_driver (i := .decFrame) hs ho (by rw [hp]; rfl) rfl ((decFrame_unread hi hu).trans
    (show decFrameWith true { s with inBitPos := s.inBitPos + 1 } = .ok ()
      { s with inBitPos := s.inBitPos + 1, phase := .dDrain } by
        unfold decFrameWith; rw [moment_low (s := { s with inBitPos := s.inBitPos + 1 }) ho]; rfl))
  have r2 : Reaches { s with inBitPos := s.inBitPos + 1, phase := .dDrain }
    { s with inBitPos := s.inBitPos + 1, inp := ts, outClosed := true, phase := .done } := by
    refine reaches_driver (i := .decDrain) (s :=
      { s with inBitPos := s.inBitPos + 1, phase := .dDrain }) hs ho rfl rfl ?_
    unfold decDrainLines takeEnd
    simp only [hi, afterEnd_sent, bind_ok]
    rw [moment_low (s := { s with inBitPos := s.inBitPos + 1, inp := ts, phase := .dDrain }) ho]; rfl
  exact ⟨_, r1.trans r2, rfl, hs, rfl⟩

/-- The decoder takes a record off the stream. -/
theorem dec_walk {p rest : List Bool} {h : Handle} {n : Node} (hs : s.sched = []) (ho : s.outErr = .low)
    (hi : s.inp = sent bs ts) (hp : s.phase = .dWalk)
    (t : TreeShape s.nodes s.root) (hc : s.cur = s.root) (hpa : PathTo s.nodes h p) (hn : s.nodes[h]? = some n)
      (hl : n.isLeaf = true)
    (hu : s.unread = p ++ rest) : Reaches s (walked p.length h s) ∧ (walked p.length h s).unread = rest :=
  ⟨reaches_walk (walkPath_of_path hi hu t hc hpa hn hl) (unread_prefix hu).1 hs ho hp, unread_after (t :=
    walked p.length h s) hu rfl rfl⟩

/-- After the leaf action the two trees are the same, and so is the operand; then the update. -/
theorem dec_update {c c' : State} (hoc : c.outErr = .low) (hs : d.sched = []) (ho : d.outErr = .low) (hp : d.phase = .dUpdate)
    (e : SameTree c d)
    (hf : d.found = c.found) (hc : c.found = true → d.cur = c.cur) (hb : c.found = false → d.symBuf = c.symBuf)
    (h : applyRecord u c = .ok () c') : Reaches d
      { d.withTree c' with symCount := d.symCount + 1, phase := .dFrame } := by
  obtain ⟨-, h2⟩ := applyRecord_same (u' := uopCode .decUpdate) hoc ho e hf hc hb h
  refine reaches_driver (i := .decUpdate) hs ho (by rw [hp]; rfl) rfl ?_
  unfold decUpdateLines
  rw [h2]; rfl

theorem leafOut_low (ho : s.outErr = .low) : (scatterOut u s).bind (goTo u .dUpdate) = .ok () { scatter s with phase := .dUpdate } := by
  rw [scatterOut_low ho, bind_ok, goTo_low (s := scatter s) ho]

theorem decLeaf_new {vs : List Byte} {rest : List Bool} {h : Handle} {n : Node} (ho : s.outErr = .low) (hi : s.inp = sent bs ts)
    (hc : s.cur = some h)
    (hn : s.nodes[h]? = some n) (hw : n.weight = 0) (hr : s.par.rawMinBits = .nine)
      (hu : s.unread = bytesBits vs ++ rest)
    (hv : vs ≠ []) (h1 : 1 ≤ rest.length) (h2 : vs.length = s.symSize.toNat ∨ vs.length ≤ s.symSize.toNat ∧
      rest.length ≤ 8) :
    decLeafLines s = .ok () { s with
                                     symBuf := vs, inBitPos := s.inBitPos + 8 * vs.length, found := false, out :=
                                       s.out ++ vs
                                     outBitPos := s.outBitPos + 8 * vs.length, phase := .dUpdate } := by
  have hl := inRem_unread hu
  rw [List.length_append, length_bytesBits] at hl
  have r := readSymBytes_unread (u := uopCode .decLeaf) (m := 9) (by omega) ho hi hu (by rw [hl]; omega)
  unfold decLeafLines readRaw
  have : n.isNyt = true := by simp [Node.isNyt, hw]
  simp only [curNode_eq hc hn, ofExcept_ok, bind_ok, this, if_true, hr, RawMinBits.toNat, r, hv, if_false]
  rw [leafNew, leafOut_low (s := setFound false { s with inBitPos := s.inBitPos + 8 * vs.length, symBuf := vs }) ho]
  rfl

theorem decLeaf_hit {sym : Symbol} {h : Handle} {n : Node} (ho : s.outErr = .low) (hc : s.cur = some h)
    (hn : s.nodes[h]? = some n) (hw : n.weight ≠ 0) (hsym : n.sym = some sym) :
    decLeafLines s = .ok () { s with
                                     symBuf := sym, found := true, out := s.out ++ sym
                                     outBitPos := s.outBitPos + 8 * sym.length, phase := .dUpdate } := by
  unfold decLeafLines leafHit
  have : n.isNyt = false := by simp [Node.isNyt, hw]
  simp only [curNode_eq hc hn, ofExcept_ok, bind_ok, this, hsym, Bool.false_eq_true, if_false]
  rw [leafOut_low (s := setFound true { s with symBuf := sym }) ho]
  rfl

theorem decLeaf_empty {rest : List Bool} {h : Handle} {n : Node} (ho : s.outErr = .low) (hi : s.inp = sent bs ts) (hc : s.cur = some h)
    (hn : s.nodes[h]? = some n) (hw : n.weight = 0) (hr : s.par.rawMinBits = .nine) (hu : s.unread = rest)
      (h8 : rest.length ≤ 8)
    (h1 : s.nodes.length = 1) : decLeafLines s = .ok () { s with symBuf := [], emptyRec := true, phase := .dFrame } :=
      by
  have hl := inRem_unread hu
  have r := readSymBytes_unread (u := uopCode .decLeaf) (m := 9) (by omega) ho (vs := []) hi hu (by rw [hl]; simp; omega)
  unfold decLeafLines readRaw
  have : n.isNyt = true := by simp [Node.isNyt, hw]
  simp only [curNode_eq hc hn, ofExcept_ok, bind_ok, this, if_true, hr, RawMinBits.toNat, r]
  simp only [leafEmpty_eq]
  simp [h1]

/-! ### A record on both sides -/

/-- TREE.UPDATE leaves the host's actions, and where it faults the phase is FAULT. -/
theorem updateTree_shape (x : Option Handle) (s : State) : (updateTree u x s).Sat (fun _ r => r.sched = s.sched)
    (fun r => r.sched = s.sched ∧ r.phase = .fault) True ∧ updateTree u x s ≠ .waits := by
  unfold updateTree
  cases treeUpdate s.par (s.nodes.length + 1) s.nodes x with
  | done ns => exact ⟨rfl, by simp⟩
  | swapRelated ns => exact ⟨⟨rfl, rfl⟩, by simp [Flow.fail]⟩
  | weightOvf ns => exact ⟨⟨rfl, rfl⟩, by simp [Flow.fail]⟩
  | stops f => exact ⟨trivial, by simp⟩

theorem applyRecord_shape (s : State) : (applyRecord u s).Sat (fun _ r => r.sched = s.sched)
    (fun r => r.sched = s.sched ∧ r.phase = .fault) True ∧ applyRecord u s ≠ .waits := by
  refine ⟨?_, applyRecord_not_waits s⟩
  unfold applyRecord
  refine Flow.Sat.bind (Q := fun _ r => r.sched = s.sched) ?_ fun _ t h => moment_bind (fun _ => h) fun _ => ⟨h, rfl⟩
  split
  · exact (updateTree_shape _ _).1
  · unfold addSymbol
    split_ifs
    · exact ⟨rfl, rfl⟩
    · trivial
    split
    · trivial
    split
    · trivial
    · exact (updateTree_shape _ _).1

/-- In a run to DONE the update completes. -/
theorem enc_update {k : Nat} {c2 : State} (h : Host.Core.run Sys2Proof.core k c2 = .next t) (ht : t.phase = .done)
    (j : JobInv c2)
    (hp : c2.phase = .cUpdate) (hs : c2.sched = []) (ho : c2.outErr = .low) :
    ∃ c3, applyRecord (uopCode .encUpdate) c2 = .ok () c3 ∧ ∃ m < k, Host.Core.run Sys2Proof.core m
      { c3 with phase := .cFrame } = .next t := by
  have sat := applyRecord_job (u := uopCode .encUpdate) j.base (j.tree (by simp [hp, Phase.hasTree])) (j.update
    (.inl hp))
  have g := (applyRecord_shape (u := uopCode .encUpdate) c2)
  cases e : applyRecord (uopCode .encUpdate) c2 with
  | ok a c3 =>
    refine ⟨c3, rfl, ?_⟩
    exact run_driver (i := .encUpdate) h ht hs ho (by rw [hp]; rfl) (body := encUpdateLines) rfl
      (by unfold encUpdateLines; rw [e]; rfl)
  | raised r =>
    exfalso
    rw [e] at g
    exact run_driver_fault (i := .encUpdate) h ht hs ho (by rw [hp]; rfl) (body := encUpdateLines) rfl
      (by unfold encUpdateLines; rw [e]; rfl) (g.1.1.trans hs) g.1.2
  | waits => exact absurd e g.2
  | stops f => rw [e] at sat; exact sat.elim
  | refuses r => rw [e] at sat; exact sat.elim

/-- What the decoder makes of what the compressor writes from C_FETCH on. -/
def Decodes (c : State) (rem : List Byte) (W : List Bool) : Prop :=
  ∀ (d : State) (bs' : List Byte) (us : List Token), SameTree c d → d.par.rawMinBits = .nine → d.symSize = c.symSize →
    d.phase = .dWalk → d.cur = d.root →
    d.sched = [] → d.outErr = .low → d.inp = sent bs' us → d.unread = W → d.emptyRec = false →
    ∃ v, Reaches d v ∧ v.phase = .done ∧ v.sched = [] ∧ v.out = d.out ++ rem

/-- What a compress job writes from C_FETCH on, the decoder reads back. -/
theorem lockstep : ∀ (k : Nat) (c : State) (rem : List Byte), JobInv c → c.phase = .cFetch → c.sched = [] →
    c.outErr = .low →
    c.inp = sent bs ts → c.unread = bytesBits rem → c.inBitPos ≤ 8 * bs.length → c.symSize ≠ 0#4 → (rem = [] →
      c.nodes.length = 1) →
    Host.Core.run Sys2Proof.core k c = .next t → t.phase = .done →
    ∃ W : List Bool, 1 ≤ W.length ∧ bytesBits t.out = c.written ++ W ∧ Decodes c rem W := by
  intro k
  induction k using Nat.strong_induction_on with
  | _ k ih =>
  intro c rem j hp hs ho hi hu hpos hsz hfirst h ht
  have tree := j.tree (by simp [hp, Phase.hasTree])
  have hsz1 : 1 ≤ c.symSize.toNat := by
    rcases Nat.eq_zero_or_pos c.symSize.toNat with q | q
    · exact absurd (BitVec.eq_of_toNat_eq (by simpa using q)) hsz
    · exact q
  have ef := encFetch_unread ho hi hu hpos
  obtain ⟨k1, hk1, h1⟩ := run_driver (i := .encFetch) h ht hs ho (by rw [hp]; rfl) (body := encFetchLines) rfl ef
  have hlen : (rem.take c.symSize.toNat).length = min c.symSize.toNat rem.length := List.length_take
  by_cases hr : rem = []
  · -- the empty input
    subst hr
    have hn1 := hfirst rfl
    simp only [List.take_nil, if_true] at h1
    obtain ⟨pad, hpad, hw⟩ := enc_close h1 ht hs ho hi rfl
    refine ⟨true :: pad, by simp, hw, ?_⟩
    intro d bs' us e hr9 hss hdp hdc hds hdo hdi hdu hde
    obtain ⟨y, yn, hy, hyn, hyw, hyl, -⟩ := tree.nyt_leaf
    obtain ⟨r, rn, hr, hrn, hrp⟩ := tree.shape.root_live
    have hyr : y = r := by
      have a : (y : Nat) < 1 := by rw [← hn1]; exact live_of_get hyn
      have b : (r : Nat) < 1 := by rw [← hn1]; exact live_of_get hrn
      exact (Nat.lt_one_iff.mp a).trans (Nat.lt_one_iff.mp b).symm
    subst hyr
    have hn' : d.nodes[y]? = some yn := by rw [e.nodes]; exact hyn
    obtain ⟨w1, w2⟩ := dec_walk (p := []) (rest := true :: pad) (h := y) hds hdo hdi hdp (by rw [e.nodes, e.root]; exact tree.shape) hdc
      (.root hn' (by rw [hyn] at hrn; cases hrn; exact hrp)) hn' hyl hdu
    generalize hwd : walked ([] : List Bool).length y d = d1 at w1 w2
    have l := decLeaf_empty (s := d1) (bs := bs') (ts := us) (rest := true :: pad) (h := y) (n := yn) (by rw [← hwd]; exact hdo) (by rw [← hwd]; exact hdi) (by rw [← hwd]; rfl)
      (by rw [← hwd]; exact hn') hyw (by rw [← hwd]; exact hr9) w2 (by simp; omega) (by rw [← hwd]; show d.nodes.length = 1; rw [e.nodes]; exact hn1)
    have r2 := reaches_driver (s := d1) (i := .decLeaf) (by rw [← hwd]; exact hds) (by rw [← hwd]; exact hdo) (by rw [← hwd]; rfl) (body := decLeafLines) rfl l
    obtain ⟨v, r3, hv, hvs', hvo⟩ := dec_close (s := { d1 with symBuf := [], emptyRec := true, phase := .dFrame }) (bs :=
      bs') (ts := us) (pad := pad)
      (by rw [← hwd]; exact hds) (by rw [← hwd]; exact hdo) (by rw [← hwd]; exact hdi) rfl w2
    exact ⟨v, w1.trans (r2.trans r3), hv, hvs', by rw [hvo, ← hwd]; simp [walked]⟩
  · -- a record
    have hne : rem.take c.symSize.toNat ≠ [] := by
      rw [Ne, List.take_eq_nil_iff, not_or]; exact ⟨by omega, hr⟩
    rw [if_neg hne] at h1
    generalize hvs : rem.take c.symSize.toNat = vs at h1 hne hlen
    generalize hrest : rem.drop c.symSize.toNat = rem' at h1
    have hrem : rem = vs ++ rem' := by rw [← hvs, ← hrest, List.take_append_drop]
    have hv15 : vs.length ≤ 15 := by rw [hlen]; have := c.symSize.isLt; omega
    let c1 : State := { c with symBuf := vs, inBitPos := c.inBitPos + 8 * vs.length, more := decide (rem' ≠ []), phase := .cEmit }
    change Host.Core.run Sys2Proof.core k1 c1 = .next t at h1
    have j1 : JobInv c1 := ⟨j.host, j.chain, fun _ => tree, hv15, fun _ => hne, by simp [c1], by simp [c1], by simp [c1]⟩
    have hu1 : c1.unread = bytesBits rem' := unread_after (s := c) (t := c1) (p := bytesBits vs) (rest :=
      bytesBits rem') (by rw [hu, hrem, bytesBits_append]) rfl (by simp [c1])
    -- the record
    have recd : ∃ (c2 : State) (p : List Bool) (h : Handle) (n : Node) (b : Bool), encSymbolLines c1 = .ok () c2 ∧
      PathTo c.nodes h p ∧ c.nodes[h]? = some n ∧ n.isLeaf = true ∧
        c2.written = c1.written ++ p ++ (if b then [] else bytesBits vs) ∧
        (∃ out acc cnt obp, c2 =
          { c1 with found := b, cur := some h, pathBuf := p, out := out, oacc := acc, ocnt := cnt, outBitPos := obp, phase := .cUpdate }) ∧
        (if b then n.weight ≠ 0 ∧ n.sym = some vs else n.weight = 0) := by
      cases hl : lookupSym vs c with
      | some h =>
        obtain ⟨l₁, l₂, hm, -⟩ := List.lookup_eq_some_iff.mp hl
        obtain ⟨n, hn, hlf, hsym⟩ := tree.map_leaf (vs, h) (by rw [hm]; simp)
        obtain ⟨p, hpa⟩ := tree.shape.reaches_root h (live_of_get hn)
        have hy : c.nyt ≠ some h := by
          intro q
          obtain ⟨y, yn, hy, hyn, -, -, hys⟩ := tree.nyt_leaf
          rw [q] at hy; cases hy
          rw [hn] at hyn; cases hyn
          rw [hys] at hsym; cases hsym
        have hw := tree.weight_pos h n hn hy
        have e := bitsWr_eq p { c1 with found := true, cur := some h, pathBuf := p }
        have w := bitsWr_written p { c1 with found := true, cur := some h, pathBuf := p }
        refine ⟨_, p, h, n, true, encSymbolLines_hit (s := c1) ho hl hpa, hpa, hn, hlf, ?_, ?_, ?_⟩
        · refine Eq.trans w ?_; simp; rfl
        · generalize bitsWr p { c1 with found := true, cur := some h, pathBuf := p } = x at e
          rw [e]; exact ⟨_, _, _, _, rfl⟩
        · exact ⟨by omega, hsym⟩
      | none =>
        obtain ⟨y, yn, hy, hyn, hyw, hyl, hys⟩ := tree.nyt_leaf
        obtain ⟨p, hpa⟩ := tree.shape.reaches_root y (live_of_get hyn)
        have e := bitsWr_eq (p ++ bytesBits vs) { c1 with found := false, cur := some y, pathBuf := p }
        have w := bitsWr_written (p ++ bytesBits vs) { c1 with found := false, cur := some y, pathBuf := p }
        refine ⟨_, p, y, yn, false, encSymbolLines_new (s := c1) ho hl hy hpa, hpa, hyn, hyl, ?_, ?_, ?_⟩
        · refine Eq.trans w ?_; simp; rfl
        · change ∃ out acc cnt obp,
            { bitsWr (p ++ bytesBits vs) { c1 with found := false, cur := some y, pathBuf := p } with phase := .cUpdate } = _
          generalize bitsWr (p ++ bytesBits vs) { c1 with found := false, cur := some y, pathBuf := p } = x at e
          rw [e]; exact ⟨_, _, _, _, rfl⟩
        · exact hyw
    obtain ⟨c2, p, hd, n, b, es, hpa, hn, hlf, hw2, ⟨out, acc, cnt, obp, hc2⟩, hb⟩ := recd
    obtain ⟨k2, hk2, h2⟩ := run_driver (s := c1) (i := .encSymbol) h1 ht hs ho rfl (body := encSymbolLines) rfl es
    have j2 : JobInv c2 := by
      have := (encSymbolLines_job j1 rfl); rw [es] at this; exact this.1
    obtain ⟨c3, ea, k3, hk3, h3⟩ := enc_update h2 ht j2 (by rw [hc2]) (by rw [hc2]; exact hs) (by rw [hc2]; exact ho)
    obtain ⟨hc3, -⟩ := applyRecord_same (u' := uopCode .encUpdate) (s := c2) (d := c2)
      (by rw [hc2]; exact ho) (by rw [hc2]; exact ho) ⟨rfl, rfl, rfl, rfl, rfl,
      rfl⟩ rfl (fun _ => rfl) (fun _ => rfl) ea
    have j3 : JobInv { c3 with phase := .cFrame } := by
      have := encUpdateLines_job j2 (by rw [hc2]); unfold encUpdateLines at this; rw [ea] at this; exact this
    -- what follows the record, on both sides
    have tail : ∃ W' : List Bool, 1 ≤ W'.length ∧ (rem' = [] → W'.length ≤ 8) ∧ bytesBits t.out = c2.written ++ W' ∧
        ∀ (d : State) (bs' : List Byte) (us : List Token), SameTree c3 d → d.par.rawMinBits = .nine →
          d.symSize = c.symSize → d.phase = .dFrame →
          d.sched = [] → d.outErr = .low → d.inp = sent bs' us → d.unread = W' → d.emptyRec = false →
          ∃ v, Reaches d v ∧ v.phase = .done ∧ v.sched = [] ∧ v.out = d.out ++ rem' := by
      have hmore : c3.more = decide (rem' ≠ []) := by rw [hc3, hc2]; rfl
      have hwr : c3.written = c2.written := by rw [hc3]; rfl
      have o3 : ({ c3 with phase := .cFrame } : State).outErr = .low := by show c3.outErr = .low; rw [hc3, hc2]; exact ho
      by_cases hr' : rem' = []
      · have ef : encFrameLines { c3 with phase := .cFrame } = .ok () { c3 with phase := .cEos } := by
          unfold encFrameLines; rw [if_neg (by simp [hmore, hr']), goTo_low o3]
        obtain ⟨k4, hk4, h4⟩ := run_driver (s := { c3 with phase := .cFrame }) (i := .encFrame) h3 ht
          (by show c3.sched = []; rw [hc3, hc2]; exact hs) (by show c3.outErr = .low; rw [hc3, hc2]; exact ho) rfl
          (body := encFrameLines) rfl ef
        obtain ⟨pad, hpad, hw⟩ := enc_close (s := { c3 with phase := .cEos }) (bs := bs) (ts := ts) h4 ht
          (by show c3.sched = []; rw [hc3, hc2]; exact hs) (by show c3.outErr = .low; rw [hc3, hc2]; exact ho)
          (by show c3.inp = _; rw [hc3, hc2]; exact hi) rfl
        refine ⟨true :: pad, by simp, fun _ => by simp; omega, ?_, ?_⟩
        · rw [hw]; exact congrArg (· ++ _) hwr
        · intro d bs' us _ _ _ hdp hds hdo hdi hdu _
          obtain ⟨v, r, hv, hvs', hvo⟩ := dec_close hds hdo hdi hdp hdu
          exact ⟨v, r, hv, hvs', by rw [hvo, hr', List.append_nil]⟩
      · have ef : encFrameLines { c3 with phase := .cFrame } = .ok ()
          { bitWr false { c3 with phase := .cFrame } with phase := .cFetch } := by
          unfold encFrameLines
          rw [if_pos (by simp [hmore, hr']), writeBits_low o3, bind_ok, goTo_low (by rw [bitsWr_outErr]; exact o3)]; rfl
        obtain ⟨k4, hk4, h4⟩ := run_driver (s := { c3 with phase := .cFrame }) (i := .encFrame) h3 ht
          (by show c3.sched = []; rw [hc3, hc2]; exact hs) (by show c3.outErr = .low; rw [hc3, hc2]; exact ho) rfl
          (body := encFrameLines) rfl ef
        have e4 := bitWr_eq false { c3 with phase := .cFrame }
        have w4 := bitWr_written false { c3 with phase := .cFrame }
        have j4 : JobInv { bitWr false { c3 with phase := .cFrame } with phase := .cFetch } := by
          have := encFrameLines_job j3 rfl; rw [ef] at this; exact this
        generalize bitWr false { c3 with phase := .cFrame } = c4 at e4 w4 j4 h4
        have f4 : c4.sched = [] ∧ c4.outErr = .low ∧ c4.inp = c.inp ∧ c4.inBitPos = c1.inBitPos ∧
          c4.symSize = c.symSize := by
          rw [e4]; show c3.sched = [] ∧ c3.outErr = .low ∧ c3.inp = c.inp ∧ c3.inBitPos = c1.inBitPos ∧
            c3.symSize = c.symSize
          rw [hc3, hc2]; exact ⟨hs, ho, rfl, rfl, rfl⟩
        obtain ⟨s4, o4, i4, p4, z4⟩ := f4
        have hu4 : State.unread { c4 with phase := .cFetch } = bytesBits rem' := by
          rw [← hu1]; unfold State.unread State.inRem State.inBytes; simp only [i4, p4]; rfl
        have hpos4 : c4.inBitPos ≤ 8 * bs.length := by
          rw [p4]
          have := congrArg List.length hu
          simp [State.unread, inRem_sent hi, hrem] at this
          show c.inBitPos + 8 * vs.length ≤ _
          have : vs.length ≠ 0 := by simpa using hne
          omega
        obtain ⟨W, hW1, hW2, hW3⟩ := ih k4 (by omega) { c4 with phase := .cFetch } rem' j4 rfl s4 o4
          (i4.trans hi) hu4 hpos4 (by show c4.symSize ≠ _; rw [z4]; exact hsz) (fun q => absurd q hr') h4 ht
        refine ⟨false :: W, by simp, fun q => absurd q hr', ?_, ?_⟩
        · rw [hW2]
          have : State.written { c4 with phase := .cFetch } = c2.written ++ [false] := by
            refine Eq.trans (show State.written { c4 with phase := .cFetch } = c4.written from rfl) (w4.trans ?_)
            exact congrArg (· ++ _) hwr
          rw [this]; simp
        · intro d bs' us e hr9 hss hdp hds hdo hdi hdu hde
          have fr := decFrame_unread hdi hdu
          have r1 := reaches_driver (i := .decFrame) (body := decFrameLines) hds hdo (by rw [hdp]; rfl) rfl (fr.trans
            (show decFrameWith false { d with inBitPos := d.inBitPos + 1 } = .ok ()
            { d with inBitPos := d.inBitPos + 1, cur := d.root, phase := .dWalk } by
              unfold decFrameWith; rw [moment_low (s := { d with inBitPos := d.inBitPos + 1 }) hdo]; simp [hde]))
          have e' : SameTree { c4 with phase := .cFetch }
            { d with inBitPos := d.inBitPos + 1, cur := d.root, phase := .dWalk } := by
            constructor <;> rw [e4]
            · exact e.par
            · exact e.nodes
            · exact e.root
            · exact e.nyt
            · exact e.nextId
            · exact e.map
          obtain ⟨v, r2, hv, hvs', hvo⟩ := hW3
            { d with inBitPos := d.inBitPos + 1, cur := d.root, phase := .dWalk } bs' us e' hr9
            (hss.trans z4.symm) rfl rfl hds hdo hdi
            (unread_after (p := [false]) hdu rfl rfl) hde
          exact ⟨v, r1.trans r2, hv, hvs', hvo⟩
    obtain ⟨W', hW1, hW8, hWt, hWd⟩ := tail
    refine ⟨p ++ (if b then [] else bytesBits vs) ++ W', by simp; omega, ?_, ?_⟩
    · rw [hWt, hw2]; simp; rfl
    · intro d bs' us e hr9 hss hdp hdc hds hdo hdi hdu hde
      have hn' : d.nodes[hd]? = some n := by rw [e.nodes]; exact hn
      obtain ⟨w1, w2⟩ := dec_walk (p := p) (rest := (if b then [] else bytesBits vs) ++ W') (h := hd) hds hdo hdi hdp
        (by rw [e.nodes, e.root]; exact tree.shape) hdc
        (by rw [e.nodes]; exact hpa) hn' hlf (by rw [hdu]; simp)
      -- the leaf action
      have leaf : ∃ d2, Reaches (walked p.length hd d) d2 ∧ SameTree c2 d2 ∧ d2.par = d.par ∧ d2.symSize = d.symSize ∧
        d2.phase = .dUpdate ∧ d2.sched = [] ∧ d2.outErr = .low ∧
          d2.inp = d.inp ∧ d2.unread = W' ∧ d2.emptyRec = false ∧ d2.found = c2.found ∧ d2.cur = c2.cur ∧
            d2.symBuf = vs ∧ d2.out = d.out ++ vs := by
        have st : ∀ x : State, x.par = d.par → x.nodes = d.nodes → x.root = d.root → x.nyt = d.nyt →
          x.nextId = d.nextId → x.map = d.map → SameTree c2 x := by
          intro x q1 q2 q3 q4 q5 q6
          constructor <;> rw [hc2]
          · exact q1.trans e.par
          · exact q2.trans e.nodes
          · exact q3.trans e.root
          · exact q4.trans e.nyt
          · exact q5.trans e.nextId
          · exact q6.trans e.map
        cases b with
        | true =>
          rw [if_pos rfl] at hb
          have l := decLeaf_hit (s := walked p.length hd d) (h := hd) hdo rfl hn' hb.1 hb.2
          refine ⟨_, reaches_driver (s := walked p.length hd d) (i := .decLeaf) (body :=
            decLeafLines) hds hdo rfl rfl l, st _ rfl rfl rfl rfl rfl rfl, rfl, rfl, rfl, hds, hdo, rfl, ?_, hde, ?_,
            ?_, rfl, rfl⟩
          · simp only [if_true, List.nil_append] at w2; exact w2
          · rw [hc2]
          · rw [hc2]; rfl
        | false =>
          simp only [Bool.false_eq_true, if_false] at hb w2
          have hz : d.symSize.toNat = c.symSize.toNat := by rw [hss]
          have l := decLeaf_new (s := walked p.length hd d) (h := hd) (bs := bs') (ts := us) (vs := vs) (rest :=
            W') hdo hdi rfl hn' hb hr9 w2 hne hW1 (by
            show vs.length = d.symSize.toNat ∨ vs.length ≤ d.symSize.toNat ∧ _
            rw [hz]
            by_cases q : rem' = []
            · exact .inr ⟨by rw [hlen]; exact Nat.min_le_left _ _, hW8 q⟩
            · left; rw [hlen]; rw [← hrest, List.drop_eq_nil_iff] at q; omega)
          refine ⟨_, reaches_driver (s := walked p.length hd d) (i := .decLeaf) (body :=
            decLeafLines) hds hdo rfl rfl l, st _ rfl rfl rfl rfl rfl rfl, rfl, rfl, rfl, hds, hdo, rfl, ?_, hde, ?_,
            ?_, rfl, rfl⟩
          · exact unread_after (p := bytesBits vs) w2 rfl (by simp)
          · rw [hc2]
          · rw [hc2]; rfl
      obtain ⟨d2, r2, e2, hp2, hz2, hph2, hs2, ho2, hi2, hu2, he2, hf2, hc2', hb2, hout2⟩ := leaf
      have r3 := dec_update (c := c2) (c' := c3) (d := d2) (by rw [hc2]; exact ho) hs2 ho2 hph2 e2 hf2 (fun _ => hc2') (fun _ => by rw [hb2, hc2]) ea
      have e3 : SameTree c3 { d2.withTree c3 with symCount := d2.symCount + 1, phase := .dFrame } := by
        constructor
        · show d2.par = c3.par; rw [hc3]; exact e2.par
        · rfl
        · show d2.root = c3.root; rw [hc3]; exact e2.root
        · rfl
        · rfl
        · rfl
      obtain ⟨v, r4, hv, hvs', hvo⟩ := hWd { d2.withTree c3 with symCount := d2.symCount + 1, phase := .dFrame } bs' us e3
        (by show d2.par.rawMinBits = _; rw [hp2]; exact hr9) (hz2.trans hss) rfl hs2 ho2 (hi2.trans hdi) hu2 he2
      refine ⟨v, w1.trans (r2.trans (r3.trans r4)), hv, hvs', ?_⟩
      rw [hvo, hrem]
      show d2.out ++ _ = _
      rw [hout2]; simp


/-! ### The commands -/

theorem decode_compress : ∀ size : BitVec 4, decode .cmd (msbBits 8 (0x10 + size.toNat)) = .ok (.cmdCompress size, []) := by decide
theorem clampSize_ne : ∀ size : BitVec 4, clampSize size ≠ 0#4 := by decide

end Sys2Proof.Machine
end

