-- ==== Sys2Proof/Tests/Slice0.lean ====
section
/-! SUPPORT. The model's own tests: well-formedness, decoding of words written out from 30_encoding.md, one-step results
from the vectors of 95_test_vectors.md (named by their numbers there), and for each statement with hypotheses a
witness that meets them. -/

namespace Sys2Proof.Tests

open Sys2Proof.Machine

/-! ### Well-formedness: each check refuses an ill-formed term -/

theorem test_wf_header_zero : (Instr.hdr 0#4).wf = false ∧ (Instr.hdr 1#4).wf = true := by decide
theorem test_wf_raw_length : (Instr.raw []).wf = false ∧ (Instr.raw (List.replicate 16 0#8)).wf = false ∧
    (Instr.raw (List.replicate 15 0#8)).wf = true := by decide
theorem test_wf_pad_length : (Instr.pad (List.replicate 8 false)).wf = false ∧
    (Instr.pad (List.replicate 7 true)).wf = true := by decide
theorem test_wf_hit_path : (Instr.recHit []).wf = false ∧ (Instr.recHit [true]).wf = true := by decide
theorem test_wf_new_length : (Instr.recNew [] []).wf = false ∧ (Instr.recNew [] (List.replicate 16 0#8)).wf = false ∧
    (Instr.recNew [] [0#8]).wf = true := by decide

/-! ### Decoding: every constructor by a word written out from R55 to R60, R67 and R70 -/

theorem test_decode_sym : decode (.uop 0#4) [false, false, false, false, false, true] = .ok (.symGather, []) ∧
    decode (.uop 0#4) [false, false, false, false, true, false] = .ok (.symScatter, []) ∧
    decode (.uop 0#4) [false, false, false, false, false, false] = .error (.unusedUop 0#6) := by decide
theorem test_decode_node : decode (.uop 0#4) [false, false, true, false, false, false] = .ok (.nodeIsLeaf, []) ∧
    decode (.uop 0#4) [false, false, true, false, false, true] = .ok (.nodeIsNyt, []) ∧
    decode (.uop 0#4) [false, false, true, false, true, false] = .ok (.nodePath, []) ∧
    decode (.uop 0#4) [false, false, true, false, true, true] = .ok (.nodeSwap, []) := by decide
theorem test_decode_tree : decode (.uop 0#4) [false, true, false, false, false, false] = .ok (.treeNew, []) ∧
    decode (.uop 0#4) [false, true, false, false, false, true] = .ok (.treeLookup, []) ∧
    decode (.uop 0#4) [false, true, false, false, true, false] = .ok (.treeCurNyt, []) ∧
    decode (.uop 0#4) [false, true, false, false, true, true] = .ok (.treeAddSym, []) ∧
    decode (.uop 0#4) [false, true, false, true, false, false] = .ok (.treeUpdate, []) ∧
    decode (.uop 0#4) [false, true, false, true, false, true] = .ok (.treeLeader, []) := by decide
theorem test_decode_bit : decode (.uop 0#4) [false, true, true, false, false, false] = .ok (.bitRd, []) ∧
    decode (.uop 0#4) [false, true, true, false, false, true] = .ok (.bitRdByte, []) ∧
    decode (.uop 0#4) [false, true, true, false, true, false] = .ok (.bitWr, []) ∧
    decode (.uop 0#4) [false, true, true, false, true, true] = .ok (.bitWrByte, []) ∧
    decode (.uop 0#4) [false, true, true, true, false, false] = .ok (.bitFlush, []) ∧
    decode (.uop 0#4) [false, true, true, true, false, true] = .ok (.bitWrHdr, []) ∧
    decode (.uop 0#4) [false, true, true, true, true, false] = .ok (.bitRdHdr, []) := by decide
theorem test_decode_enc : decode (.uop 0#4) [true, false, false, false, false, false] = .ok (.encHdr, []) ∧
    decode (.uop 0#4) [true, false, false, false, false, true] = .ok (.encFetch, []) ∧
    decode (.uop 0#4) [true, false, false, false, true, false] = .ok (.encSymbol, []) ∧
    decode (.uop 0#4) [true, false, false, false, true, true] = .ok (.encUpdate, []) ∧
    decode (.uop 0#4) [true, false, false, true, false, false] = .ok (.encFrame, []) ∧
    decode (.uop 0#4) [true, false, false, true, false, true] = .ok (.encEos, []) ∧
    decode (.uop 0#4) [true, false, false, true, true, false] = .ok (.encFlush, []) := by decide
theorem test_decode_dec : decode (.uop 0#4) [true, false, true, false, false, false] = .ok (.decHdr, []) ∧
    decode (.uop 0#4) [true, false, true, false, false, true] = .ok (.decWalk, []) ∧
    decode (.uop 0#4) [true, false, true, false, true, false] = .ok (.decLeaf, []) ∧
    decode (.uop 0#4) [true, false, true, false, true, true] = .ok (.decUpdate, []) ∧
    decode (.uop 0#4) [true, false, true, true, false, false] = .ok (.decFrame, []) ∧
    decode (.uop 0#4) [true, false, true, true, false, true] = .ok (.decDrain, []) := by decide
theorem test_decode_cmd : decode .cmd [false, false, false, false, false, false, false, false] = .ok (.cmdNop, []) ∧
    decode .cmd [false, false, false, true, true, true, true, true] = .ok (.cmdCompress 15#4, []) ∧
    decode .cmd [false, false, true, false, false, false, false, false] = .ok (.cmdDecompress, []) ∧
    decode .cmd [true, true, true, true, false, false, false, false] = .ok (.cmdAbort, []) ∧
    decode .cmd [false, true, false, true, false, true, false, true] = .error (.reservedCommand 0x55#8) := by decide
theorem test_decode_cmdCodes : decode (.uop 7#4) [true, true, false, false, false, false] = .ok (.cmdNop, []) ∧
    decode (.uop 7#4) [true, true, false, false, false, true] = .ok (.cmdCompress 7#4, []) ∧
    decode (.uop 7#4) [true, true, false, false, true, false] = .ok (.cmdDecompress, []) ∧
    decode (.uop 7#4) [true, true, false, false, true, true] = .ok (.cmdAbort, []) ∧
    decode (.uop 7#4) [true, true, false, true, false, false] = .error (.unusedUop 0b110100#6) := by decide
theorem test_decode_stream : decode (.stream .hdr) [false, false, false, true] = .ok (.hdr 1#4, []) ∧
    decode (.stream .hdr) [false, false, false, false] = .error .zeroHeader ∧
    decode (.stream (.path 2)) [false, true, true] = .ok (.path [false, true], [true]) ∧
    decode (.stream (.raw 1)) [false, true, false, false, false, false, false, true] = .ok (.raw [0x41#8], []) ∧
    decode (.stream .frame) [false] = .ok (.f0, []) ∧ decode (.stream .frame) [true] = .ok (.eos, []) ∧
    decode (.stream (.pad 3)) [false, true, false] = .ok (.pad [false, true, false], []) := by decide
theorem test_decode_records : decode (.stream (.recHit 1)) [true, false] = .ok (.recHit [true], [false]) ∧
    decode (.stream (.recNew 1 1)) [false, false, true, true, false, false, false, true, false] =
      .ok (.recNew [false] [0x62#8], []) := by decide

/-! ### Small states: the trees T3 and T3b of the vectors -/

def nextOf : Out → Option State
  | .next s => some s
  | .fault _ => none
  | .refused _ => none

/-- A field of the next state. -/
def get {α : Type} (f : State → α) (o : Out) : Option α := (nextOf o).map f

def node1 : Node := { id := 511, weight := 0, sym := none, parent := none, left := none, right := none }
def tree1 : Store := [node1]
def tree3 : Store := splitNyt tree1 0 511 [0x61#8]
def tree3b : Store := bump 0 (splitNyt tree3 2 509 [0x62#8])

/-- Section 2.2 of the vectors: T3b. -/
theorem test_tree3b_table : tree3b =
    [{ id := 511, weight := 2, sym := none, parent := none, left := some 2, right := some 1 },
     { id := 510, weight := 1, sym := some [0x61#8], parent := some 0, left := none, right := none },
     { id := 509, weight := 1, sym := none, parent := some 0, left := some 4, right := some 3 },
     { id := 508, weight := 1, sym := some [0x62#8], parent := some 2, left := none, right := none },
     { id := 507, weight := 0, sym := none, parent := some 2, left := none, right := none }] := by decide

def one : State := { State.reset with symSize := 1#4, nodes := tree1, root := some 0, nyt := some 0, nextId := 511 }
def three : State :=
  { one with nodes := tree3, nyt := some 2, nextId := 509, map := [([0x61#8], 1)], symCount := 1 }
def t3b : State :=
  { one with nodes := tree3b, nyt := some 4, nextId := 507, map := [([0x61#8], 1), ([0x62#8], 3)], symCount := 2 }

/-- `s` with the operand handles `a`, `b`. -/
def ops (a b : Option Handle) (s : State) : State := { s with args := { s.args with a := a, b := b } }

/-- `s` with the input `bs`, complete, at bit position `p`. -/
def feed (bs : List Byte) (p : Nat) (s : State) : State := { s with inp := sent bs [], inBitPos := p }

/-- `s` with OUT, OACC, OCNT as given. -/
def wrote (o : List Byte) (a : Byte) (c : Fin 8) (s : State) : State :=
  { s with out := o, oacc := a, ocnt := c, outBitPos := 8 * o.length + c.val }

theorem tree1_ok : TreeOk tree1 (some 0) (some 0) [] := treeNew_treeOk 256 State.reset

theorem tree3_ok : TreeOk tree3 (some 0) (some 2) [([0x61#8], 1)] :=
  tree1_ok.split (N := 0) (i := 511) (sym := [0x61#8]) rfl (by decide) (by decide)

theorem tree3b_ok : TreeOk tree3b (some 0) (some 4) [([0x61#8], 1), ([0x62#8], 3)] := by
  have k := tree3_ok.split (N := 2) (i := 509) (sym := [0x62#8]) rfl (by decide) (by decide)
  exact k.rebuilt (rebuilt_bump k.shape 0) fun h e => by rw [e]; decide

/-! ### One step of each micro-operation, from the vectors -/

theorem test_gather_s1 : get (fun s => (s.symBuf, s.more, s.inBitPos))
    (exec .symGather { feed [0x61#8, 0x62#8, 0x63#8, 0x64#8] 0 one with symSize := 3#4 }) =
    some ([0x61#8, 0x62#8, 0x63#8], true, 24) := by decide
theorem test_gather_s3 : get (fun s => (s.symBuf, s.more, s.inBitPos))
    (exec .symGather { feed [0x66#8, 0x67#8] 8 one with symSize := 3#4 }) = some ([0x67#8], false, 16) := by decide
theorem test_scatter_s8 : get (fun s => (s.out, s.outBitPos))
    (exec .symScatter { wrote [0x68#8, 0x65#8] 0#8 0 one with symBuf := [0x6f#8] }) =
    some ([0x68#8, 0x65#8, 0x6f#8], 24) := by decide
theorem test_isLeaf_n2 : ([0, 1, 2, 3, 4].map fun h : Nat => get State.res (exec .nodeIsLeaf (ops (some h) none t3b))) =
    [false, true, false, true, true].map fun b => some (.bit b) := by decide
theorem test_isNyt_n3 : ([0, 1, 2, 3, 4].map fun h : Nat => get State.res (exec .nodeIsNyt (ops (some h) none t3b))) =
    [false, false, false, false, true].map fun b => some (.bit b) := by decide
theorem test_path_n4 : ([0, 1, 2, 3, 4].map fun h : Nat => get State.pathBuf (exec .nodePath (ops (some h) none t3b))) =
    [some [], some [true], some [false], some [false, true], some [false, false]] := by decide
theorem test_swap_n6 : get (fun s => s.nodes.map fun n => (n.id, n.parent, n.left, n.right))
    (exec .nodeSwap (ops (some 3) (some 1) t3b)) =
    some [(511, none, some 2, some 3), (508, some 2, none, none), (509, some 0, some 4, some 1), (510, some 0, none, none),
      (507, some 2, none, none)] := by decide
theorem test_swap_n11 : exec .nodeSwap (ops (some 2) (some 3) t3b) = .refused .swapOfRelatedNodes := by rfl
theorem test_new_t2 : get (fun s => (s.nodes.length, s.nextId, s.root)) (exec .treeNew { t3b with symSize := 15#4 }) =
    some (1, 2658455991569831745807614120560689151, some 0) := by decide
theorem test_lookup_t5 : ([[0x62#8], [0x61#8], [0x63#8], [0x62#8, 0#8]].map fun sym : Symbol =>
    get State.res (exec .treeLookup { t3b with symBuf := sym })) =
    [some 3, some 1, none, none].map fun h : Option Handle => some (.handle h) := by decide
theorem test_curNyt_t6 : get State.res (exec .treeCurNyt t3b) = some (.handle (some 4)) := by decide
theorem test_addSym_t4 : get (fun s => (s.nodes, s.nyt, s.map)) (exec .treeAddSym { three with symBuf := [0x62#8] }) =
    some (tree3b, some 4, [([0x61#8], 1), ([0x62#8], 3)]) := by decide
theorem test_addSym_t13 : get (fun s => (s.phase, s.fcode, s.nodes))
    (exec .treeAddSym { t3b with par := { Params.chosen with nodeCap := some 5 }, symBuf := [0x63#8] }) =
    some (.fault, .nodeCap, tree3b) := by decide
theorem test_update_t8 : get (fun s => s.nodes.map fun n => (n.id, n.weight, n.parent))
    (exec .treeUpdate (ops (some 3) none t3b)) =
    some [(511, 3, none), (508, 1, some 2), (509, 2, some 0), (510, 2, some 0), (507, 0, some 2)] := by decide
theorem test_update_t14 : get (fun s => (s.phase, s.fcode, s.nodes))
    (exec .treeUpdate (ops (some 0) none { one with nodes := [{ node1 with weight := 2 ^ 64 - 1 }] })) =
    some (.fault, .weightOvf, [{ node1 with weight := 18446744073709551615 }]) := by decide
theorem test_leader_t11 : ([1, 2, 3].map fun h : Nat => get State.res (exec .treeLeader (ops (some h) none t3b))) =
    [some (.handle (some 1)), some (.handle (some 1)), some (.handle (some 1))] := by decide
theorem test_rd_b1 : get (fun s => (s.res, s.inBitPos)) (exec .bitRd (feed [0x14#8, 0x15#8, 0x60#8] 13 one)) =
    some (.bit true, 14) := by decide
theorem test_rd_b4 : get (fun s => (s.res, s.inBitPos)) (exec .bitRd (feed [0x14#8, 0x15#8, 0x60#8] 24 one)) =
    some (.exhausted, 24) := by decide
theorem test_rdByte_b6 : get (fun s => (s.res, s.inBitPos)) (exec .bitRdByte (feed [0x16#8, 0x11#8, 0x88#8, 0xc0#8] 14 one)) =
    some (.byte 0x62#8, 22) := by decide
theorem test_rdByte_b7 : get (fun s => (s.res, s.inBitPos)) (exec .bitRdByte (feed [0x14#8, 0x18#8] 13 one)) =
    some (.exhausted, 13) := by decide
theorem test_rdHdr_b8 : ([[0x38#8], [0xf8#8], [0x00#8], []].map fun bs : List Byte =>
    get (fun s => (s.res, s.inBitPos)) (exec .bitRdHdr (feed bs 0 one))) =
    [some (.hdr 3#4, 4), some (.hdr 15#4, 4), some (.hdr 0#4, 4), some (.exhausted, 0)] := by decide
theorem test_wr_b9 : get (fun s => (s.out, s.oacc, s.ocnt, s.outBitPos))
    (exec .bitWr (wrote [] 0x10#8 4 { one with args := { UopArgs.reset with bit := true } })) =
    some ([], 0x18#8, 5, 5) := by decide
theorem test_wr_b10 : get (fun s => (s.out, s.oacc, s.ocnt, s.outBitPos))
    (exec .bitWr (wrote [0x14#8] 0x14#8 7 { one with args := { UopArgs.reset with bit := true } })) =
    some ([0x14#8, 0x15#8], 0#8, 0, 16) := by decide
theorem test_wrByte_b12 : get (fun s => (s.out, s.oacc, s.ocnt, s.outBitPos))
    (exec .bitWrByte (wrote [0x16#8] 0x10#8 6 { one with args := { UopArgs.reset with byte := 0x62#8 } })) =
    some ([0x16#8, 0x11#8], 0x88#8, 6, 22) := by decide
theorem test_wrHdr_b13 : get (fun s => (s.out, s.oacc, s.ocnt, s.outBitPos))
    (exec .bitWrHdr { one with args := { UopArgs.reset with hdr := 3#4 } }) = some ([], 0x30#8, 4, 4) := by decide
theorem test_flush_b14 : get (fun s => (s.out, s.oacc, s.ocnt, s.outClosed, s.outBitPos))
    (exec .bitFlush (wrote [0x14#8, 0x15#8] 0x60#8 3 one)) =
    some ([0x14#8, 0x15#8, 0x60#8], 0#8, 0, true, 19) := by decide
theorem test_flush_b15 : get State.out
    (exec .bitFlush (wrote [0x14#8, 0x15#8] 0x60#8 3 { one with par := { Params.chosen with padBit := true } })) =
    some [0x14#8, 0x15#8, 0x7f#8] := by decide

/-! ### One step of each driver operation -/

theorem test_encHdr_v2 : get (fun s => (s.oacc, s.ocnt, s.phase)) (exec .encHdr { one with phase := .cHdr }) =
    some (0x10#8, 4, .cFetch) := by decide
theorem test_encFetch_e1 : get (fun s => (s.symBuf, s.more, s.phase)) (exec .encFetch { feed [] 0 one with phase := .cFetch }) =
    some ([], false, .cEos) := by decide
/-- The vector of F8 (section 3.5): BYTE 41, ERR. -/
theorem test_encFetch_f8 : get (fun s => (s.fcode, s.fuop, s.fpos, s.phase))
    (exec .encFetch { one with phase := .cFetch, inp := [.byte 0x41#8, .err] }) =
    some (.ioError, 0b100001#6, 8, .fault) := by decide
theorem test_encSymbol_e2 : get (fun s => (s.found, s.cur, s.out, s.outBitPos, s.phase))
    (exec .encSymbol (wrote [] 0x10#8 4 { one with phase := .cEmit, symBuf := [0x41#8] })) =
    some (false, some 0, [0x14#8], 12, .cUpdate) := by decide
theorem test_encSymbol_e3 : get (fun s => (s.found, s.cur, s.pathBuf, s.oacc, s.phase))
    (exec .encSymbol { three with phase := .cEmit, symBuf := [0x61#8] }) =
    some (true, some 1, [true], 0x80#8, .cUpdate) := by decide
theorem test_encUpdate_v3 : get (fun s => (s.nodes, s.symCount, s.phase))
    (exec .encUpdate { three with phase := .cUpdate, found := false, symBuf := [0x62#8] }) =
    some (tree3b, 2, .cFrame) := by decide
theorem test_encFrame_e4 : get (fun s => (s.ocnt, s.outBitPos, s.phase)) (exec .encFrame { one with phase := .cFrame, more := true }) =
    some (1, 1, .cFetch) := by decide
theorem test_encFrame_e5 : get (fun s => (s.ocnt, s.outBitPos, s.phase)) (exec .encFrame { one with phase := .cFrame }) =
    some (0, 0, .cEos) := by decide
theorem test_encEos_v2 : get (fun s => (s.oacc, s.ocnt, s.phase)) (exec .encEos (wrote [] 0x10#8 4 { one with phase := .cEos })) =
    some (0x18#8, 5, .cFlush) := by decide
theorem test_encFlush_v2 : get (fun s => (s.out, s.outClosed, s.inp, s.phase))
    (exec .encFlush (wrote [] 0x18#8 5 { feed [] 0 one with phase := .cFlush })) = some ([0x18#8], true, [], .done) := by decide
theorem test_decHdr_e6 : get (fun s => (s.symSize, s.nextId, s.cur, s.inBitPos, s.phase))
    (exec .decHdr { feed [0x38#8] 0 State.reset with phase := .dHdr }) =
    some (3#4, 33554431, some 0, 4, .dWalk) := by decide
theorem test_decHdr_x2 : get (fun s => (s.fcode, s.fuop, s.fpos, s.nodes))
    (exec .decHdr { feed [0x00#8] 0 State.reset with phase := .dHdr }) = some (.badHeader, 0b101000#6, 4, []) := by decide
theorem test_decWalk_e7 : get (fun s => (s.cur, s.inBitPos, s.phase))
    (exec .decWalk { feed [0x18#8] 4 one with phase := .dWalk, cur := some 0 }) = some (some 0, 4, .dLeaf) := by decide
theorem test_decWalk_e8 : get (fun s => (s.cur, s.inBitPos, s.phase))
    (exec .decWalk { feed [0x00#8] 3 t3b with phase := .dWalk, cur := some 0 }) = some (some 2, 4, .dWalk) := by decide
theorem test_decLeaf_e9 : get (fun s => (s.symBuf, s.emptyRec, s.out, s.phase))
    (exec .decLeaf { feed [0x18#8] 4 one with phase := .dLeaf, cur := some 0 }) = some ([], true, [], .dFrame) := by decide
/-- V6, the third DEC.LEAF: one byte though 16 bits are unread, since 9 are needed for each. -/
theorem test_decLeaf_v6 : get (fun s => (s.symBuf, s.inBitPos, s.phase))
    (exec .decLeaf { feed [0x36#8, 0x16#8, 0x26#8, 0x34#8, 0x58#8, 0x80#8] 32 three with
      phase := .dLeaf, cur := some 2, symSize := 3#4 }) = some ([0x58#8], 40, .dUpdate) := by decide
theorem test_decUpdate_p2 : get (fun s => (s.nodes.map Node.weight, s.symCount, s.phase))
    (exec .decUpdate { t3b with phase := .dUpdate, found := true, cur := some 3 }) =
    some ([3, 1, 2, 2, 0], 3, .dFrame) := by decide
theorem test_decFrame_e10 : get (fun s => (s.fcode, s.fuop, s.fpos, s.phase))
    (exec .decFrame { feed [0x10#8] 4 one with phase := .dFrame, emptyRec := true }) =
    some (.malformedEmpty, 0b101100#6, 5, .fault) := by decide
theorem test_decFrame_e12 : get (fun s => (s.inBitPos, s.phase))
    (exec .decFrame { feed [0x18#8] 4 one with phase := .dFrame, emptyRec := true }) = some (5, .dDrain) := by decide
theorem test_decDrain_e13 : get (fun s => (s.inBitPos, s.inp, s.outClosed, s.phase))
    (exec .decDrain { feed [0x14#8, 0x15#8, 0x60#8, 0xde#8, 0xad#8] 19 one with phase := .dDrain }) =
    some (19, [], true, .done) := by decide

/-! ### The sink's pin (R162, R154) -/

/-- Bytes written before `out_err` is noticed stay, OUT_BITPOS is that of the start; the operation has noticed it at its
start, then before each byte (log 9). -/
theorem test_scatter_pin : get (fun s => (s.out, s.outBitPos, s.fcode, s.fuop, s.phase))
    (exec .symScatter { one with symBuf := [1#8, 2#8, 3#8], outErr := .risesIn 3 }) =
    some ([1#8, 2#8], 0, .ioError, 0#6, .fault) := by decide
/-- Between two operations of a job FUOP is 0; outside a job the pin is ignored. -/
theorem test_pin_between : ([Phase.cFetch, .idle, .fault].map fun ph =>
    get (fun s => (s.fcode, s.fuop, s.phase)) (step { one with phase := ph, sched := [.outErr .high] })) =
    [some (.ioError, 0#6, .fault), some (.none, 0#6, .idle), some (.none, 0#6, .fault)] := by decide

/-- R118, R154, C9: no END in a job that has ended in FAULT. The pin rises at the start of ENC.FLUSH, or an ERR token
comes before its END: nothing flushed. From BIT.FLUSH on it is not noticed (log 28). -/
theorem test_flush_pin : ([OutErr.risesIn 0, .risesIn 1].map fun p =>
    get (fun s => (s.out, s.outClosed, s.fcode, s.phase))
      (exec .encFlush (wrote [] 0x18#8 5 { feed [] 0 one with phase := .cFlush, outErr := p }))) =
    [some ([], false, .ioError, .fault), some ([0x18#8], true, .none, .done)] := by decide
theorem test_flush_err : get (fun s => (s.out, s.outClosed, s.fcode, s.phase))
    (exec .encFlush (wrote [] 0x18#8 5 { one with phase := .cFlush, inp := [.byte 0x41#8, .err] })) =
    some ([], false, .ioError, .fault) := by decide

/-! ### The reset input (R173) -/

/-- While it is high, and in the cycle after, no command is accepted; then one is (log 27). -/
theorem test_reset_held : ([RstPin.high, .after, .low].map fun p =>
    get (fun s => (s.phase, s.rst)) (step { State.reset with rst := p, sched := [.regWr 0 0x11] })) =
    [some (.idle, .high), some (.idle, .low), some (.cHdr, .low)] := by decide
theorem test_reset_driven : get (fun s => (s.phase, s.fcode, s.outClosed, s.rst, s.nodes))
    (step { t3b with phase := .dWalk, sched := [.rst] }) = some (.idle, .none, false, .high, []) ∧
    get State.rst (step { State.reset with rst := .high, sched := [.rstLow] }) = some .after := by decide

/-! ### Commands and elements -/

theorem test_nop_h1 : get id (step { State.reset with sched := [.regWr 0 0x00] }) = some State.reset := by decide
theorem test_compress_h2 : get (fun s => (s.cfgWord, s.statusWord, s.nodes.length, s.nextId, s.phase))
    (step { State.reset with sched := [.regWr 0 0x10] }) = some (0x01, 0x101, 1, 511, .cHdr) := by decide
theorem test_decompress_h5 : get (fun s => (s.cfgWord, s.statusWord, s.root, s.nodes.length, s.phase))
    (step { State.reset with sched := [.regWr 0 0x20] }) = some (0x10, 0x801, none, 0, .dHdr) := by decide
theorem test_reserved_h6 : ([0x21, 0x01, 0x30, 0x55, 0xf1, 0xff].map fun w : Nat =>
    get State.faultWord (step { State.reset with sched := [.regWr 0 w] })) = List.replicate 6 (some 0x001) := by decide
theorem test_abort_h10 : get (fun s => (s.phase, s.faultWord, s.fpos))
    (step { State.reset with phase := .fault, fcode := .badCmd, fpos := 7, sched := [.regWr 0 0xf0] }) =
    some (.idle, 0, 0) := by decide
/-- COMPRESS by its code of R70, the size on the operand port. -/
theorem test_compress_code : get (fun s => (s.cfgWord, s.phase))
    (step { State.reset with sched := [.issue 0b110001#6 { UopArgs.reset with hdr := 2#4 }] }) = some (0x02, .cHdr) := by decide
/-- R44, U12: the four values of in_kind. -/
theorem test_tokens : ([0#2, 1#2, 2#2, 3#2].map fun k => get State.inp (step { one with sched := [.token k 0x61#8] })) =
    [some [.byte 0x61#8], some [.stop], some [.err], some [.err]] := by decide
/-- V3, the second record as one item: path 0, raw byte 62. -/
theorem test_recNew_v3 : get (fun s => (s.out, s.oacc, s.ocnt, s.nodes, s.phase))
    (exec (.recNew [false] [0x62#8]) (wrote [0x16#8] 0x10#8 5 { three with phase := .cEmit, symBuf := [0x62#8] })) =
    some ([0x16#8, 0x11#8], 0x88#8, 6, tree3b, .cFrame) := by decide
/-- P2, steps 11 to 15: path 01 to the leaf of 62. -/
theorem test_recHit_p2 : get (fun s => (s.inBitPos, s.out, s.symCount, s.phase))
    (exec (.recHit [false, true]) { feed [0x16#8, 0x11#8, 0x88#8, 0xc0#8] 23 t3b with phase := .dWalk, cur := some 0 }) =
    some (25, [0x62#8], 3, .dFrame) := by decide
theorem test_elements_due_p2 :
    elementDue { feed [0x16#8, 0x11#8, 0x88#8, 0xc0#8] 23 t3b with phase := .dWalk, cur := some 0 } = some (.path [false, true]) ∧
    recordDue { feed [0x16#8, 0x11#8, 0x88#8, 0xc0#8] 13 three with phase := .dWalk, cur := some 0 } =
      some (.recNew [false] [0x62#8]) ∧
    elementDue { feed [0x16#8, 0x11#8, 0x88#8, 0xc0#8] 25 t3b with phase := .dFrame } = some .eos := by decide

/-! ### What the host asks: the table words, placed and run -/

theorem test_tableWord : decodeTableWord 8 0x13 = some .treeAddSym ∧ decodeTableWord 8 0xf0 = some .cmdAbort ∧
    decodeTableWord 6 0x25 = some .encEos ∧ decodeTableWord 4 3 = some (.hdr 3#4) ∧ decodeTableWord 1 0 = some .f0 ∧
    decodeTableWord 8 0x55 = none := by decide
theorem test_placed : get State.phase (step (State.reset.withFetchWord 6 0x25)) = some .cFlush ∧
    get State.nextId (step (State.reset.withFetchWord 4 3)) = some 33554431 ∧
    get State.phase (step ({ State.reset with phase := .fault }.withFetchWord 8 0xf0)) = some .idle := by decide

/-! ### Witnesses: for every statement with hypotheses, states and operands that meet them -/

theorem witness_HardwareResetInAnyPhase :
    (∃ (s : State) (r : List HostEvent), s.sched = .rst :: r ∧ s.phase = .dLeaf) ∧
    (∃ (s : State) (r : List HostEvent), s.sched = .rstLow :: r ∧ s.rst = .high) ∧
    ([RstPin.high, .after].all fun p => [HostEvent.regWr 0 0x11, .token 0#2 0x41#8, .run .microop, .ioErr,
        .issue 0b110001#6 UopArgs.reset].all fun e =>
      decide ({ one with rst := p, sched := [e] }.rst ≠ .low ∧ { one with rst := p, sched := [e] }.sched = [e])) = true ∧
    { one with rst := .high, sched := [.regWr 15 3] }.sched = [.regWr 15 3] :=
  ⟨⟨{ t3b with phase := .dLeaf, sched := [.rst, .ioErr] }, _, rfl, rfl⟩,
    ⟨{ one with rst := .high, sched := [.rstLow] }, _, rfl, rfl⟩, by decide, rfl⟩

theorem witness_RegisterReads : (∃ (s : State) (n : Nat) (r : List HostEvent), s.sched = .regRd n :: r) ∧
    (∃ (s : State) (e : Node) (sym : Symbol), s.nodes[s.nodeSel]? = some e ∧ e.sym = some sym) ∧
    (∃ (s : State) (e : Node), s.nodes[s.nodeSel]? = some e ∧ e.sym = none) ∧ ∃ n : Nat, 23 ≤ n :=
  ⟨⟨{ t3b with sched := [.regRd 2] }, _, _, rfl⟩, ⟨{ t3b with nodeSel := 3 }, _, _, rfl, rfl⟩,
    ⟨{ t3b with nodeSel := 4 }, _, rfl, rfl⟩, 23, Nat.le_refl 23⟩

theorem witness_RegisterWrites : ([1, 14, 15, 16, 22, 23].all fun n : Nat =>
    decide ({ t3b with sched := [.regWr n 2] }.sched = [.regWr n 2] ∧ n ≠ 0 ∧ t3b.rst ≠ .high)) = true ∧ one.par.nodeCap = none ∧
    ([(1, 0), (2, 1), (4, 2), (5, 3), (8, 3), (9, 4)].all fun p : Nat × Nat =>
      decide ({ one with par := { Params.chosen with nodeCap := some p.1 } }.par.nodeCap = some p.1 ∧ p.1 ≤ 2 ^ p.2 ∧
        (p.2 = 0 ∨ 2 ^ (p.2 - 1) < p.1))) = true := by decide

theorem witness_StepRunsTheInstruction :
    (∃ (s : State) (i : Instr), s.sched = [] ∧ driverOp s.phase = some i) ∧
    (∃ s : State, s.sched = [] ∧ driverOp s.phase = none) ∧
    (∃ (s : State) (r : List HostEvent) (i : Instr), s.rst = .low ∧ s.sched = .run .microop :: r ∧ driverOp s.phase = some i) ∧
    (∃ (s : State) (r : List HostEvent) (i : Instr), s.rst = .low ∧ s.sched = .run .element :: r ∧ itemDue .element { s with sched := r } = some i) ∧
    (∃ (s : State) (r : List HostEvent) (i : Instr), s.rst = .low ∧ s.sched = .run .record :: r ∧ itemDue .record { s with sched := r } = some i) ∧
    (∃ (s : State) (r : List HostEvent) (i : Instr), s.rst = .low ∧ s.sched = .run .record :: r ∧ itemDue .record { s with sched := r } = none ∧
      driverOp s.phase = some i) ∧
    (∃ (s : State) (r : List HostEvent) (v : Nat) (i : Instr) (rest : List Bool), s.rst = .low ∧ s.sched = .regWr 0 v :: r ∧
      decode .cmd (msbBits 8 v) = .ok (i, rest)) ∧
    (∃ (s : State) (r : List HostEvent) (c : BitVec 6) (a : UopArgs) (i : Instr) (rest : List Bool), s.rst = .low ∧ s.sched = .issue c a :: r ∧
      decode (.uop a.hdr) (msbBits 6 c.toNat) = .ok (i, rest)) ∧
    (∃ (s : State) (r : List HostEvent), s.rst = .low ∧ s.sched = .run .record :: r ∧ itemDue .record { s with sched := r } = none ∧
      driverOp s.phase = none) ∧
    (∃ (s : State) (kind : BitVec 2) (v : Byte) (r : List HostEvent), s.rst = .low ∧ s.sched = .token kind v :: r) ∧
    (∃ (s : State) (r : List HostEvent), s.rst = .low ∧ s.sched = .outErr (.risesIn 3) :: r ∧ driverOp s.phase = some .encFetch) ∧
    ∃ (s : State) (r : List HostEvent), s.rst = .low ∧ s.sched = .outErr .high :: r ∧ driverOp s.phase = none :=
  ⟨⟨{ one with phase := .cHdr }, .encHdr, by decide⟩, ⟨one, by decide⟩,
    ⟨{ one with phase := .dDrain, sched := [.run .microop] }, [], .decDrain, by decide⟩,
    ⟨{ one with phase := .cEos, sched := [.run .element] }, [], .eos, by decide⟩,
    ⟨{ feed [0x16#8, 0x11#8, 0x88#8, 0xc0#8] 13 three with phase := .dWalk, cur := some 0, sched := [.run .record] }, [],
      .recNew [false] [0x62#8], by decide⟩,
    ⟨{ one with phase := .cFetch, sched := [.run .record] }, [], .encFetch, by decide⟩,
    ⟨{ one with sched := [.regWr 0 0x12] }, [], 0x12, .cmdCompress 2#4, [], by decide⟩,
    ⟨{ one with sched := [.issue 0x15#6 UopArgs.reset] }, [], 0x15#6, UopArgs.reset, .treeLeader, [], by decide⟩,
    ⟨{ one with phase := .done, sched := [.run .record] }, [], by decide⟩,
    ⟨{ one with sched := [.token 2#2 0#8] }, 2#2, 0#8, [], by decide⟩,
    ⟨{ one with phase := .cFetch, sched := [.outErr (.risesIn 3)] }, [], by decide⟩, ⟨{ one with sched := [.outErr .high] }, [], by decide⟩⟩

theorem witness_ElementDueIsSpelledByTheStream :
    (∃ (s : State) (i : Instr), s.phase.compressing = false ∧ (elementDue s = some i ∨ recordDue s = some i)) ∧
    (∃ (s : State) (v : BitVec 4) (rest : List Bool), s.phase = .dHdr ∧ v ≠ 0#4 ∧ s.unread = msbBits 4 v.toNat ++ rest) ∧
    (∃ (s : State) (b : Bool) (rest : List Bool), s.phase = .dFrame ∧ s.unread = b :: rest) ∧
    (∃ (s : State) (p rest : List Bool) (h : Handle) (n : Node), s.phase = .dWalk ∧ s.unread = p ++ rest ∧
      s.inBitPos ≤ 8 * s.inBytes.length ∧ follow s.nodes s.cur p = some h ∧ s.nodes[h]? = some n ∧ n.isLeaf = true ∧
      ∀ (q : List Bool) (b : Bool) (q' : List Bool), p = q ++ b :: q' →
        ∃ (g : Handle) (m : Node), follow s.nodes s.cur q = some g ∧ s.nodes[g]? = some m ∧ m.isLeaf = false) ∧
    ∃ (s : State) (bs vs : List Byte) (ts : List Token) (rest : List Bool) (h : Handle) (n : Node), s.phase = .dLeaf ∧
      s.inp = sent bs ts ∧ s.cur = some h ∧ s.nodes[h]? = some n ∧ n.weight = 0 ∧ vs ≠ [] ∧
      vs.length = min s.symSize.toNat ((s.inRem + 8 - s.par.rawMinBits.toNat) / 8) ∧ s.unread = bytesBits vs ++ rest := by
  refine ⟨⟨{ feed [0x80#8] 0 one with phase := .dFrame }, .eos, by decide⟩,
    ⟨{ feed [0x1f#8] 0 one with phase := .dHdr }, 1#4, [true, true, true, true], by decide⟩,
    ⟨{ feed [0x7f#8] 7 one with phase := .dFrame }, true, [], by decide⟩,
    ⟨{ feed [0x80#8] 0 t3b with phase := .dWalk, cur := some 0 }, [true], List.replicate 7 false, 1, _,
      by decide, by decide, by decide, by decide, rfl, by decide, ?_⟩,
    ⟨{ feed [0x62#8, 0x80#8] 0 t3b with phase := .dLeaf, cur := some 4 }, [0x62#8, 0x80#8], [0x62#8], [],
      true :: List.replicate 7 false, 4, _, by decide, rfl, rfl, rfl, by decide, by decide, by decide, by decide⟩⟩
  intro q b q' e
  cases q with
  | nil => exact ⟨0, _, rfl, rfl, by decide⟩
  | cons c q => simp at e

/-- For ElementDueIsSpelledByTheStream: a record of each form due in a walk, the same forms in C_EMIT. -/
theorem witness_records_due :
    (∃ (s : State) (p rest : List Bool) (n : Node), s.phase = .dWalk ∧ s.unread = p ++ rest ∧ follow s.nodes s.cur p = some 1 ∧
      s.nodes[1]? = some n ∧ n.isLeaf = true ∧ s.cur = s.root ∧ n.weight ≠ 0 ∧ p ≠ []) ∧
    (∃ (s : State) (p rest' : List Bool) (bs vs : List Byte) (n : Node), s.phase = .dWalk ∧ follow s.nodes s.cur p = some 2 ∧
      s.nodes[2]? = some n ∧ n.isLeaf = true ∧ s.cur = s.root ∧ n.weight = 0 ∧ s.inp = sent bs [] ∧ vs ≠ [] ∧
      vs.length = min s.symSize.toNat ((s.inRem - p.length + 8 - s.par.rawMinBits.toNat) / 8) ∧
      s.unread = p ++ bytesBits vs ++ rest') ∧
    (∃ s : State, s.phase = .dWalk ∧ s.cur ≠ s.root) ∧
    (∃ (s : State) (h : Handle) (p : List Bool), s.phase = .cEmit ∧ Memory.wf s.nodes s.map ∧ (s.symBuf, h) ∈ s.map ∧
      PathTo s.nodes h p) ∧
    ∃ (s : State) (h : Handle) (p : List Bool), s.phase = .cEmit ∧ (∀ g : Handle, (s.symBuf, g) ∉ s.map) ∧ s.nyt = some h ∧
      PathTo s.nodes h p :=
  ⟨⟨{ feed [0x80#8] 0 t3b with phase := .dWalk, cur := some 0 }, [true], List.replicate 7 false, _, rfl, by decide, by decide, rfl,
      by decide, rfl, by decide, by decide⟩,
    ⟨{ feed [0x16#8, 0x11#8, 0x88#8, 0xc0#8] 13 three with phase := .dWalk, cur := some 0 }, [false],
      bitsAt [0x16#8, 0x11#8, 0x88#8, 0xc0#8] 22 10, _, [0x62#8], _, rfl, by decide, rfl, by decide, rfl, rfl, rfl, by decide,
      by decide, by decide⟩,
    ⟨{ t3b with phase := .dWalk, cur := some 2 }, rfl, by decide⟩,
    ⟨{ t3b with phase := .cEmit, symBuf := [0x62#8] }, 3, [false, true], rfl, by decide, by decide, nodePath_eq_ok_iff.mp (by decide)⟩,
    ⟨{ t3b with phase := .cEmit, symBuf := [0x63#8] }, 4, [false, false], rfl, fun g m => (by simp [t3b] at m), rfl,
      nodePath_eq_ok_iff.mp (by decide)⟩⟩

theorem witness_DecodeOfEncode : (Instr.recNew (List.replicate 3 true) (List.replicate 15 0xff#8)).wf = true ∧
    (Instr.hdr 15#4).wf = true ∧ (Instr.path []).wf = true ∧ (Instr.pad (List.replicate 7 true)).wf = true ∧
    Instr.decDrain.wf = true ∧ (Instr.cmdCompress 0#4).wf = true := by decide

theorem witness_EncodeOfDecode : decode (.stream (.recHit 2)) [false, true, true] = .ok (.recHit [false, true], [true]) ∧
    decode .cmd (true :: true :: true :: true :: List.replicate 5 false) = .ok (.cmdAbort, [false]) ∧
    decode (.uop 3#4) [true, true, false, false, false, true, false] = .ok (.cmdCompress 3#4, [false]) := by decide

theorem witness_CommandsDroppedOrRefused : one.rst = .low ∧
    { one with sched := [.regWr 0 0x00] }.sched = [.regWr 0 0x00] ∧
    ({ one with phase := .cHdr, sched := [.regWr 0 (0x10 + (15#4).toNat)] }.sched = [.regWr 0 0x1f] ∧ Phase.cHdr ≠ .idle ∧
      Phase.cHdr ≠ .done) ∧
    ({ one with phase := .fault, sched := [.regWr 0 0x20] }.sched = [.regWr 0 0x20] ∧ Phase.fault ≠ .idle ∧ Phase.fault ≠ .done) ∧
    ((¬ ∃ i : Instr, decode .cmd (byteBits 0x21#8) = .ok (i, [])) ∧ { one with sched := [.regWr 0 0x21] }.sched =
      [.regWr 0 (0x21#8).toNat]) := by
  refine ⟨rfl, rfl, ⟨rfl, by decide, by decide⟩, ⟨rfl, by decide, by decide⟩, ?_, rfl⟩
  rintro ⟨i, h⟩
  have : decode .cmd (byteBits 0x21#8) = .error (.reservedCommand 0x21#8) := by decide
  rw [this] at h; cases h

/-- The two phases a job starts from. -/
theorem witness_CompressStartsJob_DecompressStartsJob_AbortClears :
    (one.phase = .idle ∨ one.phase = .done) ∧ ({ t3b with phase := .done }.phase = .idle ∨ { t3b with phase := .done }.phase = .done) := by
  decide

/-- For GatherReadsSymbol, BitReads, CompressorFetches, the reads of the decompressor, CompressorFlushes,
DecompressorDrains: bytes, then END, ERR or nothing yet; the positions on either side of each bound. -/
theorem witness_reads : ([[.stop], [.err], []].all fun rest : List Token =>
      decide ({ one with inp := [Token.byte 0x14#8, .byte 0x15#8, .byte 0x60#8] ++ rest, inBitPos := 20 }.inp =
        [0x14#8, 0x15#8, 0x60#8].map .byte ++ rest)) = true ∧ one.outErr = .low ∧ one.symSize = 1#4 ∧
    (8 * 3 < 24 + 1 ∧ 23 + 1 ≤ 8 * 3) ∧ (8 * 3 < 17 + 8 ∧ 16 + 8 ≤ 8 * 3) ∧ (8 * 3 < 21 + 4 ∧ 20 + 4 ≤ 8 * 3) ∧
    (8 * 3 < 16 + 8 * 1 + 8 ∧ 8 + 8 * 1 + 8 ≤ 8 * 3) := by decide

theorem witness_NodeTests : (ops (some 4) none t3b).args.a = some 4 ∧
    (ops (some 4) none t3b).nodes[4]? = some { id := 507, weight := 0, sym := none, parent := some 2, left := none, right := none } ∧
    (ops (some 4) none t3b).treeOk := ⟨rfl, rfl, tree3b_ok⟩

theorem path3 : PathTo tree3b 3 [false, true] := nodePath_eq_ok_iff.mp (by decide)
theorem path4 : PathTo tree3b 4 [false, false] := nodePath_eq_ok_iff.mp (by decide)

theorem witness_PathFromRoot : (ops (some 3) none t3b).args.a = some 3 ∧ PathTo (ops (some 3) none t3b).nodes 3 [false, true] ∧
    TreeShape t3b.nodes t3b.root ∧ (4 : Nat) < t3b.nodes.length := ⟨rfl, path3, tree3b_ok.shape, by decide⟩

theorem swappable31 : ∃ na nb : Node, Swappable tree3b 3 1 na nb := by
  have r : ¬ (Ancestor tree3b 3 1 ∨ Ancestor tree3b 1 3) := fun h => by
    have := (tree3b_ok.shape.related_iff (x := 3) (l := 1) (by decide) (by decide)).mpr h
    revert this; decide
  exact ⟨_, _, rfl, rfl, by decide, by decide, by decide, fun h => r (.inl h), fun h => r (.inr h)⟩

theorem witness_SwapExchangesPlaces_SwapKeepsTree : ∃ (s : State) (a b : Handle) (na nb : Node), TreeShape s.nodes s.root ∧
    s.args.a = some a ∧ s.args.b = some b ∧ Swappable s.nodes a b na nb ∧ (nextOf (exec .nodeSwap s)).isSome := by
  obtain ⟨na, nb, h⟩ := swappable31
  exact ⟨ops (some 3) (some 1) t3b, 3, 1, na, nb, tree3b_ok.shape, rfl, rfl, h, by decide⟩

theorem witness_SwapWithRootDoesNothing : ([(2, 2), (0, 3), (3, 0)].all fun p : Nat × Nat =>
    match tree3b[p.1]?, tree3b[p.2]? with
    | some na, some nb => decide (p.1 = p.2 ∨ na.parent = none ∨ nb.parent = none)
    | _, _ => false) = true := by decide

theorem witness_SwapOfRelatedRefused : ∃ (s : State) (a b : Handle) (na nb : Node), TreeShape s.nodes s.root ∧
    s.args.a = some a ∧ s.args.b = some b ∧ s.nodes[a]? = some na ∧ s.nodes[b]? = some nb ∧ na.parent ≠ none ∧
    nb.parent ≠ none ∧ a ≠ b ∧ Ancestor s.nodes b a :=
  ⟨ops (some 2) (some 3) t3b, 2, 3, _, _, tree3b_ok.shape, rfl, rfl, rfl, rfl, by decide, by decide, by decide,
    .parent (n := { id := 508, weight := 1, sym := some [0x62#8], parent := some 2, left := none, right := none }) rfl rfl⟩

theorem witness_LookupAndCurrentNyt :
    (Memory.wf t3b.nodes t3b.map ∧ ({ t3b with symBuf := [0x62#8] }.symBuf, 3) ∈ t3b.map) ∧
    ∀ h : Handle, ({ t3b with symBuf := [0x63#8] }.symBuf, h) ∉ t3b.map := by
  refine ⟨by decide, fun h m => ?_⟩
  simp [t3b] at m

theorem distinct3b : DistinctIds tree3b := by unfold DistinctIds; decide

theorem witness_LeaderIsTheGreatest : (ops (some 3) none t3b).args.a = some 3 ∧
    (∃ n : Node, t3b.nodes[3]? = some n ∧ n.parent ≠ some 3) ∧ DistinctIds t3b.nodes ∧
    ∃ l : Handle, IsLeader t3b.par t3b.nodes 3 l :=
  ⟨rfl, ⟨_, rfl, by decide⟩, distinct3b, (leader_isLeader Params.chosen (ns := tree3b) (x := 3) rfl (by decide)).imp fun _ h => h.2⟩

/-- T8: what the update of entry 3 leaves. -/
def tree8 : Store :=
  [{ id := 511, weight := 3, sym := none, parent := none, left := some 2, right := some 3 },
   { id := 508, weight := 1, sym := some [0x61#8], parent := some 2, left := none, right := none },
   { id := 509, weight := 2, sym := none, parent := some 0, left := some 4, right := some 1 },
   { id := 510, weight := 2, sym := some [0x62#8], parent := some 0, left := none, right := none },
   { id := 507, weight := 0, sym := none, parent := some 2, left := none, right := none }]

theorem update8 : UpdateEnds Params.chosen tree3b (some 3) (.done tree8) :=
  treeUpdate_ends (root := some 0) 6 tree3b_ok.shape (by rintro x ⟨⟩; decide) (by rfl)

/-- For UpdateFollowsTheRules, UpdateRaisesTheChain. -/
theorem witness_updates : ∃ s : State, TreeShape s.nodes s.root ∧ s.treeOk ∧ s.args.a = some 3 ∧ 3 < s.nodes.length ∧
    s.nyt ≠ some 3 ∧ s.par.updateChain = .original ∧ DistinctIds s.nodes ∧ UpdateEnds s.par s.nodes s.args.a (.done tree8) ∧
    exec .treeUpdate s = .next { s with nodes := tree8 } :=
  ⟨ops (some 3) none t3b, tree3b_ok.shape, tree3b_ok, rfl, by decide, by decide, rfl, distinct3b, update8, by rfl⟩

/-- T4: the split of T3 for the symbol 62, and the update from the parent of its NYT. -/
theorem updateT4 : UpdateEnds Params.chosen (splitNyt tree3 2 509 [0x62#8]) (some 0) (.done tree3b) :=
  treeUpdate_ends (root := some 0) 2 (splitNyt_shape (nN := { id := 509, weight := 0, sym := none, parent := some 0, left := none, right := none })
    tree3_ok.shape rfl rfl) (by rintro x ⟨⟩; decide) (by rfl)

/-- For AddSymbolSplitsAndUpdates, RecordIsApplied. -/
theorem witness_records_new : ∃ (s : State) (N : Handle) (n : Node) (ns1 ns2 : Store), TreeShape s.nodes s.root ∧ s.treeOk ∧
    s.par.updateChain = .original ∧ s.outErr = .low ∧ s.found = false ∧ DistinctIds s.nodes ∧ (∀ m ∈ s.nodes, s.nextId ≤ m.id) ∧
    s.nyt = some N ∧ s.nodes[N]? = some n ∧ n.isLeaf = true ∧ s.symBuf ≠ [] ∧ Roomy s ∧
    SplitOf s.nodes N s.nextId s.symBuf ns1 ∧ UpdateEnds s.par ns1 n.parent (.done ns2) :=
  ⟨{ three with symBuf := [0x62#8] }, 2, _, _, _, tree3_ok.shape, tree3_ok, rfl, rfl, rfl, by unfold DistinctIds; decide,
    by decide, rfl, rfl, by decide, by decide, fun c h => (by cases h), splitNyt_splitOf, updateT4⟩

/-- For RecordIsApplied. -/
theorem witness_records_hit : ∃ (s : State) (x : Handle) (ns : Store), TreeShape s.nodes s.root ∧ s.par.updateChain = .original ∧
    s.outErr = .low ∧ s.found = true ∧ s.cur = some x ∧ x < s.nodes.length ∧ DistinctIds s.nodes ∧
    UpdateEnds s.par s.nodes (some x) (.done ns) :=
  ⟨{ t3b with found := true, cur := some 3 }, 3, tree8, tree3b_ok.shape, rfl, rfl, rfl, rfl, by decide, distinct3b, update8⟩

/-- For AddSymbolSplitsAndUpdates: the split goes on. -/
theorem witness_addSymbol : Roomy { three with symBuf := [0x62#8] } ∧
    (nextOf (exec .treeAddSym { three with symBuf := [0x62#8] })).isSome := ⟨fun c h => (by cases h), by decide⟩

/-- For AddSymbolSplitsAndUpdates, RecordIsApplied: one entry short, and just enough. -/
theorem witness_full_store : ¬ Roomy { t3b with par := { Params.chosen with nodeCap := some 6 } } ∧
    Roomy { t3b with par := { Params.chosen with nodeCap := some 7 } } :=
  ⟨fun h => absurd (h 6 rfl) (by decide), by rintro c ⟨⟩; decide⟩

theorem sibling_of {ns : Store} (h : ∀ a ∈ ns, ∀ b ∈ ns, a.id < b.id → a.weight ≤ b.weight) : Sibling ns :=
  fun _ _ n m hn hm => h n (List.mem_of_getElem? hn) m (List.mem_of_getElem? hm)

theorem witness_UpdateKeepsSiblingProperty :
    (∃ (s t : State) (r : Handle) (nr : Node), s.par.updateChain = .original ∧ s.par.leaderRule = .excludeThenMax ∧
      TreeShape s.nodes s.root ∧ DistinctIds s.nodes ∧ Sibling s.nodes ∧ s.root = some r ∧ s.nodes[r]? = some nr ∧
      (∀ n ∈ s.nodes, n.id ≤ nr.id) ∧ s.phase ≠ .fault ∧ (∀ x : Handle, s.args.a = some x → x < s.nodes.length) ∧
      exec .treeUpdate s = .next t ∧ t.phase ≠ .fault) ∧
    ∃ (s t : State) (r : Handle) (nr : Node), s.par.updateChain = .original ∧ s.par.leaderRule = .excludeThenMax ∧
      TreeShape s.nodes s.root ∧ DistinctIds s.nodes ∧ Sibling s.nodes ∧ s.root = some r ∧ s.nodes[r]? = some nr ∧
      (∀ n ∈ s.nodes, n.id ≤ nr.id) ∧ s.phase ≠ .fault ∧ s.treeOk ∧ (∀ n ∈ s.nodes, s.nextId ≤ n.id) ∧
      exec .treeAddSym s = .next t ∧ t.phase ≠ .fault :=
  ⟨⟨ops (some 3) none t3b, { ops (some 3) none t3b with nodes := tree8 }, 0, _, rfl, rfl, tree3b_ok.shape, distinct3b,
      sibling_of (ns := tree3b) (by decide), rfl, rfl, by decide, by decide, by rintro x ⟨⟩; decide, by rfl, by decide⟩,
    ⟨{ three with symBuf := [0x62#8] }, { t3b with symBuf := [0x62#8], symCount := 1 }, 0, _, rfl, rfl, tree3_ok.shape,
      by unfold DistinctIds; decide, sibling_of (ns := tree3) (by decide), rfl, rfl, by decide, by decide, tree3_ok, by decide,
      by rfl, by decide⟩⟩

/-- For BitWrite, ByteAndHeaderWrites, FlushPadsAndCloses: OCNT at both ends of its range, either level of the pin. -/
theorem witness_output : ([(0, .low), (7, .low), (1, .low), (0, .high)].all fun p : Fin 8 × OutErr =>
    decide ({ wrote [0x14#8] 0x14#8 p.1 one with outErr := p.2 }.ocnt = p.1 ∧
      { wrote [0x14#8] 0x14#8 p.1 one with outErr := p.2 }.outErr = p.2)) = true ∧
    FramerOk (wrote [0x14#8] 0x14#8 7 one) ∧ FramerOk (wrote [] 0#8 0 one) := by decide

theorem witness_SinkErrorFaults :
    ([OutErr.high, .risesIn 0].all fun p =>
      decide (({ one with outErr := p }.outErr = .high ∨ { one with outErr := p }.outErr = .risesIn 0) ∧
        driverOp { one with phase := .dDrain }.phase = some .decDrain)) = true ∧
    ([Phase.idle, .cHdr, .dDrain, .done, .fault].all fun ph =>
      decide (one.rst = .low ∧ { one with phase := ph, sched := [.ioErr] }.sched = .ioErr :: [] ∧
        { one with phase := ph, sched := [.outErr .high] }.sched = .outErr .high :: [])) = true := by decide

/-- For SinkErrorFaults: a known and a new symbol, nothing and everything written; a symbol of two bytes. -/
theorem witness_SinkErrorFaults_inside :
    (∃ (s : State) (p : List Bool) (h : Handle), PathTo s.nodes h p ∧ ((s.symBuf, h) ∈ s.map ∧ Memory.wf s.nodes s.map) ∧
      0 ≤ (p ++ []).length ∧ 2 ≤ (p ++ []).length) ∧
    (∃ (s : State) (p : List Bool) (h : Handle), PathTo s.nodes h p ∧ ((∀ g : Handle, (s.symBuf, g) ∉ s.map) ∧ s.nyt = some h) ∧
      10 ≤ (p ++ bytesBits s.symBuf).length) ∧
    0 < { one with symBuf := [1#8, 2#8] }.symBuf.length ∧ 1 < { one with symBuf := [1#8, 2#8] }.symBuf.length :=
  ⟨⟨{ t3b with symBuf := [0x62#8] }, _, 3, path3, by decide, by decide, by decide⟩,
    ⟨{ t3b with symBuf := [0x63#8] }, _, 4, path4, ⟨fun g m => (by simp [t3b] at m), rfl⟩, by decide⟩, by decide, by decide⟩

theorem witness_FaultLeftOnlyByAbortOrReset :
    ([HostEvent.regWr 0 0xf0, .regWr 0 0x1f0, .regWr 0 0x12, .regWr 15 3, .rst, .rstLow, .token 2#2 0#8, .outErr .high, .run .record].all fun e =>
      let s : State := { t3b with phase := .fault, fcode := .truncated, sched := [e] }
      decide (s.phase = .fault ∧ s.hostOnly ∧ (nextOf (step s)).isSome)) = true := by decide

theorem witness_CompressorWritesMarks : { one with more := true }.more = true ∧ one.more = false ∧ one.outErr = .low := by decide

theorem witness_CompressorEmitsRecord :
    (∃ (s : State) (h : Handle) (p : List Bool), s.outErr = .low ∧ s.treeOk ∧ Memory.wf s.nodes s.map ∧ (s.symBuf, h) ∈ s.map ∧
      PathTo s.nodes h p) ∧
    ∃ (s : State) (h : Handle) (p : List Bool), s.outErr = .low ∧ (∀ g : Handle, (s.symBuf, g) ∉ s.map) ∧ s.nyt = some h ∧
      PathTo s.nodes h p :=
  ⟨⟨{ t3b with symBuf := [0x62#8] }, 3, _, rfl, tree3b_ok, by decide, by decide, path3⟩,
    ⟨{ t3b with symBuf := [0x63#8] }, 4, _, rfl, fun g m => (by simp [t3b] at m), rfl, path4⟩⟩

/-- One bit short of a header, exactly a header, its value 0 and 1. -/
theorem witness_DecompressorReadsHeader : one.outErr = .low ∧ 8 * 1 < 5 + 4 ∧ 4 + 4 ≤ 8 * 1 ∧
    msbBits 4 (0#4).toNat = ((bytesBits [0xf0#8]).drop 4).take 4 ∧ msbBits 4 (1#4).toNat = ((bytesBits [0xf1#8]).drop 4).take 4 ∧
    (feed [0xf1#8] 4 one).inp = [0xf1#8].map .byte ++ [.stop] := by decide

theorem witness_DecompressorWalks_LeafAction :
    (∃ (s : State) (h : Handle) (n : Node), s.outErr = .low ∧ s.cur = some h ∧ s.nodes[h]? = some n ∧ n.isLeaf = true ∧
      n.weight ≠ 0 ∧ n.sym = some [0x62#8]) ∧
    (∃ (s : State) (h : Handle) (n : Node) (bs : List Byte), s.outErr = .low ∧ s.cur = some h ∧ s.nodes[h]? = some n ∧
      n.isLeaf = true ∧ n.weight = 0 ∧ s.inp = bs.map .byte ++ [.stop] ∧ s.nodes.length ≠ 1) ∧
    (∃ (s : State) (h : Handle) (n : Node) (bs : List Byte), s.outErr = .low ∧ s.cur = some h ∧ s.nodes[h]? = some n ∧
      n.weight = 0 ∧ s.inp = bs.map .byte ++ [.stop] ∧ s.nodes.length = 1) ∧
    (∀ rest ∈ [[], [Token.err]], ∃ (s : State) (h : Handle) (n : Node) (bs : List Byte), s.outErr = .low ∧ s.cur = some h ∧
      s.nodes[h]? = some n ∧ n.weight = 0 ∧ s.inp = bs.map .byte ++ rest ∧
      min s.symSize.toNat ((8 * bs.length - s.inBitPos + 8 - s.par.rawMinBits.toNat) / 8) ≠ s.symSize.toNat) ∧
    ∃ (s : State) (h : Handle) (n : Node) (bs : List Byte) (b : Bool), s.outErr = .low ∧ s.cur = some h ∧ s.nodes[h]? = some n ∧
      n.isLeaf = false ∧ s.inp = bs.map .byte ++ [.stop] ∧ (bytesBits bs)[s.inBitPos]? = some b :=
  ⟨⟨{ t3b with cur := some 3 }, 3, _, rfl, rfl, rfl, rfl, by decide, rfl⟩,
    ⟨{ feed [0x40#8] 0 t3b with cur := some 4 }, 4, _, [0x40#8], rfl, rfl, rfl, rfl, by decide, rfl, by decide⟩,
    ⟨{ feed [] 0 one with cur := some 0 }, 0, _, [], rfl, rfl, rfl, rfl, rfl, rfl⟩,
    fun rest _ => ⟨{ one with inp := [.byte 0x62#8] ++ rest, cur := some 0 }, 0, _, [0x62#8], rfl, rfl, rfl, rfl, rfl,
      show min 1 ((8 * 1 - 0 + 8 - 9) / 8) ≠ 1 by decide⟩,
    ⟨{ feed [0x01#8] 7 t3b with cur := some 2 }, 2, _, [0x01#8], true, rfl, rfl, rfl, rfl, rfl, by decide⟩⟩

theorem witness_DecompressorReadsFrame : 8 * 1 < 8 + 1 ∧ (bytesBits [0x01#8])[7]? = some true ∧
    (bytesBits [0x01#8])[6]? = some false ∧ (feed [0x01#8] 7 { one with emptyRec := true }).emptyRec = true := by decide

/-- Each element where it is due, at the shortest and the longest padding. -/
theorem witness_ElementsAsWritten :
    (∃ (s : State) (h : Handle) (p : List Bool), s.outErr = .low ∧ s.phase = .cEmit ∧ recordLeaf s = some h ∧ PathTo s.nodes h p) ∧
    (∃ s : State, s.outErr = .low ∧ s.phase = .cEmit ∧ ∀ g : Handle, (s.symBuf, g) ∉ s.map) ∧
    ([0, 1, 7].all fun c : Fin 8 =>
      let s : State := wrote [0x14#8] 0#8 c { feed [] 0 one with phase := .cFlush }
      decide (s.phase = .cFlush ∧ s.inp = sent [] [] ∧
        List.replicate (7 * c.val % 8) false = List.replicate ((8 - s.ocnt.val) % 8) s.par.padBit)) = true :=
  ⟨⟨{ t3b with phase := .cEmit, symBuf := [0x62#8] }, 3, _, rfl, rfl, rfl, path3⟩,
    ⟨{ t3b with phase := .cEmit, symBuf := [0x63#8] }, rfl, rfl, fun g m => by simp [t3b] at m⟩, by decide⟩

theorem witness_ElementsAsRead :
    (∃ (s : State) (v : BitVec 4) (rest : List Bool), s.phase = .dHdr ∧ v ≠ 0#4 ∧ s.unread = encode (.hdr v) ++ rest) ∧
    (∃ (s : State) (rest : List Bool), s.phase = .dFrame ∧ s.emptyRec = false ∧ s.unread = encode .f0 ++ rest) ∧
    (∃ (s : State) (rest : List Bool), s.phase = .dFrame ∧ s.unread = encode .eos ++ rest) ∧
    (∃ (s : State) (bs : List Byte) (ts : List Token) (vs : List Byte) (h : Handle) (n : Node) (rest : List Bool),
      s.inp = sent bs ts ∧ s.phase = .dLeaf ∧ s.cur = some h ∧ s.nodes[h]? = some n ∧ n.weight = 0 ∧ vs ≠ [] ∧
      s.unread = encode (.raw vs) ++ rest ∧ vs.length = min s.symSize.toNat ((s.inRem + 8 - s.par.rawMinBits.toNat) / 8)) ∧
    ∃ (s : State) (p : List Bool) (h : Handle) (n : Node) (rest : List Bool), s.phase = .dWalk ∧ TreeShape s.nodes s.root ∧
      s.cur = s.root ∧ PathTo s.nodes h p ∧ s.nodes[h]? = some n ∧ n.isLeaf = true ∧ s.unread = encode (.path p) ++ rest :=
  ⟨⟨{ feed [0xff#8] 4 one with phase := .dHdr }, 15#4, [], by decide⟩, ⟨{ feed [0x00#8] 7 one with phase := .dFrame }, [], by decide⟩,
    ⟨{ feed [0x01#8] 7 one with phase := .dFrame }, [], by decide⟩,
    ⟨{ feed [0x62#8, 0x80#8] 0 t3b with phase := .dLeaf, cur := some 4 }, [0x62#8, 0x80#8], [], [0x62#8], 4, _,
      true :: List.replicate 7 false, rfl, rfl, rfl, rfl, by decide, by decide, by decide, by decide⟩,
    ⟨{ feed [0x40#8] 0 t3b with phase := .dWalk, cur := some 0 }, [false, true], 3, _, List.replicate 6 false, rfl, tree3b_ok.shape, rfl,
      path3, rfl, by decide, by decide⟩⟩

/-- P2 of the vectors: the record of 62 in T3b, written and read. -/
theorem witness_RecordsOnBothSides_hit :
    (∃ (s : State) (h : Handle) (p : List Bool) (ns : Store), s.outErr = .low ∧ s.treeOk ∧ Memory.wf s.nodes s.map ∧
      s.par.updateChain = .original ∧ DistinctIds s.nodes ∧ PathTo s.nodes h p ∧ UpdateEnds s.par s.nodes (some h) (.done ns) ∧
      s.phase = .cEmit ∧ (s.symBuf, h) ∈ s.map) ∧
    ∃ (s : State) (h : Handle) (p : List Bool) (ns : Store) (n : Node) (sym : Symbol) (bs : List Byte) (rest : List Bool),
      s.outErr = .low ∧ s.treeOk ∧ Memory.wf s.nodes s.map ∧ s.par.updateChain = .original ∧ DistinctIds s.nodes ∧
      PathTo s.nodes h p ∧ UpdateEnds s.par s.nodes (some h) (.done ns) ∧ s.phase = .dWalk ∧ s.cur = s.root ∧
      s.nodes[h]? = some n ∧ n.isLeaf = true ∧ n.sym = some sym ∧ s.inp = sent bs [] ∧ s.unread = encode (.recHit p) ++ rest :=
  ⟨⟨{ t3b with phase := .cEmit, symBuf := [0x62#8] }, 3, _, _, rfl, tree3b_ok, by decide, rfl, distinct3b, path3, update8, rfl, by decide⟩,
    ⟨{ feed [0x40#8] 0 t3b with phase := .dWalk, cur := some 0 }, 3, _, _, _, [0x62#8], [0x40#8], List.replicate 6 false, rfl,
      tree3b_ok, by decide, rfl, distinct3b, path3, update8, rfl, rfl, rfl, by decide, rfl, rfl, by decide⟩⟩

/-- V3 of the vectors: the record of 62 in T3, written and read. -/
theorem witness_RecordsOnBothSides_new :
    (∃ (s : State) (N : Handle) (n : Node) (p : List Bool) (ns1 ns2 : Store), s.outErr = .low ∧ s.treeOk ∧
      s.par.updateChain = .original ∧ DistinctIds s.nodes ∧ (∀ m ∈ s.nodes, s.nextId ≤ m.id) ∧ Roomy s ∧ s.nyt = some N ∧
      s.nodes[N]? = some n ∧ PathTo s.nodes N p ∧ SplitOf s.nodes N s.nextId s.symBuf ns1 ∧
      UpdateEnds s.par ns1 n.parent (.done ns2) ∧ s.phase = .cEmit ∧ s.symBuf ≠ [] ∧ ∀ g : Handle, (s.symBuf, g) ∉ s.map) ∧
    ∃ (s : State) (N : Handle) (n : Node) (p : List Bool) (vs : List Byte) (ns1 ns2 : Store) (bs : List Byte) (rest : List Bool),
      s.outErr = .low ∧ s.treeOk ∧ s.par.updateChain = .original ∧ DistinctIds s.nodes ∧ (∀ m ∈ s.nodes, s.nextId ≤ m.id) ∧
      Roomy s ∧ s.nyt = some N ∧ s.nodes[N]? = some n ∧ PathTo s.nodes N p ∧ vs ≠ [] ∧ SplitOf s.nodes N s.nextId vs ns1 ∧
      UpdateEnds s.par ns1 n.parent (.done ns2) ∧ s.phase = .dWalk ∧ s.cur = s.root ∧ s.inp = sent bs [] ∧
      s.unread = encode (.recNew p vs) ++ rest ∧
      vs.length = min s.symSize.toNat ((s.inRem - p.length + 8 - s.par.rawMinBits.toNat) / 8) := by
  have pth : PathTo tree3 2 [false] := nodePath_eq_ok_iff.mp (by decide)
  have d : DistinctIds tree3 := by unfold DistinctIds; decide
  exact ⟨⟨{ three with phase := .cEmit, symBuf := [0x62#8] }, 2, _, _, _, _, rfl, tree3_ok, rfl, d, by decide,
      (fun c h => by cases h), rfl, rfl, pth, splitNyt_splitOf, updateT4, rfl, by decide, fun g m => by simp [three] at m⟩,
    ⟨{ feed [0x16#8, 0x11#8, 0x88#8, 0xc0#8] 13 three with phase := .dWalk, cur := some 0 }, 2, _, _, [0x62#8], _, _, _,
      (bitsAt [0x16#8, 0x11#8, 0x88#8, 0xc0#8] 22 10), rfl, tree3_ok, rfl, d, by decide, (fun c h => by cases h), rfl, rfl, pth, by decide,
      splitNyt_splitOf, updateT4, rfl, rfl, rfl, by decide, by decide⟩⟩

/-- A state in the middle of a job that meets the invariant and the facts, and a whole record due in it. -/
def walking : State := { feed [0x16#8, 0x11#8, 0x88#8, 0xc0#8] 23 t3b with phase := .dWalk, cur := some 0 }

theorem walking_job : JobInv walking :=
  ⟨by decide, rfl, fun _ => tree3b_ok, by decide, by decide, (by rintro (h | h) <;> cases h), fun _ => ⟨0, rfl, by decide⟩,
    fun h => by cases h⟩

theorem witness_ItemIsItsMicroOperations : JobInv walking ∧ walking.sched = [] ∧ walking.outErr = .low ∧
    itemDue .record walking = some (.recHit [false, true]) ∧ (nextOf (exec (.recHit [false, true]) walking)).isSome :=
  ⟨walking_job, rfl, rfl, by decide, by decide⟩

/-- For StepGoesOnAndKeepsJob, OutputOnlyGrows, ParametersPositionAndRecord, FlagsWrittenOnlyByTheirOperations,
EntriesSymbolsAndRootStay, StepKeepsCanonicalForm. -/
theorem witness_steps : (nextOf (step walking)).isSome ∧ (nextOf (exec .decWalk walking)).isSome ∧
    Memory.wf walking.nodes walking.map ∧ FramerOk walking ∧ (walking.rst ≠ .low → walking.phase = .idle) := by decide

theorem witness_StepKeepsJobFacts : JobInv walking ∧ JobFacts walking := by
  refine ⟨walking_job, fun _ => by decide, fun _ => ⟨by decide, by decide⟩, fun _ h n hn => ?_, fun _ h n hn e => ?_,
    (fun h => by cases h), (fun h => by cases h), (fun h => by cases h), fun _ => rfl, fun h => by cases h⟩
  · constructor <;> intro e <;> cases e <;> cases hn <;> rfl
  · cases e; cases hn; rfl

/-- For UpdateKeepsSiblingProperty: a step in the middle of a job. -/
theorem witness_siblingStep : JobInv walking ∧ JobFacts walking ∧ walking.par.leaderRule = .excludeThenMax ∧
    Sibling walking.nodes ∧ (get (fun t => t.phase.hasTree) (step walking)) = some true :=
  ⟨walking_job, witness_StepKeepsJobFacts.2, rfl, sibling_of (ns := tree3b) (by decide), by decide⟩

/-- Jobs that run to DONE: empty, and one symbol. -/
theorem reaches_of_get {k : Nat} {s : State} {bs : List Byte}
    (h : get (fun t => (t.phase, t.sched, t.out)) (Host.Core.run Sys2Proof.core k s) = some (.done, [], bs)) :
    ∃ t : State, Reaches s t ∧ t.phase = .done ∧ t.sched = [] ∧ t.out = bs := by
  have e : ∃ t : State, Host.Core.run Sys2Proof.core k s = .next t ∧ (t.phase, t.sched, t.out) = (.done, [], bs) := by
    revert h
    generalize Host.Core.run Sys2Proof.core k s = o
    intro h
    cases o with
    | next t => exact ⟨t, rfl, Option.some.inj h⟩
    | fault f => cases h
    | refused r => cases h
  obtain ⟨t, hr, ht⟩ := e
  simp only [Prod.mk.injEq] at ht
  exact ⟨t, ⟨k, hr⟩, ht.1, ht.2.1, ht.2.2⟩

theorem witness_RoundTrip : ∀ bs ∈ [[], [0x41#8]], ∃ s t u : State, s.par.updateChain = .original ∧ s.par.rawMinBits = .nine ∧
    s.phase = .idle ∧ s.sched = [.regWr 0 (0x10 + (1#4).toNat)] ∧ s.inp = sent bs [] ∧ s.outErr = .low ∧ s.rst = .low ∧
    Reaches s t ∧
    t.phase = .done ∧ t.sched = [] ∧ u.par = s.par ∧ u.phase = .idle ∧ u.sched = [.regWr 0 0x20] ∧ u.inp = sent t.out [] ∧
    u.outErr = .low ∧ u.rst = .low := by
  intro bs hb
  have : ∃ t : State, Reaches { State.reset with inp := sent bs [], sched := [.regWr 0 0x11] } t ∧ t.phase = .done ∧
      t.sched = [] ∧ t.out = if bs = [] then [0x18#8] else [0x14#8, 0x18#8] := by
    simp only [List.mem_cons, List.not_mem_nil, or_false] at hb
    rcases hb with rfl | rfl
    · exact reaches_of_get (k := 5) (by decide)
    · exact reaches_of_get (k := 8) (by decide)
  obtain ⟨t, hr, hp, hs, -⟩ := this
  exact ⟨_, t, { State.reset with inp := sent t.out [], sched := [.regWr 0 0x20] }, rfl, rfl, rfl, rfl, rfl, rfl, rfl, hr, hp, hs,
    rfl, rfl, rfl, rfl, rfl, rfl⟩

end Sys2Proof.Tests
end

section
/-! ## O3: STATUS and the pins (10_state.md R31)

STATUS is the seven flags, a 0 and PHASE, one binary digit put in front of the next. Every single bit is then read off by
`Nat.testBit_bit_zero` and `Nat.testBit_bit_succ`, and what is left is about PHASE alone. -/

namespace Sys2Proof.Machine

theorem Phase.code_lt_16 (p : Phase) : p.code < 16 := by cases p <;> decide

theorem Phase.busy_iff_code (p : Phase) : p.busy = true ↔ 1 ≤ p.code ∧ p.code ≤ 13 := by cases p <;> decide

theorem State.pinDone_iff (s : State) : s.pinDone = true ↔ s.phase = .done := beq_iff_eq

theorem State.pinFault_iff (s : State) : s.pinFault = true ↔ s.phase = .fault := beq_iff_eq

theorem State.statusWord_eq_bits (s : State) : s.statusWord =
    Nat.bit s.pinBusy (Nat.bit s.pinDone (Nat.bit s.pinFault (Nat.bit s.found (Nat.bit s.more (Nat.bit s.emptyRec
      (Nat.bit s.outClosed (Nat.bit false s.phase.code))))))) := by
  simp only [State.statusWord, Nat.bit_val, Bool.toNat_false]
  omega

/-- Bits 0 to 7, each by its name. -/
theorem State.statusWord_testBit (s : State) :
    s.statusWord.testBit 0 = s.pinBusy ∧ s.statusWord.testBit 1 = s.pinDone ∧ s.statusWord.testBit 2 = s.pinFault ∧
    s.statusWord.testBit 3 = s.found ∧ s.statusWord.testBit 4 = s.more ∧ s.statusWord.testBit 5 = s.emptyRec ∧
    s.statusWord.testBit 6 = s.outClosed ∧ s.statusWord.testBit 7 = false := by
  simp only [State.statusWord_eq_bits, Nat.testBit_bit_succ, Nat.testBit_bit_zero, and_self]

/-- Bits 8 and up: the seven flags below them come to less than 256. -/
theorem State.statusWord_div_256 (s : State) : s.statusWord / 256 = s.phase.code := by
  have h0 := s.pinBusy.toNat_lt
  have h1 := s.pinDone.toNat_lt
  have h2 := s.pinFault.toNat_lt
  have h3 := s.found.toNat_lt
  have h4 := s.more.toNat_lt
  have h5 := s.emptyRec.toNat_lt
  have h6 := s.outClosed.toNat_lt
  unfold State.statusWord
  omega

theorem State.statusWord_lt (s : State) : s.statusWord < 2 ^ 12 := by
  have hd := s.statusWord_div_256
  have hc := s.phase.code_lt_16
  omega

theorem State.statusWord_reset : State.reset.statusWord = 0 := rfl

/-- Settles O3: the bits of STATUS from its binary digits, the meaning of the first three from PHASE. -/
theorem statusWordBits : Obligations.StatusWordBits := by
  refine ⟨fun s => ?_, State.statusWord_reset, rfl, rfl, rfl, rfl, rfl, rfl, rfl, rfl, rfl, rfl, rfl, rfl, rfl, rfl, rfl,
    rfl⟩
  obtain ⟨busy, done, fault, found, more, emptyRec, outClosed, zero⟩ := s.statusWord_testBit
  exact ⟨s.statusWord_lt, busy ▸ s.phase.busy_iff_code, done ▸ s.pinDone_iff, fault ▸ s.pinFault_iff,
    found, more, emptyRec, outClosed, zero, s.statusWord_div_256, busy.symm, done.symm, fault.symm⟩

end Sys2Proof.Machine
end

section
/-! ## O19 and O18: NODE.PATH, NODE.ISLEAF and NODE.ISNYT (41_node.md R87 to R89)

A live operand is the latch's handle and its entry, so the two tests read that entry's fields, and NODE.PATH runs the walk
that `nodePath_eq_ok_iff` knows. -/

namespace Sys2Proof.Machine

/-! ### The operand -/

theorem State.opA_eq {s : State} {h : Handle} (ha : s.args.a = some h) : s.opA = .ok h := by
  simp [State.opA, ha, getHandle]

theorem operandNode_eq {s : State} {h : Handle} {n : Node} (ha : s.args.a = some h) (hn : s.nodes[h]? = some n) :
    operandNode s = .ok n := by
  simp [operandNode, State.opA_eq ha, getNode, hn, Except.bind]

/-! ### NODE.PATH -/

theorem pathOf_eq {s : State} {h : Handle} {p : List Bool} (hp : PathTo s.nodes h p) :
    pathOf h s = .ok () { s with pathBuf := p } := by
  simp [pathOf, nodePath_eq_ok_iff.mpr hp]

theorem exec_nodePath {s : State} {h : Handle} {p : List Bool} (ha : s.args.a = some h) (hp : PathTo s.nodes h p) :
    exec .nodePath s = .next { s with pathBuf := p } := by
  change execNodePath s = _
  simp [execNodePath, State.opA_eq ha, pathOf_eq hp, Flow.outcome]

/-- Settles O19: the walk up from the operand collects its path; a tree's shape says that there is one. -/
theorem pathFromRoot : Obligations.PathFromRoot :=
  ⟨fun _ _ _ => exec_nodePath, fun _ h t => t.reaches_root h⟩

/-! ### NODE.ISLEAF and NODE.ISNYT -/

theorem Node.isLeaf_eq_decide (n : Node) : n.isLeaf = decide (n.left = none ∧ n.right = none) := by
  rw [Bool.eq_iff_iff]
  simp [Node.isLeaf]

theorem Node.isNyt_eq_decide (n : Node) : n.isNyt = decide (n.weight = 0) := rfl

theorem exec_nodeIsLeaf {s : State} {h : Handle} {n : Node} (ha : s.args.a = some h) (hn : s.nodes[h]? = some n) :
    exec .nodeIsLeaf s = .next { s with res := .bit n.isLeaf } := by
  change execNodeIsLeaf s = _
  simp [execNodeIsLeaf, operandNode_eq ha hn]

theorem exec_nodeIsNyt {s : State} {h : Handle} {n : Node} (ha : s.args.a = some h) (hn : s.nodes[h]? = some n) :
    exec .nodeIsNyt s = .next { s with res := .bit n.isNyt } := by
  change execNodeIsNyt s = _
  simp [execNodeIsNyt, operandNode_eq ha hn]

/-- The weight is 0 at the entry NYT names and at no other (42_tree.md R104 (a)). -/
theorem TreeOk.weight_eq_zero_iff {ns : Store} {root nyt : Option Handle} {m : SymMap} (k : TreeOk ns root nyt m)
    {h : Handle} {n : Node} (hn : ns[h]? = some n) : n.weight = 0 ↔ nyt = some h := by
  constructor
  · intro hw
    by_contra hne
    have := k.weight_pos h n hn hne
    omega
  · rintro rfl
    obtain ⟨y, yn, hy, hyn, hw, -, -⟩ := k.nyt_leaf
    cases hy
    rw [hn] at hyn
    cases hyn
    exact hw

/-- Settles O18: both tests read the operand's entry, and a tree has one entry of weight 0. -/
theorem nodeTests : Obligations.NodeTests := by
  intro s h n ha hn
  refine ⟨?_, ?_, fun k => k.weight_eq_zero_iff hn⟩
  · rw [exec_nodeIsLeaf ha hn, n.isLeaf_eq_decide]
  · rw [exec_nodeIsNyt ha hn, n.isNyt_eq_decide]

end Sys2Proof.Machine
end

section
/-! ## O24: TREE.NEW (42_tree.md R93)

`treeNew` is the record update of R93 with the symbol count as a natural number; the statement has the integer power, so
the cast of `256^SYMSIZE` (40_symbol.md R77) is all that stands between them. -/

namespace Sys2Proof.Machine

theorem State.symbolCount_cast (s : State) : (s.symbolCount : Int) = 256 ^ s.symSize.toNat :=
  Nat.cast_pow 256 s.symSize.toNat

theorem exec_treeNew (s : State) : exec .treeNew s = .next (treeNew s.symbolCount s) := rfl

/-- Settles O24: TREE.NEW builds the one-entry tree from the symbol count, which is 256^SYMSIZE as an integer. -/
theorem newTreeState : Obligations.NewTreeState := by
  intro s
  rw [exec_treeNew, treeNew, s.symbolCount_cast]

end Sys2Proof.Machine
end

section
/-! ## O12, O13 and O14: the command words (46_host.md R145 to R150)

PHASE decides what becomes of a word: IDLE and DONE accept it (R145). So each command has one lemma for the phases that
accept it and one for the others, and a write to CMD one lemma for a word that decodes and one for a word that does not;
the statements put these together. -/

namespace Sys2Proof.Machine

variable {s : State} {r : List HostEvent}

theorem Phase.accepts_iff (p : Phase) : p.accepts = true ↔ p = .idle ∨ p = .done := by cases p <;> decide

theorem Phase.not_accepts {p : Phase} (hi : p ≠ .idle) (hd : p ≠ .done) : ¬ p.accepts = true :=
  fun h => (p.accepts_iff.mp h).elim hi hd

/-! ### What a command does in the phases that accept it, and in the others -/

theorem exec_cmdNop (s : State) : exec .cmdNop s = .next s := rfl

theorem exec_cmdCompress_of_accepts (size : BitVec 4) (h : s.phase.accepts = true) :
    exec (.cmdCompress size) s = .next (startCompress size s) := congrArg Host.Outcome.next (if_pos h)

theorem exec_cmdCompress_dropped (size : BitVec 4) (h : ¬ s.phase.accepts = true) : exec (.cmdCompress size) s = .next s :=
  congrArg Host.Outcome.next (if_neg h)

theorem exec_cmdDecompress_of_accepts (h : s.phase.accepts = true) : exec .cmdDecompress s = .next (startDecompress s) :=
  congrArg Host.Outcome.next (if_pos h)

theorem exec_cmdDecompress_dropped (h : ¬ s.phase.accepts = true) : exec .cmdDecompress s = .next s :=
  congrArg Host.Outcome.next (if_neg h)

theorem reservedCommand_eq (s : State) : reservedCommand s =
    if s.phase = .idle ∨ s.phase = .done then
      { s with fcode := .badCmd, fuop := 0#6, fpos := s.inBitPos, phase := .fault }
    else s := by
  simp only [reservedCommand, Phase.accepts_iff, raise]

/-! ### What a write to CMD does -/

theorem decode_cmd_nop : decode .cmd (msbBits 8 0x00) = .ok (.cmdNop, []) := by decide

theorem decode_cmd_decompress : decode .cmd (msbBits 8 0x20) = .ok (.cmdDecompress, []) := by decide

/-- A command word is eight bits (R67), so the decoder leaves none of a byte's. -/
theorem decode_cmd_rest {w : Byte} {i : Instr} {rest : List Bool} (h : decode .cmd (byteBits w) = .ok (i, rest)) :
    rest = [] := by
  have hdrop : (byteBits w).drop Format.cmd.width = [] := by simp [Format.width]
  unfold decode at h
  split_ifs at h
  split at h <;> cases h
  exact hdrop

theorem step_cmd_word {v : Nat} {i : Instr} {rest : List Bool} (hr : s.rst = .low) (hs : s.sched = .regWr 0 v :: r)
    (hd : decode .cmd (msbBits 8 v) = .ok (i, rest)) : step s = exec i { s with sched := r } := by
  simp [step, fetch_low hs hr, hostAction, registerWrite, hd]

theorem step_reserved_word {v : Nat} {e : Reject} (hr : s.rst = .low) (hs : s.sched = .regWr 0 v :: r)
    (hd : decode .cmd (msbBits 8 v) = .error e) : step s = .next (reservedCommand { s with sched := r }) := by
  simp [step, fetch_low hs hr, hostAction, registerWrite, hd]

end Sys2Proof.Machine
end

section
namespace Sys2Proof.Machine

/-- Settles O12: CMD.NOP is the identity, a job word is dropped in the phases that do not accept it, and a byte that
decodes to no command meets the decoder's error. -/
theorem commandsDroppedOrRefused : Obligations.CommandsDroppedOrRefused := by
  refine ⟨exec_cmdNop, fun s r hr => ⟨?nop, ?compress, ?decompress, ?reserved⟩⟩
  case nop =>
    intro hs
    exact (step_cmd_word hr hs decode_cmd_nop).trans (exec_cmdNop _)
  case compress =>
    intro size hs hi hd
    exact (step_cmd_word hr hs (decode_compress size)).trans (exec_cmdCompress_dropped size (Phase.not_accepts hi hd))
  case decompress =>
    intro hs hi hd
    exact (step_cmd_word hr hs decode_cmd_decompress).trans (exec_cmdDecompress_dropped (Phase.not_accepts hi hd))
  case reserved =>
    intro w hw hs
    cases hdec : decode .cmd (byteBits w) with
    | ok p =>
      obtain ⟨i, rest⟩ := p
      obtain rfl := decode_cmd_rest hdec
      exact absurd ⟨i, hdec⟩ hw
    | error e => rw [step_reserved_word hr hs hdec, reservedCommand_eq]

/-- Settles O13: the state R146 builds is the statement's, with 256^SYMSIZE (40_symbol.md R77) cast to an integer. -/
theorem compressStartsJob : Obligations.CompressStartsJob := by
  intro s size h
  rw [exec_cmdCompress_of_accepts size (s.phase.accepts_iff.mpr h), startCompress, treeNew, Nat.cast_pow]
  rfl

/-- Settles O14: the state R147 builds is the statement's. -/
theorem decompressStartsJob : Obligations.DecompressStartsJob := by
  intro s h
  rw [exec_cmdDecompress_of_accepts (s.phase.accepts_iff.mpr h)]
  rfl

end Sys2Proof.Machine
end

section
/-! ## O8, O9, O11 and O10: the three encodings (30_encoding.md R53 to R70)

`decode` cuts an item of the format's width off the bits and asks `decodeItem` what it spells. So one lemma takes `decode`
apart, and each table is said once as an equivalence between "the bits spell `i`" and "`i` is encoded so": for a command
word `cmdWord i`, for a 6-bit code `uopCode i`, for the stream elements their `encode`. -/

namespace Sys2Proof

/-! ### The item at the front of the bits -/

theorem decode_eq_ok_iff {f : Format} {bits rest : List Bool} {i : Instr} :
    decode f bits = .ok (i, rest) ↔ ∃ p, bits = p ++ rest ∧ p.length = f.width ∧ decodeItem f p = .ok i := by
  unfold decode
  constructor
  · intro h
    split_ifs at h with hl
    split at h <;> cases h
    exact ⟨bits.take f.width, (List.take_append_drop _ _).symm, by rw [List.length_take]; omega, by assumption⟩
  · rintro ⟨p, rfl, hl, hi⟩
    rw [if_neg (by rw [List.length_append]; omega), ← hl, List.take_left, hi, List.drop_left]

/-- A number read back from its `n` bits, as a word of `n` bits. -/
theorem ofNat_bitsVal_msbBits {n : Nat} (w : BitVec n) : BitVec.ofNat n (bitsVal (msbBits n w.toNat)) = w := by
  rw [bitsVal_msbBits, Nat.mod_eq_of_lt w.isLt, BitVec.ofNat_toNat, BitVec.setWidth_eq]

/-- `n` bits read as a word of `n` bits, and written again. -/
theorem msbBits_toNat_ofNat {n : Nat} {p : List Bool} (h : p.length = n) :
    msbBits n (BitVec.ofNat n (bitsVal p)).toNat = p := by
  subst h
  rw [BitVec.toNat_ofNat, Nat.mod_eq_of_lt (bitsVal_lt p), msbBits_bitsVal]

/-! ### Command words (R67) -/

theorem cmdCompress_word : ∀ w : BitVec 8, w.extractLsb' 4 4 = 0x1#4 → 0x1#4 ++ w.extractLsb' 0 4 = w := by decide

theorem decodeCmd_compress : ∀ s : BitVec 4, decodeCmd (0x1#4 ++ s) = .ok (.cmdCompress s) := by decide

theorem decodeCmd_eq_ok_iff {w : BitVec 8} {i : Instr} : decodeCmd w = .ok i ↔ cmdWord i = some w := by
  constructor
  · intro h
    unfold decodeCmd at h
    split_ifs at h with h0 h1 h2 h3 <;> cases h
    · rw [h0]; rfl
    · rw [cmdWord, cmdCompress_word w h1]
    · rw [h2]; rfl
    · rw [h3]; rfl
  · intro h
    cases i <;> cases h
    exacts [rfl, decodeCmd_compress _, rfl, rfl]

/-! ### Codes (R70) -/

/-- The operations and commands that have a code of R70, COMPRESS with the size beside the code (log 3). -/
def HasCode (size : BitVec 4) (i : Instr) : Prop :=
  i.format = .uop 0#4 ∨ i = .cmdNop ∨ i = .cmdCompress size ∨ i = .cmdDecompress ∨ i = .cmdAbort

/-- In a table whose keys are distinct a lookup finds each row. -/
theorem lookup_eq_some_iff_mem {α β : Type} [DecidableEq α] {a : α} {b : β} :
    ∀ {l : List (α × β)}, (l.map Prod.fst).Nodup → (l.lookup a = some b ↔ (a, b) ∈ l)
  | [], _ => by simp
  | (k, v) :: l, nd => by
    rw [List.map_cons, List.nodup_cons] at nd
    have ih := lookup_eq_some_iff_mem (a := a) (b := b) nd.2
    by_cases hk : a = k
    · subst hk
      have hrow : (a, b) ∉ l := fun hm => nd.1 (List.mem_map.mpr ⟨_, hm, rfl⟩)
      simp [List.lookup, hrow, eq_comm]
    · simp [List.lookup, beq_eq_false_iff_ne.mpr hk, ih, hk]

/-- The codes of the table, which hold no operand. -/
def uopCodes : List (BitVec 6) := (uopTable 0#4).map Prod.fst

theorem map_fst_uopTable (size : BitVec 4) : (uopTable size).map Prod.fst = uopCodes := rfl

theorem nodup_uopCodes : uopCodes.Nodup := by decide

theorem decodeUop_eq_ok_iff_mem {size : BitVec 4} {c : BitVec 6} {i : Instr} :
    decodeUop size c = .ok i ↔ (c, i) ∈ uopTable size := by
  rw [← lookup_eq_some_iff_mem (by rw [map_fst_uopTable]; exact nodup_uopCodes), decodeUop]
  cases (uopTable size).lookup c <;> simp

/-- The rows of the table are the instructions with a code, each beside its own. -/
theorem mem_uopTable_iff {size : BitVec 4} {c : BitVec 6} {i : Instr} :
    (c, i) ∈ uopTable size ↔ c = uopCode i ∧ HasCode size i := by
  constructor
  · intro h
    have rows : ∀ r ∈ uopTable size, r.1 = uopCode r.2 ∧ HasCode size r.2 := by
      simp [uopTable, uopTableTree, uopTableBit, uopTableDriver, uopTableCmd, uopCode, HasCode, Instr.format]
    exact rows (c, i) h
  · rintro ⟨rfl, h⟩
    rcases h with h | rfl | rfl | rfl | rfl
    · cases i <;> cases h <;>
        simp [uopTable, uopTableTree, uopTableBit, uopTableDriver, uopTableCmd, uopCode]
    all_goals simp [uopTable, uopTableTree, uopTableBit, uopTableDriver, uopTableCmd, uopCode]

theorem decodeUop_eq_ok_iff {size : BitVec 4} {c : BitVec 6} {i : Instr} :
    decodeUop size c = .ok i ↔ c = uopCode i ∧ HasCode size i :=
  decodeUop_eq_ok_iff_mem.trans mem_uopTable_iff

/-! ### Stream elements (R55 to R61) -/

theorem length_encode (i : Instr) : (encode i).length = i.format.width := by
  cases i with
  | hdr s => exact Laws.EncodeLength.hdr s
  | raw bs => exact Laws.EncodeLength.raw bs
  | recNew p bs => exact Laws.EncodeLength.recNew p bs
  | _ => rfl

theorem symbolLenOk_iff {bs : List Byte} : symbolLenOk bs = true ↔ 1 ≤ bs.length ∧ bs.length ≤ 15 := by
  simp [symbolLenOk]

theorem bytesOfBits_bytesBits_all (bs : List Byte) : bytesOfBits bs.length (bytesBits bs) = bs := by
  simpa using bytesOfBits_bytesBits bs []

/-- The bits of a well-formed element are read as it. -/
theorem decodeDue_encode {d : Due} {i : Instr} (hw : i.wf = true) (hf : i.format = .stream d) :
    decodeDue d (encode i) = .ok i := by
  cases i <;> cases hf
  case hdr s =>
    have hs : s.toNat ≠ 0 := fun h => (of_decide_eq_true hw) (BitVec.eq_of_toNat_eq h)
    have hb : bitsVal (encode (.hdr s)) = s.toNat := by
      rw [encode, bitsVal_msbBits, Nat.mod_eq_of_lt s.isLt]
    simp [decodeDue, hb, hs]
  case raw bs =>
    rw [decodeDue, if_pos (symbolLenOk_iff.mp hw), encode, bytesOfBits_bytesBits_all]
  case pad xs => rw [decodeDue, if_pos (of_decide_eq_true hw)]; rfl
  case recHit p => rw [decodeDue, if_pos (of_decide_eq_true hw)]; rfl
  case recNew p bs =>
    rw [decodeDue, if_pos (symbolLenOk_iff.mp hw), encode, List.take_left, List.drop_left, bytesOfBits_bytesBits_all]
  all_goals rfl

/-- Bits of the length due that spell an element are its encoding, and it is well formed. -/
theorem encode_of_decodeDue {d : Due} {p : List Bool} {i : Instr} (hl : p.length = (Format.stream d).width)
    (h : decodeDue d p = .ok i) : i.wf = true ∧ i.format = .stream d ∧ encode i = p := by
  cases d with
  | hdr =>
    rw [decodeDue] at h
    split_ifs at h with h0
    cases h
    have hl4 : p.length = 4 := hl
    have hlt : bitsVal p < 2 ^ 4 := hl4 ▸ bitsVal_lt p
    refine ⟨decide_eq_true fun hz => h0 ?_, rfl, msbBits_toNat_ofNat hl4⟩
    have := congrArg BitVec.toNat hz
    rwa [BitVec.toNat_ofNat, Nat.mod_eq_of_lt hlt] at this
  | path len => cases h; exact ⟨rfl, congrArg (fun n => Format.stream (.path n)) hl, rfl⟩
  | raw n =>
    rw [decodeDue] at h
    split_ifs at h with hn
    cases h
    exact ⟨symbolLenOk_iff.mpr (by simpa using hn), by simp [Instr.format], bytesBits_bytesOfBits n p hl⟩
  | frame =>
    obtain ⟨b, rfl⟩ := List.length_eq_one_iff.mp hl
    cases b <;> cases h <;> exact ⟨rfl, rfl, rfl⟩
  | pad len =>
    rw [decodeDue] at h
    split_ifs at h with hn
    cases h
    have hl' : p.length = len := hl
    exact ⟨decide_eq_true (hl' ▸ hn), congrArg (fun n => Format.stream (.pad n)) hl, rfl⟩
  | recHit len =>
    rw [decodeDue] at h
    split_ifs at h with hn
    cases h
    have hl' : p.length = len := hl
    exact ⟨decide_eq_true (hl' ▸ hn), congrArg (fun n => Format.stream (.recHit n)) hl, rfl⟩
  | recNew len n =>
    rw [decodeDue] at h
    split_ifs at h with hn
    cases h
    have hl' : p.length = len + 8 * n := hl
    have ht : (p.take len).length = len := by rw [List.length_take]; omega
    refine ⟨symbolLenOk_iff.mpr (by simpa using hn), by simp only [Instr.format, ht, length_bytesOfBits], ?_⟩
    rw [encode, bytesBits_bytesOfBits n _ (by rw [List.length_drop]; omega), List.take_append_drop]

/-! ### All encodings -/

theorem encode_of_cmdWord {i : Instr} {w : BitVec 8} (h : cmdWord i = some w) :
    i.wf = true ∧ i.format = .cmd ∧ encode i = msbBits 8 w.toNat := by
  cases i <;> cases h <;> exact ⟨rfl, rfl, rfl⟩

theorem cmdWord_of_format {i : Instr} (h : i.format = .cmd) : ∃ w, cmdWord i = some w := by
  cases i <;> cases h <;> exact ⟨_, rfl⟩

theorem encode_of_uop_format {i : Instr} {size : BitVec 4} (h : i.format = .uop size) :
    size = 0#4 ∧ encode i = msbBits 6 (uopCode i).toNat := by
  cases i <;> cases h <;> exact ⟨rfl, rfl⟩

theorem HasCode.wf {size : BitVec 4} {i : Instr} (h : HasCode size i) : i.wf = true := by
  rcases h with h | rfl | rfl | rfl | rfl
  · cases i <;> cases h <;> rfl
  all_goals rfl

theorem decodeItem_code {size : BitVec 4} {i : Instr} (h : HasCode size i) :
    decodeItem (.uop size) (msbBits 6 (uopCode i).toNat) = .ok i := by
  rw [decodeItem, ofNat_bitsVal_msbBits, decodeUop_eq_ok_iff]
  exact ⟨rfl, h⟩

theorem decodeItem_encode {i : Instr} (h : i.wf = true) : decodeItem i.format (encode i) = .ok i := by
  cases hf : i.format with
  | cmd =>
    obtain ⟨w, hw⟩ := cmdWord_of_format hf
    rw [decodeItem, (encode_of_cmdWord hw).2.2, ofNat_bitsVal_msbBits, decodeCmd_eq_ok_iff, hw]
  | uop size =>
    obtain ⟨rfl, he⟩ := encode_of_uop_format hf
    rw [he]
    exact decodeItem_code (.inl hf)
  | stream d => exact decodeDue_encode h hf

/-- Settles O8: an item is cut off at its own length, and each table read at what it wrote gives the instruction back. -/
theorem decodeOfEncode : Obligations.DecodeOfEncode :=
  ⟨fun i _ hw => decode_eq_ok_iff.mpr ⟨encode i, rfl, length_encode i, decodeItem_encode hw⟩,
    fun _ _ _ hc => decode_eq_ok_iff.mpr ⟨_, rfl, length_msbBits 6 _, decodeItem_code hc⟩⟩

/-- Settles O9: the item cut off the bits is read in one of the three tables, each of which gives its encoding back. -/
theorem encodeOfDecode : Obligations.EncodeOfDecode := by
  intro f bits rest i h
  obtain ⟨p, rfl, hl, hi⟩ := decode_eq_ok_iff.mp h
  cases f with
  | cmd =>
    obtain ⟨hw, hf, he⟩ := encode_of_cmdWord (decodeCmd_eq_ok_iff.mp hi)
    exact ⟨hw, fun _ => ⟨hf, by rw [he, msbBits_toNat_ofNat (n := 8) hl]⟩, fun _ q => by cases q⟩
  | uop size =>
    obtain ⟨hc, hh⟩ := decodeUop_eq_ok_iff.mp hi
    refine ⟨hh.wf, fun q => absurd rfl (q size), fun size' q => ?_⟩
    cases q
    exact ⟨by rw [← hc, msbBits_toNat_ofNat (n := 6) hl], hh⟩
  | stream d =>
    obtain ⟨hw, hf, he⟩ := encode_of_decodeDue hl hi
    exact ⟨hw, fun _ => ⟨hf, by rw [he]⟩, fun _ q => by cases q⟩

/-! ### The words that decode -/

theorem decode_cmd_byteBits {w : Byte} {i : Instr} : decode .cmd (byteBits w) = .ok (i, []) ↔ cmdWord i = some w := by
  rw [← decodeCmd_eq_ok_iff, decode_eq_ok_iff]
  constructor
  · rintro ⟨p, hp, -, hi⟩
    rw [List.append_nil] at hp
    rwa [← hp, decodeItem, byteBits, ofNat_bitsVal_msbBits] at hi
  · intro hi
    exact ⟨_, (List.append_nil _).symm, length_byteBits w, by rwa [decodeItem, byteBits, ofNat_bitsVal_msbBits]⟩

theorem exists_cmdWord_iff (w : Byte) : (∃ i, cmdWord i = some w) ↔
    (w = 0x00#8 ∨ (∃ s : BitVec 4, w = 0x1#4 ++ s) ∨ w = 0x20#8 ∨ w = 0xf0#8) := by
  constructor
  · rintro ⟨i, h⟩
    cases i <;> cases h
    exacts [.inl rfl, .inr (.inl ⟨_, rfl⟩), .inr (.inr (.inl rfl)), .inr (.inr (.inr rfl))]
  · rintro (rfl | ⟨s, rfl⟩ | rfl | rfl)
    · exact ⟨.cmdNop, rfl⟩
    · exact ⟨.cmdCompress s, rfl⟩
    · exact ⟨.cmdDecompress, rfl⟩
    · exact ⟨.cmdAbort, rfl⟩

theorem decode_uop_code {size : BitVec 4} {c : BitVec 6} {i : Instr} :
    decode (.uop size) (msbBits 6 c.toNat) = .ok (i, []) ↔ (c, i) ∈ uopTable size := by
  rw [← decodeUop_eq_ok_iff_mem, decode_eq_ok_iff]
  constructor
  · rintro ⟨p, hp, -, hi⟩
    rw [List.append_nil] at hp
    rwa [← hp, decodeItem, ofNat_bitsVal_msbBits] at hi
  · intro hi
    exact ⟨_, (List.append_nil _).symm, length_msbBits 6 _, by rwa [decodeItem, ofNat_bitsVal_msbBits]⟩

theorem exists_mem_uopTable_iff {size : BitVec 4} {c : BitVec 6} : (∃ i, (c, i) ∈ uopTable size) ↔ c ∈ uopCodes := by
  rw [← map_fst_uopTable size, List.mem_map]
  exact ⟨fun ⟨i, h⟩ => ⟨(c, i), h, rfl⟩, fun ⟨⟨_, i⟩, h, e⟩ => ⟨i, e ▸ h⟩⟩

/-- The rows of each family of R70, counted from its first code. -/
theorem mem_uopCodes_iff : ∀ c : BitVec 6, c ∈ uopCodes ↔
    (c.extractLsb' 3 3 = 0b000#3 ∧ 1 ≤ (c.extractLsb' 0 3).toNat ∧ (c.extractLsb' 0 3).toNat ≤ 2) ∨
    (c.extractLsb' 3 3 = 0b001#3 ∧ (c.extractLsb' 0 3).toNat ≤ 3) ∨
    (c.extractLsb' 3 3 = 0b010#3 ∧ (c.extractLsb' 0 3).toNat ≤ 5) ∨
    (c.extractLsb' 3 3 = 0b011#3 ∧ (c.extractLsb' 0 3).toNat ≤ 6) ∨
    (c.extractLsb' 3 3 = 0b100#3 ∧ (c.extractLsb' 0 3).toNat ≤ 6) ∨
    (c.extractLsb' 3 3 = 0b101#3 ∧ (c.extractLsb' 0 3).toNat ≤ 5) ∨
    (c.extractLsb' 3 3 = 0b110#3 ∧ (c.extractLsb' 0 3).toNat ≤ 3) := by decide

/-- Settles O11: a word decodes where some instruction has it, and the two lists of words are those of the tables. -/
theorem onlyTableWordsDecode : Obligations.OnlyTableWordsDecode := by
  refine ⟨fun w => ?_, fun size c => ?_⟩
  · simp only [decode_cmd_byteBits, exists_cmdWord_iff]
  · simp only [decode_uop_code, exists_mem_uopTable_iff, mem_uopCodes_iff]

/-- Settles O10: the decoder run on the words, each a closed term. -/
theorem writtenWordsDecode : Obligations.WrittenWordsDecode := by
  unfold Obligations.WrittenWordsDecode
  decide

end Sys2Proof
end

section
/-! ## O52 to O56: what every step keeps (10_state.md, 20_memory.md, 43_framer.md R116)

`exec_cases` says once what an instruction can do to the parts of the state that `Goes` follows, and `StepTaken` once
what a step can be: an instruction run from the state whose oldest action is spent, or an action of the host that is no
instruction. Each invariant is then a case analysis. -/

namespace Sys2Proof.Machine

variable {A : Part → Prop} {s t : State} {u : BitVec 6}

/-! ### The parts an instruction writes -/

/-- The instructions that write each part of the state (10_state.md R25; 43_framer.md R118; 42_tree.md R93). -/
def Writes (i : Instr) : Part → Prop
  | .found => i = .encSymbol ∨ i = .decLeaf ∨ (∃ bs, i = .raw bs) ∨ (∃ p, i = .recHit p) ∨ ∃ p bs, i = .recNew p bs
  | .more => i = .symGather ∨ i = .encFetch
  | .empty => i = .decLeaf
  | .closed => i = .bitFlush ∨ i = .encFlush ∨ i = .decDrain ∨ ∃ xs, i = .pad xs
  | .tree => i = .treeNew ∨ i = .decHdr ∨ ∃ v, i = .hdr v

theorem Next.refl (A : Part → Prop) (s : State) : Next A s s := ⟨.refl A s, .inl (.refl s)⟩

/-- The result latch and PATHBUF are none of the parts. -/
theorem Next.latches (res : UopResult) (pathBuf : List Bool) : Next A s { s with res := res, pathBuf := pathBuf } :=
  ⟨⟨rfl, rfl, List.prefix_refl _, le_refl _, .inr rfl, .inr rfl, .inr rfl, .inr rfl, .inr rfl, .inr (.refl _), id, id⟩,
    .inl (.refl s)⟩

theorem Next.store {ns : Store} (k : StoreOk s.nodes ns) : Next A s { s with nodes := ns } :=
  ⟨⟨rfl, rfl, List.prefix_refl _, le_refl _, .inr rfl, .inr rfl, .inr rfl, .inr rfl, .inr rfl, .inr k.1,
    Memory.wf_length k.2, id⟩, .inl (.refl s)⟩

theorem next_of_eq {t' : State} (n : Next A s t') (h : (.next t' : Out) = .next t) : Next A s t := by
  cases h; exact n

theorem readResult_goes (n : Nat) (value : List Bool → UopResult) : (readResult n value s).Goes A s := by
  unfold readResult
  rcases readBits_cases 0#6 n s with ⟨-, e⟩ | e | e | e <;> rw [e]
  · exact ⟨⟨rfl, rfl, List.prefix_refl _, Nat.le_add_right _ _, .inr rfl, .inr rfl, .inr rfl, .inr rfl, .inr rfl,
      .inr (.refl _), id, id⟩, .refl s⟩
  · exact ⟨(Next.latches .exhausted s.pathBuf).1, .refl s⟩
  · exact (Goes.refl A s).raise (by simp)
  · trivial

theorem decRecord_goes (p : List Bool) {leaf : State → Flow Unit} (hl : ∀ s, (leaf s).Goes A s) :
    (decRecord p leaf s).Goes A s := by
  unfold decRecord
  split
  · exact goes_bind (walkPath_goes p) fun _ _ => goes_bind (hl _) fun _ _ => decUpdateLines_goes
  · trivial

theorem encRecord_goes (hf : A .found) : (encRecord s).Goes A s :=
  goes_bind (encSymbolLines_goes hf) fun _ _ => encUpdateLines_goes

theorem frameElement_goes (b : Bool) : (frameElement b s).Goes A s :=
  goes_bind (needBits_goes 1) fun _ _ => decFrameWith_goes b

/-! ### What an instruction can do -/

theorem execHdr_next {v : BitVec 4} (ht : A .tree) (h : execHdr v s = .next t) : Next A s t := by
  unfold execHdr at h
  split at h
  · split_ifs at h
    · exact next_withSink (fun _ => encHdrLines_goes) h
    · cases h
  · exact next_withSink (fun _ => goes_bind (needBits_goes 4) fun _ _ => decHdrWith_goes v ht) h
  · cases h

theorem execPath_next {p : List Bool} (h : execPath p s = .next t) : Next A s t := by
  unfold execPath at h
  split at h
  · split at h
    · split_ifs at h
      · exact next_withSink (fun _ => emitPath_goes _) h
      · cases h
    · cases h
  · exact next_withSink (fun _ => walkPath_goes p) h
  · cases h

theorem execRaw_next {bs : List Byte} (hf : A .found) (h : execRaw bs s = .next t) : Next A s t := by
  unfold execRaw at h
  split at h
  · split_ifs at h
    · exact next_withSink (fun _ => writeBits_goes _) h
    · cases h
  · exact next_withSink (fun _ => rawElement_goes bs hf) h
  · cases h

theorem execF0_next (h : execF0 s = .next t) : Next A s t := by
  unfold execF0 at h
  split at h
  · split_ifs at h
    · exact next_withSink (fun _ => encFrameLines_goes) h
    · cases h
  · exact next_withSink (fun _ => frameElement_goes false) h
  · cases h

theorem execEos_next (h : execEos s = .next t) : Next A s t := by
  unfold execEos at h
  split at h
  · exact next_withSink (fun _ => encEosLines_goes) h
  · exact next_withSink (fun _ => frameElement_goes true) h
  · cases h

theorem execPad_next {xs : List Bool} (hc : A .closed) (h : execPad xs s = .next t) : Next A s t := by
  unfold execPad at h
  split at h
  · split_ifs at h
    · exact next_withSink (fun _ => encFlushLines_goes xs hc) h
    · cases h
  · exact next_withSink (fun _ => decDrainLines_goes hc) h
  · cases h

theorem execRecHit_next {p : List Bool} (hf : A .found) (h : execRecHit p s = .next t) : Next A s t := by
  unfold execRecHit at h
  split at h
  · split at h
    · split_ifs at h
      · exact next_withSink (fun _ => encRecord_goes hf) h
      · cases h
    · cases h
  · exact next_withSink (fun _ => decRecord_goes p fun _ => hitElement_goes hf) h
  · cases h

theorem execRecNew_next {p : List Bool} {bs : List Byte} (hf : A .found) (h : execRecNew p bs s = .next t) :
    Next A s t := by
  unfold execRecNew at h
  split at h
  · split at h
    · split_ifs at h
      · exact next_withSink (fun _ => encRecord_goes hf) h
      · cases h
    · cases h
  · exact next_withSink (fun _ => decRecord_goes p fun _ => rawElement_goes bs hf) h
  · cases h

theorem execNodeIsLeaf_next (h : execNodeIsLeaf s = .next t) : Next A s t := by
  unfold execNodeIsLeaf at h
  split at h
  · exact next_of_eq (.latches _ _) h
  · cases h

theorem execNodeIsNyt_next (h : execNodeIsNyt s = .next t) : Next A s t := by
  unfold execNodeIsNyt at h
  split at h
  · exact next_of_eq (.latches _ _) h
  · cases h

theorem execNodePath_next (h : execNodePath s = .next t) : Next A s t := by
  unfold execNodePath at h
  split at h
  · exact next_outcome (pathOf_goes _) h
  · cases h

theorem execNodeSwap_next (h : execNodeSwap s = .next t) : Next A s t := by
  unfold execNodeSwap at h
  split at h
  · split at h
    · cases h
    · cases h
    · split at h
      · rename_i e
        exact next_of_eq (.store (nodeSwap_storeOk e)) h
      · cases h
  · cases h
  · cases h

theorem execTreeLeader_next (h : execTreeLeader s = .next t) : Next A s t := by
  unfold execTreeLeader at h
  split at h
  · exact next_of_eq (.latches _ _) h
  · cases h

theorem treeNew_next (k : Nat) (ht : A .tree) : Next A s (treeNew k s) :=
  ⟨(treeNew_goes k ht).1, .inl (treeNew_goes (A := A) k ht).2⟩

/-- An instruction that is no command writes only its own parts, and leaves the fault record or enters a fault. -/
theorem exec_next {i : Instr} (hc : cmdWord i = none) (h : exec i s = .next t) : Next (Writes i) s t := by
  cases i with
  | hdr v => exact execHdr_next (.inr (.inr ⟨v, rfl⟩)) h
  | path p => exact execPath_next h
  | raw bs => exact execRaw_next (.inr (.inr (.inl ⟨bs, rfl⟩))) h
  | f0 => exact execF0_next h
  | eos => exact execEos_next h
  | pad xs => exact execPad_next (.inr (.inr (.inr ⟨xs, rfl⟩))) h
  | recHit p => exact execRecHit_next (.inr (.inr (.inr (.inl ⟨p, rfl⟩)))) h
  | recNew p bs => exact execRecNew_next (.inr (.inr (.inr (.inr ⟨p, bs, rfl⟩)))) h
  | cmdNop | cmdCompress | cmdDecompress | cmdAbort => cases hc
  | symGather => exact next_withSink (fun _ => gather_goes (.inl rfl)) h
  | symScatter => exact next_withSink (fun _ => scatterOut_goes) h
  | nodeIsLeaf => exact execNodeIsLeaf_next h
  | nodeIsNyt => exact execNodeIsNyt_next h
  | nodePath => exact execNodePath_next h
  | nodeSwap => exact execNodeSwap_next h
  | treeNew => exact next_of_eq (treeNew_next _ (.inl rfl)) h
  | treeLookup | treeCurNyt => exact next_of_eq (.latches _ _) h
  | treeAddSym => exact next_outcome (addSymbol_goes _) h
  | treeUpdate => exact next_outcome (updateTree_goes _) h
  | treeLeader => exact execTreeLeader_next h
  | bitRd | bitRdByte | bitRdHdr => exact next_withSink (fun _ => readResult_goes _ _) h
  | bitWr | bitWrByte | bitWrHdr => exact next_withSink (fun _ => writeBits_goes _) h
  | bitFlush =>
    exact next_withSink (fun s => goes_ok () (flushWith_goes _ (.inl rfl) s).1 (flushWith_goes (A := Writes .bitFlush) _ (.inl rfl) s).2) h
  | encHdr => exact next_withSink (fun _ => encHdrLines_goes) h
  | encFetch => exact next_withSink (fun _ => encFetchLines_goes (.inr rfl)) h
  | encSymbol => exact next_withSink (fun _ => encSymbolLines_goes (.inl rfl)) h
  | encUpdate => exact next_withSink (fun _ => encUpdateLines_goes) h
  | encFrame => exact next_withSink (fun _ => encFrameLines_goes) h
  | encEos => exact next_withSink (fun _ => encEosLines_goes) h
  | encFlush => exact next_withSink (fun _ => encFlushLines_goes _ (.inr (.inl rfl))) h
  | decHdr => exact next_withSink (fun _ => decHdrLines_goes (.inr (.inl rfl))) h
  | decWalk => exact next_withSink (fun _ => decWalkLines_goes) h
  | decLeaf => exact next_withSink (fun _ => decLeafLines_goes (.inr (.inl rfl)) rfl) h
  | decUpdate => exact next_withSink (fun _ => decUpdateLines_goes) h
  | decFrame => exact next_withSink (fun _ => decFrameLines_goes) h
  | decDrain => exact next_withSink (fun _ => decDrainLines_goes (.inr (.inr (.inl rfl)))) h

/-- Everything an instruction can do: an operation or an element its own parts; a command nothing, a job start, or the
abort. -/
inductive Executed (i : Instr) (s t : State) : Prop
  | goes (hc : cmdWord i = none) (n : Next (Writes i) s t)
  | stays (e : t = s)
  | compress (size : BitVec 4) (hi : i = .cmdCompress size) (ha : s.phase.accepts = true) (e : t = startCompress size s)
  | decompress (hi : i = .cmdDecompress) (ha : s.phase.accepts = true) (e : t = startDecompress s)
  | abort (hi : i = .cmdAbort) (e : t = abort s)

theorem exec_cases {i : Instr} (h : exec i s = .next t) : Executed i s t := by
  cases hw : cmdWord i with
  | none => exact .goes hw (exec_next hw h)
  | some w =>
    cases i <;> cases hw
    case cmdNop.refl => cases h; exact .stays rfl
    case cmdCompress.refl size =>
      by_cases ha : s.phase.accepts = true
      · rw [exec_cmdCompress_of_accepts size ha] at h; cases h; exact .compress size rfl ha rfl
      · rw [exec_cmdCompress_dropped size ha] at h; cases h; exact .stays rfl
    case cmdDecompress.refl =>
      by_cases ha : s.phase.accepts = true
      · rw [exec_cmdDecompress_of_accepts ha] at h; cases h; exact .decompress rfl ha rfl
      · rw [exec_cmdDecompress_dropped ha] at h; cases h; exact .stays rfl
    case cmdAbort.refl => cases h; exact .abort rfl rfl

/-! ### What a step can be -/

/-- The state when the oldest action, if there is one, is spent. -/
def State.spent (s : State) : State :=
  match s.sched with
  | [] => s
  | _ :: r => { s with sched := r, rst := s.rst.clocked }

theorem spent_nil (h : s.sched = []) : s.spent = s := by simp [State.spent, h]

theorem spent_cons {e : HostEvent} {r : List HostEvent} (h : s.sched = e :: r) :
    s.spent = { s with sched := r, rst := s.rst.clocked } := by simp [State.spent, h]

/-- Spending an action changes the list of actions and the reset input only. -/
theorem spent_eq (s : State) : s.spent = { s with sched := s.sched.tail, rst := s.spent.rst } := by
  cases h : s.sched with
  | nil => rw [spent_nil h]; obtain ⟨⟩ := s; simp_all
  | cons e r => rw [spent_cons h]; rfl

@[simp] theorem spent_phase (s : State) : s.spent.phase = s.phase := by rw [spent_eq]

@[simp] theorem clocked_low : RstPin.low.clocked = .low := rfl

theorem spent_rst_low (h : s.rst = .low) : s.spent.rst = .low := by
  cases hs : s.sched with
  | nil => rw [spent_nil hs, h]
  | cons e r => rw [spent_cons hs]; simp [h]

/-- Everything a step can be. -/
inductive StepTaken (s t : State) : Prop
  /-- The sequencer goes on, alone or where the host lets it. -/
  | driver (i : Instr) (hs : s.sched = [] ∨ s.rst = .low) (hd : driverOp s.phase = some i) (h : exec i s.spent = .next t)
  | item (i : Instr) (g : Grain) (hr : s.rst = .low) (hd : itemDue g s.spent = some i) (h : exec i s.spent = .next t)
  /-- A command word. -/
  | command (i : Instr) (v : Nat) (hr : s.rst = .low) (hs : s.sched.head? = some (.regWr 0 v))
      (hw : cmdWord i = some (BitVec.ofNat 8 v)) (h : exec i s.spent = .next t)
  | reserved (v : Nat) (hr : s.rst = .low) (hs : s.sched.head? = some (.regWr 0 v)) (ha : s.phase.accepts = true)
      (e : t = raise .badCmd 0#6 s.spent)
  /-- An operation or command issued by its code (log 3). -/
  | issued (i : Instr) (c : BitVec 6) (a : UopArgs) (hr : s.rst = .low) (hs : s.sched.head? = some (.issue c a))
      (hw : c = uopCode i) (h : exec i { s.spent with args := a } = .next t)
  /-- F8 between two operations. -/
  | ioError (p : OutErr) (hb : s.phase.busy = true) (e : t = raise .ioError 0#6 { s.spent with outErr := p })
  | reset (hs : s.sched.head? = some .rst) (e : t = hardReset s.spent)
  /-- What changes nothing of the job. -/
  | quiet (inp : List Token) (oe : OutErr) (rp : RstPin) (ns : Nat) (rd : RegVal) (fc : Nat)
      (hr : rp ≠ .low → s.rst ≠ .low)
      (e : t = { s with
        sched := s.sched.tail, inp := inp, outErr := oe, rst := rp, nodeSel := ns, rdData := rd, freeCtr := fc })

theorem clocked_ne_low {p : RstPin} (h : p.clocked ≠ .low) : p ≠ .low := by
  cases p <;> simp_all [RstPin.clocked]

theorem released_ne_low {p : RstPin} (h : p.clocked.released ≠ .low) : p ≠ .low := by
  cases p <;> simp_all [RstPin.clocked, RstPin.released]

/-- A byte written to CMD is read as the command that has it as its word. -/
theorem decode_cmd_msbBits {v : Nat} {i : Instr} {rest : List Bool} (h : decode .cmd (msbBits 8 v) = .ok (i, rest)) :
    cmdWord i = some (BitVec.ofNat 8 v) := by
  obtain ⟨p, hp, hl, hi⟩ := decode_eq_ok_iff.mp h
  have hrest : rest = [] := by
    have := congrArg List.length hp
    rw [length_msbBits, List.length_append, hl] at this
    exact List.length_eq_zero_iff.mp (by simp only [Format.width] at this; omega)
  rw [hrest, List.append_nil] at hp
  rw [← hp, decodeItem, bitsVal_msbBits, decodeCmd_eq_ok_iff] at hi
  rw [hi]
  congr 1
  apply BitVec.eq_of_toNat_eq
  simp

theorem decode_uop_msbBits {size : BitVec 4} {c : BitVec 6} {i : Instr} {rest : List Bool}
    (h : decode (.uop size) (msbBits 6 c.toNat) = .ok (i, rest)) : c = uopCode i := by
  obtain ⟨p, hp, hl, hi⟩ := decode_eq_ok_iff.mp h
  have hrest : rest = [] := by
    have := congrArg List.length hp
    rw [length_msbBits, List.length_append, hl] at this
    exact List.length_eq_zero_iff.mp (by simp only [Format.width] at this; omega)
  rw [hrest, List.append_nil] at hp
  rw [← hp, decodeItem, ofNat_bitsVal_msbBits] at hi
  exact (decodeUop_eq_ok_iff.mp hi).1

/-- The state after an action that changes only what the host owns. -/
theorem StepTaken.of_host {e : HostEvent} {r : List HostEvent} (hs : s.sched = e :: r) (inp : List Token) (oe : OutErr)
    (rp : RstPin) (ns : Nat) (rd : RegVal) (fc : Nat) (hr : rp ≠ .low → s.rst ≠ .low) :
    StepTaken s { s with sched := r, inp := inp, outErr := oe, rst := rp, nodeSel := ns, rdData := rd, freeCtr := fc } :=
  .quiet inp oe rp ns rd fc hr (by rw [hs]; rfl)

theorem step_cases_nil (hs : s.sched = []) (h : step s = .next t) : StepTaken s t := by
  cases hd : driverOp s.phase with
  | some i =>
    rw [step_driver hs hd] at h
    exact .driver i (.inl hs) hd (by rwa [spent_nil hs])
  | none =>
    rw [step_rest hs hd] at h
    cases h
    exact .quiet s.inp s.outErr s.rst s.nodeSel s.rdData s.freeCtr id (by obtain ⟨⟩ := s; simp_all)

/-- Everything a step can be. -/
theorem step_cases (h : step s = .next t) : StepTaken s t := by
  cases hs : s.sched with
  | nil => exact step_cases_nil hs h
  | cons e r =>
    have host := fun inp oe rp ns rd fc => StepTaken.of_host hs inp oe rp ns rd fc
    have hsp := spent_cons hs
    have hhead : s.sched.head? = some e := by rw [hs]; rfl
    rw [step, fetch_cons hs, ← hsp] at h
    split_ifs at h with hig
    · cases h
      rw [hsp]
      exact host s.inp s.outErr _ s.nodeSel s.rdData s.freeCtr clocked_ne_low
    cases e with
    | run g =>
      have hr : s.rst = .low := by simpa [HostEvent.ignored] using hig
      simp only [hostAction, sequence, spent_phase] at h
      cases hi : itemDue g s.spent with
      | some i => rw [hi] at h; exact .item i g hr hi h
      | none =>
        rw [hi] at h
        cases hd : driverOp s.phase with
        | some i => rw [hd] at h; exact .driver i (.inr hr) hd h
        | none =>
          rw [hd] at h
          cases h
          rw [hsp]
          exact host s.inp s.outErr _ s.nodeSel s.rdData s.freeCtr clocked_ne_low
    | regWr n v =>
      simp only [hostAction, registerWrite] at h
      split_ifs at h with h0 h15
      · subst h0
        have hr : s.rst = .low := by cases hp : s.rst <;> simp [HostEvent.ignored, hp] at hig ⊢
        cases hd : decode .cmd (msbBits 8 v) with
        | ok q => obtain ⟨i, rest⟩ := q; rw [hd] at h; exact .command i v hr hhead (decode_cmd_msbBits hd) h
        | error q =>
          rw [hd] at h
          cases h
          unfold reservedCommand
          split_ifs with ha
          · exact .reserved v hr hhead (by rwa [spent_phase] at ha) rfl
          · rw [hsp]
            exact host s.inp s.outErr _ s.nodeSel s.rdData s.freeCtr clocked_ne_low
      · cases h; rw [hsp]; exact host s.inp s.outErr _ _ s.rdData s.freeCtr clocked_ne_low
      · cases h; rw [hsp]; exact host s.inp s.outErr _ s.nodeSel s.rdData s.freeCtr clocked_ne_low
    | regRd n => cases h; rw [hsp]; exact host s.inp s.outErr _ s.nodeSel _ _ clocked_ne_low
    | token k v => cases h; rw [hsp]; exact host _ s.outErr _ s.nodeSel s.rdData s.freeCtr clocked_ne_low
    | outErr p =>
      cases h
      unfold sinkDrives
      rw [spent_phase]
      split_ifs with hb
      · exact .ioError p hb.2 rfl
      · rw [hsp]; exact host s.inp p _ s.nodeSel s.rdData s.freeCtr clocked_ne_low
    | ioErr =>
      cases h
      rw [spent_phase]
      split_ifs with hb
      · exact .ioError s.outErr hb (by rw [hsp])
      · rw [hsp]; exact host s.inp s.outErr _ s.nodeSel s.rdData s.freeCtr clocked_ne_low
    | rst => cases h; exact .reset hhead rfl
    | rstLow => cases h; rw [hsp]; exact host s.inp s.outErr _ s.nodeSel s.rdData s.freeCtr released_ne_low
    | issue c a =>
      have hr : s.rst = .low := by simpa [HostEvent.ignored] using hig
      simp only [hostAction] at h
      cases hd : decode (.uop a.hdr) (msbBits 6 c.toNat) with
      | ok q => obtain ⟨i, rest⟩ := q; rw [hd] at h; exact .issued i c a hr hhead (decode_uop_msbBits hd) h
      | error q => rw [hd] at h; cases h

/-! ### What every step keeps -/

theorem driverOp_not_cmd {p : Phase} {i : Instr} (h : driverOp p = some i) : cmdWord i = none := by
  cases p <;> cases h <;> rfl

theorem driverOp_busy {p : Phase} {i : Instr} (h : driverOp p = some i) : p.busy = true := by
  cases p <;> cases h <;> rfl

theorem cmdWord_of_stream {d : Due} {i : Instr} (h : i.format = .stream d) : cmdWord i = none := by
  cases i <;> cases h <;> rfl

theorem decodeHere_not_cmd {d : Due} {i : Instr} (h : decodeHere d s = some i) : cmdWord i = none :=
  cmdWord_of_stream (encode_of_decodeDue (length_bitsAt _ _ _) (decodeHere_eq h).2).2.1

theorem encRecordDue_not_cmd {i : Instr} (h : encRecordDue s = some i) : cmdWord i = none := by
  unfold encRecordDue at h
  split at h
  · obtain ⟨p, -, rfl⟩ := toOption_map_eq h; rfl
  · split at h
    · obtain ⟨p, -, rfl⟩ := toOption_map_eq h; rfl
    · cases h

/-- What is due is an element of the stream. -/
theorem elementDue_not_cmd {i : Instr} (h : elementDue s = some i) : cmdWord i = none := by
  unfold elementDue at h
  split at h
  · cases h; rfl
  · exact encRecordDue_not_cmd h
  · split_ifs at h; cases h; rfl
  · cases h; rfl
  · cases h; rfl
  · exact decodeHere_not_cmd h
  · obtain ⟨q, -, h⟩ := Option.bind_eq_some_iff.mp h
    exact decodeHere_not_cmd h
  · split at h
    · split_ifs at h; exact decodeHere_not_cmd h
    · cases h
  · exact decodeHere_not_cmd h
  · exact decodeHere_not_cmd h
  · cases h

theorem recordDue_not_cmd {i : Instr} (h : recordDue s = some i) : cmdWord i = none := by
  unfold recordDue at h
  split at h
  · split_ifs at h
    obtain ⟨q, -, h⟩ := Option.bind_eq_some_iff.mp h
    split_ifs at h <;> exact decodeHere_not_cmd h
  · exact elementDue_not_cmd h

theorem elementDue_at_rest (h : driverOp s.phase = none) : elementDue s = none := by
  cases hp : s.phase <;> simp [hp, driverOp] at h <;> simp [elementDue, hp]

theorem recordDue_at_rest (h : driverOp s.phase = none) : recordDue s = none := by
  rw [← elementDue_at_rest h]
  cases hp : s.phase <;> simp [hp, driverOp] at h <;> simp [recordDue, hp]

theorem itemDue_not_cmd {g : Grain} {i : Instr} (h : itemDue g s = some i) : cmdWord i = none := by
  unfold itemDue at h
  split_ifs at h
  cases g
  · cases h
  · exact elementDue_not_cmd h
  · exact recordDue_not_cmd h

/-- In IDLE, DONE and FAULT no item is due. -/
theorem itemDue_at_rest (g : Grain) (h : driverOp s.phase = none) : itemDue g s = none := by
  unfold itemDue
  split_ifs
  · cases g
    · rfl
    · exact elementDue_at_rest h
    · exact recordDue_at_rest h
  · rfl

theorem itemDue_busy {g : Grain} {i : Instr} (h : itemDue g s = some i) : s.phase.busy = true := by
  cases hd : driverOp s.phase with
  | none => rw [itemDue_at_rest g hd] at h; cases h
  | some j => exact driverOp_busy hd

theorem Phase.ne_of_busy {p : Phase} (h : p.busy = true) : p ≠ .idle ∧ p ≠ .done ∧ p ≠ .fault := by
  cases p <;> simp [Phase.busy] at h ⊢

theorem Phase.ne_fault_of_accepts {p : Phase} (h : p.accepts = true) : p ≠ .fault := by rintro rfl; cases h

/-- The actions that clear the fault record (10_state.md R32, 46_host.md R145 to R149): reset, an abort, a job start. -/
def ClearsRecord (s : State) : Prop :=
  s.sched.head? = some .rst ∨
    (∃ v : Nat, s.sched.head? = some (.regWr 0 v) ∧ (v % 256 = 0xf0 ∨
      ((s.phase = .idle ∨ s.phase = .done) ∧ (v % 256 = 0x20 ∨ v % 256 / 16 = 1)))) ∨
    ∃ (c : BitVec 6) (a : UopArgs), s.sched.head? = some (.issue c a) ∧ (c = 0b110011#6 ∨
      ((s.phase = .idle ∨ s.phase = .done) ∧ (c = 0b110001#6 ∨ c = 0b110010#6)))

/-- An operation or a command issued by its code is pending (log 3). -/
def Issues (s : State) : Prop := ∃ (c : BitVec 6) (a : UopArgs), s.sched.head? = some (.issue c a)

/-- A step as the invariants see it, from the state with its oldest action spent. -/
inductive StepKept (s t : State) : Prop
  | goes (A : Part → Prop) (a : UopArgs) (n : Next A { s.spent with args := a } t) (hr : s.phase = .idle → s.rst = .low)
      (hp : s.phase ≠ .fault ∨ Issues s)
  | raised (c : FCode) (p : OutErr) (hc : c ≠ .none) (hr : s.phase = .idle → s.rst = .low) (hp : s.phase ≠ .fault)
      (e : t = raise c 0#6 { s.spent with outErr := p })
  | compress (size : BitVec 4) (a : UopArgs) (hr : s.rst = .low) (hs : ClearsRecord s)
      (e : t = startCompress size { s.spent with args := a })
  | decompress (a : UopArgs) (hr : s.rst = .low) (hs : ClearsRecord s) (e : t = startDecompress { s.spent with args := a })
  | abort (a : UopArgs) (hs : ClearsRecord s) (e : t = abort { s.spent with args := a })
  | reset (hs : s.sched.head? = some .rst) (e : t = hardReset s.spent)
  | quiet (inp : List Token) (oe : OutErr) (rp : RstPin) (ns : Nat) (rd : RegVal) (fc : Nat) (a : UopArgs)
      (hr : rp ≠ .low → s.rst ≠ .low)
      (e : t = { s with
        sched := s.sched.tail, inp := inp, outErr := oe, rst := rp, nodeSel := ns, rdData := rd, freeCtr := fc, args := a })

/-- A command run from a state whose action is spent. -/
theorem StepKept.of_command {i : Instr} {a : UopArgs} (hr : s.rst = .low)
    (hcompress : ∀ size, i = .cmdCompress size → s.phase.accepts = true → ClearsRecord s)
    (hdecompress : i = .cmdDecompress → s.phase.accepts = true → ClearsRecord s)
    (habort : i = .cmdAbort → ClearsRecord s)
    (hgoes : cmdWord i = none → Issues s)
    (h : exec i { s.spent with args := a } = .next t) : StepKept s t := by
  have hp : ({ s.spent with args := a } : State).phase = s.phase := spent_phase s
  cases exec_cases h with
  | goes hc n => exact .goes _ a n (fun _ => hr) (.inr (hgoes hc))
  | stays e =>
    refine .quiet s.inp s.outErr s.spent.rst s.nodeSel s.rdData s.freeCtr a (fun q => absurd (spent_rst_low hr) q) ?_
    rw [e, spent_eq]
  | compress size hi ha e => exact .compress size a hr (hcompress size hi (hp ▸ ha)) e
  | decompress hi ha e => exact .decompress a hr (hdecompress hi (hp ▸ ha)) e
  | abort hi e => exact .abort a (habort hi) e

/-- The words of the commands, as the numbers that spell them. -/
theorem cmdWord_number {i : Instr} {v : Nat} (h : cmdWord i = some (BitVec.ofNat 8 v)) :
    (∀ size, i = .cmdCompress size → v % 256 / 16 = 1) ∧ (i = .cmdDecompress → v % 256 = 0x20) ∧
      (i = .cmdAbort → v % 256 = 0xf0) := by
  refine ⟨?_, ?_, ?_⟩
  · rintro size rfl
    have := congrArg BitVec.toNat (Option.some.inj h)
    have hs := size.isLt
    rw [BitVec.toNat_append, BitVec.toNat_ofNat, Nat.shiftLeft_eq, BitVec.toNat_ofNat] at this
    rw [← this, Nat.mul_comm, ← Nat.two_pow_add_eq_or_of_lt hs]
    omega
  all_goals
    rintro rfl
    have := congrArg BitVec.toNat (Option.some.inj h)
    simpa using this.symm

theorem step_kept (h : step s = .next t) : StepKept s t := by
  have args : ({ s.spent with args := s.spent.args } : State) = s.spent := rfl
  cases step_cases h with
  | driver i hs hd h =>
    have hne := Phase.ne_of_busy (driverOp_busy hd)
    exact .goes _ s.spent.args (exec_next (driverOp_not_cmd hd) h) (fun q => absurd q hne.1) (.inl hne.2.2)
  | item i g hr hd h =>
    have hne := Phase.ne_of_busy (itemDue_busy hd)
    rw [spent_phase] at hne
    exact .goes _ s.spent.args (exec_next (itemDue_not_cmd hd) h) (fun q => absurd q hne.1) (.inl hne.2.2)
  | command i v hr hs hw h =>
    obtain ⟨hcompress, hdecompress, habort⟩ := cmdWord_number hw
    refine .of_command (a := s.spent.args) hr (fun size hi ha => ?_) (fun hi ha => ?_) (fun hi => ?_) (fun hc => ?_) h
    · exact .inr (.inl ⟨v, hs, .inr ⟨s.phase.accepts_iff.mp ha, .inr (hcompress size hi)⟩⟩)
    · exact .inr (.inl ⟨v, hs, .inr ⟨s.phase.accepts_iff.mp ha, .inl (hdecompress hi)⟩⟩)
    · exact .inr (.inl ⟨v, hs, .inl (habort hi)⟩)
    · rw [hc] at hw; cases hw
  | reserved v hr hs ha e => exact .raised .badCmd s.spent.outErr (by simp) (fun _ => hr) (Phase.ne_fault_of_accepts ha) e
  | issued i c a hr hs hw h =>
    refine .of_command (a := a) hr (fun size hi ha => ?_) (fun hi ha => ?_) (fun hi => ?_) (fun _ => ⟨c, a, hs⟩) h
    · exact .inr (.inr ⟨c, a, hs, .inr ⟨s.phase.accepts_iff.mp ha, .inl (by rw [hw, hi]; rfl)⟩⟩)
    · exact .inr (.inr ⟨c, a, hs, .inr ⟨s.phase.accepts_iff.mp ha, .inr (by rw [hw, hi]; rfl)⟩⟩)
    · exact .inr (.inr ⟨c, a, hs, .inl (by rw [hw, hi]; rfl)⟩)
  | ioError p hb e =>
    have hne := Phase.ne_of_busy hb
    exact .raised .ioError p (by simp) (fun q => absurd q hne.1) hne.2.2 e
  | reset hs e => exact .reset hs e
  | quiet inp oe rp ns rd fc hr e => exact .quiet inp oe rp ns rd fc s.args hr e

/-! ### The statements -/

/-- Settles O52: an instruction only appends to OUT; a job start empties it; nothing else touches it. -/
theorem outputOnlyGrows : Obligations.OutputOnlyGrows := by
  intro s t h
  have hout : s.spent.out = s.out := by rw [spent_eq]
  cases step_kept h with
  | goes A a n => exact .inl (hout ▸ n.1.out)
  | raised c p hc hr hp e => rw [e]; exact .inl (hout ▸ List.prefix_refl _)
  | compress size a hr hs e => rw [e]; exact .inr ⟨rfl, .inl rfl⟩
  | decompress a hr hs e => rw [e]; exact .inr ⟨rfl, .inr rfl⟩
  | abort a hs e => rw [e]; exact .inl (hout ▸ List.prefix_refl _)
  | reset hs e => rw [e]; exact .inl (hout ▸ List.prefix_refl _)
  | quiet inp oe rp ns rd fc a hr e => rw [e]; exact .inl (List.prefix_refl _)

/-- Settles O53: an instruction keeps the parameters, does not go back, and leaves the record or enters a fault; the host's
actions that do more are reset, the abort and the job starts, which clear the record. -/
theorem parametersPositionAndRecord : Obligations.ParametersPositionAndRecord := by
  intro s t h
  have hpar : s.spent.par = s.par := by rw [spent_eq]
  have hpos : s.spent.inBitPos = s.inBitPos := by rw [spent_eq]
  have hrec : SameRecord s s.spent := by rw [spent_eq]; exact .refl s
  cases step_kept h with
  | goes A a n hr hp =>
    refine ⟨n.1.par.trans hpar, .inl (hpos ▸ n.1.pos), n.2.imp (fun q => hrec.trans q) fun q => ?_⟩
    exact .inl ⟨q.1, q.2.1, q.2.2, hp⟩
  | raised c p hc hr hp e =>
    rw [e]
    exact ⟨hpar, .inl (hpos ▸ le_refl _), .inr (.inl ⟨rfl, rfl, hc, .inl hp⟩)⟩
  | compress size a hr hs e => rw [e]; exact ⟨hpar, .inr ⟨rfl, .inl rfl⟩, .inr (.inr ⟨rfl, rfl, rfl, hs⟩)⟩
  | decompress a hr hs e => rw [e]; exact ⟨hpar, .inr ⟨rfl, .inr (.inl rfl)⟩, .inr (.inr ⟨rfl, rfl, rfl, hs⟩)⟩
  | abort a hs e => rw [e]; exact ⟨hpar, .inl (hpos ▸ le_refl _), .inr (.inr ⟨rfl, rfl, rfl, hs⟩)⟩
  | reset hs e => rw [e]; exact ⟨hpar, .inr ⟨rfl, .inr (.inr hs)⟩, .inr (.inr ⟨rfl, rfl, rfl, .inl hs⟩)⟩
  | quiet inp oe rp ns rd fc a hr e => rw [e]; exact ⟨rfl, .inl (le_refl _), .inl ⟨rfl, rfl, rfl⟩⟩

/-- Settles O54: the flags are parts an instruction writes only if it owns them. -/
theorem flagsWrittenOnlyByTheirOperations : Obligations.FlagsWrittenOnlyByTheirOperations := by
  intro s t i h hcompress hdecompress habort
  cases exec_cases h with
  | goes hc n => exact ⟨n.1.found.symm, n.1.more.symm, n.1.empty.symm⟩
  | stays e => rw [e]; exact ⟨.inl rfl, .inl rfl, .inl rfl⟩
  | compress size hi => exact absurd hi (hcompress size)
  | decompress hi => exact absurd hi hdecompress
  | abort hi => exact absurd hi habort

/-- Settles O55: the tree is a part that only TREE.NEW and what contains it write. -/
theorem entriesSymbolsAndRootStay : Obligations.EntriesSymbolsAndRootStay := by
  intro s t i h hcompress hdecompress hnew hdec hhdr
  cases exec_cases h with
  | goes hc n =>
    have hw : ¬ Writes i .tree := fun q => q.elim hnew fun q => q.elim hdec fun ⟨v, hv⟩ => hhdr v hv
    exact ⟨n.1.root.resolve_left hw, n.1.entries.resolve_left hw⟩
  | stays e => rw [e]; exact ⟨rfl, KeepsEntries.refl s.nodes⟩
  | compress size hi => exact absurd hi (hcompress size)
  | decompress hi => exact absurd hi hdecompress
  | abort hi e => rw [e]; exact ⟨rfl, KeepsEntries.refl s.nodes⟩

/-- Settles O56: an instruction keeps the canonical form and the unused bits, and runs only while the reset input is low;
what clears a job makes both anew. -/
theorem stepKeepsCanonicalForm : Obligations.StepKeepsCanonicalForm := by
  rintro s t ⟨hw, hf, hi⟩ h
  have hw' : Memory.wf s.spent.nodes s.spent.map := by rw [spent_eq]; exact hw
  have hf' : FramerOk s.spent := by rw [spent_eq]; exact hf
  have low : (s.phase = .idle → s.rst = .low) → s.spent.rst = .low := fun hr =>
    spent_rst_low (not_not.mp fun q => q (hr (hi q)))
  have zero : ∀ c : Fin 8, (0#8).toNat % 2 ^ (8 - c.val) = 0 := fun c => Nat.zero_mod _
  cases step_kept h with
  | goes A a n hr hp => exact ⟨n.1.wf hw', n.1.framer hf', fun q => absurd (n.1.rst.trans (low hr)) q⟩
  | raised c p hc hr hp e => rw [e]; exact ⟨hw', hf', fun q => absurd (low hr) q⟩
  | compress size a hr hs e => rw [e]; exact ⟨Memory.wf_nil _, zero 0, fun q => absurd (spent_rst_low hr) q⟩
  | decompress a hr hs e => rw [e]; exact ⟨Memory.wf_nil _, zero 0, fun q => absurd (spent_rst_low hr) q⟩
  | abort a hs e => rw [e]; exact ⟨hw', zero 0, fun _ => rfl⟩
  | reset hs e => rw [e]; exact ⟨Memory.wf_nil _, zero 0, fun _ => rfl⟩
  | quiet inp oe rp ns rd fc a hr e => rw [e]; exact ⟨hw, hf, fun q => hi (hr q)⟩

end Sys2Proof.Machine
end

section
/-! ## O51: an item of the stream is its micro-operations (00_scope.md R11)

`Drives` is a run of the driver operations alone, whatever actions the host has pending. An element other than PATH is one
operation; PATH is a DEC.WALK for each bit and one for the leaf; a record is its parts in turn. With nothing pending such
a run is one of the machine. -/

namespace Sys2Proof.Machine

variable {s t r : State} {u : BitVec 6}

/-! ### Runs of driver operations -/

/-- The driver operation of the phase leads from `s` to `t`. -/
def DriverStep (s t : State) : Prop := ∃ i, driverOp s.phase = some i ∧ exec i s = .next t

/-- Some number of driver operations leads from `s` to `t`; those before the last keep the host's pending actions. -/
inductive Drives : State → State → Prop
  | refl (s : State) : Drives s s
  | last {s t : State} (h : DriverStep s t) : Drives s t
  | more {s r t : State} (h : DriverStep s r) (hs : r.sched = s.sched) (d : Drives r t) : Drives s t

/-- What every driver operation keeps, a run of them keeps. -/
theorem Drives.keeps {P : State → Prop} (hP : ∀ {s t : State}, P s → DriverStep s t → P t) (d : Drives s t) : P s → P t := by
  induction d with
  | refl => exact id
  | last h => exact fun p => hP p h
  | more h _ _ ih => exact fun p => ih (hP p h)

theorem DriverStep.step (h : DriverStep s t) (hs : s.sched = []) : Machine.step s = .next t := by
  obtain ⟨i, hd, he⟩ := h
  rw [step_driver hs hd, he]

theorem Drives.reaches (d : Drives s t) : s.sched = [] → Reaches s t := by
  induction d with
  | refl s => exact fun _ => .refl s
  | last h => exact fun hs => .one (h.step hs)
  | more h e _ ih => exact fun hs => Reaches.trans (.one (h.step hs)) (ih (e.trans hs))

/-! ### One operation -/

/-- With the pin low a driver operation is its lines. -/
theorem DriverStep.of_lines {i : Instr} {body : State → Flow Unit} (hd : driverOp s.phase = some i) (ho : s.outErr = .low)
    (hx : exec i s = withSink (uopCode i) body s) (h : (body s).outcome s = .next t) : DriverStep s t :=
  ⟨i, hd, by rw [hx, withSink_low ho, h]⟩

theorem outcome_of_not_waits {x : Flow Unit} (h : x ≠ .waits) (s s' : State) : x.outcome s = x.outcome s' := by
  cases x with
  | waits => exact absurd rfl h
  | _ => rfl

/-- An operation, then the update of the record in the phase it leads to; or the operation alone, where it does not go
through. -/
theorem drives_then_update {i k : Instr} {f g : State → Flow Unit} {s₀ : State} (hd : driverOp s.phase = some i)
    (ho : s.outErr = .low) (hx : exec i s = withSink (uopCode i) f s)
    (hf : (f s).Sat (fun _ r => driverOp r.phase = some k ∧ r.sched = s.sched ∧ r.outErr = .low) (fun _ => True) True)
    (hk : ∀ r, exec k r = withSink (uopCode k) g r) (hw : ∀ r, g r ≠ .waits)
    (h : ((f s).bind fun _ r => g r).outcome s₀ = .next t) : Drives s t ∨ t = s₀ := by
  cases e : f s with
  | ok a r =>
    rw [e] at hf h
    obtain ⟨hk1, hs1, ho1⟩ := hf
    refine .inl (.more (.of_lines hd ho hx (by rw [e]; rfl)) hs1 (.last (.of_lines hk1 ho1 (hk r) ?_)))
    rw [outcome_of_not_waits (hw r) r s₀]
    exact h
  | raised r =>
    rw [e] at h
    exact .inl (.last (.of_lines hd ho hx (by rw [e]; exact h)))
  | waits => rw [e] at h; cases h; exact .inr rfl
  | stops f => rw [e] at h; cases h
  | refuses q => rw [e] at h; cases h

theorem encUpdateLines_not_waits (s : State) : encUpdateLines s ≠ .waits :=
  bind_not_waits (applyRecord_not_waits s) fun _ => by simp

theorem decUpdateLines_not_waits (s : State) : decUpdateLines s ≠ .waits :=
  bind_not_waits (applyRecord_not_waits s) fun _ => by simp

/-! ### The compressor's record -/

theorem encRecord_drives (j : JobInv s) (hp : s.phase = .cEmit) (ho : s.outErr = .low)
    (h : (encRecord s).outcome s = .next t) : Drives s t := by
  refine (drives_then_update (i := .encSymbol) (k := .encUpdate) (by rw [hp]; rfl) ho rfl ?_ (fun _ => rfl)
    encUpdateLines_not_waits h).elim id fun e => e ▸ .refl s
  refine (encSymbolLines_sat (j.tree (by rw [hp]; rfl))).mono ?_ fun _ _ => trivial
  rintro - r ⟨g, p, b, out, acc, cnt, q, rfl, -, -, -, -, -, hq⟩
  exact ⟨rfl, rfl, hq ho⟩

/-! ### The decoder's walk -/

/-- The first edge of a walk that goes through is a DEC.WALK. -/
theorem decWalkLines_of_walkPath_cons {b : Bool} {p : List Bool} (ho : s.outErr = .low)
    (h : walkPath (b :: p) s = .ok () t) (hb : bitsAt s.inBytes s.inBitPos (p.length + 1) = b :: p) :
    ∃ n : Node, decWalkLines s = .ok () (stepTo n b { s with inBitPos := s.inBitPos + 1 }) ∧
      walkPath p (stepTo n b { s with inBitPos := s.inBitPos + 1 }) = .ok () t ∧
      bitsAt s.inBytes (s.inBitPos + 1) p.length = p := by
  rw [Nat.add_comm, bitsAt_add] at hb
  obtain ⟨h1, h2⟩ := List.append_inj (s₂ := [b]) hb (length_bitsAt _ _ _)
  simp only [walkPath] at h
  unfold decWalkLines
  cases e : curNode s with
  | error f => rw [e] at h; cases h
  | ok n =>
    rw [e] at h
    simp only [ofExcept_ok, bind_ok] at h ⊢
    by_cases hl : n.isLeaf = true
    · rw [if_pos hl] at h; cases h
    · rw [if_neg hl] at h ⊢
      rcases needBits_cases (uopCode .decWalk) 1 s with ⟨-, e'⟩ | e' | e' | e' <;> rw [e'] at h ⊢
      · refine ⟨n, ?_, h, h2⟩
        rw [bind_ok, moment_low (s := { s with inBitPos := s.inBitPos + 1 }) ho, h1]
        rfl
      all_goals cases h

/-- The end of a walk is the DEC.WALK at the leaf. -/
theorem decWalkLines_of_walkPath_nil (ho : s.outErr = .low) (h : walkPath [] s = .ok () t) :
    decWalkLines s = .ok () t := by
  simp only [walkPath] at h
  unfold decWalkLines
  cases e : curNode s with
  | error f => rw [e] at h; cases h
  | ok n =>
    rw [e] at h
    simp only [ofExcept_ok, bind_ok] at h ⊢
    by_cases hl : n.isLeaf = true
    · rw [if_pos hl] at h ⊢; rw [goTo_low ho]; exact h
    · rw [if_neg hl] at h; cases h

/-- A walk that goes through, and what follows it. -/
theorem drives_walk (hr : Drives r t) : ∀ {p : List Bool} {s : State}, walkPath p s = .ok () r →
    bitsAt s.inBytes s.inBitPos p.length = p → s.outErr = .low → s.phase = .dWalk → r.sched = s.sched → Drives s t := by
  intro p
  induction p with
  | nil =>
    intro s h _ ho hp hs
    exact .more (.of_lines (i := .decWalk) (by rw [hp]; rfl) ho rfl (by rw [decWalkLines_of_walkPath_nil ho h]; rfl)) hs hr
  | cons b p ih =>
    intro s h hb ho hp hs
    obtain ⟨n, hl, hw, hb'⟩ := decWalkLines_of_walkPath_cons ho h hb
    have one : DriverStep s (stepTo n b { s with inBitPos := s.inBitPos + 1 }) :=
      .of_lines (i := .decWalk) (by rw [hp]; rfl) ho rfl (by rw [hl]; rfl)
    exact .more one rfl (ih hw hb' ho rfl hs)

/-! ### The leaf action -/

theorem leafNew_low (ho : s.outErr = .low) (bs : List Byte) :
    leafNew bs s = .ok () { scatter (setFound false { s with symBuf := bs }) with phase := .dUpdate } :=
  leafOut_low (s := setFound false { s with symBuf := bs }) ho

/-- Where the leaf action of a record goes through, its update is next. -/
theorem rawElement_after (ho : s.outErr = .low) (bs : List Byte) : (rawElement bs s).Sat
    (fun _ r => driverOp r.phase = some .decUpdate ∧ r.sched = s.sched ∧ r.outErr = .low) (fun _ => True) True := by
  unfold rawElement
  cases curNode s with
  | error f => trivial
  | ok n =>
    simp only [ofExcept_ok, bind_ok]
    split_ifs
    · refine ((readSymBytes_sat s.par.rawMinBits.toNat).mono (fun _ _ h => h) fun _ _ => trivial).bind ?_
      rintro bs' r ⟨-, -, q, hq, rfl⟩
      split_ifs
      · rw [leafNew_low (hq ho)]; exact ⟨rfl, rfl, hq ho⟩
      · trivial
    · trivial

theorem hitElement_after (ho : s.outErr = .low) : (hitElement s).Sat
    (fun _ r => driverOp r.phase = some .decUpdate ∧ r.sched = s.sched ∧ r.outErr = .low) (fun _ => True) True := by
  unfold hitElement leafHit
  cases curNode s with
  | error f => trivial
  | ok n =>
    simp only [ofExcept_ok, bind_ok]
    split_ifs
    · trivial
    · cases n.sym with
      | none => trivial
      | some sym =>
        dsimp only
        rw [leafOut_low (s := setFound true { s with symBuf := sym }) ho]; exact ⟨rfl, rfl, ho⟩

/-- A HIT record's leaf action is DEC.LEAF's. -/
theorem hitElement_eq {n : Node} (hc : curNode s = .ok n) (hy : n.isNyt = false) : hitElement s = decLeafLines s := by
  simp [hitElement, decLeafLines, hc, hy]

/-- A record read whose walk and leaf action are the decoder's. -/
theorem decRecord_drives {p : List Bool} {leaf : State → Flow Unit} {k : Nat} {h : Handle} (hp : s.phase = .dWalk)
    (ho : s.outErr = .low) (hb : bitsAt s.inBytes s.inBitPos p.length = p) (hw : walkPath p s = .ok () (walked k h s))
    (hl : leaf (walked k h s) = decLeafLines (walked k h s))
    (ha : (leaf (walked k h s)).Sat (fun _ r => driverOp r.phase = some .decUpdate ∧ r.sched = s.sched ∧ r.outErr = .low)
      (fun _ => True) True)
    (e : (decRecord p leaf s).outcome s = .next t) : Drives s t := by
  unfold decRecord at e
  split_ifs at e with hroot
  · rw [hw, bind_ok, hl] at e
    rw [hl] at ha
    rcases drives_then_update (s := walked k h s) (i := .decLeaf) (k := .decUpdate) rfl ho rfl ha (fun _ => rfl)
      decUpdateLines_not_waits e with d | rfl
    · exact drives_walk d hw hb ho hp rfl
    · exact .refl _
  · cases e

/-! ### The items -/

/-- The bits of a walk to a leaf that is due stand next on the stream. -/
theorem take_unread {k : Nat} {n : Node} (e : leafBelow s.nodes s.unread s.cur = some (k, n)) :
    s.unread.take k = bitsAt s.inBytes s.inBitPos k := by
  have hk : k ≤ s.inRem := by simpa [State.unread] using (leafBelow_eq e).1
  rw [unread_split k hk, List.take_left' (length_bitsAt _ _ _)]

theorem decFrame_element (b : Bool) (hb : s.inBitPos + 1 ≤ 8 * s.inBytes.length)
    (hbit : bitsAt s.inBytes s.inBitPos 1 = [b]) : frameElement b s = decFrameLines s := by
  unfold frameElement decFrameLines
  rw [needBits_here hb, hbit]
  rfl

theorem elementDue_drives (j : JobInv s) (ho : s.outErr = .low) {i : Instr} (hi : elementDue s = some i)
    (h : exec i s = .next t) : Drives s t := by
  unfold elementDue at hi
  split at hi <;> rename_i hp
  case h_1 =>
    cases hi
    simp only [exec, execHdr, hp, if_true] at h
    exact .last ⟨.encHdr, by rw [hp]; rfl, h⟩
  case h_2 =>
    unfold encRecordDue at hi
    split at hi
    · rename_i g hlk
      obtain ⟨p, hpath, rfl⟩ := toOption_map_eq hi
      simp only [exec, execRecHit, hp, hlk, hpath, if_true, withSink_low ho] at h
      exact encRecord_drives j hp ho h
    · rename_i hlk
      split at hi
      · rename_i g hy
        obtain ⟨p, hpath, rfl⟩ := toOption_map_eq hi
        simp only [exec, execRecNew, hp, hlk, hy, hpath, and_self, if_true, withSink_low ho] at h
        exact encRecord_drives j hp ho h
      · cases hi
  case h_3 =>
    split_ifs at hi with hm
    cases hi
    simp only [exec, execF0, hp, hm, if_true] at h
    exact .last ⟨.encFrame, by rw [hp]; rfl, h⟩
  case h_4 =>
    cases hi
    simp only [exec, execEos, hp] at h
    exact .last ⟨.encEos, by rw [hp]; rfl, h⟩
  case h_5 =>
    cases hi
    simp only [exec, execPad, hp, if_true, withSink_low ho] at h
    exact .last (.of_lines (i := .encFlush) (body := fun s => encFlushLines (padBits s) s) (by rw [hp]; rfl) ho rfl h)
  case h_6 =>
    obtain ⟨hb, hi⟩ := decodeHere_eq hi
    simp only [decodeDue] at hi
    split_ifs at hi
    cases hi
    simp only [Format.width] at hb
    simp only [exec, execHdr, hp, withSink_low ho, Format.width] at h
    rw [needBits_here hb, bind_ok] at h
    refine .last (.of_lines (i := .decHdr) (body := decHdrLines) (by rw [hp]; rfl) ho rfl ?_)
    unfold decHdrLines
    rw [needBits_here hb, bind_ok]
    exact h
  case h_7 =>
    obtain ⟨⟨k, n⟩, hlb, hi⟩ := Option.bind_eq_some_iff.mp hi
    obtain ⟨hb, hi⟩ := decodeHere_eq hi
    simp only [decodeDue] at hi
    cases hi
    simp only [exec, execPath, hp, withSink_low ho] at h
    obtain ⟨g, -, hw⟩ := walkPath_here hlb hb
    rw [take_unread hlb] at hw
    simp only [Format.width] at h
    rw [hw] at h
    cases h
    exact drives_walk (.refl _) hw (by rw [length_bitsAt]) ho hp rfl
  case h_8 =>
    obtain ⟨g, n, hc, hn, hlf⟩ := j.leaf hp
    rw [curNode_eq hc hn] at hi
    dsimp only at hi
    split_ifs at hi with hy
    obtain ⟨-, hi⟩ := decodeHere_eq hi
    simp only [decodeDue, Format.width] at hi
    split_ifs at hi with h115
    cases hi
    simp only [exec, execRaw, hp, withSink_low ho] at h
    rw [rawElement_eq ho (curNode_eq hc hn) hy rfl h115.1] at h
    exact .last (.of_lines (i := .decLeaf) (body := decLeafLines) (by rw [hp]; rfl) ho rfl h)
  case h_9 =>
    obtain ⟨hb, hi⟩ := decodeHere_eq hi
    obtain ⟨b, hbit⟩ := List.length_eq_one_iff.mp (length_bitsAt s.inBytes s.inBitPos 1)
    have hx : exec i s = withSink (uopCode .decFrame) (frameElement b) s := by
      simp only [Format.width, hbit] at hi
      cases b <;> cases hi <;> simp only [exec, execF0, execEos, hp]
    rw [hx, withSink_low ho, decFrame_element b hb hbit] at h
    exact .last (.of_lines (i := .decFrame) (body := decFrameLines) (by rw [hp]; rfl) ho rfl h)
  case h_10 =>
    obtain ⟨-, hi⟩ := decodeHere_eq hi
    simp only [decodeDue] at hi
    split_ifs at hi
    cases hi
    simp only [exec, execPad, hp] at h
    exact .last ⟨.decDrain, by rw [hp]; rfl, h⟩
  case h_11 => cases hi

theorem recordDue_drives (j : JobInv s) (ho : s.outErr = .low) {i : Instr} (hi : recordDue s = some i)
    (h : exec i s = .next t) : Drives s t := by
  unfold recordDue at hi
  split at hi
  · rename_i hp
    split_ifs at hi
    obtain ⟨⟨k, n⟩, hlb, hi⟩ := Option.bind_eq_some_iff.mp hi
    dsimp only at hi
    split_ifs at hi with hy
    · obtain ⟨hb, hi⟩ := decodeHere_eq hi
      simp only [decodeDue] at hi
      split_ifs at hi with h115
      cases hi
      obtain ⟨g, hn, hw⟩ := walkPath_here hlb (by simp only [Format.width] at hb; omega)
      rw [take_unread hlb] at hw
      have hcut := bitsAt_add s.inBytes s.inBitPos k (8 * rawCount s (s.inBitPos + k))
      simp only [exec, execRecNew, hp, withSink_low ho, Format.width, hcut, List.take_left' (length_bitsAt _ _ _),
        List.drop_left' (length_bitsAt _ _ _)] at h
      exact decRecord_drives hp ho (by rw [length_bitsAt]) hw
        (rawElement_eq (s := walked k g s) ho (curNode_eq (s := walked k g s) rfl hn) hy rfl h115.1)
        (rawElement_after (s := walked k g s) ho _) h
    · obtain ⟨hb, hi⟩ := decodeHere_eq hi
      simp only [decodeDue] at hi
      split_ifs at hi
      cases hi
      obtain ⟨g, hn, hw⟩ := walkPath_here hlb hb
      rw [take_unread hlb] at hw
      simp only [exec, execRecHit, hp, withSink_low ho] at h
      exact decRecord_drives hp ho (by rw [length_bitsAt]) hw
        (hitElement_eq (s := walked k g s) (curNode_eq (s := walked k g s) rfl hn) (by simpa using hy))
        (hitElement_after (s := walked k g s) ho) h
  · exact elementDue_drives j ho hi h

/-- An item is due only while the pin is low, and it is the run of its operations. -/
theorem itemDue_drives (j : JobInv s) {g : Grain} {i : Instr} (hi : itemDue g s = some i) (h : exec i s = .next t) :
    Drives s t := by
  unfold itemDue at hi
  split_ifs at hi with ho
  cases g with
  | microop => cases hi
  | element => exact elementDue_drives j ho hi h
  | record => exact recordDue_drives j ho hi h

/-- Settles O51: an item is a run of driver operations, and with nothing pending that is a run of the machine. -/
theorem itemIsItsMicroOperations : Obligations.ItemIsItsMicroOperations :=
  fun _ _ _ _ j hs _ hi h => (itemDue_drives j hi h).reaches hs

end Sys2Proof.Machine
end

section
/-! ## O57, O58, O59 and O37: the invariant and the facts of a job, and FAULT (42_tree.md R104, 60_exceptions.md R165)

The invariant is kept by each driver operation and each command, so a step under a real host goes on and keeps it. For
the facts, `Goes` says what a fault leaves (OUT_CLOSED); what an operation that goes through leaves is said once per
operation; an item is a run of operations. -/

namespace Sys2Proof.Machine

variable {s t : State} {u : BitVec 6}

/-! ### The job invariant -/

/-- What a step makes of what it fetched. -/
def Fetched.outcome : Fetched → Out
  | .run i s => exec i s
  | .quiet s => .next s
  | .reject r => .refused r

theorem step_eq (s : State) : step s = (fetch s).outcome := by
  unfold step Fetched.outcome
  cases fetch s <;> rfl

/-- An outcome that goes on, to a state of the invariant. -/
def GoesOn (o : Out) : Prop := ∃ t, o = .next t ∧ JobInv t

theorem JobInv.goesOn (j : JobInv s) : GoesOn (.next s) := ⟨s, rfl, j⟩

theorem itemDue_job (j : JobInv s) {g : Grain} {i : Instr} (e : itemDue g s = some i) : GoesOn (exec i s) := by
  unfold itemDue at e
  split_ifs at e with ho
  cases g with
  | microop => cases e
  | element => exact elementDue_job j ho e
  | record => exact recordDue_job j ho e

theorem sequence_job (j : JobInv s) (g : Grain) : GoesOn (sequence g s).outcome := by
  unfold sequence
  cases hi : itemDue g s with
  | some i => exact itemDue_job j hi
  | none =>
    cases hd : driverOp s.phase with
    | some i => exact driverOp_job j hd
    | none => exact j.goesOn

theorem registerWrite_job (j : JobInv s) (n v : Nat) : GoesOn (registerWrite n v s).outcome := by
  unfold registerWrite
  split_ifs
  · cases hd : decode .cmd (msbBits 8 v) with
    | ok q => exact cmd_job j (decodeCmd_eq_ok_iff.mpr (decode_cmd_msbBits hd))
    | error q =>
      refine JobInv.goesOn ?_
      unfold reservedCommand
      split_ifs
      · exact j.base.fault _
      · exact j
  · exact JobInv.goesOn (j.host_change j.host)
  · exact j.goesOn

theorem sinkDrives_job (j : JobInv s) (p : OutErr) : JobInv (sinkDrives p s) := by
  unfold sinkDrives
  split_ifs
  · exact j.base.pinFault p
  · exact j.pin p

theorem hardReset_job (b : JobBase s) : JobInv (hardReset s) :=
  JobBase.inv ⟨b.host, b.chain, Nat.zero_le _⟩ rfl

/-- Every action of a real host. -/
theorem hostAction_job (j : JobInv s) {e : HostEvent} (he : e.isHost = true) : GoesOn (hostAction e s).outcome := by
  cases e with
  | run g => exact sequence_job j g
  | regWr n v => exact registerWrite_job j n v
  | regRd n => exact JobInv.goesOn (j.host_change j.host)
  | token k v => exact JobInv.goesOn (j.host_change j.host)
  | outErr p => exact (sinkDrives_job j p).goesOn
  | ioErr =>
    refine JobInv.goesOn ?_
    split_ifs
    · exact j.base.fault _
    · exact j
  | rst => exact (hardReset_job j.base).goesOn
  | rstLow => exact JobInv.goesOn (j.host_change j.host)
  | issue c a => cases he

theorem JobInv.spent (j : JobInv s) : JobInv s.spent := by
  rw [spent_eq]
  exact j.host_change fun e he => j.host e (List.mem_of_mem_tail he)

/-- Settles O57: the fetched instruction or host action goes on from the state whose action is spent. -/
theorem stepGoesOnAndKeepsJob : Obligations.StepGoesOnAndKeepsJob := by
  intro s j
  show GoesOn (step s)
  rw [step_eq]
  cases hs : s.sched with
  | nil => rw [fetch, hs]; exact sequence_job j .microop
  | cons e r =>
    rw [fetch_cons hs, ← spent_cons hs]
    split_ifs
    · exact j.spent.goesOn
    · exact hostAction_job j.spent (j.host e (by rw [hs]; exact List.mem_cons_self))

/-! ### FAULT -/

/-- Settles O37: in FAULT no operation and no item is due and a command other than the abort is dropped; what is left is
the abort, hardware reset, and what the host owns. -/
theorem faultLeftOnlyByAbortOrReset : Obligations.FaultLeftOnlyByAbortOrReset := by
  intro s t hp hh h
  have hd : driverOp s.phase = none := by rw [hp]; rfl
  have hna : ¬ s.phase.accepts = true := by rw [hp]; decide
  cases step_cases h with
  | driver i hs hd' => rw [hd] at hd'; cases hd'
  | item i g hr hi => rw [itemDue_at_rest g (by rwa [spent_phase])] at hi; cases hi
  | command i v hr hs hw h =>
    cases exec_cases h with
    | goes hc n => rw [hc] at hw; cases hw
    | stays e => exact .inr (.inr (by rw [e, spent_eq]))
    | compress size hi ha => exact absurd (spent_phase s ▸ ha) hna
    | decompress hi ha => exact absurd (spent_phase s ▸ ha) hna
    | abort hi e => exact .inl ⟨v, hs, (cmdWord_number hw).2.2 hi, by rw [e]; rfl, by rw [e]; rfl, by rw [e]; rfl, by rw [e]; rfl⟩
  | reserved v hr hs ha e => exact absurd ha hna
  | issued i c a hr hs hw h => exact absurd (hh _ (List.mem_of_mem_head? hs)) (by simp [HostEvent.isHost])
  | ioError p hb e => exact absurd hp (Phase.ne_of_busy hb).2.2
  | reset hs e => exact .inr (.inl ⟨hs, by rw [e]; rfl⟩)
  | quiet inp oe rp ns rd fc hr e => exact .inr (.inr (by rw [e]))

/-! ### The numbers of a job: what each operation leaves -/

theorem Flow.Sat.and {α : Type} {x : Flow α} {Q Q' : α → State → Prop} {R R' : State → Prop} {S S' : Prop}
    (h : x.Sat Q R S) (h' : x.Sat Q' R' S') : x.Sat (fun a s => Q a s ∧ Q' a s) (fun s => R s ∧ R' s) S := by
  cases x with
  | ok a s => exact ⟨h, h'⟩
  | raised s => exact ⟨h, h'⟩
  | waits => trivial
  | stops f => exact h
  | refuses r => exact h

/-- OUT_BITPOS counts the bits written (43_framer.md R116). -/
abbrev PosOk (s : State) : Prop := s.outBitPos = 8 * s.out.length + s.ocnt.val

theorem bitsWr_posOk (bs : List Bool) (h : PosOk s) : PosOk (bitsWr bs s) := by
  have hw := congrArg List.length (bitsWr_written bs s)
  rw [List.length_append, length_written, length_written, ← h] at hw
  exact (congrArg State.outBitPos (bitsWr_eq bs s)).trans hw.symm

/-- A job in a phase with a tree. -/
structure InTree (s : State) : Prop where
  size : s.symSize ≠ 0#4
  tree : s.treeFacts s.symCount
  notClosed : s.outClosed = false

theorem bitsWr_inTree (bs : List Bool) (i : InTree s) : InTree (bitsWr bs s) := by
  rw [bitsWr_eq]; exact ⟨i.size, i.tree, i.notClosed⟩

theorem JobFacts.notClosed (f : JobFacts s) (h : s.phase.busy = true) : s.outClosed = false := f.closed.1 (.inl h)

theorem JobFacts.inTree (f : JobFacts s) (h : s.phase.hasTree = true) (hb : s.phase.busy = true) : InTree s :=
  ⟨f.size h, f.tree h, f.notClosed hb⟩

/-- The facts in a phase with a tree. -/
theorem InTree.facts (i : InTree s) (hb : s.phase.busy = true) (hd : s.phase ≠ .dHdr)
    (hc : s.phase.compressing = true → PosOk s ∧ s.inBitPos % 8 = 0) : JobFacts s :=
  ⟨fun _ => i.size, fun _ => ⟨i.tree.ids, i.tree.span⟩, fun _ => i.tree.ends, fun _ => i.tree.count, fun q => absurd q hd,
    fun q => (hc q).1, fun q => (hc q).2, ⟨fun _ => i.notClosed, fun q => absurd q (Phase.ne_of_busy hb).2.1⟩⟩

theorem JobFacts.pin (f : JobFacts s) (p : OutErr) : JobFacts { s with outErr := p } :=
  ⟨f.size, f.ids, f.ends, f.count, f.fresh, f.outPos, f.inPos, f.closed⟩

/-- What a flow ends with where it goes through. -/
abbrev Flow.Yields {α : Type} (x : Flow α) (Q : State → Prop) : Prop := x.Sat (fun _ => Q) (fun _ => True) True

/-- An operation that does not write OUT_CLOSED: a fault in it leaves the facts. -/
theorem facts_of_goes {x : Flow Unit} (hc : s.outClosed = false) (g : x.Goes (· ≠ .closed) s)
    (h : x.Yields fun t => t.outClosed = false → JobFacts t) : x.Sat (fun _ => JobFacts) JobFacts True := by
  have closed : ∀ {t : State}, Goes (· ≠ .closed) s t → t.outClosed = false := fun g =>
    (g.closed.resolve_left fun q => q rfl).trans hc
  refine (g.and h).mono (fun _ _ q => q.2 (closed q.1.1)) fun t ⟨⟨g, hf⟩, _⟩ => ?_
  exact .idle (by rw [hf.1]; rfl) (by rw [hf.1]; rfl) (by rw [hf.1]; simp) ⟨fun _ => closed g, by rw [hf.1]; simp⟩

/-! ### The compress driver -/

theorem writeGo_facts (bs : List Bool) (i : InTree s) (hp : PosOk s) (h8 : s.inBitPos % 8 = 0) {ph : Phase}
    (hb : ph.busy = true) (hd : ph ≠ .dHdr) : ((writeBits u bs s).bind (goTo u ph)).Yields JobFacts := by
  refine ((writeBits_sat bs).mono (fun _ _ h => h) fun _ _ => trivial).bind ?_
  rintro - t ⟨q, -, rfl⟩
  have iw := bitsWr_inTree bs i
  have h8' : (bitsWr bs s).inBitPos % 8 = 0 := by rw [bitsWr_eq]; exact h8
  exact goTo_keep (fun p => InTree.facts ⟨iw.size, iw.tree, iw.notClosed⟩ hb hd fun _ => ⟨bitsWr_posOk bs hp, h8'⟩)
    fun _ => trivial

theorem encFetchLines_facts (i : InTree s) (hp : PosOk s) (h8 : s.inBitPos % 8 = 0) : (encFetchLines s).Yields JobFacts := by
  refine (gather_sat.mono (fun _ _ h => h) fun _ _ => trivial).bind ?_
  rintro - t ⟨q, bs, b, -, -, rfl⟩
  refine goTo_keep (fun p => ?_) fun _ => trivial
  have h8' : (s.inBitPos + 8 * bs.length) % 8 = 0 := by omega
  by_cases e : bs = []
  · simp only [e, if_true]
    exact InTree.facts ⟨i.size, i.tree, i.notClosed⟩ rfl (by simp) fun _ => ⟨hp, by simpa [e] using h8'⟩
  · simp only [e, if_false]
    exact InTree.facts ⟨i.size, i.tree, i.notClosed⟩ rfl (by simp) fun _ => ⟨hp, h8'⟩

theorem encSymbolLines_facts (k : s.treeOk) (i : InTree s) (hp : PosOk s) (h8 : s.inBitPos % 8 = 0) :
    (encSymbolLines s).Yields JobFacts := by
  refine (encSymbolLines_sat k).mono ?_ fun _ _ => trivial
  rintro - t ⟨h, p, b, out, acc, cnt, q, rfl, -, -, -, hw, -, -⟩
  refine InTree.facts ⟨i.size, i.tree, i.notClosed⟩ rfl (by simp) fun _ => ⟨?_, h8⟩
  have hl := congrArg List.length hw
  rw [length_written, List.length_append, List.length_append, length_written, ← hp] at hl
  refine Eq.trans ?_ hl.symm
  cases b <;> simp [Nat.add_assoc]

/-- A record applied, and the phase that follows. -/
theorem applyGo_facts (j : JobBase s) (k : s.treeOk) (a : Appliable s) (i : InTree s) {ph : Phase} (hb : ph.busy = true)
    (hd : ph ≠ .dHdr) (hc : ph.compressing = true → PosOk s ∧ s.inBitPos % 8 = 0) :
    ((applyRecord u s).bind fun _ t => .ok () { t with phase := ph }).Yields fun t => t.outClosed = false → JobFacts t := by
  refine ((applyRecord_facts j k a i.tree).mono (fun _ _ h => h) fun _ _ => trivial).bind ?_
  rintro - t ⟨f, hz, ho, hn, hop, hip⟩ hcl
  refine InTree.facts ⟨by rw [hz]; exact i.size, f, hcl⟩ hb hd fun q => ?_
  simp only [PosOk, ho, hn, hop, hip]
  exact hc q

theorem encFrameLines_facts (i : InTree s) (hp : PosOk s) (h8 : s.inBitPos % 8 = 0) : (encFrameLines s).Yields JobFacts := by
  unfold encFrameLines
  split
  · exact writeGo_facts _ i hp h8 rfl (by simp)
  · exact goTo_keep (fun p => InTree.facts ⟨i.size, i.tree, i.notClosed⟩ rfl (by simp) fun _ => ⟨hp, h8⟩) fun _ => trivial

theorem encFlushLines_facts (xs : List Bool) (hc : s.outClosed = false) :
    (encFlushLines xs s).Sat (fun _ => JobFacts) JobFacts True := by
  refine (encFlushLines_sat xs).mono ?_ ?_
  · rintro - t ⟨ts, rfl⟩
    rw [flushWith_eq]
    exact .idle rfl rfl (by simp) ⟨by simp [Phase.busy], fun _ => rfl⟩
  · rintro t rfl
    exact .fault fun _ => hc

/-! ### The decompress driver -/

theorem decHdrLines_facts (hc : s.outClosed = false) (hz : s.symCount = 0) : (decHdrLines s).Yields JobFacts := by
  refine ((needBits_sat 4).mono (fun _ _ h => h) fun _ _ => trivial).bind ?_
  rintro bits t ⟨-, -, rfl⟩
  refine moment_bind (fun p => ?_) fun _ => trivial
  split_ifs with h0
  · trivial
  · refine moment_bind (fun q => ?_) fun _ => trivial
    have f := treeNew_facts { s with inBitPos := s.inBitPos + 4, outErr := p, symSize := hdrOf bits }
    rw [← hz] at f
    exact InTree.facts ⟨h0, f, hc⟩ rfl (by simp) (by simp [Phase.compressing])

theorem InTree.facts_dec (i : InTree s) (hb : s.phase.busy = true) (hd : s.phase ≠ .dHdr)
    (hc : s.phase.compressing = false) : JobFacts s :=
  i.facts hb hd fun q => by rw [hc] at q; cases q

theorem decWalkLines_facts (i : InTree s) : (decWalkLines s).Yields JobFacts := by
  unfold decWalkLines
  cases curNode s with
  | error f => trivial
  | ok n =>
    simp only [ofExcept_ok, bind_ok]
    split_ifs
    · exact goTo_keep (fun p => InTree.facts_dec ⟨i.size, i.tree, i.notClosed⟩ rfl (by simp) rfl) fun _ => trivial
    · refine ((needBits_sat 1).mono (fun _ _ h => h) fun _ _ => trivial).bind ?_
      rintro bits t ⟨-, -, rfl⟩
      exact moment_bind (fun p => InTree.facts_dec ⟨i.size, i.tree, i.notClosed⟩ rfl (by simp) rfl) fun _ => trivial

/-- A symbol taken into SYMBUF, written out, and the last line. -/
theorem leafOut_facts (b : Bool) (sym : Symbol) (i : InTree s) :
    ((scatterOut u (setFound b { s with symBuf := sym })).bind (goTo u .dUpdate)).Yields JobFacts := by
  refine (scatterOut_sat.mono (fun _ _ h => h) fun _ _ => trivial).bind ?_
  rintro - t ⟨q, -, rfl⟩
  exact goTo_keep (fun p => InTree.facts_dec ⟨i.size, i.tree, i.notClosed⟩ rfl (by simp) rfl) fun _ => trivial

theorem decLeafLines_facts (i : InTree s) : (decLeafLines s).Yields JobFacts := by
  unfold decLeafLines leafHit
  cases curNode s with
  | error f => trivial
  | ok n =>
    simp only [ofExcept_ok, bind_ok]
    split_ifs
    · refine ((readSymBytes_sat s.par.rawMinBits.toNat).mono (fun _ _ h => h) fun _ _ => trivial).bind ?_
      rintro bs t ⟨-, -, q, -, rfl⟩
      split_ifs
      · rw [leafEmpty_eq]
        split_ifs
        · exact InTree.facts_dec ⟨i.size, i.tree, i.notClosed⟩ rfl (by simp) rfl
        · trivial
      · exact leafOut_facts false bs ⟨i.size, i.tree, i.notClosed⟩
    · cases n.sym with
      | none => trivial
      | some sym => exact leafOut_facts true sym i

theorem decFrameLines_facts (i : InTree s) : (decFrameLines s).Yields JobFacts := by
  refine ((needBits_sat 1).mono (fun _ _ h => h) fun _ _ => trivial).bind ?_
  rintro bits t ⟨-, -, rfl⟩
  refine moment_bind (fun p => ?_) fun _ => trivial
  split_ifs
  · exact InTree.facts_dec ⟨i.size, i.tree, i.notClosed⟩ rfl (by simp) rfl
  · trivial
  · exact InTree.facts_dec ⟨i.size, i.tree, i.notClosed⟩ rfl (by simp) rfl

theorem decDrainLines_facts (hc : s.outClosed = false) : (decDrainLines s).Sat (fun _ => JobFacts) JobFacts True := by
  refine (takeEnd_sat.mono (fun _ _ h => h) ?_).bind ?_
  · rintro t rfl; exact .fault fun _ => hc
  · rintro - t ⟨ts, rfl⟩
    exact moment_bind (fun _ => .idle rfl rfl (by simp) ⟨by simp [Phase.busy], fun _ => rfl⟩) fun _ => .fault fun _ => hc

/-! ### A driver operation, a command, a step -/

theorem DriverStep.facts (j : JobInv s) (f : JobFacts s) (h : DriverStep s t) : JobFacts t := by
  obtain ⟨i, hd, h⟩ := h
  have hcl := f.notClosed (driverOp_busy hd)
  have fault : ∀ u p, JobFacts (raise .ioError u { s with outErr := p }) := fun u p => .fault fun _ => hcl
  have goes : ∀ {p} {x : Flow Unit}, x.Goes (· ≠ .closed) { s with outErr := p } → x.Yields JobFacts →
      x.Sat (fun _ => JobFacts) JobFacts True := fun {p} _ g y =>
    facts_of_goes (s := { s with outErr := p }) hcl g (y.mono (fun _ _ q _ => q) fun _ q => q)
  have inTree : s.phase.hasTree = true → ∀ p, InTree { s with outErr := p } := fun hp p =>
    ⟨f.size hp, f.tree hp, hcl⟩
  cases hp : s.phase <;> rw [hp] at hd <;> cases hd
  case cHdr.refl =>
    exact withSink_next (fun p => goes encHdrLines_goes (writeGo_facts _ (inTree (by rw [hp]; rfl) p)
      (f.outPos (by rw [hp]; rfl)) (f.inPos (by rw [hp]; rfl)) rfl (by simp))) f (fault _) h
  case cFetch.refl =>
    exact withSink_next (fun p => goes (encFetchLines_goes (by simp)) (encFetchLines_facts (inTree (by rw [hp]; rfl) p)
      (f.outPos (by rw [hp]; rfl)) (f.inPos (by rw [hp]; rfl)))) f (fault _) h
  case cEmit.refl =>
    exact withSink_next (fun p => goes (encSymbolLines_goes (by simp)) (encSymbolLines_facts
      ((j.pin p).tree (by rw [hp]; rfl)) (inTree (by rw [hp]; rfl) p)
      (f.outPos (by rw [hp]; rfl)) (f.inPos (by rw [hp]; rfl)))) f (fault _) h
  case cUpdate.refl =>
    exact withSink_next (fun p => facts_of_goes (s := { s with outErr := p }) hcl encUpdateLines_goes (applyGo_facts (j.pin p).base
      ((j.pin p).tree (by rw [hp]; rfl)) ((j.pin p).update (.inl hp)) (inTree (by rw [hp]; rfl) p) rfl (by simp)
      fun _ => ⟨f.outPos (by rw [hp]; rfl), f.inPos (by rw [hp]; rfl)⟩)) f (fault _) h
  case cFrame.refl =>
    exact withSink_next (fun p => goes encFrameLines_goes (encFrameLines_facts (inTree (by rw [hp]; rfl) p)
      (f.outPos (by rw [hp]; rfl)) (f.inPos (by rw [hp]; rfl)))) f (fault _) h
  case cEos.refl =>
    exact withSink_next (fun p => goes encEosLines_goes (writeGo_facts _ (inTree (by rw [hp]; rfl) p)
      (f.outPos (by rw [hp]; rfl)) (f.inPos (by rw [hp]; rfl)) rfl (by simp))) f (fault _) h
  case cFlush.refl =>
    exact withSink_next (body := fun s => encFlushLines (padBits s) s) (fun p => encFlushLines_facts _ hcl) f (fault _) h
  case dHdr.refl =>
    exact withSink_next (fun p => goes (decHdrLines_goes (by simp)) (decHdrLines_facts hcl (f.fresh hp))) f (fault _) h
  case dWalk.refl =>
    exact withSink_next (fun p => goes decWalkLines_goes (decWalkLines_facts (inTree (by rw [hp]; rfl) p))) f (fault _) h
  case dLeaf.refl =>
    exact withSink_next (fun p => goes (decLeafLines_goes (by simp) (by simp))
      (decLeafLines_facts (inTree (by rw [hp]; rfl) p))) f (fault _) h
  case dUpdate.refl =>
    exact withSink_next (fun p => facts_of_goes (s := { s with outErr := p }) hcl decUpdateLines_goes (applyGo_facts (j.pin p).base
      ((j.pin p).tree (by rw [hp]; rfl)) ((j.pin p).update (.inr hp)) (inTree (by rw [hp]; rfl) p) rfl (by simp)
      (by simp [Phase.compressing]))) f (fault _) h
  case dFrame.refl =>
    exact withSink_next (fun p => goes decFrameLines_goes (decFrameLines_facts (inTree (by rw [hp]; rfl) p))) f (fault _) h
  case dDrain.refl => exact withSink_next (fun p => decDrainLines_facts hcl) f (fault _) h

theorem DriverStep.job (j : JobInv s) (h : DriverStep s t) : JobInv t := by
  obtain ⟨i, hd, h⟩ := h
  obtain ⟨r, hr, jr⟩ := driverOp_job j hd
  rw [h] at hr
  cases hr
  exact jr

theorem startCompress_facts (size : BitVec 4) (s : State) : JobFacts (startCompress size s) :=
  InTree.facts ⟨clampSize_ne size, treeNew_facts { s with symSize := clampSize size }, rfl⟩ rfl (by simp [startCompress])
    fun _ => ⟨rfl, rfl⟩

theorem startDecompress_facts (s : State) : JobFacts (startDecompress s) where
  size := by simp [startDecompress, Phase.hasTree]
  ids := by simp [startDecompress, Phase.hasTree]
  ends := by simp [startDecompress, Phase.hasTree]
  count := by simp [startDecompress, Phase.hasTree]
  fresh := fun _ => rfl
  outPos := by simp [startDecompress, Phase.compressing]
  inPos := by simp [startDecompress, Phase.compressing]
  closed := ⟨fun _ => rfl, by simp [startDecompress]⟩

/-- Outside a job and FAULT nothing is asked. -/
theorem JobFacts.of_idle (h : s.phase = .idle) : JobFacts s :=
  .idle (by rw [h]; rfl) (by rw [h]; rfl) (by simp [h]) ⟨by simp [h, Phase.busy], by simp [h]⟩

theorem JobFacts.spent (f : JobFacts s) : JobFacts s.spent := by
  rw [spent_eq]
  exact ⟨f.size, f.ids, f.ends, f.count, f.fresh, f.outPos, f.inPos, f.closed⟩

/-- The facts after a command. -/
theorem exec_command_facts {i : Instr} (hc : cmdWord i ≠ none) (f : JobFacts s) (h : exec i s = .next t) : JobFacts t := by
  cases exec_cases h with
  | goes hc' n => exact absurd hc' hc
  | stays e => rwa [e]
  | compress size hi ha e => rw [e]; exact startCompress_facts size s
  | decompress hi ha e => rw [e]; exact startDecompress_facts s
  | abort hi e => rw [e]; exact .of_idle rfl

/-- Settles O58: an operation keeps the facts, an item as a run of operations; a command makes or ends a job; a fault
leaves OUT_CLOSED at 0. -/
theorem stepKeepsJobFacts : Obligations.StepKeepsJobFacts := by
  intro s t j f h
  have js := j.spent
  have fs := f.spent
  cases step_cases h with
  | driver i hs hd h => exact DriverStep.facts js fs ⟨i, by rwa [spent_phase], h⟩
  | item i g hr hi h =>
    exact ((itemDue_drives js hi h).keeps (P := fun s => JobInv s ∧ JobFacts s)
      (fun p d => ⟨d.job p.1, d.facts p.1 p.2⟩) ⟨js, fs⟩).2
  | command i v hr hs hw h => exact exec_command_facts (by rw [hw]; simp) fs h
  | reserved v hr hs ha e => rw [e]; exact .fault fun q => absurd rfl q
  | issued i c a hr hs hw h => exact absurd (j.host _ (List.mem_of_mem_head? hs)) (by simp [HostEvent.isHost])
  | ioError p hb e => rw [e]; exact .fault fun _ => fs.notClosed (by rwa [spent_phase])
  | reset hs e => rw [e]; exact .of_idle rfl
  | quiet inp oe rp ns rd fc hr e =>
    rw [e]
    exact ⟨f.size, f.ids, f.ends, f.count, f.fresh, f.outPos, f.inPos, f.closed⟩

/-- Settles O59: after reset there is no job, no map, nothing in OACC, and no pending action. -/
theorem resetMeetsTheInvariants : Obligations.ResetMeetsTheInvariants := by
  refine ⟨⟨Memory.wf_nil _, rfl, fun _ => rfl⟩, JobBase.inv ⟨?_, rfl, Nat.zero_le _⟩ rfl, .of_idle rfl⟩
  intro e he
  exact absurd he List.not_mem_nil

end Sys2Proof.Machine
end

section
/-! ## O20 to O23, O25 and O26: NODE.SWAP, TREE.LOOKUP, TREE.CURNYT and TREE.LEADER (41_node.md R86 to R92, 42_tree.md R94, R96, R99)

What NODE.SWAP does is said once per outcome: nothing is moved, the two are exchanged, or the swap is refused. -/

namespace Sys2Proof.Machine

variable {s t : State} {a b : Handle} {na nb : Node} {ns : Store}

/-! ### NODE.SWAP -/

theorem State.opB_eq (hb : s.args.b = some b) : s.opB = .ok b := by simp [State.opB, getHandle, hb]

theorem execNodeSwap_of_ok (ha : s.args.a = some a) (hb : s.args.b = some b)
    (hp : swapOutsidePrecondition s.nodes a b = .ok false) (h : nodeSwap a b s.nodes = .ok ns) :
    exec .nodeSwap s = .next { s with nodes := ns } := by
  simp only [exec, execNodeSwap, State.opA_eq ha, State.opB_eq hb, hp, h]

theorem execNodeSwap_of_outside (ha : s.args.a = some a) (hb : s.args.b = some b)
    (hp : swapOutsidePrecondition s.nodes a b = .ok true) : exec .nodeSwap s = .refused .swapOfRelatedNodes := by
  simp only [exec, execNodeSwap, State.opA_eq ha, State.opB_eq hb, hp]

/-- What a completed NODE.SWAP went through. -/
theorem execNodeSwap_inv (h : exec .nodeSwap s = .next t) : ∃ a b ns, s.args.a = some a ∧ s.args.b = some b ∧
    swapOutsidePrecondition s.nodes a b = .ok false ∧ nodeSwap a b s.nodes = .ok ns ∧ t = { s with nodes := ns } := by
  change execNodeSwap s = .next t at h
  unfold execNodeSwap State.opA State.opB at h
  cases ha : s.args.a <;> cases hb : s.args.b <;> simp only [ha, hb, getHandle, reduceCtorEq] at h
  rename_i a b
  refine ⟨a, b, ?_⟩
  split at h
  · cases h
  · cases h
  · rename_i hp
    split at h
    · rename_i ns hs
      cases h
      exact ⟨ns, rfl, rfl, hp, hs, rfl⟩
    · cases h

theorem nodeSwap_live (h : nodeSwap a b s.nodes = .ok ns) : ∃ na nb, s.nodes[a]? = some na ∧ s.nodes[b]? = some nb := by
  unfold nodeSwap at h
  split at h
  · rename_i na nb ha hb
    exact ⟨na, nb, ha, hb⟩
  · cases h

/-- Equal operands, or the root among them: the store stays (R91). -/
theorem nodeSwap_still (ha : s.nodes[a]? = some na) (hb : s.nodes[b]? = some nb)
    (h : a = b ∨ na.parent = none ∨ nb.parent = none) : nodeSwap a b s.nodes = .ok s.nodes := by
  unfold nodeSwap
  rw [ha, hb]
  rcases h with h | h | h
  · exact if_pos h
  · simp [h]
  · cases na.parent <;> simp [h]

theorem inside_of_still (ha : s.nodes[a]? = some na) (hb : s.nodes[b]? = some nb)
    (h : a = b ∨ na.parent = none ∨ nb.parent = none) : swapOutsidePrecondition s.nodes a b = .ok false := by
  unfold swapOutsidePrecondition
  rw [if_neg]
  rintro ⟨hne, pa, pb⟩
  simp only [ha, hb, Option.bind_some] at pa pb
  rcases h with h | h | h
  · exact hne h
  · simp [h] at pa
  · simp [h] at pb

theorem outside_eq_related (ha : s.nodes[a]? = some na) (hb : s.nodes[b]? = some nb) (hne : a ≠ b)
    (pa : na.parent ≠ none) (pb : nb.parent ≠ none) : swapOutsidePrecondition s.nodes a b = related s.nodes a b := by
  unfold swapOutsidePrecondition
  rw [if_pos]
  simp only [ha, hb, Option.bind_some, Option.isSome_iff_ne_none]
  exact ⟨hne, pa, pb⟩

/-- Settles O20: the operands are unrelated, so the swap is inside its precondition. -/
theorem swapExchangesPlaces : Obligations.SwapExchangesPlaces := by
  intro s a b na nb t ha hb w
  obtain ⟨ns, hs, e⟩ := nodeSwap_eq_ok t w
  refine ⟨ns, execNodeSwap_of_ok ha hb ?_ hs, e⟩
  rw [outside_eq_related w.at_a w.at_b w.ne (Option.isSome_iff_ne_none.mp w.parent_a) (Option.isSome_iff_ne_none.mp w.parent_b)]
  rcases t.related_cases (live_of_get w.at_a) (live_of_get w.at_b) with ⟨-, r⟩ | ⟨h, -⟩
  · exact absurd r fun r => r.elim w.not_above w.not_below
  · exact h

/-- Settles O21. -/
theorem swapWithRootDoesNothing : Obligations.SwapWithRootDoesNothing := fun _ _ _ _ _ ha hb hna hnb h =>
  execNodeSwap_of_ok ha hb (inside_of_still hna hnb h) (nodeSwap_still hna hnb h)

/-- Settles O22. -/
theorem swapOfRelatedRefused : Obligations.SwapOfRelatedRefused := by
  intro s a b na nb t ha hb hna hnb pa pb hne r
  refine execNodeSwap_of_outside ha hb ?_
  rw [outside_eq_related hna hnb hne pa pb]
  exact (t.related_iff (live_of_get hna) (live_of_get hnb)).mpr r

/-- Settles O23: a swap that goes on moves nothing, or exchanges two unrelated entries. -/
theorem swapKeepsTree : Obligations.SwapKeepsTree := by
  intro s t ts h
  obtain ⟨a, b, ns, -, -, hp, hs, rfl⟩ := execNodeSwap_inv h
  obtain ⟨na, nb, hna, hnb⟩ := nodeSwap_live hs
  by_cases still : a = b ∨ na.parent = none ∨ nb.parent = none
  · rw [nodeSwap_still hna hnb still] at hs
    cases hs
    exact ⟨ts, .refl _⟩
  · simp only [not_or] at still
    obtain ⟨hne, pa, pb⟩ := still
    rw [outside_eq_related hna hnb hne pa pb] at hp
    rcases ts.related_cases (live_of_get hna) (live_of_get hnb) with ⟨q, -⟩ | ⟨-, r⟩
    · rw [q] at hp; cases hp
    · have w : Swappable s.nodes a b na nb := ⟨hna, hnb, hne, Option.isSome_iff_ne_none.mpr pa,
        Option.isSome_iff_ne_none.mpr pb, fun q => r (.inl q), fun q => r (.inr q)⟩
      obtain ⟨ns', hs', e⟩ := nodeSwap_eq_ok ts w
      rw [hs'] at hs
      cases hs
      exact ⟨w.shape ts e, w.ids e⟩

/-! ### TREE.LOOKUP, TREE.CURNYT, TREE.LEADER -/

theorem exec_treeLookup (s : State) : exec .treeLookup s = .next { s with res := .handle (lookupSym s.symBuf s) } := rfl

/-- Settles O25. -/
theorem lookupAndCurrentNyt : Obligations.LookupAndCurrentNyt := by
  refine ⟨fun s h w m => ?_, fun s m => ?_, fun s => rfl⟩
  · rw [exec_treeLookup, lookupSym_of_mem w m]
  · rw [exec_treeLookup, lookupSym_none m]

theorem exec_treeLeader {x l : Handle} (ha : s.args.a = some x) (h : leader s.par s.nodes x = .ok l) :
    exec .treeLeader s = .next { s with res := .handle (some l) } := by
  change execTreeLeader s = _
  unfold execTreeLeader
  rw [State.opA_eq ha]
  simp only [Except.bind, h]

/-- Settles O26. -/
theorem leaderIsTheGreatest : Obligations.LeaderIsTheGreatest := by
  refine ⟨fun s x n ha hn hp => ?_, fun s x l l' d => IsLeader.unique d⟩
  obtain ⟨l, hl, il⟩ := leader_isLeader s.par hn hp
  exact ⟨l, il, exec_treeLeader ha hl⟩

end Sys2Proof.Machine
end

section
/-! ## O27, O28, O29 and O41: TREE.UPDATE, TREE.ADDSYM and the record applied (42_tree.md R95 to R103, 44_compress.md R126)

With the chosen continuation an update comes to an end the rules give (`updateTree_follows`), and to one only where ids
are distinct (`UpdateEnds.unique`). -/

namespace Sys2Proof.Machine

variable {s t : State} {u : BitVec 6} {x N : Handle} {n : Node} {sym : Symbol} {e : Ending} {ns ns1 ns2 : Store}

/-! ### TREE.UPDATE -/

theorem execTreeUpdate_of_flow (h : updateTree 0#6 s.args.a s = e.flow 0#6 s) :
    exec .treeUpdate s = .next (e.after 0#6 s id) := by
  change (updateTree 0#6 s.args.a s).outcome s = _
  rw [h, Ending.flow_outcome]

/-- A TREE.UPDATE that goes on has come to an end. -/
theorem execTreeUpdate_inv (h : exec .treeUpdate s = .next t) :
    ∃ e, (treeUpdate s.par (s.nodes.length + 1) s.nodes s.args.a).ends = some e ∧ t = e.after 0#6 s id := by
  cases q : (treeUpdate s.par (s.nodes.length + 1) s.nodes s.args.a).ends with
  | some e =>
    rw [execTreeUpdate_of_flow (updateTree_of_ends q)] at h
    exact ⟨e, rfl, (Host.Outcome.next.inj h).symm⟩
  | none =>
    change (updateTree 0#6 s.args.a s).outcome s = _ at h
    unfold updateTree at h
    cases q' : treeUpdate s.par (s.nodes.length + 1) s.nodes s.args.a <;> rw [q'] at q h <;> cases q
    cases h

/-- Settles O27. -/
theorem updateFollowsTheRules : Obligations.UpdateFollowsTheRules := by
  refine ⟨fun s t ts hl h => ?_, fun s ts hl hc => ?_, fun s e ts hl hc d he => ?_⟩
  · obtain ⟨e, he, rfl⟩ := execTreeUpdate_inv h
    exact ⟨e, treeUpdate_ends _ ts hl he, rfl⟩
  · obtain ⟨e, -, he⟩ := updateTree_follows (u := 0#6) hc ts hl
    exact ⟨_, execTreeUpdate_of_flow he⟩
  · obtain ⟨e', he', hf⟩ := updateTree_follows (u := 0#6) hc ts hl
    rw [he.unique d he']
    exact execTreeUpdate_of_flow hf

/-- Settles O28: `updateTree_cases`, as the outcome of TREE.UPDATE. -/
theorem updateRaisesTheChain : Obligations.UpdateRaisesTheChain := by
  intro s t x k hc ha hx hy h
  obtain ⟨ns, up, r, -, hup, done⟩ := updateTree_cases (u := 0#6) hc k hx hy
  change (updateTree 0#6 s.args.a s).outcome s = _ at h
  rw [ha] at h
  rcases done with ⟨q, e⟩ | q | q <;> rw [q] at h <;> cases h
  · exact .inl ⟨rfl, r.congr e⟩
  · exact .inr ⟨.swapRelated, up, .inl rfl, rfl, r, hup⟩
  · exact .inr ⟨.weightOvf, up, .inr rfl, rfl, r, hup⟩

/-! ### TREE.ADDSYM -/

/-- With distinct ids TREE.ADDSYM ends as the rules end. -/
theorem addSymbol_ends (hc : s.par.updateChain = .original) (t : TreeShape s.nodes s.root) (d : DistinctIds s.nodes)
    (hi : ∀ m ∈ s.nodes, s.nextId ≤ m.id) (hN : s.nyt = some N) (hn : s.nodes[N]? = some n) (hlf : n.isLeaf = true)
    (hs : sym ≠ []) (hr : Roomy s) (w : SplitOf s.nodes N s.nextId sym ns1) (h : UpdateEnds s.par ns1 n.parent e) :
    addSymbol u sym s = e.flow u (afterSplit s sym ns1) := by
  obtain ⟨e', h', hf⟩ := addSymbol_follows (u := u) hc t hN hn hlf hs hr
  obtain rfl := w.eq hn
  rw [h.unique (d.split hi N sym) h', hf]

theorem updateTree_store (node : Option Handle) : (updateTree u node s).Sat
    (fun _ t => ∃ ns, StoreOk s.nodes ns ∧ t = { s with nodes := ns })
    (fun t => ∃ c ns, StoreOk s.nodes ns ∧ t = raise c u { s with nodes := ns }) True := by
  have k := treeUpdate_storeOk s.par (s.nodes.length + 1) s.nodes node
  unfold updateTree
  cases e : treeUpdate s.par (s.nodes.length + 1) s.nodes node <;> rw [e] at k
  · exact ⟨_, k, rfl⟩
  · exact ⟨_, _, k, rfl⟩
  · exact ⟨_, _, k, rfl⟩
  · trivial

/-- What TREE.ADDSYM with room leaves, however it ends: the split, then a store with its entries. -/
theorem addSymbol_leaves (hr : Roomy s) (h : (addSymbol u sym s).outcome s = .next t) :
    ∃ N ns, StoreOk (splitNyt s.nodes N s.nextId sym) ns ∧ t.nodes = ns ∧ t.map = mapInsert sym s.nodes.length s.map := by
  unfold addSymbol at h
  rw [(capExceeded_eq_false_iff s).mpr hr, if_neg (by simp)] at h
  split_ifs at h
  · cases h
  · split at h
    · cases h
    · rename_i N hN
      split at h
      · cases h
      · rename_i n hn
        have k := updateTree_store (u := u) (s := afterSplit s sym (splitNyt s.nodes N s.nextId sym)) n.parent
        have nw := updateTree_not_waits (u := u) n.parent (afterSplit s sym (splitNyt s.nodes N s.nextId sym))
        change (updateTree u n.parent (afterSplit s sym (splitNyt s.nodes N s.nextId sym))).outcome s = .next t at h
        rw [outcome_of_not_waits nw s t] at h
        generalize updateTree u n.parent (afterSplit s sym (splitNyt s.nodes N s.nextId sym)) = x at k nw h
        cases x with
        | ok a r => cases h; obtain ⟨ns, k, rfl⟩ := k; exact ⟨N, ns, k, rfl, rfl⟩
        | raised r => cases h; obtain ⟨c, ns, k, rfl⟩ := k; exact ⟨N, ns, k, rfl, rfl⟩
        | waits => exact absurd rfl nw
        | stops f => cases h
        | refuses r => cases h

/-- Settles O29. -/
theorem addSymbolSplitsAndUpdates : Obligations.AddSymbolSplitsAndUpdates := by
  refine ⟨fun s N n t hc hN hn hl hs hr => ?_, fun s N n ns1 ns2 t hc d hi hN hn hl hs hr w h => ?_, fun s hr => ?_,
    fun s t hr h => ?_⟩
  · obtain ⟨e, he, hf⟩ := addSymbol_follows (u := 0#6) hc t hN hn hl hs hr
    refine ⟨_, e, splitNyt_splitOf, he, ?_⟩
    change (addSymbol 0#6 s.symBuf s).outcome s = _
    rw [hf, Ending.flow_outcome]
  · change (addSymbol 0#6 s.symBuf s).outcome s = _
    rw [addSymbol_ends hc t d hi hN hn hl hs hr w h]
    rfl
  · change (addSymbol 0#6 s.symBuf s).outcome s = _
    rw [addSymbol_full hr]
    rfl
  · obtain ⟨N, ns, ⟨k, -⟩, rfl, hm⟩ := addSymbol_leaves (sym := s.symBuf) hr h
    rw [hm]
    refine ⟨by rw [lookup_mapInsert, if_pos rfl], fun sym hne => by rw [lookup_mapInsert, if_neg hne], ?_⟩
    obtain ⟨n, hn, hsym⟩ := k _ _ splitNyt_leaf
    exact ⟨n, hn, hsym⟩

/-! ### ENC.UPDATE and DEC.UPDATE -/

/-- Both operations are the record applied and the next phase. -/
theorem exec_update {i : Instr} {ph : Phase} (hi : (i = .encUpdate ∧ ph = .cFrame) ∨ (i = .decUpdate ∧ ph = .dFrame))
    (ho : s.outErr = .low) :
    exec i s = ((applyRecord (uopCode i) s).bind fun _ t => .ok () { t with phase := ph }).outcome s := by
  rcases hi with ⟨rfl, rfl⟩ | ⟨rfl, rfl⟩ <;> exact withSink_low ho

/-- The tree operation come to an end, then SYM_COUNT and the phase. -/
theorem applyRecord_of_flow {r : State} {ph : Phase}
    (h : (if s.found then updateTree u s.cur s else addSymbol u s.opSym s) = e.flow u r) (ho : r.outErr = .low)
    (hk : r.symCount = s.symCount) :
    ((applyRecord u s).bind fun _ t => .ok () { t with phase := ph }).outcome s =
      .next (e.after u r fun t => { t with symCount := s.symCount + 1, phase := ph }) := by
  unfold applyRecord
  rw [h, ← hk]
  cases e with
  | done ns => rw [Ending.flow, bind_ok, moment_low (s := { r with nodes := ns }) ho]; rfl
  | swapRelated ns => rfl
  | weightOvf ns => rfl

/-- Settles O41. -/
theorem recordIsApplied : Obligations.RecordIsApplied := by
  intro s i ph hi ho t hc
  rw [exec_update hi ho]
  refine ⟨fun x hf hx hl => ⟨?_, fun ns d he => ?_⟩, fun N n hf hN hn hl hs hr => ⟨?_, fun ns1 ns2 d hm w he => ?_⟩,
    fun hf hr => ?_⟩
  · obtain ⟨e, he, q⟩ := updateTree_follows (u := uopCode i) (node := some x) hc t (by rintro y q; cases q; exact hl)
    exact ⟨e, he, applyRecord_of_flow (by rw [if_pos hf, hx, q]) ho rfl⟩
  · rw [applyRecord_hit ho hf hx hc t hl d he]
    rfl
  · obtain ⟨e, he, q⟩ := addSymbol_follows (u := uopCode i) hc t hN hn hl hs hr
    refine ⟨_, e, splitNyt_splitOf, he, applyRecord_of_flow ?_ ho rfl⟩
    rw [if_neg (by simp [hf])]
    exact q
  · rw [applyRecord_new ho hf hc t d hm hN hn hl hs hr w he]
    rfl
  · unfold applyRecord
    rw [if_neg (by simp [hf]), addSymbol_full hr]
    rfl

end Sys2Proof.Machine
end

section
/-! ## O30: the sibling property (42_tree.md R104 (b))

With the parent excluded from the leader search the raised entry has the greatest id of its block but for its parent: so
after a pass the one pair out of order can be that entry and its parent, the next to be raised, which then is the
greatest of its block and is not swapped. `SiblingButFor` says this. -/

namespace Sys2Proof.Machine

variable {s t : State} {u : BitVec 6} {ns ns1 : Store} {root : Option Handle} {par : Params} {x l p N : Handle} {n nl : Node}
  {e : Ending}

/-! ### Between two passes -/

/-- The weights do not decrease with the ids, but that one entry may be heavier by 1 than the greatest of the next block,
which is the entry to be raised next. -/
def SiblingButFor (ns : Store) (node : Option Handle) : Prop :=
  ∀ (h g : Handle) (n m : Node), ns[h]? = some n → ns[g]? = some m → n.id < m.id →
    n.weight ≤ m.weight ∨ (node = some g ∧ n.weight = m.weight + 1 ∧
      ∀ (k : Handle) (q : Node), ns[k]? = some q → q.weight = m.weight → q.id ≤ m.id)

theorem Sibling.butFor (sb : Sibling ns) (node : Option Handle) : SiblingButFor ns node :=
  fun h g n m hn hm hi => .inl (sb h g n m hn hm hi)

theorem SiblingButFor.sibling (sb : SiblingButFor ns none) : Sibling ns :=
  fun h g n m hn hm hi => (sb h g n m hn hm hi).resolve_right fun q => by cases q.1

/-- The root's id is the greatest. -/
def RootTop (ns : Store) (root : Option Handle) : Prop :=
  ∃ (r : Handle) (nr : Node), root = some r ∧ ns[r]? = some nr ∧ nr.parent = none ∧
    ∀ (h : Handle) (n : Node), ns[h]? = some n → n.id ≤ nr.id

/-- The swap of step 3, seen entry by entry: the id of the one the entry changed places with, whose weight is the same. -/
theorem SwapWithLeader.source (w : SwapWithLeader ns x l ns1) (hn : ns[x]? = some n) (hl : ns[l]? = some nl)
    (hw : nl.weight = n.weight) {h : Handle} {n1 : Node} (h1 : ns1[h]? = some n1) :
    ∃ m, ns[swapHandle x l h]? = some m ∧ m.id = n1.id ∧ m.weight = n1.weight := by
  rcases w with ⟨rfl, rfl⟩ | ⟨nx, nl', w, e⟩
  · by_cases q : h = l
    · rw [q] at h1 ⊢
      exact ⟨n1, by rwa [swapHandle_left], rfl, rfl⟩
    · exact ⟨n1, by rwa [swapHandle_other q q], rfl, rfl⟩
  · obtain rfl := Option.some.inj (hn.symm.trans w.at_a)
    obtain rfl := Option.some.inj (hl.symm.trans w.at_b)
    obtain ⟨m, hm, rfl⟩ := Option.map_eq_some_iff.mp ((e h).symm.trans h1)
    by_cases q : h = x
    · subst q
      obtain rfl := Option.some.inj (hn.symm.trans hm)
      exact ⟨nl, by rw [swapHandle_left, hl], by simp [swappedNode], hw⟩
    · by_cases q' : h = l
      · subst q'
        obtain rfl := Option.some.inj (hl.symm.trans hm)
        exact ⟨n, by rw [swapHandle_right, hn], by simp [swappedNode, q], hw.symm⟩
      · exact ⟨m, by rw [swapHandle_other q q', hm], by simp [swappedNode, q, q'], rfl⟩

theorem RootTop.swap (r : RootTop ns root) (hn : ns[x]? = some n) (hp : n.parent = some p)
    (hl : ns[l]? = some nl) (hw : nl.weight = n.weight) (w : SwapWithLeader ns x l ns1) : RootTop ns1 root := by
  obtain ⟨k, nk, hk, hnk, hkp, top⟩ := r
  have below : ∀ (h : Handle) (m : Node), ns1[h]? = some m → m.id ≤ nk.id := fun h m hm => by
    obtain ⟨m', hm', hi, -⟩ := w.source hn hl hw hm
    rw [← hi]
    exact top _ m' hm'
  rcases w with ⟨rfl, rfl⟩ | ⟨nx, nl', w, e⟩
  · exact ⟨k, nk, hk, hnk, hkp, top⟩
  · have hx : k ≠ x := by
      rintro rfl
      rw [hnk] at hn; cases hn
      rw [hkp] at hp; cases hp
    have hl : k ≠ l := by
      rintro rfl
      have := w.parent_b
      rw [Option.some.inj (hnk.symm.trans w.at_b)] at hkp
      simp [hkp] at this
    refine ⟨k, swappedNode x l nx nl' k nk, hk, by rw [e, hnk]; rfl, by simp [swappedNode, hx, hl, hkp], ?_⟩
    simpa [swappedNode, hx, hl] using below

theorem getElem?_bump_source {h : Handle} {m : Node} (e : (bump x ns)[h]? = some m) :
    ∃ m0, ns[h]? = some m0 ∧ m.id = m0.id ∧ m.weight = m0.weight + if h = x then 1 else 0 := by
  rw [getElem?_bump] at e
  obtain ⟨m0, hm0, rfl⟩ := Option.map_eq_some_iff.mp e
  refine ⟨m0, hm0, ?_⟩
  split_ifs <;> exact ⟨rfl, rfl⟩

theorem RootTop.bump (r : RootTop ns root) (x : Handle) : RootTop (bump x ns) root := by
  obtain ⟨k, nk, hk, hnk, hkp, top⟩ := r
  refine ⟨k, _, hk, by rw [getElem?_bump, hnk]; rfl, by split_ifs <;> exact hkp, fun h m hm => ?_⟩
  obtain ⟨m0, hm0, hi, -⟩ := getElem?_bump_source hm
  rw [hi]
  exact (top h m0 hm0).trans_eq (by split_ifs <;> rfl)

/-! ### One pass, and the whole update -/

/-- The last pass, at the root. -/
theorem SiblingButFor.bump_root (sb : SiblingButFor ns (some x)) (hn : ns[x]? = some n)
    (top : ∀ (h : Handle) (m : Node), ns[h]? = some m → m.id ≤ n.id) : Sibling (bump x ns) := by
  intro h g a b ha hb hi
  obtain ⟨a0, ha0, aid, aw⟩ := getElem?_bump_source ha
  obtain ⟨b0, hb0, bid, bw⟩ := getElem?_bump_source hb
  have hi : a0.id < b0.id := by omega
  have hx : h ≠ x := by
    rintro rfl
    obtain rfl := Option.some.inj (hn.symm.trans ha0)
    exact absurd (top g b0 hb0) (by omega)
  rw [aw, bw, if_neg hx]
  rcases sb h g a0 b0 ha0 hb0 hi with le | ⟨q, e, -⟩
  · omega
  · rw [if_pos (Option.some.inj q).symm, e]

/-- An entry after the swap and the raise, and the one whose id it has now. -/
theorem SwapWithLeader.raised_source (w : SwapWithLeader ns x l ns1) (hn : ns[x]? = some n) (hl : ns[l]? = some nl)
    (hw : nl.weight = n.weight) {h : Handle} {m : Node} (e : (bump x ns1)[h]? = some m) :
    ∃ m0, ns[swapHandle x l h]? = some m0 ∧ m.id = m0.id ∧ m.weight = m0.weight + if h = x then 1 else 0 := by
  obtain ⟨m1, hm1, i1, w1⟩ := getElem?_bump_source e
  obtain ⟨m0, hm0, i0, w0⟩ := w.source hn hl hw hm1
  exact ⟨m0, hm0, i1.trans i0.symm, by rw [w1, w0]⟩

/-- Any other pass: the entry is exchanged with its leader and raised. -/
theorem SiblingButFor.pass (sb : SiblingButFor ns (some x)) (hr : par.leaderRule = .excludeThenMax) (d : DistinctIds ns)
    (hn : ns[x]? = some n) (hp : n.parent = some p) (hpx : p ≠ x) (il : IsLeader par ns x l)
    (w : SwapWithLeader ns x l ns1) : SiblingButFor (bump x ns1) (some p) := by
  obtain ⟨n', nl, hn', hl, hw, hlp, greatest⟩ := il
  obtain rfl := Option.some.inj (hn.symm.trans hn')
  rw [hr] at greatest
  have at_p : ∀ {k}, n.parent = some (swapHandle x l k) → k = p := fun {k} q => by
    have hpl : p ≠ l := fun q => hlp (q ▸ hp)
    have q := congrArg (swapHandle x l) (Option.some.inj (hp.symm.trans q))
    rwa [swapHandle_other hpx hpl, swapHandle_swapHandle, eq_comm] at q
  intro h g a b ha hb hi
  obtain ⟨a0, ha0, aid, aw⟩ := w.raised_source hn hl hw ha
  obtain ⟨b0, hb0, bid, bw⟩ := w.raised_source hn hl hw hb
  have order := sb _ _ a0 b0 ha0 hb0 (by omega)
  rw [aw, bw]
  by_cases hx : h = x
  · -- the raised entry, with the leader's id: only the parent can stand above it with its old weight
    rw [hx, swapHandle_left] at ha0
    obtain rfl := Option.some.inj (hl.symm.trans ha0)
    have hgx : g ≠ x := by
      rintro rfl
      rw [swapHandle_left, hl] at hb0
      cases hb0
      omega
    have le : nl.weight ≤ b0.weight := by
      rcases order with le | ⟨q, e, -⟩
      · exact le
      · rw [← Option.some.inj q, hn] at hb0
        cases hb0
        omega
    rw [if_pos hx, if_neg hgx]
    by_cases lt : nl.weight < b0.weight
    · exact .inl lt
    · have hgp : g = p := at_p (by
        by_contra q
        exact absurd (greatest _ b0 hb0 (by omega) q) (by omega))
      refine .inr ⟨by rw [hgp], by omega, fun k q hq qw => ?_⟩
      obtain ⟨q0, hq0, qid, qw0⟩ := w.raised_source hn hl hw hq
      by_cases hk : k = x
      · rw [hk, swapHandle_left, hl] at hq0
        cases hq0
        rw [if_pos hk] at qw0
        omega
      · by_cases q : n.parent = some (swapHandle x l k)
        · rw [at_p q, ← hgp, hb0] at hq0
          cases hq0
          omega
        · rw [if_neg hk] at qw0
          have := greatest _ q0 hq0 (by omega) q
          omega
  · rw [if_neg hx]
    rcases order with le | ⟨q, e, top⟩
    · exact .inl (by omega)
    · -- the raised entry was out of order: then it is its own leader, and is so no longer
      rw [← Option.some.inj q, hn] at hb0
      cases hb0
      have lx : l = x := d.eq hl hn (le_antisymm (top l nl hl hw)
        (greatest x n hn rfl fun q => hpx (Option.some.inj (hp.symm.trans q))))
      have hgx : g = x := by
        by_contra hg
        rw [lx, swapHandle_other hg hg] at q
        exact hg (Option.some.inj q).symm
      exact .inl (by rw [if_pos hgx, e])

/-- Every complete update, from a tree with at most the entry to be raised out of order. -/
theorem UpdateEnds.sibling {node : Option Handle} {e : Ending} (h : UpdateEnds par ns node e) (hc : par.updateChain = .original)
    (hr : par.leaderRule = .excludeThenMax) : ∀ {ns' : Store}, e = .done ns' → TreeShape ns root → DistinctIds ns →
      RootTop ns root → SiblingButFor ns node → Sibling ns' := by
  induction h with
  | absent =>
    rintro ns' ⟨⟩ - - - sb
    exact sb.sibling
  | atRoot hx hp hw =>
    rintro ns' ⟨⟩ t - ⟨r, nr, hr, hnr, -, top⟩ sb
    have e := (t.only_root _ _ hx hp).symm.trans hr
    cases e
    rw [hx] at hnr
    cases hnr
    exact sb.bump_root hx top
  | rootFull | related | full => intro ns' e; cases e
  | pass hx hp il w hw hx1 _ ih =>
    intro ns' e t d rt sb
    rw [hc] at ih
    have hpx : _ ≠ _ := fun q => t.no_self_parent hx (hp.trans (congrArg some q))
    have il' := il
    obtain ⟨n', nl, hn', hl, hlw, -, -⟩ := il'
    rw [hx] at hn'
    cases hn'
    exact ih e ((sameLinks_bump _ _).shape (w.shape t)) ((d.perm w.ids).bump _) ((rt.swap hx hp hl hlw w).bump _)
      (sb.pass hr d hx hp hpx il w)

/-! ### TREE.UPDATE, TREE.ADDSYM and the record applied -/

/-- A tree in order: what TREE.UPDATE needs. -/
structure InOrder (s : State) : Prop where
  chain : s.par.updateChain = .original
  rule : s.par.leaderRule = .excludeThenMax
  shape : TreeShape s.nodes s.root
  distinct : DistinctIds s.nodes
  top : RootTop s.nodes s.root
  sibling : Sibling s.nodes

/-- A flow that leaves the sibling property, or a fault. -/
abbrev Flow.Orders {α : Type} (x : Flow α) : Prop := x.Sat (fun _ t => Sibling t.nodes) (fun t => t.phase = .fault) True

theorem flow_orders (h : ∀ ns, e = .done ns → Sibling ns) : (Ending.flow u s e).Orders := by
  cases e with
  | done ns => exact h ns rfl
  | swapRelated ns => rfl
  | weightOvf ns => rfl

theorem updateTree_orders (o : InOrder s) {node : Option Handle} (hl : ∀ x, node = some x → x < s.nodes.length) :
    (updateTree u node s).Orders := by
  obtain ⟨e, he, q⟩ := updateTree_follows (u := u) o.chain o.shape hl
  rw [q]
  exact flow_orders fun ns hd => he.sibling o.chain o.rule hd o.shape o.distinct o.top (o.sibling.butFor _)

/-- The NYT has the least id, so the split keeps the order: it is raised to 1, and the new entries come below. -/
theorem splitNyt_sibling {nyt : Option Handle} {m : SymMap} {i : Int} {sym : Symbol} (k : TreeOk ns root nyt m)
    (hy : nyt = some N) (hi : ∀ m ∈ ns, i ≤ m.id) (sb : Sibling ns) : Sibling (splitNyt ns N i sym) := by
  obtain ⟨y, yn, hy', hyn, hyw, -, -⟩ := k.nyt_leaf
  rw [hy] at hy'
  cases hy'
  have pos : ∀ {h : Handle} {n : Node}, ns[h]? = some n → h ≠ N → 1 ≤ n.weight := fun hn hN =>
    k.weight_pos _ _ hn fun q => hN (Option.some.inj (hy.symm.trans q)).symm
  have old : ∀ {h : Handle} {n : Node}, ns[h]? = some n → i ≤ n.id := fun hn => hi _ (List.mem_of_getElem? hn)
  intro h g a b ha hb lt
  rcases splitNyt_cases hb with ⟨b0, hb0, hN, rfl⟩ | ⟨b0, hb0, rfl, rfl⟩ | ⟨rfl, rfl⟩ | ⟨rfl, rfl⟩
  · rcases splitNyt_cases ha with ⟨a0, ha0, -, rfl⟩ | ⟨a0, ha0, rfl, rfl⟩ | ⟨rfl, rfl⟩ | ⟨rfl, rfl⟩
    · exact sb _ _ _ _ ha0 hb0 lt
    · exact pos hb0 hN
    · exact pos hb0 hN
    · exact Nat.zero_le _
  · rcases splitNyt_cases ha with ⟨a0, ha0, hN, rfl⟩ | ⟨a0, ha0, rfl, rfl⟩ | ⟨rfl, rfl⟩ | ⟨rfl, rfl⟩
    · obtain rfl := Option.some.inj (hyn.symm.trans hb0)
      have := sb _ _ _ _ ha0 hyn lt
      have := pos ha0 hN
      omega
    · exact le_refl _
    · exact le_refl _
    · exact Nat.zero_le _
  · rcases splitNyt_cases ha with ⟨a0, ha0, -, rfl⟩ | ⟨a0, ha0, rfl, rfl⟩ | ⟨rfl, rfl⟩ | ⟨rfl, rfl⟩
    · exact absurd (old ha0) (by simp only [newLeaf] at lt; omega)
    · exact absurd (old ha0) (by simp only [newLeaf, splitNode] at lt; omega)
    · exact le_refl _
    · exact Nat.zero_le _
  · rcases splitNyt_cases ha with ⟨a0, ha0, -, rfl⟩ | ⟨a0, ha0, rfl, rfl⟩ | ⟨rfl, rfl⟩ | ⟨rfl, rfl⟩
    · exact absurd (old ha0) (by simp only [newNyt] at lt; omega)
    · exact absurd (old ha0) (by simp only [newNyt, splitNode] at lt; omega)
    · exact absurd lt (by simp only [newNyt, newLeaf]; omega)
    · exact le_refl _

theorem RootTop.split (r : RootTop ns root) {i : Int} {sym : Symbol} (hi : ∀ m ∈ ns, i ≤ m.id) :
    RootTop (splitNyt ns N i sym) root := by
  obtain ⟨k, nk, hk, hnk, hkp, top⟩ := r
  have hik := hi nk (List.mem_of_getElem? hnk)
  have ⟨nk', hnk', hp, e⟩ : ∃ nk', (splitNyt ns N i sym)[k]? = some nk' ∧ nk'.parent = none ∧ nk'.id = nk.id := by
    by_cases q : k = N
    · subst q; exact ⟨_, splitNyt_self hnk, hkp, rfl⟩
    · exact ⟨nk, splitNyt_other hnk q, hkp, rfl⟩
  refine ⟨k, nk', hk, hnk', hp, fun h m hm => ?_⟩
  rw [e]
  rcases splitNyt_cases hm with ⟨a, ha, -, rfl⟩ | ⟨a, ha, -, rfl⟩ | ⟨-, rfl⟩ | ⟨-, rfl⟩
  · exact top _ _ ha
  · exact top h a ha
  · show i - 1 ≤ nk.id; omega
  · show i - 2 ≤ nk.id; omega

theorem addSymbol_orders (o : InOrder s) (k : s.treeOk) (hi : ∀ m ∈ s.nodes, s.nextId ≤ m.id) (sym : Symbol) :
    (addSymbol u sym s).Orders := by
  by_cases hr : Roomy s
  · by_cases hs : sym = []
    · unfold addSymbol
      rw [(capExceeded_eq_false_iff s).mpr hr, if_neg (by simp), if_pos hs]
      trivial
    · obtain ⟨N, n, hN, hn, -, hl, -⟩ := k.nyt_leaf
      obtain ⟨e, he, q⟩ := addSymbol_follows (u := u) o.chain k.shape hN hn hl hs hr
      rw [q]
      exact flow_orders fun ns hd => he.sibling o.chain o.rule hd (splitNyt_shape k.shape hn hl)
        (o.distinct.split hi N sym) (o.top.split hi) ((splitNyt_sibling k hN hi o.sibling).butFor _)
  · rw [addSymbol_full hr]
    rfl

/-- A whole operation made of such a flow. -/
theorem Flow.Orders.outcome {x : Flow Unit} (h : x.Orders) (h₀ : Sibling s.nodes) (e : x.outcome s = .next t)
    (hf : t.phase ≠ .fault) : Sibling t.nodes :=
  Flow.Sat.outcome (P := fun t => t.phase ≠ .fault → Sibling t.nodes) (h.mono (fun _ _ h _ => h) fun _ h q => absurd h q)
    (fun _ => h₀) e hf

theorem applyRecord_orders (o : InOrder s) (k : s.treeOk) (hi : ∀ m ∈ s.nodes, s.nextId ≤ m.id) (a : Appliable s) :
    (applyRecord u s).Orders := by
  refine Flow.Sat.bind (Q := fun _ t => Sibling t.nodes) ?_ fun _ t h => moment_bind (fun _ => h) fun _ => rfl
  unfold Appliable at a
  split
  · rename_i hf
    rw [if_pos hf] at a
    obtain ⟨x, hx, hl, -⟩ := a
    exact updateTree_orders o fun y hy => by rw [hx] at hy; cases hy; exact hl
  · exact addSymbol_orders o k hi _

/-! ### A driver operation -/

/-- The ids of a job (R104 (c)). -/
theorem JobFacts.inOrder (f : JobFacts s) (j : JobInv s) (ht : s.phase.hasTree = true)
    (hr : s.par.leaderRule = .excludeThenMax) (sb : Sibling s.nodes) :
    InOrder s ∧ ∀ m ∈ s.nodes, s.nextId ≤ m.id := by
  have k := j.tree ht
  obtain ⟨ids, span⟩ := f.ids ht
  obtain ⟨r, nr, hroot, hnr, hp⟩ := k.shape.root_live
  have range : ∀ m ∈ s.nodes, s.nextId ≤ m.id ∧ m.id < s.nextId + s.nodes.length := fun m hm => by
    obtain ⟨i, hi, e⟩ := List.mem_map.mp (ids.mem_iff.mp (List.mem_map_of_mem hm))
    rw [List.mem_range] at hi
    omega
  refine ⟨⟨j.chain, hr, k.shape, ?_, ⟨r, nr, hroot, hnr, hp, fun h n hn => ?_⟩, sb⟩, fun m hm => (range m hm).1⟩
  · refine ids.nodup_iff.mpr (List.nodup_range.map fun a b e => ?_)
    exact Int.ofNat.inj (Int.add_left_cancel e)
  · have := (range n (List.mem_of_getElem? hn)).2
    rw [(f.ends ht r nr hnr).1 hroot]
    omega

theorem sibling_singleton (n : Node) : Sibling [n] := by
  intro h g a b ha hb lt
  rw [List.mem_singleton.mp (List.mem_of_getElem? ha), List.mem_singleton.mp (List.mem_of_getElem? hb)]

/-- The order, where there is a tree. -/
def TreeSibling (s : State) : Prop := s.phase.hasTree = true → Sibling s.nodes

theorem TreeSibling.of_phase (h : s.phase.hasTree = false) : TreeSibling s := fun q => by rw [h] at q; cases q

/-- A flow that leaves the order, or no tree. -/
abbrev Flow.InSequence (x : Flow Unit) : Prop := x.Sat (fun _ => TreeSibling) TreeSibling True

/-- A flow that leaves the store. -/
abbrev Flow.KeepsNodes {α : Type} (x : Flow α) (s : State) : Prop :=
  x.Sat (fun _ t => t.nodes = s.nodes) (fun t => t.phase.hasTree = false) True

theorem Flow.KeepsNodes.inSequence {x : Flow Unit} (h : x.KeepsNodes s) (sb : Sibling s.nodes) : x.InSequence :=
  h.mono (fun _ _ e _ => by rwa [e]) fun _ => .of_phase

theorem Flow.KeepsNodes.bind {α β : Type} {x : Flow α} {k : α → State → Flow β} (h : x.KeepsNodes s)
    (hk : ∀ a t, (k a t).KeepsNodes t) : (x.bind k).KeepsNodes s :=
  Flow.Sat.bind h fun a t e => (hk a t).mono (fun _ _ q => q.trans e) fun _ q => q

theorem moment_keepsNodes : (moment u s).KeepsNodes s := moment_keep (fun _ => rfl) fun _ => rfl

theorem goTo_keepsNodes {ph : Phase} (a : Unit) : (goTo u ph a s).KeepsNodes s :=
  moment_keepsNodes.bind fun _ _ => rfl

theorem needBits_keepsNodes (n : Nat) : (needBits u n s).KeepsNodes s :=
  (needBits_sat n).mono (fun _ _ ⟨_, _, e⟩ => by rw [e]) fun _ ⟨_, _, e⟩ => by rw [e]; rfl

theorem writeBits_keepsNodes (bs : List Bool) : (writeBits u bs s).KeepsNodes s :=
  (writeBits_sat bs).mono (fun _ _ ⟨_, _, e⟩ => by rw [e, bitsWr_eq]) fun _ ⟨_, _, _, _, e⟩ => by rw [e]; rfl

theorem readSymBytes_keepsNodes (m : Nat) : (readSymBytes u m s).KeepsNodes s :=
  (readSymBytes_sat m).mono (fun _ _ ⟨_, _, _, _, e⟩ => by rw [e]) fun _ ⟨_, _, _, e, _⟩ => by rw [e]; rfl

theorem gather_keepsNodes : (gather u s).KeepsNodes s :=
  gather_sat.mono (fun _ _ ⟨_, _, _, _, _, e⟩ => by rw [e]) fun _ ⟨_, _, _, e, _⟩ => by rw [e]; rfl

theorem scatterOut_keepsNodes : (scatterOut u s).KeepsNodes s :=
  scatterOut_sat.mono (fun _ _ ⟨_, _, e⟩ => by rw [e]; rfl) fun _ ⟨_, _, _, e⟩ => by rw [e]; rfl

theorem ofExcept_keepsNodes {α : Type} (x : Except Fault α) : (Flow.ofExcept s x).KeepsNodes s := by
  cases x with
  | ok a => rfl
  | error f => trivial

theorem leafOut_keepsNodes (b : Bool) (sym : Symbol) :
    ((scatterOut u (setFound b { s with symBuf := sym })).bind (goTo u .dUpdate)).KeepsNodes s :=
  Flow.KeepsNodes.bind (s := setFound b { s with symBuf := sym }) scatterOut_keepsNodes fun _ _ => goTo_keepsNodes _

theorem leafEmpty_keepsNodes : (leafEmpty s).KeepsNodes s := by
  rw [leafEmpty_eq]
  split_ifs <;> rfl

theorem decLeafLines_keepsNodes : (decLeafLines s).KeepsNodes s := by
  refine (ofExcept_keepsNodes _).bind fun n t => ?_
  split_ifs
  · refine (readSymBytes_keepsNodes _).bind fun bs r => ?_
    split_ifs
    · exact leafEmpty_keepsNodes
    · exact leafOut_keepsNodes false bs
  · unfold leafHit
    cases n.sym with
    | none => trivial
    | some sym => exact leafOut_keepsNodes true sym

theorem decWalkLines_keepsNodes : (decWalkLines s).KeepsNodes s := by
  refine (ofExcept_keepsNodes _).bind fun n t => ?_
  split_ifs
  · exact goTo_keepsNodes _
  · exact (needBits_keepsNodes 1).bind fun _ _ => moment_keepsNodes.bind fun _ _ => rfl

theorem decFrameLines_keepsNodes : (decFrameLines s).KeepsNodes s := by
  refine (needBits_keepsNodes 1).bind fun _ _ => moment_keepsNodes.bind fun _ _ => ?_
  split_ifs <;> rfl

theorem encFrameLines_keepsNodes : (encFrameLines s).KeepsNodes s := by
  unfold encFrameLines
  split
  · exact (writeBits_keepsNodes _).bind fun _ _ => goTo_keepsNodes _
  · exact goTo_keepsNodes _

theorem encSymbolLines_keepsNodes (k : s.treeOk) : (encSymbolLines s).KeepsNodes s :=
  (encSymbolLines_sat k).mono (fun _ _ ⟨_, _, _, _, _, _, _, e, _⟩ => by rw [e]) fun _ ⟨_, _, e, _⟩ => by rw [e]; rfl

theorem takeEnd_keepsNodes : (takeEnd u s).KeepsNodes s :=
  takeEnd_sat.mono (fun _ _ ⟨_, e⟩ => by rw [e]) fun _ e => by rw [e]; rfl

theorem encFlushLines_keepsNodes (xs : List Bool) : (encFlushLines xs s).KeepsNodes s :=
  takeEnd_keepsNodes.bind fun _ t => by
    show (flushWith xs t).nodes = t.nodes
    rw [flushWith_eq]

theorem decDrainLines_keepsNodes : (decDrainLines s).KeepsNodes s :=
  takeEnd_keepsNodes.bind fun _ _ => moment_keepsNodes.bind fun _ _ => rfl

theorem decHdrLines_inSequence : (decHdrLines s).InSequence := by
  refine Flow.Sat.bind ((needBits_sat 4).mono (fun _ _ h => h) fun _ ⟨_, _, e⟩ => .of_phase (by rw [e]; rfl)) ?_
  rintro bits t -
  refine moment_bind (fun p => ?_) fun _ => .of_phase rfl
  split_ifs
  · exact .of_phase rfl
  · exact moment_bind (fun q _ => sibling_singleton _) fun _ => .of_phase rfl

theorem updateLines_inSequence {ph : Phase} (h : (applyRecord u s).Orders) :
    ((applyRecord u s).bind fun _ t => .ok () { t with phase := ph }).InSequence :=
  (h.mono (fun _ _ h => h) fun _ h => .of_phase (by rw [h]; rfl)).bind fun _ _ h _ => h

theorem DriverStep.treeSibling (j : JobInv s) (f : JobFacts s) (hr : s.par.leaderRule = .excludeThenMax)
    (h : DriverStep s t) (sb : TreeSibling s) : TreeSibling t := by
  obtain ⟨i, hd, h⟩ := h
  have fault : ∀ u p, TreeSibling (raise .ioError u { s with outErr := p }) := fun _ _ => .of_phase rfl
  have keeps : ∀ {p} {x : Flow Unit}, s.phase.hasTree = true → x.KeepsNodes { s with outErr := p } → x.InSequence :=
    fun {p} _ ht k => k.inSequence (s := { s with outErr := p }) (sb ht)
  have orders : ∀ {u p}, s.phase = .cUpdate ∨ s.phase = .dUpdate → s.phase.hasTree = true →
      (applyRecord u { s with outErr := p }).Orders := fun {u p} hp ht => by
    obtain ⟨o, hi⟩ := (f.pin p).inOrder (j.pin p) ht hr (sb ht)
    exact applyRecord_orders o ((j.pin p).tree ht) hi ((j.pin p).update hp)
  cases hp : s.phase <;> rw [hp] at hd <;> cases hd
  case cHdr.refl =>
    exact withSink_next (fun p => keeps (by rw [hp]; rfl) ((writeBits_keepsNodes _).bind fun _ _ => goTo_keepsNodes _)) sb
      (fault _) h
  case cFetch.refl =>
    exact withSink_next (fun p => keeps (by rw [hp]; rfl) (gather_keepsNodes.bind fun _ _ => goTo_keepsNodes _)) sb
      (fault _) h
  case cEmit.refl =>
    exact withSink_next (fun p => keeps (by rw [hp]; rfl) (encSymbolLines_keepsNodes ((j.pin p).tree (by rw [hp]; rfl))))
      sb (fault _) h
  case cUpdate.refl =>
    exact withSink_next (fun p => updateLines_inSequence (orders (.inl hp) (by rw [hp]; rfl))) sb (fault _) h
  case cFrame.refl => exact withSink_next (fun p => keeps (by rw [hp]; rfl) encFrameLines_keepsNodes) sb (fault _) h
  case cEos.refl =>
    exact withSink_next (fun p => keeps (by rw [hp]; rfl) ((writeBits_keepsNodes _).bind fun _ _ => goTo_keepsNodes _)) sb
      (fault _) h
  case cFlush.refl =>
    exact withSink_next (body := fun s => encFlushLines (padBits s) s)
      (fun p => keeps (by rw [hp]; rfl) (encFlushLines_keepsNodes _)) sb (fault _) h
  case dHdr.refl => exact withSink_next (fun p => decHdrLines_inSequence) sb (fault _) h
  case dWalk.refl => exact withSink_next (fun p => keeps (by rw [hp]; rfl) decWalkLines_keepsNodes) sb (fault _) h
  case dLeaf.refl => exact withSink_next (fun p => keeps (by rw [hp]; rfl) decLeafLines_keepsNodes) sb (fault _) h
  case dUpdate.refl =>
    exact withSink_next (fun p => updateLines_inSequence (orders (.inr hp) (by rw [hp]; rfl))) sb (fault _) h
  case dFrame.refl => exact withSink_next (fun p => keeps (by rw [hp]; rfl) decFrameLines_keepsNodes) sb (fault _) h
  case dDrain.refl => exact withSink_next (fun p => keeps (by rw [hp]; rfl) decDrainLines_keepsNodes) sb (fault _) h

/-! ### A step -/

theorem DriverStep.par_eq (h : DriverStep s t) : t.par = s.par := by
  obtain ⟨i, hd, h⟩ := h
  exact (exec_next (driverOp_not_cmd hd) h).1.par

theorem exec_command_treeSibling {i : Instr} (hc : cmdWord i ≠ none) (sb : TreeSibling s) (h : exec i s = .next t) :
    TreeSibling t := by
  cases exec_cases h with
  | goes hc' n => exact absurd hc' hc
  | stays e => rwa [e]
  | compress size hi ha e => rw [e]; exact fun _ => sibling_singleton _
  | decompress hi ha e => rw [e]; exact .of_phase rfl
  | abort hi e => rw [e]; exact .of_phase rfl

theorem step_treeSibling (j : JobInv s) (f : JobFacts s) (hr : s.par.leaderRule = .excludeThenMax) (sb : TreeSibling s)
    (h : step s = .next t) : TreeSibling t := by
  have js := j.spent
  have fs := f.spent
  have rs : s.spent.par.leaderRule = .excludeThenMax := by rw [spent_eq]; exact hr
  have ss : TreeSibling s.spent := by rw [spent_eq]; exact sb
  cases step_cases h with
  | driver i hs hd h => exact DriverStep.treeSibling js fs rs ⟨i, by rwa [spent_phase], h⟩ ss
  | item i g hr hi h =>
    exact ((itemDue_drives js hi h).keeps
      (P := fun s => JobInv s ∧ JobFacts s ∧ s.par.leaderRule = .excludeThenMax ∧ TreeSibling s)
      (fun p d => ⟨d.job p.1, d.facts p.1 p.2.1, by rw [d.par_eq]; exact p.2.2.1, d.treeSibling p.1 p.2.1 p.2.2.1 p.2.2.2⟩)
      ⟨js, fs, rs, ss⟩).2.2.2
  | command i v hr hs hw h => exact exec_command_treeSibling (by rw [hw]; simp) ss h
  | reserved v hr hs ha e => rw [e]; exact .of_phase rfl
  | issued i c a hr hs hw h => exact absurd (j.host _ (List.mem_of_mem_head? hs)) (by simp [HostEvent.isHost])
  | ioError p hb e => rw [e]; exact .of_phase rfl
  | reset hs e => rw [e]; exact .of_phase rfl
  | quiet inp oe rp ns rd fc hr e => rw [e]; exact sb

/-- Settles O30: the updates by `UpdateEnds.sibling`, a step by what it runs. -/
theorem updateKeepsSiblingProperty : Obligations.UpdateKeepsSiblingProperty := by
  refine ⟨fun s t r nr hc hr ts d sb hroot hnr top _ => ?_, fun s t j f hr sb h ht => step_treeSibling j f hr sb h ht⟩
  obtain ⟨r', nr', hr', hnr', hp⟩ := ts.root_live
  obtain rfl := Option.some.inj (hroot.symm.trans hr')
  obtain rfl := Option.some.inj (hnr.symm.trans hnr')
  have o : InOrder s := ⟨hc, hr, ts, d, ⟨r, nr, hroot, hnr, hp, fun h n hn => top n (List.mem_of_getElem? hn)⟩, sb⟩
  exact ⟨fun hl h hf => (updateTree_orders o hl).outcome sb h hf, fun k hi h hf => (addSymbol_orders o k hi _).outcome sb h hf⟩

end Sys2Proof.Machine
end

section
/-! ## O60: the round trip (42_tree.md R105)

From C_FETCH on the two sides go in lockstep (`lockstep`). Before it stand the command and the header, on either side. -/

namespace Sys2Proof.Machine

variable {s t : State} {u : BitVec 6} {bs : List Byte} {ts : List Token}

/-- An input not yet read. -/
theorem unread_start (hi : s.inp = sent bs ts) (hp : s.inBitPos = 0) : s.unread = bytesBits bs := by
  have e : s.inBytes = bs := by simp [State.inBytes, hi]
  rw [State.unread, inRem_sent hi, e, hp, bitsAt_eq _ _ _ (by omega)]
  simp [List.take_of_length_le]

/-- Bits written, then the last line. -/
theorem writeGo_low {ph : Phase} (ho : s.outErr = .low) (bs : List Bool) :
    (writeBits u bs s).bind (goTo u ph) = .ok () { bitsWr bs s with phase := ph } := by
  rw [writeBits_low ho, bind_ok, goTo_low (by rw [bitsWr_outErr]; exact ho)]

/-! ### The compress side -/

theorem encHdrLines_low (ho : s.outErr = .low) :
    encHdrLines s = .ok () { bitsWr (msbBits 4 s.symSize.toNat) s with phase := .cFetch } := writeGo_low ho _

/-- The state in which a compress job begins to fetch. -/
def fetching (size : BitVec 4) (s : State) : State :=
  { bitsWr (msbBits 4 (clampSize size).toNat) (startCompress size s) with phase := .cFetch }

/-- All but the output framer is as CMD.COMPRESS left it. -/
theorem fetching_eq (size : BitVec 4) (s : State) : fetching size s = { startCompress size s with
    out := (fetching size s).out, oacc := (fetching size s).oacc, ocnt := (fetching size s).ocnt
    outBitPos := (fetching size s).outBitPos, phase := .cFetch } := by
  unfold fetching
  rw [bitsWr_eq]

theorem fetching_written (size : BitVec 4) (s : State) : (fetching size s).written = msbBits 4 (clampSize size).toNat :=
  (bitsWr_written _ (startCompress size s)).trans (List.nil_append _)

theorem fetching_job (size : BitVec 4) (hs : s.hostOnly) (hc : s.par.updateChain = .original) (ho : s.outErr = .low) :
    JobInv (fetching size s) := by
  have j : JobInv (startCompress size s) :=
    startCompress_job (s := { s with symBuf := [] }) ⟨hs, hc, Nat.zero_le _⟩ size
  have h := encHdrLines_job j rfl
  rwa [encHdrLines_low (s := startCompress size s) ho] at h

/-- A run to DONE from the COMPRESS word goes through C_FETCH. -/
theorem run_compress {k : Nat} {size : BitVec 4} (h : Host.Core.run Sys2Proof.core k s = .next t)
    (hs : s.sched = [.regWr 0 (0x10 + size.toNat)]) (ho : s.outErr = .low) (hr : s.rst = .low)
    (hp : s.phase.accepts = true) (ht : t.phase = .done) (hts : t.sched = []) :
    ∃ j, Host.Core.run Sys2Proof.core j (fetching size { s with sched := [] }) = .next t := by
  obtain ⟨j, -, h⟩ := run_peel (M := Sys2Proof.core) (b := startCompress size { s with sched := [] }) h
    ((step_cmd_word hr hs (decode_compress size)).trans (exec_cmdCompress_of_accepts size hp))
    (by rintro rfl; rw [hts] at hs; cases hs)
  obtain ⟨j, -, h⟩ := run_driver (i := .encHdr) h ht rfl ho rfl rfl
    (encHdrLines_low (s := startCompress size { s with sched := [] }) ho)
  exact ⟨j, h⟩

/-! ### The decompress side -/

/-- DEC.HDR with a size: the one-node tree, and the walk begins (45_decompress.md R134). -/
theorem decHdrWith_size (ho : s.outErr = .low) {v : BitVec 4} (hv : v ≠ 0#4) : decHdrWith v s = .ok ()
    { treeNew (256 ^ v.toNat) { s with symSize := v } with cur := some 0, phase := .dWalk } := by
  unfold decHdrWith
  rw [moment_low ho, bind_ok, if_neg hv, moment_low (s := treeNew _ { s with symSize := v }) ho]
  rfl

/-- The state in which a decompress job begins to walk. -/
def walkingAfter (v : BitVec 4) (s : State) : State :=
  { treeNew (256 ^ v.toNat) { startDecompress s with inBitPos := 4, symSize := v } with cur := some 0, phase := .dWalk }

/-- From the DECOMPRESS word to the first walk. -/
theorem reaches_walking {v : BitVec 4} {W : List Bool} (hs : s.sched = [.regWr 0 0x20]) (ho : s.outErr = .low)
    (hr : s.rst = .low) (hp : s.phase.accepts = true) (hi : s.inp = sent bs ts) (hv : v ≠ 0#4)
    (hb : bytesBits bs = msbBits 4 v.toNat ++ W) : Reaches s (walkingAfter v { s with sched := [] }) ∧
      (walkingAfter v { s with sched := [] }).unread = W := by
  have first : Reaches s (startDecompress { s with sched := [] }) :=
    .one ((step_cmd_word hr hs decode_cmd_decompress).trans (exec_cmdDecompress_of_accepts hp))
  have hi' : (startDecompress { s with sched := [] }).inp = sent bs ts := hi
  have hu := (unread_start hi' rfl).trans hb
  have nb := needBits_unread (u := uopCode .decHdr) hi' hu (by simp [msbBits])
  rw [length_msbBits] at nb
  refine ⟨first.trans (reaches_driver (i := .decHdr) rfl ho rfl rfl (?_ : decHdrLines _ = _)), unread_after hu rfl rfl⟩
  unfold decHdrLines
  rw [nb, bind_ok, hdrOf_msbBits]
  exact decHdrWith_size (s := { startDecompress { s with sched := [] } with inBitPos := 4 }) ho hv

/-- Settles O60: the header, then `lockstep`. -/
theorem roundTrip : Obligations.RoundTrip := by
  rintro s t u size bs ts us hc hm hp hs hi ho hr ⟨k, h⟩ ht hts hpar hup hus hui huo hur
  obtain ⟨j, h⟩ := run_compress h hs ho hr ((Phase.accepts_iff _).mpr hp) ht hts
  have job : JobInv (fetching size { s with sched := [] }) := fetching_job size (fun e he => absurd he List.not_mem_nil) hc ho
  have out := fetching_written size { s with sched := [] }
  have e := fetching_eq size { s with sched := [] }
  generalize fetching size { s with sched := [] } = c at h job out e
  have ci : c.inp = sent bs ts := by rw [e]; exact hi
  have cp : c.inBitPos = 0 := by rw [e]; rfl
  obtain ⟨W, -, hw, dec⟩ := lockstep j c bs job (by rw [e]) (by rw [e]; rfl) (by rw [e]; exact ho) ci (unread_start ci cp)
    (by rw [cp]; exact Nat.zero_le _) (by rw [e]; exact clampSize_ne size) (fun _ => by rw [e]; rfl) h ht
  rw [out] at hw
  obtain ⟨first, hu⟩ := reaches_walking hus huo hur ((Phase.accepts_iff _).mpr hup) hui (clampSize_ne size) hw
  have same : SameTree c (walkingAfter (clampSize size) { u with sched := [] }) := by
    rw [e]
    exact ⟨hpar, rfl, rfl, rfl, rfl, rfl⟩
  obtain ⟨v, rest, hv, hvs, hvo⟩ := dec _ t.out us same (by show u.par.rawMinBits = _; rw [hpar]; exact hm)
    (by rw [e]; rfl) rfl rfl rfl huo hui hu rfl
  exact ⟨v, first.trans rest, hv, hvs, hvo⟩

end Sys2Proof.Machine
end

section
/-! ## O16, O31, O39, O43 to O47: what the operations do with an input of which part has come (43_framer.md R107 to R111)

The bytes `bs` have come, and then `rest`: END, ERR, or nothing yet. Each read is said once for each of these. -/

namespace Sys2Proof.Machine

variable {s t : State} {u : BitVec 6} {bs : List Byte} {rest ts : List Token} {n m : Nat}

/-! ### Bits -/

theorem readBits_at_stop (h : s.inp = bs.map .byte ++ .stop :: ts) (hn : 8 * bs.length < s.inBitPos + n) :
    readBits u n s = .ok none s := by
  unfold readBits
  rw [h, lookBits_short hn fun _ => rfl]

theorem readBits_at_err (h : s.inp = bs.map .byte ++ .err :: ts) (hn : 8 * bs.length < s.inBitPos + n) :
    readBits u n s = .raised (raise .ioError u s) := by
  unfold readBits
  rw [h, lookBits_short hn fun _ => rfl]
  rfl

theorem readBits_at_none (h : s.inp = bs.map .byte ++ []) (hn : 8 * bs.length < s.inBitPos + n) : readBits u n s = .waits := by
  unfold readBits
  rw [h, lookBits_short hn fun _ => rfl]

theorem needBits_bytes (h : s.inp = bs.map .byte ++ rest) (hn : s.inBitPos + n ≤ 8 * bs.length) :
    needBits u n s = .ok (((bytesBits bs).drop s.inBitPos).take n) { s with inBitPos := s.inBitPos + n } := by
  unfold needBits
  rw [readBits_bytes h hn, bitsAt_eq _ _ _ hn]
  rfl

/-- What a required read of which the bits are not there makes of a driver operation: F3 before END, F8 before ERR, and
nothing yet. -/
theorem needBits_short {k : List Bool → State → Flow Unit} (h : s.inp = bs.map .byte ++ rest)
    (hn : 8 * bs.length < s.inBitPos + n) :
    (∀ ts, rest = .stop :: ts → ((needBits u n s).bind k).outcome s = .next (raise .truncated u s)) ∧
    (∀ ts, rest = .err :: ts → ((needBits u n s).bind k).outcome s = .next (raise .ioError u s)) ∧
    (rest = [] → ((needBits u n s).bind k).outcome s = .next s) := by
  unfold needBits
  refine ⟨fun ts e => ?_, fun ts e => ?_, fun e => ?_⟩ <;> subst e
  · rw [readBits_at_stop h hn]; rfl
  · rw [readBits_at_err h hn]; rfl
  · rw [readBits_at_none h hn]; rfl

theorem take_one_of_getElem? {l : List Bool} {p : Nat} {b : Bool} (h : l[p]? = some b) : (l.drop p).take 1 = [b] := by
  obtain ⟨hl, rfl⟩ := List.getElem?_eq_some_iff.mp h
  rw [List.drop_eq_getElem_cons hl]
  rfl

theorem needBit_bytes {b : Bool} (h : s.inp = bs.map .byte ++ rest) (hb : (bytesBits bs)[s.inBitPos]? = some b) :
    needBits u 1 s = .ok [b] { s with inBitPos := s.inBitPos + 1 } := by
  have hl := (List.getElem?_eq_some_iff.mp hb).1
  rw [length_bytesBits] at hl
  rw [needBits_bytes h hl, take_one_of_getElem? hb]

/-! ### BIT.RD, BIT.RDBYTE, BIT.RDHDR -/

theorem withSink_readResult {value : List Bool → UopResult} (ho : s.outErr = .low) (h : s.inp = bs.map .byte ++ rest)
    (hn : s.inBitPos + n ≤ 8 * bs.length) : withSink 0#6 (readResult n value) s =
      .next { s with res := value (bitsAt bs s.inBitPos n), inBitPos := s.inBitPos + n } := by
  rw [withSink_low ho]
  unfold readResult
  rw [readBits_bytes h hn]
  rfl

theorem withSink_readResult_short {value : List Bool → UopResult} (ho : s.outErr = .low) (h : s.inp = bs.map .byte ++ rest)
    (hn : 8 * bs.length < s.inBitPos + n) :
    (∀ ts, rest = .stop :: ts → withSink 0#6 (readResult n value) s = .next { s with res := .exhausted }) ∧
    (∀ ts, rest = .err :: ts → withSink 0#6 (readResult n value) s = .next (raise .ioError 0#6 s)) ∧
    (rest = [] → withSink 0#6 (readResult n value) s = .next s) := by
  rw [withSink_low ho]
  unfold readResult
  refine ⟨fun ts e => ?_, fun ts e => ?_, fun e => ?_⟩ <;> subst e
  · rw [readBits_at_stop h hn]; rfl
  · rw [readBits_at_err h hn]; rfl
  · rw [readBits_at_none h hn]; rfl

/-- Settles O31. -/
theorem bitReads : Obligations.BitReads := by
  intro s bs rest ho h
  refine ⟨fun hn => withSink_readResult ho h hn, fun hn => ⟨_, ?_, withSink_readResult ho h hn⟩,
    fun hn => ⟨_, ?_, withSink_readResult ho h hn⟩, ?_⟩
  · rw [byteBits_byteOfBits (length_bitsAt _ _ _), bitsAt_eq _ _ _ hn]
  · exact (msbBits_toNat_ofNat (length_bitsAt _ _ _)).trans (bitsAt_eq _ _ _ hn)
  · rintro i n (⟨rfl, rfl⟩ | ⟨rfl, rfl⟩ | ⟨rfl, rfl⟩) hn
    · exact withSink_readResult_short ho h hn
    · exact withSink_readResult_short ho h hn
    · exact withSink_readResult_short ho h hn

/-! ### The byte loops -/

/-- The `k` bytes from bit position `p` on. -/
def bytesFrom (bs : List Byte) (p k : Nat) : List Byte := bytesOfBits k (bitsAt bs p (8 * k))

@[simp] theorem length_bytesFrom (bs : List Byte) (p k : Nat) : (bytesFrom bs p k).length = k := length_bytesOfBits _ _

theorem bytesBits_bytesFrom {p k : Nat} (h : k ≤ (8 * bs.length - p) / 8) :
    bytesBits (bytesFrom bs p k) = ((bytesBits bs).drop p).take (8 * k) := by
  rw [bytesFrom, bytesBits_bytesOfBits _ _ (length_bitsAt _ _ _)]
  cases k with
  | zero => rfl
  | succ k => exact bitsAt_eq _ _ _ (by omega)

/-- How many bytes a loop "while k < SYMSIZE and InRem() >= m" finds (40_symbol.md R80, 45_decompress.md R139). -/
def fitting (m : Nat) (bs : List Byte) (s : State) : Nat := min s.symSize.toNat ((8 * bs.length - s.inBitPos + 8 - m) / 8)

theorem rawBytes_fitting (hm : 8 ≤ m) : rawBytes bs.length s.inBitPos m s.symSize.toNat = fitting m bs s :=
  rawBytes_eq _ _ _ _ hm

/-- Where all the bytes asked for have come, the loop does not look at what follows them. -/
theorem readBytes_full (hm : 8 ≤ m) : ∀ {k p : Nat}, k ≤ (8 * bs.length - p + 8 - m) / 8 →
    readBytes (bs.map .byte ++ rest) m k p = .got (bytesFrom bs p k) := by
  intro k
  induction k with
  | zero => intros; rfl
  | succ k ih =>
    intro p h
    have hp : p + m ≤ 8 * bs.length := by omega
    rw [readBytes, lookBits_bytes hp]
    simp only
    rw [ih (by omega), inBytesOf_bytes, bitsAt_append (by omega)]
    simp only [BytesRead.cons, bytesFrom, bytesOfBits]
    rw [show 8 * (k + 1) = 8 + 8 * k by omega, bitsAt_add, List.take_left' (by simp), List.drop_left' (by simp)]

theorem readSymBytes_bytes (hm : 8 ≤ m) (ho : s.outErr = .low) (h : s.inp = bs.map .byte ++ rest)
    (hr : (∃ ts, rest = .stop :: ts) ∨ s.symSize.toNat ≤ (8 * bs.length - s.inBitPos + 8 - m) / 8) :
    readSymBytes u m s = .ok (bytesFrom bs s.inBitPos (fitting m bs s)) { s with inBitPos := s.inBitPos + 8 * fitting m bs s } := by
  have e : readBytes s.inp m s.symSize.toNat s.inBitPos = .got (bytesFrom bs s.inBitPos (fitting m bs s)) := by
    rw [h]
    rcases hr with ⟨ts, rfl⟩ | hr
    · rw [readBytes_bytes (r := .no) hm (by simp) (fun _ => rfl), if_pos (.inr rfl), rawBytes_fitting hm]
      rfl
    · rw [readBytes_full hm hr, fitting, min_eq_left hr]
  unfold readSymBytes
  rw [e]
  simp only [readActions_low ho, length_bytesFrom, bind_ok]

theorem readSymBytes_at_err (hm : 8 ≤ m) (ho : s.outErr = .low) (h : s.inp = bs.map .byte ++ .err :: ts)
    (hk : fitting m bs s ≠ s.symSize.toNat) : readSymBytes u m s = .raised (raise .ioError u
      { s with inBitPos := s.inBitPos + 8 * fitting m bs s
               symBuf := overlay (bytesFrom bs s.inBitPos (fitting m bs s)) s.symBuf }) := by
  have e : readBytes s.inp m s.symSize.toNat s.inBitPos = .failed (bytesFrom bs s.inBitPos (fitting m bs s)) := by
    rw [h, readBytes_bytes (r := .err) hm (by simp) (fun _ => rfl), rawBytes_fitting hm, if_neg (by simp [hk]), if_pos rfl]
    rfl
  unfold readSymBytes
  rw [e]
  simp only [readActions_low ho, length_bytesFrom, bind_ok]
  rfl

theorem readSymBytes_at_none (hm : 8 ≤ m) (h : s.inp = bs.map .byte ++ []) (hk : fitting m bs s ≠ s.symSize.toNat) :
    readSymBytes u m s = .waits := by
  unfold readSymBytes
  rw [h, readBytes_bytes (r := .wait) hm (by simp) (fun _ => rfl), rawBytes_fitting hm, if_neg (by simp [hk]), if_neg (by simp)]

/-! ### SYM.GATHER and ENC.FETCH -/

theorem fitting_eight : fitting 8 bs s = min s.symSize.toNat ((8 * bs.length - s.inBitPos) / 8) := rfl

theorem setMore_bytes (h : s.inp = bs.map .byte ++ rest) (hn : s.inBitPos + 8 ≤ 8 * bs.length) :
    setMore u s = .ok () { s with more := true } := by
  unfold setMore
  rw [h, lookBits_bytes hn]

theorem setMore_at_stop (h : s.inp = bs.map .byte ++ .stop :: ts) (hn : 8 * bs.length < s.inBitPos + 8) :
    setMore u s = .ok () { s with more := false } := by
  unfold setMore
  rw [h, lookBits_short hn fun _ => rfl]

theorem setMore_at_err (h : s.inp = bs.map .byte ++ .err :: ts) (hn : 8 * bs.length < s.inBitPos + 8) :
    setMore u s = .raised (raise .ioError u s) := by
  unfold setMore
  rw [h, lookBits_short hn fun _ => rfl]
  rfl

theorem setMore_at_none (h : s.inp = bs.map .byte ++ []) (hn : 8 * bs.length < s.inBitPos + 8) : setMore u s = .waits := by
  unfold setMore
  rw [h, lookBits_short hn fun _ => rfl]

/-- The state after the loop of SYM.GATHER, before MORE. -/
def gathered (bs : List Byte) (s : State) : State :=
  { s with symBuf := bytesFrom bs s.inBitPos (fitting 8 bs s), inBitPos := s.inBitPos + 8 * fitting 8 bs s }

theorem gathered_inBitPos : (gathered bs s).inBitPos = s.inBitPos + 8 * fitting 8 bs s := rfl

/-- Where the loop ends, MORE follows (40_symbol.md R80). -/
theorem gather_eq_setMore (ho : s.outErr = .low) (h : s.inp = bs.map .byte ++ rest)
    (hr : (∃ ts, rest = .stop :: ts) ∨ fitting 8 bs s = s.symSize.toNat) : gather u s = setMore u (gathered bs s) := by
  unfold gather
  rw [readSymBytes_bytes (le_refl 8) ho h (hr.imp_right fun q => by rw [fitting_eight] at q; omega), bind_ok]
  rfl

theorem gather_bytes (ho : s.outErr = .low) (h : s.inp = bs.map .byte ++ rest)
    (hr : (∃ ts, rest = .stop :: ts) ∨ s.inBitPos + 8 * s.symSize.toNat + 8 ≤ 8 * bs.length) :
    gather u s = .ok () { gathered bs s with more := decide (8 ≤ 8 * bs.length - (s.inBitPos + 8 * fitting 8 bs s)) } := by
  have f := fitting_eight (bs := bs) (s := s)
  rw [gather_eq_setMore ho h (hr.imp_right fun q => by omega)]
  by_cases q : s.inBitPos + 8 * fitting 8 bs s + 8 ≤ 8 * bs.length
  · rw [decide_eq_true (by omega)]
    exact setMore_bytes (s := gathered bs s) h q
  · rw [decide_eq_false (by omega)]
    obtain ⟨ts, rfl⟩ := hr.resolve_right fun c => q (by omega)
    exact setMore_at_stop (s := gathered bs s) h (Nat.lt_of_not_le q)

theorem gather_at_none (ho : s.outErr = .low) (h : s.inp = bs.map .byte ++ [])
    (hn : 8 * bs.length < s.inBitPos + 8 * s.symSize.toNat + 8) : gather u s = .waits := by
  by_cases hk : fitting 8 bs s = s.symSize.toNat
  · rw [gather_eq_setMore ho h (.inr hk)]
    exact setMore_at_none (s := gathered bs s) h (by rw [gathered_inBitPos]; omega)
  · unfold gather
    rw [readSymBytes_at_none (le_refl 8) h hk]
    rfl

theorem gather_at_err (ho : s.outErr = .low) (h : s.inp = bs.map .byte ++ .err :: ts)
    (hn : 8 * bs.length < s.inBitPos + 8 * s.symSize.toNat + 8) :
    ∃ vs : List Byte, vs.length = (8 * bs.length - s.inBitPos) / 8 ∧
      bytesBits vs = ((bytesBits bs).drop s.inBitPos).take (8 * vs.length) ∧
      gather u s = .raised (raise .ioError u { s with
        inBitPos := s.inBitPos + 8 * vs.length
        symBuf := if vs.length = s.symSize.toNat then vs else overlay vs s.symBuf }) := by
  have hf : fitting 8 bs s = (8 * bs.length - s.inBitPos) / 8 := by rw [fitting_eight]; omega
  refine ⟨bytesFrom bs s.inBitPos (fitting 8 bs s), by simp [hf], ?_, ?_⟩
  · rw [length_bytesFrom]
    exact bytesBits_bytesFrom hf.le
  · rw [length_bytesFrom]
    by_cases hk : fitting 8 bs s = s.symSize.toNat
    · rw [gather_eq_setMore ho h (.inr hk), if_pos hk]
      exact setMore_at_err (s := gathered bs s) h (by rw [gathered_inBitPos]; omega)
    · unfold gather
      rw [readSymBytes_at_err (le_refl 8) ho h hk, if_neg hk]
      rfl

/-- Settles O16. -/
theorem gatherReadsSymbol : Obligations.GatherReadsSymbol := by
  intro s bs rest ho h
  change (_ → ∃ vs, _ ∧ _ ∧ withSink 0#6 (gather 0#6) s = _) ∧ (_ → (_ → withSink 0#6 (gather 0#6) s = _) ∧
    ∀ ts, _ → ∃ vs, _ ∧ _ ∧ withSink 0#6 (gather 0#6) s = _)
  rw [withSink_low ho]
  refine ⟨fun hr => ⟨bytesFrom bs s.inBitPos (fitting 8 bs s), by simp [fitting_eight], ?_, ?_⟩, fun hn => ⟨?_, ?_⟩⟩
  · rw [length_bytesFrom]
    exact bytesBits_bytesFrom (by rw [fitting_eight]; omega)
  · rw [length_bytesFrom, gather_bytes ho h hr]
    rfl
  · rintro rfl
    rw [gather_at_none ho h hn]
    rfl
  · rintro ts rfl
    obtain ⟨vs, hl, hb, e⟩ := gather_at_err (u := 0#6) ho h hn
    exact ⟨vs, hl, hb, by rw [e]; rfl⟩

/-- Settles O39: as SYM.GATHER, and the phase. -/
theorem compressorFetches : Obligations.CompressorFetches := by
  intro s bs rest ho h
  change (_ → ∃ vs, _ ∧ _ ∧ withSink (uopCode .encFetch) encFetchLines s = _) ∧
    (_ → (_ → withSink (uopCode .encFetch) encFetchLines s = _) ∧
      ∀ ts, _ → ∃ vs, _ ∧ _ ∧ withSink (uopCode .encFetch) encFetchLines s = _)
  rw [withSink_low ho]
  unfold encFetchLines
  refine ⟨fun hr => ⟨bytesFrom bs s.inBitPos (fitting 8 bs s), by simp [fitting_eight], ?_, ?_⟩, fun hn => ⟨?_, ?_⟩⟩
  · rw [length_bytesFrom]
    exact bytesBits_bytesFrom (by rw [fitting_eight]; omega)
  · rw [gather_bytes ho h hr, bind_ok, goTo_low (s := { gathered bs s with more := _ }) ho]
    simp only [gathered, ← List.length_eq_zero_iff, length_bytesFrom]
    rfl
  · rintro rfl
    rw [gather_at_none ho h hn]
    rfl
  · rintro ts rfl
    obtain ⟨vs, hl, hb, e⟩ := gather_at_err (u := uopCode .encFetch) ho h hn
    exact ⟨vs, hl, hb, by rw [e]; rfl⟩

end Sys2Proof.Machine
end

section
/-! ## O43 to O47: the operations of the decompress driver (45_decompress.md R134 to R143) -/

namespace Sys2Proof.Machine

variable {s t : State} {u : BitVec 6} {bs : List Byte} {rest ts : List Token} {h : Handle} {n : Node}

/-! ### DEC.HDR -/

theorem decHdrWith_zero (ho : s.outErr = .low) : decHdrWith 0#4 s = .raised (raise .badHeader (uopCode .decHdr) s) := by
  unfold decHdrWith
  rw [moment_low ho]
  rfl

/-- Settles O43. -/
theorem decompressorReadsHeader : Obligations.DecompressorReadsHeader := by
  intro s bs rest ho h
  change (_ → (∀ ts, _ → withSink (uopCode .decHdr) decHdrLines s = _) ∧ (∀ ts, _ → withSink (uopCode .decHdr) decHdrLines s = _) ∧
    (_ → withSink (uopCode .decHdr) decHdrLines s = _)) ∧ ∀ v, _ → _ →
    (_ → withSink (uopCode .decHdr) decHdrLines s = _) ∧ (_ → withSink (uopCode .decHdr) decHdrLines s = _)
  rw [withSink_low ho]
  refine ⟨fun hn => needBits_short h hn, fun v hn hv => ?_⟩
  unfold decHdrLines
  rw [needBits_bytes h hn, bind_ok, ← hv, hdrOf_msbBits]
  refine ⟨?_, fun h0 => ?_⟩
  · rintro rfl
    rw [decHdrWith_zero (s := { s with inBitPos := s.inBitPos + 4 }) ho]
    rfl
  · rw [decHdrWith_size (s := { s with inBitPos := s.inBitPos + 4 }) ho h0]
    simp [treeNew, Flow.outcome]

/-! ### DEC.WALK -/

/-- Settles O44. -/
theorem decompressorWalks : Obligations.DecompressorWalks := by
  intro s h n ho hc hn
  have e : exec .decWalk s = (decWalkLines s).outcome s := withSink_low ho
  rw [e]
  unfold decWalkLines
  rw [curNode_eq hc hn, ofExcept_ok, bind_ok]
  refine ⟨fun hl => ?_, fun bs rest hl hi => ?_⟩
  · rw [if_pos hl, goTo_low ho]
    rfl
  · rw [if_neg (by simp [hl])]
    refine ⟨fun hn => needBits_short hi hn, fun b hb => ?_⟩
    rw [needBit_bytes hi hb, bind_ok, moment_low (s := { s with inBitPos := s.inBitPos + 1 }) ho]
    rfl

/-! ### DEC.LEAF -/

theorem decLeafLines_nyt (hc : s.cur = some h) (hn : s.nodes[h]? = some n) (hw : n.weight = 0) :
    decLeafLines s = (readRaw s).bind fun bs s => if bs = [] then leafEmpty s else leafNew bs s := by
  unfold decLeafLines
  rw [curNode_eq hc hn, ofExcept_ok, bind_ok, if_pos (by simp [Node.isNyt, hw])]

theorem eight_le_rawMinBits (r : RawMinBits) : 8 ≤ r.toNat := by cases r <;> decide

/-- The bytes read at the NYT taken as the symbol; none is the empty record (R138, R140). -/
theorem leaf_after_read (ho : s.outErr = .low) (vs : List Byte) :
    (if vs = [] then leafEmpty s else leafNew vs s).outcome t = .next
      (if vs.length = 0 then
        if s.nodes.length = 1 then { s with symBuf := [], emptyRec := true, phase := .dFrame }
        else raise .truncated (uopCode .decLeaf) { s with symBuf := [] }
      else { s with symBuf := vs, found := false, out := s.out ++ vs, outBitPos := s.outBitPos + 8 * vs.length, phase := .dUpdate }) := by
  by_cases hv : vs = []
  · rw [if_pos hv, if_pos (by rw [hv]; rfl), leafEmpty_eq]
    split_ifs <;> rfl
  · rw [if_neg hv, if_neg (by rwa [List.length_eq_zero_iff]), leafNew, leafOut_low (s := setFound false { s with symBuf := vs }) ho]
    rfl

/-- Settles O45. -/
theorem decompressorLeafAction : Obligations.DecompressorLeafAction := by
  intro s h n ho hc hn
  have e : exec .decLeaf s = (decLeafLines s).outcome s := withSink_low ho
  rw [e]
  refine ⟨fun bs rest hw hi => ?_, fun sym hw hs => by rw [decLeaf_hit ho hc hn hw hs]; rfl⟩
  have hm := eight_le_rawMinBits s.par.rawMinBits
  refine ⟨bytesFrom bs s.inBitPos (fitting s.par.rawMinBits.toNat bs s), length_bytesFrom _ _ _, ?_, fun hr => ?_, fun hk => ⟨?_, ?_⟩⟩
  · rw [length_bytesFrom]
    exact bytesBits_bytesFrom (by unfold fitting; omega)
  · rw [length_bytesFrom] at hr
    rw [decLeafLines_nyt hc hn hw, readRaw, readSymBytes_bytes hm ho hi (hr.imp_right fun q => by unfold fitting at q; omega), bind_ok,
      leaf_after_read (s := { s with inBitPos := s.inBitPos + 8 * fitting s.par.rawMinBits.toNat bs s }) ho]
    simp only [length_bytesFrom]
    by_cases q : fitting s.par.rawMinBits.toNat bs s = 0
    · simp only [q, if_true, Nat.mul_zero, Nat.add_zero]
    · simp only [q, if_false]
  · rw [length_bytesFrom] at hk
    rintro rfl
    rw [decLeafLines_nyt hc hn hw, readRaw, readSymBytes_at_none hm hi hk]
    rfl
  · rw [length_bytesFrom] at hk
    rintro ts rfl
    rw [decLeafLines_nyt hc hn hw, readRaw, readSymBytes_at_err hm ho hi hk, overlay, length_bytesFrom]
    rfl

/-! ### DEC.FRAME and DEC.DRAIN -/

theorem decFrameWith_low (ho : s.outErr = .low) (b : Bool) : (decFrameWith b s).outcome t = .next
    (if b then { s with phase := .dDrain }
     else if s.emptyRec then raise .malformedEmpty (uopCode .decFrame) s
     else { s with cur := s.root, phase := .dWalk }) := by
  unfold decFrameWith
  rw [moment_low ho, bind_ok]
  split_ifs <;> rfl

/-- Settles O46. -/
theorem decompressorReadsFrame : Obligations.DecompressorReadsFrame := by
  intro s bs rest ho h
  have e : exec .decFrame s = (decFrameLines s).outcome s := withSink_low ho
  rw [e]
  unfold decFrameLines
  refine ⟨fun hn => needBits_short h hn, fun b hb => ?_⟩
  rw [needBit_bytes h hb, bind_ok]
  exact decFrameWith_low (s := { s with inBitPos := s.inBitPos + 1 }) ho b

theorem takeEnd_sent (h : s.inp = sent bs ts) : takeEnd u s = .ok () { s with inp := ts } := by
  unfold takeEnd
  rw [h, afterEnd_sent]

theorem takeEnd_broken (h : s.inp = bs.map .byte ++ .err :: ts) : takeEnd u s = .raised (raise .ioError u s) := by
  unfold takeEnd
  rw [h, afterEnd_broken]
  rfl

theorem takeEnd_short (h : s.inp = bs.map .byte ++ []) : takeEnd u s = .waits := by
  unfold takeEnd
  rw [h, afterEnd_bytes]
  rfl

/-- However DEC.DRAIN ends: DONE with END sent, or F8 with no END sent. -/
def Drained (s t : State) : Prop := t = s ∨ (t.phase = .done ∧ t.outClosed = true) ∨
  ∃ (p : OutErr) (ts : List Token), t = raise .ioError (uopCode .decDrain) { s with inp := ts, outErr := p }

theorem decDrainLines_drained (p : OutErr) :
    (decDrainLines { s with outErr := p }).Sat (fun _ => Drained s) (Drained s) True := by
  refine (takeEnd_sat.mono (fun _ _ h => h) ?_).bind ?_
  · rintro t rfl
    exact .inr (.inr ⟨p, s.inp, rfl⟩)
  · rintro - t ⟨ts, rfl⟩
    exact moment_bind (fun q => .inr (.inl ⟨rfl, rfl⟩)) fun q => .inr (.inr ⟨q, ts, rfl⟩)

/-- Settles O47. -/
theorem decompressorDrains : Obligations.DecompressorDrains := by
  refine ⟨fun s bs ts ho => ?_, fun s t h => withSink_next (P := Drained s) decDrainLines_drained (.inl rfl)
    (fun p => .inr (.inr ⟨p, s.inp, rfl⟩)) h⟩
  have e : exec .decDrain s = (decDrainLines s).outcome s := withSink_low ho
  rw [e]
  unfold decDrainLines
  refine ⟨fun hi => ?_, fun hi => ?_, fun hi => ?_⟩
  · rw [takeEnd_sent hi, bind_ok, moment_low (s := { s with inp := ts }) ho]
    rfl
  · rw [takeEnd_broken hi]
    rfl
  · rw [takeEnd_short (by rw [hi, List.append_nil])]
    rfl

end Sys2Proof.Machine
end

section
/-! ## O17, O32 to O34, O38, O40, O42 and O48: what is written (43_framer.md R112 to R117, 44_compress.md R122 to R129)

With out_err low a write is `bitsWr`, which appends the bits and keeps all but the output framer. -/

namespace Sys2Proof.Machine

variable {s t : State} {u : BitVec 6} {bs : List Byte} {rest ts : List Token} {xs p : List Bool}

/-! ### SYM.SCATTER and BIT.WR -/

/-- Settles O17. -/
theorem scatterAppendsSymbol : Obligations.ScatterAppendsSymbol := by
  refine fun s => ⟨fun ho => ?_, fun ho => withSink_high ho⟩
  have e : exec .symScatter s = (scatterOut 0#6 s).outcome s := withSink_low ho
  rw [e, scatterOut_low ho]
  rfl

/-- Settles O32. -/
theorem bitWrite : Obligations.BitWrite := by
  refine fun s => ⟨fun ho => withSink_high ho, fun ho => ⟨setBit s.oacc (7 - s.ocnt.val) s.args.bit, fun j _ => ?_, ?_⟩⟩
  · exact getLsbD_setBit _ _ _ _ (by omega)
  · have e : exec .bitWr s = (writeBits 0#6 [s.args.bit] s).outcome s := withSink_low ho
    rw [e, writeBits_low ho]
    rfl

/-! ### Bits written, and the phase that follows -/

/-- What a write of the bits `xs` leaves: they are appended, and only the output framer has changed. -/
theorem bitsWr_writes (xs : List Bool) (s : State) : (bitsWr xs s).written = s.written ++ xs ∧
    bitsWr xs s = { s with
      out := (bitsWr xs s).out, oacc := (bitsWr xs s).oacc, ocnt := (bitsWr xs s).ocnt
      outBitPos := s.outBitPos + xs.length } ∧
    (FramerOk s → FramerOk (bitsWr xs s)) :=
  ⟨bitsWr_written xs s, bitsWr_eq xs s, bitsWr_framerOk xs s⟩

/-- The same, with a phase that follows. -/
theorem bitsWr_goes_on (xs : List Bool) (s : State) (ph : Phase) :
    ({ bitsWr xs s with phase := ph } : State).written = s.written ++ xs ∧
    { bitsWr xs s with phase := ph } = { s with
      out := (bitsWr xs s).out, oacc := (bitsWr xs s).oacc, ocnt := (bitsWr xs s).ocnt
      outBitPos := s.outBitPos + xs.length, phase := ph } ∧
    (FramerOk s → FramerOk { bitsWr xs s with phase := ph }) := by
  obtain ⟨hw, he, hf⟩ := bitsWr_writes xs s
  exact ⟨hw, congrArg (fun t : State => { t with phase := ph }) he, hf⟩

/-- Settles O33. -/
theorem byteAndHeaderWrites : Obligations.ByteAndHeaderWrites := by
  refine fun s ho => ⟨⟨_, withSink_ok ho (writeBits_low ho), ?_⟩, ⟨_, withSink_ok ho (writeBits_low ho), ?_⟩⟩
  · exact bitsWr_writes (byteBits s.args.byte) s
  · exact bitsWr_writes (msbBits 4 s.args.hdr.toNat) s

/-- Settles O38. -/
theorem compressorWritesMarks : Obligations.CompressorWritesMarks := by
  intro s ho
  have frame : exec .encFrame s = (encFrameLines s).outcome s := withSink_low ho
  unfold encFrameLines at frame
  refine ⟨⟨_, withSink_ok ho (encHdrLines_low ho), ?_⟩, fun hm => ⟨{ bitsWr [false] s with phase := .cFetch }, ?_, ?_⟩,
    fun hm => ?_, ⟨_, withSink_ok ho (writeGo_low ho [true]), ?_⟩⟩
  · exact bitsWr_goes_on (msbBits 4 s.symSize.toNat) s .cFetch
  · rw [frame, if_pos hm, writeGo_low ho]
    rfl
  · exact bitsWr_goes_on [false] s .cFetch
  · rw [frame, if_neg (by simp [hm]), goTo_low ho]
    rfl
  · exact bitsWr_goes_on [true] s .cFlush

/-! ### BIT.FLUSH and ENC.FLUSH -/

theorem padBits_eq (s : State) : padBits s = List.replicate ((8 - s.ocnt.val) % 8) s.par.padBit := by
  have := s.ocnt.isLt
  unfold padBits padLen
  congr 1
  split
  · rename_i h
    simp [h]
  · rename_i h
    have : s.ocnt.val ≠ 0 := fun q => h (Fin.ext q)
    omega

theorem length_padBits (s : State) : (padBits s).length = padLen s.ocnt := by simp [padBits]

/-- Settles O34. -/
theorem flushPadsAndCloses : Obligations.FlushPadsAndCloses := by
  intro s ho
  have e : exec .bitFlush s = .next (flushWith (padBits s) s) := withSink_low ho
  rw [e]
  unfold flushWith
  refine ⟨fun h => by rw [if_pos h], fun h => ⟨padAcc s.oacc s.ocnt.val (padBits s), ?_, by rw [if_neg h]⟩⟩
  have hc := s.ocnt.isLt
  have hp : padLen s.ocnt = 8 - s.ocnt.val := if_neg h
  have key := take_padAcc s.oacc s.ocnt.val (padBits s) (by rw [length_padBits, hp]; omega)
  rw [length_padBits, hp, List.take_of_length_le (by simp)] at key
  rw [key, padBits, hp]

/-- However ENC.FLUSH ends: DONE with END sent, or F8 with nothing flushed. -/
def Flushed (s t : State) : Prop := t = s ∨ (t.phase = .done ∧ t.outClosed = true) ∨
  ∃ p : OutErr, t = raise .ioError (uopCode .encFlush) { s with outErr := p }

theorem encFlushLines_flushed (p : OutErr) :
    (encFlushLines (padBits { s with outErr := p }) { s with outErr := p }).Sat (fun _ => Flushed s) (Flushed s) True := by
  refine (encFlushLines_sat _).mono ?_ ?_
  · rintro - t ⟨ts, rfl⟩
    exact .inr (.inl ⟨rfl, by rw [flushWith_eq]⟩)
  · rintro t rfl
    exact .inr (.inr ⟨p, rfl⟩)

theorem flushWith_oacc (xs : List Bool) (s : State) : (flushWith xs s).oacc = if s.ocnt = 0 then s.oacc else 0#8 := by
  unfold flushWith
  split <;> rfl

/-- ENC.FLUSH where END has come. -/
theorem encFlushLines_sent (hi : s.inp = sent bs ts) (xs : List Bool) :
    encFlushLines xs s = .ok () { flushWith xs { s with inp := ts } with phase := .done } := by
  unfold encFlushLines
  rw [takeEnd_sent hi]
  rfl

theorem bytesBits_flush (ts : List Token) (s : State) : bytesBits (flushWith (padBits s) { s with inp := ts }).out =
    s.written ++ List.replicate ((8 - s.ocnt.val) % 8) s.par.padBit := by
  rw [← padBits_eq]
  exact flushWith_out (padBits s) { s with inp := ts } (length_padBits s)

/-- Settles O42. -/
theorem compressorFlushes : Obligations.CompressorFlushes := by
  refine ⟨fun s bs rest ho hi => ?_, fun s t h => withSink_next (P := Flushed s) (body := fun s => encFlushLines (padBits s) s)
    encFlushLines_flushed (.inl rfl) (fun p => .inr (.inr ⟨p, rfl⟩)) h⟩
  have e : exec .encFlush s = (encFlushLines (padBits s) s).outcome s := withSink_low ho
  rw [e]
  refine ⟨?_, fun ts => ⟨?_, ?_⟩⟩
  · rintro rfl
    unfold encFlushLines
    rw [takeEnd_short hi]
    rfl
  · rintro rfl
    unfold encFlushLines
    rw [takeEnd_broken hi]
    rfl
  · rintro rfl
    rw [encFlushLines_sent hi]
    refine ⟨_, rfl, bytesBits_flush ts s, ?_⟩
    rw [flushWith_eq, flushWith_oacc]

/-! ### ENC.SYMBOL -/

/-- The path of a mapped leaf has a bit: the one tree in which it has none is the NYT alone (44_compress.md R124). -/
theorem TreeOk.path_ne_nil {ns : Store} {root nyt : Option Handle} {m : SymMap} (k : TreeOk ns root nyt m) {sym : Symbol}
    {h : Handle} (hm : (sym, h) ∈ m) (hp : PathTo ns h p) : p ≠ [] := by
  rintro rfl
  generalize hq : ([] : List Bool) = q at hp
  cases hp with
  | step => simp at hq
  | root hn hr =>
    -- the root is a leaf, so the NYT, which is no other entry's descendant, is the root too, and has no symbol
    obtain ⟨n', hn', hl, hs⟩ := k.map_leaf _ hm
    obtain ⟨y, yn, hy, hyn, -, -, hys⟩ := k.nyt_leaf
    obtain ⟨bs, py⟩ := k.shape.reaches_root y (live_of_get hyn)
    rcases k.shape.root_onChain (live_of_get hyn) (k.shape.only_root _ _ hn hr) with e | a
    · dsimp only at hn'
      rw [e, hyn] at hn'
      cases hn'
      rw [hys] at hs
      cases hs
    · exact k.shape.leaf_not_above hn' hl a

/-- Settles O40. -/
theorem compressorEmitsRecord : Obligations.CompressorEmitsRecord := by
  refine ⟨fun s h p ho k w hm hp => ?_, fun s h p ho hm hy hp => ?_⟩
  · obtain ⟨hw, he, hf⟩ := bitsWr_goes_on p { s with found := true, cur := some h, pathBuf := p } .cUpdate
    exact ⟨_, withSink_ok ho (encSymbolLines_hit ho (lookupSym_of_mem w hm) hp), hw, k.path_ne_nil hm hp, he, hf⟩
  · obtain ⟨hw, he, hf⟩ := bitsWr_goes_on (p ++ bytesBits s.symBuf) { s with found := false, cur := some h, pathBuf := p } .cUpdate
    refine ⟨_, withSink_ok ho (encSymbolLines_new ho (lookupSym_none hm) hy hp), hw.trans (List.append_assoc _ _ _).symm, ?_, hf⟩
    refine he.trans ?_
    simp only [List.length_append, length_bytesBits, Nat.add_assoc]

/-! ### The elements -/

theorem exec_hdr_written (hp : s.phase = .cHdr) : exec (.hdr s.symSize) s = exec .encHdr s := by
  change execHdr s.symSize s = execEncHdr s
  unfold execHdr
  rw [hp]
  exact if_pos rfl

theorem exec_f0_written (hp : s.phase = .cFrame) (hm : s.more = true) : exec .f0 s = exec .encFrame s := by
  change execF0 s = execEncFrame s
  unfold execF0
  rw [hp]
  exact if_pos hm

theorem exec_eos_written (hp : s.phase = .cEos) : exec .eos s = exec .encEos s := by
  change execEos s = execEncEos s
  unfold execEos
  rw [hp]
  rfl

theorem exec_pad_written (hp : s.phase = .cFlush) : exec (.pad (padBits s)) s = withSink (uopCode .encFlush) (encFlushLines (padBits s)) s := by
  change execPad (padBits s) s = _
  unfold execPad
  rw [hp]
  exact if_pos rfl

theorem exec_path_written {h : Handle} (ho : s.outErr = .low) (hp : s.phase = .cEmit) (hr : recordLeaf s = some h)
    (hpath : PathTo s.nodes h p) : exec (.path p) s = .next (bitsWr p { s with pathBuf := p }) := by
  have e : exec (.path p) s = withSink (uopCode .encSymbol) (emitPath h) s := by
    change execPath p s = _
    unfold execPath
    rw [hp, hr]
    exact if_pos (nodePath_eq_ok_iff.mpr hpath)
  exact e.trans (withSink_ok ho (emitPath_eq ho hpath))

theorem exec_raw_written (ho : s.outErr = .low) (hp : s.phase = .cEmit) (hm : ∀ g : Handle, (s.symBuf, g) ∉ s.map) :
    exec (.raw s.symBuf) s = .next (bitsWr (bytesBits s.symBuf) s) := by
  change execRaw s.symBuf s = _
  unfold execRaw
  rw [hp]
  exact (if_pos ⟨lookupSym_none hm, rfl⟩).trans (withSink_ok ho (writeBits_low ho))

/-- Settles O48. -/
theorem elementsAsWritten : Obligations.ElementsAsWritten := by
  intro s ho
  obtain ⟨⟨t1, h1, w1, -⟩, frame, -, ⟨t4, h4, w4, -⟩⟩ := compressorWritesMarks s ho
  refine ⟨fun hp => ⟨t1, (exec_hdr_written hp).trans h1, h1, w1⟩, fun hp hm => ?_,
    fun hp => ⟨t4, (exec_eos_written hp).trans h4, h4, w4⟩, fun bs ts xs hp hi hx => ?_, fun h p hp hr hpath => ?_,
    fun hp hm => ?_⟩
  · obtain ⟨t, h, w, -⟩ := frame hm
    exact ⟨t, (exec_f0_written hp hm).trans h, h, w⟩
  · rw [← padBits_eq] at hx
    subst hx
    refine ⟨_, (exec_pad_written hp).trans (withSink_ok ho (encFlushLines_sent hi _)),
      withSink_ok (body := fun s => encFlushLines (padBits s) s) ho (encFlushLines_sent hi _), ?_⟩
    show bytesBits (flushWith (padBits s) { s with inp := ts }).out = s.written ++ padBits s
    rw [bytesBits_flush, padBits_eq]
  · obtain ⟨hw, he, -⟩ := bitsWr_writes p { s with pathBuf := p }
    exact ⟨_, exec_path_written ho hp hr hpath, hw, he⟩
  · obtain ⟨hw, he, -⟩ := bitsWr_writes (bytesBits s.symBuf) s
    rw [length_bytesBits] at he
    exact ⟨_, exec_raw_written ho hp hm, hw, he⟩

end Sys2Proof.Machine
end

section
/-! ## O49 and O50: the elements as read, and whole records on both sides (30_encoding.md R55 to R62, 45_decompress.md)

Each line of a record is said for itself: the walk (`walkPath_of_path`), the leaf action, the record applied; an element
is put together from them. -/

namespace Sys2Proof.Machine

variable {s t : State} {u : BitVec 6} {bs vs : List Byte} {ts : List Token} {p rest : List Bool} {h N : Handle} {n : Node}
  {ns ns1 ns2 : Store} {sym : Symbol}

/-! ### Which operation an element is -/

theorem exec_hdr_read (hp : s.phase = .dHdr) (v : BitVec 4) : exec (.hdr v) s =
    withSink (uopCode .decHdr) (fun s => (needBits (uopCode .decHdr) 4 s).bind fun _ s => decHdrWith v s) s := by
  change execHdr v s = _
  unfold execHdr
  rw [hp]

theorem exec_f0_read (hp : s.phase = .dFrame) : exec .f0 s = withSink (uopCode .decFrame) (frameElement false) s := by
  change execF0 s = _
  unfold execF0
  rw [hp]

theorem exec_eos_read (hp : s.phase = .dFrame) : exec .eos s = withSink (uopCode .decFrame) (frameElement true) s := by
  change execEos s = _
  unfold execEos
  rw [hp]

theorem exec_pad_read (hp : s.phase = .dDrain) (xs : List Bool) : exec (.pad xs) s = exec .decDrain s := by
  change execPad xs s = execDecDrain s
  unfold execPad
  rw [hp]
  rfl

theorem exec_raw_read (hp : s.phase = .dLeaf) (vs : List Byte) : exec (.raw vs) s = withSink (uopCode .decLeaf) (rawElement vs) s := by
  change execRaw vs s = _
  unfold execRaw
  rw [hp]

theorem exec_path_read (hp : s.phase = .dWalk) (p : List Bool) : exec (.path p) s = withSink (uopCode .decWalk) (walkPath p) s := by
  change execPath p s = _
  unfold execPath
  rw [hp]

theorem exec_recHit_read (hp : s.phase = .dWalk) (p : List Bool) :
    exec (.recHit p) s = withSink (uopCode .decWalk) (decRecord p hitElement) s := by
  change execRecHit p s = _
  unfold execRecHit
  rw [hp]

theorem exec_recNew_read (hp : s.phase = .dWalk) (p : List Bool) (vs : List Byte) :
    exec (.recNew p vs) s = withSink (uopCode .decWalk) (decRecord p (rawElement vs)) s := by
  change execRecNew p vs s = _
  unfold execRecNew
  rw [hp]

theorem exec_recHit_written (hp : s.phase = .cEmit) (hl : lookupSym s.symBuf s = some h) (hpath : PathTo s.nodes h p) :
    exec (.recHit p) s = withSink (uopCode .encSymbol) encRecord s := by
  change execRecHit p s = _
  unfold execRecHit State.opSym
  rw [hp, hl]
  exact if_pos (nodePath_eq_ok_iff.mpr hpath)

theorem exec_recNew_written (hp : s.phase = .cEmit) (hl : lookupSym s.symBuf s = none) (hy : s.nyt = some h)
    (hpath : PathTo s.nodes h p) : exec (.recNew p s.symBuf) s = withSink (uopCode .encSymbol) encRecord s := by
  change execRecNew p s.symBuf s = _
  unfold execRecNew State.opSym
  rw [hp, hl, hy]
  exact if_pos ⟨nodePath_eq_ok_iff.mpr hpath, rfl⟩

/-! ### The leaf actions -/

/-- The raw bytes at the NYT, as the element and as the operation (45_decompress.md R138). -/
theorem leaf_raw (ho : s.outErr = .low) (hi : s.inp = sent bs ts) (hc : s.cur = some h) (hn : s.nodes[h]? = some n)
    (hw : n.weight = 0) (hu : s.unread = bytesBits vs ++ rest) (hv : vs ≠ [])
    (hl : vs.length = min s.symSize.toNat ((s.inRem + 8 - s.par.rawMinBits.toNat) / 8)) :
    rawElement vs s = decLeafLines s ∧ decLeafLines s = .ok () { s with
      symBuf := vs, inBitPos := s.inBitPos + 8 * vs.length, found := false, out := s.out ++ vs
      outBitPos := s.outBitPos + 8 * vs.length, phase := .dUpdate } := by
  have r : readRaw s = .ok vs { s with inBitPos := s.inBitPos + 8 * vs.length } :=
    readSymBytes_unread (eight_le_rawMinBits _) ho hi hu hl
  have new : leafNew vs { s with inBitPos := s.inBitPos + 8 * vs.length } = .ok () { s with
      symBuf := vs, inBitPos := s.inBitPos + 8 * vs.length, found := false, out := s.out ++ vs
      outBitPos := s.outBitPos + 8 * vs.length, phase := .dUpdate } :=
    leafNew_low (s := { s with inBitPos := s.inBitPos + 8 * vs.length }) ho vs
  have lines := decLeafLines_nyt hc hn hw
  rw [r, bind_ok, if_neg hv, new] at lines
  refine ⟨?_, lines⟩
  unfold rawElement
  rw [curNode_eq hc hn, ofExcept_ok, bind_ok, if_pos (by simp [Node.isNyt, hw]), r, bind_ok, if_pos ⟨rfl, hv⟩, new, lines]

theorem leaf_hit (ho : s.outErr = .low) (hc : s.cur = some h) (hn : s.nodes[h]? = some n) (hw : n.weight ≠ 0)
    (hs : n.sym = some sym) : hitElement s = .ok () { s with
      symBuf := sym, found := true, out := s.out ++ sym, outBitPos := s.outBitPos + 8 * sym.length, phase := .dUpdate } := by
  rw [hitElement_eq (curNode_eq hc hn) (by simp [Node.isNyt, hw]), decLeaf_hit ho hc hn hw hs]

/-- HDR and DEC.HDR with the header's bits next. -/
theorem hdr_unread {v : BitVec 4} (hi : s.inp = sent bs ts) (hu : s.unread = msbBits 4 v.toNat ++ rest) :
    ((needBits (uopCode .decHdr) 4 s).bind fun _ s => decHdrWith v s) = decHdrWith v { s with inBitPos := s.inBitPos + 4 } ∧
      decHdrLines s = decHdrWith v { s with inBitPos := s.inBitPos + 4 } := by
  have nb := needBits_unread (u := uopCode .decHdr) hi hu (by simp [msbBits])
  rw [length_msbBits] at nb
  unfold decHdrLines
  rw [nb, bind_ok, bind_ok, hdrOf_msbBits]
  exact ⟨rfl, rfl⟩

/-- F0 or EOS, and DEC.FRAME, with the framing bit next. -/
theorem frame_unread {b : Bool} (hi : s.inp = sent bs ts) (hu : s.unread = b :: rest) :
    frameElement b s = decFrameWith b { s with inBitPos := s.inBitPos + 1 } ∧
      decFrameLines s = decFrameWith b { s with inBitPos := s.inBitPos + 1 } := by
  have nb := needBits_unread (u := uopCode .decFrame) (p := [b]) hi hu (by simp)
  rw [List.length_singleton] at nb
  unfold frameElement
  rw [nb, bind_ok]
  exact ⟨rfl, decFrame_unread hi hu⟩

theorem outcome_decFrameWith {b : Bool} (ho : s.outErr = .low) (f : State → Flow Unit)
    (e : f s = decFrameWith b { s with inBitPos := s.inBitPos + 1 }) : withSink (uopCode .decFrame) f s = .next
      (if b then { s with inBitPos := s.inBitPos + 1, phase := .dDrain }
       else if s.emptyRec then raise .malformedEmpty (uopCode .decFrame) { s with inBitPos := s.inBitPos + 1 }
       else { s with inBitPos := s.inBitPos + 1, cur := s.root, phase := .dWalk }) := by
  rw [withSink_low ho, e]
  exact decFrameWith_low (s := { s with inBitPos := s.inBitPos + 1 }) ho b

/-- Settles O49. -/
theorem elementsAsRead : Obligations.ElementsAsRead := by
  intro s bs ts ho hi
  refine ⟨fun v rest hp hv hu => ?_, fun rest hp he hu => ?_, fun rest hp hu => ?_, fun xs hp => ?_,
    fun vs h n rest hp hc hn hw hv hu hl => ?_, fun p h n rest hp t hc hpath hn hl hu => ?_⟩
  · obtain ⟨e1, e2⟩ := hdr_unread hi hu
    have e := decHdrWith_size (s := { s with inBitPos := s.inBitPos + 4 }) ho hv
    exact ⟨_, (exec_hdr_read hp v).trans (withSink_ok ho (e1.trans e)), withSink_ok ho (e2.trans e), rfl⟩
  · obtain ⟨e1, e2⟩ := frame_unread (b := false) hi hu
    refine ⟨_, (exec_f0_read hp).trans (outcome_decFrameWith ho _ e1), outcome_decFrameWith ho _ e2, ?_⟩
    rw [if_neg (by simp), if_neg (by simp [he])]
  · obtain ⟨e1, e2⟩ := frame_unread (b := true) hi hu
    exact ⟨_, (exec_eos_read hp).trans (outcome_decFrameWith ho _ e1), outcome_decFrameWith ho _ e2, rfl⟩
  · have e := (decompressorDrains.1 s bs ts ho).1 hi
    exact ⟨_, (exec_pad_read hp xs).trans e, e, rfl⟩
  · obtain ⟨e1, e2⟩ := leaf_raw ho hi hc hn hw hu hv hl
    exact ⟨_, (exec_raw_read hp vs).trans (withSink_ok ho (e1.trans e2)), withSink_ok ho e2, rfl⟩
  · exact (exec_path_read hp p).trans (withSink_ok ho (walkPath_of_path hi hu t hc hpath hn hl))

/-! ### Whole records -/

theorem updateLines_of_applied {r : State} {ph : Phase} (h : applyRecord u s = .ok () r) :
    ((applyRecord u s).bind fun _ t => .ok () { t with phase := ph }) = .ok () { r with phase := ph } := by
  rw [h]
  rfl

/-- A record written whose update completes: the bits of ENC.SYMBOL, then the record applied. -/
theorem encRecord_of_applied {c r : State} (h : encSymbolLines s = .ok () c) (ha : applyRecord (uopCode .encUpdate) c = .ok () r) :
    encRecord s = .ok () { r with phase := .cFrame } := by
  unfold encRecord encUpdateLines
  rw [h, bind_ok]
  exact updateLines_of_applied ha

/-- A record read whose update completes: the walk, the leaf action, then the record applied. -/
theorem decRecord_of_applied {c d r : State} {leaf : State → Flow Unit} (hc : s.cur = s.root) (hw : walkPath p s = .ok () c)
    (hl : leaf c = .ok () d) (ha : applyRecord (uopCode .decUpdate) d = .ok () r) :
    decRecord p leaf s = .ok () { r with phase := .dFrame } := by
  unfold decRecord decUpdateLines
  rw [if_pos hc, hw, bind_ok, hl, bind_ok]
  exact updateLines_of_applied ha

/-- What a job's record needs of its tree. -/
structure Updatable (s : State) : Prop where
  tree : s.treeOk
  chain : s.par.updateChain = .original
  distinct : DistinctIds s.nodes

/-- ENC.SYMBOL of a mapped symbol: the path is written, and no more is known of the framer than that. -/
theorem encSymbolLines_hit_writes (ho : s.outErr = .low) (hl : lookupSym s.symBuf s = some h) (hpath : PathTo s.nodes h p) :
    ∃ (out : List Byte) (acc : Byte) (cnt : Fin 8), encSymbolLines s = .ok () { s with
      found := true, cur := some h, pathBuf := p, out := out, oacc := acc, ocnt := cnt
      outBitPos := s.outBitPos + p.length, phase := .cUpdate } ∧
      bytesBits out ++ (byteBits acc).take cnt.val = s.written ++ p := by
  obtain ⟨hw, he, -⟩ := bitsWr_goes_on p { s with found := true, cur := some h, pathBuf := p } .cUpdate
  exact ⟨_, _, _, (encSymbolLines_hit ho hl hpath).trans (congrArg (Flow.ok ()) he), hw⟩

/-- ENC.SYMBOL of a new symbol: the path of the NYT is written, and the bytes. -/
theorem encSymbolLines_new_writes (ho : s.outErr = .low) (hl : lookupSym s.symBuf s = none) (hy : s.nyt = some N)
    (hpath : PathTo s.nodes N p) : ∃ (out : List Byte) (acc : Byte) (cnt : Fin 8), encSymbolLines s = .ok () { s with
      found := false, cur := some N, pathBuf := p, out := out, oacc := acc, ocnt := cnt
      outBitPos := s.outBitPos + p.length + 8 * s.symBuf.length, phase := .cUpdate } ∧
      bytesBits out ++ (byteBits acc).take cnt.val = s.written ++ (p ++ bytesBits s.symBuf) := by
  obtain ⟨hw, he, -⟩ := bitsWr_goes_on (p ++ bytesBits s.symBuf) { s with found := false, cur := some N, pathBuf := p } .cUpdate
  rw [List.length_append, length_bytesBits, ← Nat.add_assoc] at he
  exact ⟨_, _, _, (encSymbolLines_new ho hl hy hpath).trans (congrArg (Flow.ok ()) he), hw⟩

theorem recHit_written (k : Updatable s) (ho : s.outErr = .low) (hpath : PathTo s.nodes h p)
    (he : UpdateEnds s.par s.nodes (some h) (.done ns)) (hp : s.phase = .cEmit) (hl : lookupSym s.symBuf s = some h) :
    ∃ t : State, exec (.recHit p) s = .next t ∧ t.written = s.written ++ p ∧
      t = { s with
        found := true, cur := some h, pathBuf := p, out := t.out, oacc := t.oacc, ocnt := t.ocnt
        outBitPos := s.outBitPos + p.length, nodes := ns, symCount := s.symCount + 1, phase := .cFrame } := by
  obtain ⟨out, acc, cnt, hs, hw⟩ := encSymbolLines_hit_writes ho hl hpath
  have ha := applyRecord_hit (u := uopCode .encUpdate) (s := { s with
      found := true, cur := some h, pathBuf := p, out := out, oacc := acc, ocnt := cnt
      outBitPos := s.outBitPos + p.length, phase := .cUpdate }) ho rfl rfl k.chain k.tree.shape hpath.live k.distinct he
  exact ⟨_, (exec_recHit_written hp hl hpath).trans (withSink_ok ho (encRecord_of_applied hs ha)), hw, rfl⟩

theorem recHit_read (k : Updatable s) (ho : s.outErr = .low) (hpath : PathTo s.nodes h p)
    (he : UpdateEnds s.par s.nodes (some h) (.done ns)) (hp : s.phase = .dWalk) (hc : s.cur = s.root)
    (hn : s.nodes[h]? = some n) (hl : n.isLeaf = true) (hs : n.sym = some sym) (hi : s.inp = sent bs ts)
    (hu : s.unread = p ++ rest) : exec (.recHit p) s = .next { s with
      cur := some h, symBuf := sym, found := true, out := s.out ++ sym, outBitPos := s.outBitPos + 8 * sym.length
      inBitPos := s.inBitPos + p.length, nodes := ns, symCount := s.symCount + 1, phase := .dFrame } := by
  have hw : n.weight ≠ 0 := fun q => by
    obtain ⟨y, yn, hy, hyn, -, -, hys⟩ := k.tree.nyt_leaf
    rw [(k.tree.weight_eq_zero_iff hn).mp q] at hy
    cases hy
    rw [hn] at hyn
    cases hyn
    rw [hs] at hys
    cases hys
  have ha := applyRecord_hit (u := uopCode .decUpdate) (s := { walked p.length h s with
      symBuf := sym, found := true, out := s.out ++ sym, outBitPos := s.outBitPos + 8 * sym.length, phase := .dUpdate })
    ho rfl rfl k.chain k.tree.shape hpath.live k.distinct he
  exact (exec_recHit_read hp p).trans (withSink_ok ho (decRecord_of_applied hc (walkPath_of_path hi hu k.tree.shape hc hpath hn hl)
    (leaf_hit (s := walked p.length h s) ho rfl hn hw hs) ha))

theorem recNew_written (k : Updatable s) (ho : s.outErr = .low) (hm : ∀ m ∈ s.nodes, s.nextId ≤ m.id) (hr : Roomy s)
    (hN : s.nyt = some N) (hn : s.nodes[N]? = some n) (hlf : n.isLeaf = true) (hpath : PathTo s.nodes N p) (hv : s.symBuf ≠ [])
    (w : SplitOf s.nodes N s.nextId s.symBuf ns1) (he : UpdateEnds s.par ns1 n.parent (.done ns2)) (hp : s.phase = .cEmit)
    (hl : lookupSym s.symBuf s = none) :
    ∃ t : State, exec (.recNew p s.symBuf) s = .next t ∧ t.written = s.written ++ (p ++ bytesBits s.symBuf) ∧
      t = { afterSplit s s.symBuf ns1 with
        found := false, cur := some N, pathBuf := p, out := t.out, oacc := t.oacc, ocnt := t.ocnt
        outBitPos := s.outBitPos + p.length + 8 * s.symBuf.length, nodes := ns2, symCount := s.symCount + 1, phase := .cFrame } := by
  obtain ⟨out, acc, cnt, hs, hw⟩ := encSymbolLines_new_writes ho hl hN hpath
  have ha := applyRecord_new (u := uopCode .encUpdate) (s := { s with
      found := false, cur := some N, pathBuf := p, out := out, oacc := acc, ocnt := cnt
      outBitPos := s.outBitPos + p.length + 8 * s.symBuf.length, phase := .cUpdate })
    ho rfl k.chain k.tree.shape k.distinct hm hN hn hlf hv hr w he
  exact ⟨_, (exec_recNew_written hp hl hN hpath).trans (withSink_ok ho (encRecord_of_applied hs ha)), hw, rfl⟩

theorem recNew_read (k : Updatable s) (ho : s.outErr = .low) (hm : ∀ m ∈ s.nodes, s.nextId ≤ m.id) (hr : Roomy s)
    (hN : s.nyt = some N) (hn : s.nodes[N]? = some n) (hlf : n.isLeaf = true) (hw : n.weight = 0) (hpath : PathTo s.nodes N p)
    (hv : vs ≠ []) (w : SplitOf s.nodes N s.nextId vs ns1) (he : UpdateEnds s.par ns1 n.parent (.done ns2))
    (hp : s.phase = .dWalk) (hc : s.cur = s.root) (hi : s.inp = sent bs ts) (hu : s.unread = p ++ (bytesBits vs ++ rest))
    (hl : vs.length = min s.symSize.toNat ((s.inRem - p.length + 8 - s.par.rawMinBits.toNat) / 8)) :
    exec (.recNew p vs) s = .next { afterSplit s vs ns1 with
      cur := some N, symBuf := vs, found := false, out := s.out ++ vs, outBitPos := s.outBitPos + 8 * vs.length
      inBitPos := s.inBitPos + p.length + 8 * vs.length, nodes := ns2, symCount := s.symCount + 1, phase := .dFrame } := by
  have rem : (walked p.length N s).inRem = s.inRem - p.length := (Nat.sub_sub _ _ _).symm
  obtain ⟨e1, e2⟩ := leaf_raw (s := walked p.length N s) (vs := vs) ho hi rfl hn hw (unread_after hu rfl rfl) hv (by rw [rem]; exact hl)
  have ha := applyRecord_new (u := uopCode .decUpdate) (s := { walked p.length N s with
      symBuf := vs, inBitPos := s.inBitPos + p.length + 8 * vs.length, found := false, out := s.out ++ vs
      outBitPos := s.outBitPos + 8 * vs.length, phase := .dUpdate })
    ho rfl k.chain k.tree.shape k.distinct hm hN hn hlf hv hr w he
  exact (exec_recNew_read hp p vs).trans (withSink_ok ho (decRecord_of_applied hc
    (walkPath_of_path hi hu k.tree.shape hc hpath hn hlf) (e1.trans e2) ha))

/-- Settles O50. -/
theorem recordsOnBothSides : Obligations.RecordsOnBothSides := by
  refine ⟨fun s h p ns ho k wf hc d hpath he => ⟨fun hp hm => ?_, fun n sym bs ts rest hp hcur hn hl hs hi hu => ?_⟩,
    fun s N n p vs ns1 ns2 ho k hc d hm hr hN hn hpath hv w he => ?_⟩
  · exact recHit_written ⟨k, hc, d⟩ ho hpath he hp (lookupSym_of_mem wf hm)
  · exact recHit_read ⟨k, hc, d⟩ ho hpath he hp hcur hn hl hs hi hu
  · obtain ⟨y, yn, hy, hyn, hyw, hyl, -⟩ := k.nyt_leaf
    rw [hN] at hy
    cases hy
    rw [hn] at hyn
    cases hyn
    refine ⟨fun hp hvs hno => ?_, fun bs ts rest hp hcur hi hu hl => ?_⟩
    · subst hvs
      exact recNew_written ⟨k, hc, d⟩ ho hm hr hN hn hyl hpath hv w he hp (lookupSym_none hno)
    · rw [encode, List.append_assoc] at hu
      exact recNew_read ⟨k, hc, d⟩ ho hm hr hN hn hyl hyw hpath hv w he hp hcur hi hu hl

end Sys2Proof.Machine
end

section
/-! ## O7: the element and the record that are due (30_encoding.md R55 to R62)

In a decompress job the item due is decoded from the unread bits, in the shape the phase and the tree give; so it is well
formed and encoded by them (`encode_of_decodeDue`), and it is the item whose encoding stands there (`decodeDue_encode`). -/

namespace Sys2Proof.Machine

variable {s : State} {i : Instr} {d : Due} {bs vs : List Byte} {ts : List Token} {p rest : List Bool} {h : Handle} {n : Node}

/-! ### What is decoded -/

theorem decodeHere_spelled (e : decodeHere d s = some i) : i.wf = true ∧ ∃ rest : List Bool, s.unread = encode i ++ rest := by
  obtain ⟨hl, e⟩ := decodeHere_eq e
  obtain ⟨hw, -, he⟩ := encode_of_decodeDue (length_bitsAt _ _ _) e
  exact ⟨hw, _, by rw [he]; exact unread_split _ (by unfold State.inRem; omega)⟩

theorem decodeHere_of_encode (hw : i.wf = true) (hf : i.format = .stream d) (hu : s.unread = encode i ++ rest)
    (hpos : s.inBitPos ≤ 8 * s.inBytes.length) : decodeHere d s = some i :=
  decodeHere_of_unread hu (by rw [length_encode, hf]) hpos (decodeDue_encode hw hf)

/-- Unread bits lie in the input. -/
theorem pos_le_of_unread (hu : s.unread = p ++ rest) (hp : p ≠ []) : s.inBitPos ≤ 8 * s.inBytes.length := by
  have h := pos_add_le (unread_prefix hu).2 (by simpa using hp)
  omega

theorem elementDue_decoded (hc : s.phase.compressing = false) (e : elementDue s = some i) : ∃ d, decodeHere d s = some i := by
  unfold elementDue at e
  cases hp : s.phase <;> rw [hp] at e hc <;> simp only [Phase.compressing, reduceCtorEq] at e hc
  case dHdr => exact ⟨_, e⟩
  case dWalk =>
    obtain ⟨r, -, e⟩ := Option.bind_eq_some_iff.mp e
    exact ⟨_, e⟩
  case dLeaf =>
    split at e
    · split at e
      · exact ⟨_, e⟩
      · cases e
    · cases e
  case dFrame => exact ⟨_, e⟩
  case dDrain => exact ⟨_, e⟩

theorem recordDue_eq_elementDue (hp : s.phase ≠ .dWalk) : recordDue s = elementDue s := by
  unfold recordDue
  split
  · contradiction
  · rfl

theorem recordDue_decoded (hc : s.phase.compressing = false) (e : recordDue s = some i) : ∃ d, decodeHere d s = some i := by
  by_cases hp : s.phase = .dWalk
  · unfold recordDue at e
    rw [hp] at e
    dsimp only at e
    split_ifs at e
    obtain ⟨r, -, e⟩ := Option.bind_eq_some_iff.mp e
    split at e
    · exact ⟨_, e⟩
    · exact ⟨_, e⟩
  · rw [recordDue_eq_elementDue hp] at e
    exact elementDue_decoded hc e

/-! ### The decoder's items -/

theorem symbolLenOk_of_fits (hv : vs ≠ []) {k : Nat} (hl : vs.length = min s.symSize.toNat k) : symbolLenOk vs = true := by
  have h1 := List.length_pos_iff.mpr hv
  have h15 := symSize_le s
  exact symbolLenOk_iff.mpr ⟨h1, by omega⟩

/-- How many raw bytes the decoder reads from a whole input (45_decompress.md R139). -/
theorem rawCount_sent (hi : s.inp = sent bs ts) (q : Nat) :
    rawCount s q = min s.symSize.toNat ((8 * bs.length - q + 8 - s.par.rawMinBits.toNat) / 8) := by
  unfold rawCount
  rw [hi, readBytes_sent]
  simp only [length_bytesOfBits]
  exact rawBytes_eq _ _ _ _ (eight_le_rawMinBits _)

section Walk

variable (hp : s.phase = .dWalk) (hb : leafBelow s.nodes s.unread s.cur = some (p.length, n))

include hp hb

theorem elementDue_walk (hu : s.unread = p ++ rest) (hpos : s.inBitPos ≤ 8 * s.inBytes.length) :
    elementDue s = some (.path p) := by
  unfold elementDue
  rw [hp]
  simp only [hb, Option.bind_some]
  exact decodeHere_of_encode (i := .path p) rfl rfl hu hpos

theorem recordDue_hit (hu : s.unread = p ++ rest) (hpos : s.inBitPos ≤ 8 * s.inBytes.length) (hc : s.cur = s.root)
    (hw : n.weight ≠ 0) (h0 : p ≠ []) : recordDue s = some (.recHit p) := by
  unfold recordDue
  rw [hp]
  simp only [if_pos hc, hb, Option.bind_some]
  rw [if_neg (by simp [Node.isNyt, hw])]
  exact decodeHere_of_encode (i := .recHit p) (decide_eq_true (List.length_pos_iff.mpr h0)) rfl hu hpos

theorem recordDue_new (hu : s.unread = p ++ bytesBits vs ++ rest) (hpos : s.inBitPos ≤ 8 * s.inBytes.length)
    (hc : s.cur = s.root) (hw : n.weight = 0) (hi : s.inp = sent bs ts) (hv : vs ≠ [])
    (hl : vs.length = min s.symSize.toNat ((s.inRem - p.length + 8 - s.par.rawMinBits.toNat) / 8)) :
    recordDue s = some (.recNew p vs) := by
  unfold recordDue
  rw [hp]
  simp only [if_pos hc, hb, Option.bind_some]
  rw [if_pos (by simp [Node.isNyt, hw]), rawCount_sent hi, ← Nat.sub_sub, ← inRem_sent hi, ← hl]
  exact decodeHere_of_encode (i := .recNew p vs) (symbolLenOk_of_fits hv hl) rfl hu hpos

end Walk

theorem elementDue_leaf (hp : s.phase = .dLeaf) (hi : s.inp = sent bs ts) (hc : s.cur = some h) (hn : s.nodes[h]? = some n)
    (hw : n.weight = 0) (hv : vs ≠ []) (hl : vs.length = min s.symSize.toNat ((s.inRem + 8 - s.par.rawMinBits.toNat) / 8))
    (hu : s.unread = bytesBits vs ++ rest) : elementDue s = some (.raw vs) := by
  have h0 : bytesBits vs ≠ [] := by
    rw [← List.length_pos_iff, length_bytesBits]
    have := List.length_pos_iff.mpr hv
    omega
  unfold elementDue
  rw [hp]
  simp only [curNode_eq hc hn]
  rw [if_pos (by simp [Node.isNyt, hw]), rawCount_sent hi, ← inRem_sent hi, ← hl]
  exact decodeHere_of_encode (i := .raw vs) (symbolLenOk_of_fits hv hl) rfl hu (pos_le_of_unread hu h0)

/-! ### The compressor's record -/

theorem elementDue_emit (hp : s.phase = .cEmit) : elementDue s = encRecordDue s := by
  unfold elementDue
  rw [hp]

theorem encRecordDue_hit (hl : lookupSym s.symBuf s = some h) (hpath : PathTo s.nodes h p) :
    encRecordDue s = some (.recHit p) := by
  unfold encRecordDue State.opSym
  rw [hl]
  simp only [nodePath_eq_ok_iff.mpr hpath]
  rfl

theorem encRecordDue_new (hl : lookupSym s.symBuf s = none) (hy : s.nyt = some h) (hpath : PathTo s.nodes h p) :
    encRecordDue s = some (.recNew p s.symBuf) := by
  unfold encRecordDue State.opSym
  rw [hl, hy]
  simp only [nodePath_eq_ok_iff.mpr hpath]
  rfl

/-- Settles O7. -/
theorem elementDueIsSpelledByTheStream : Obligations.ElementDueIsSpelledByTheStream := by
  refine ⟨fun s i hc e => ?_, fun s v rest hp hv hu => ?_, fun s b rest hp hu => ?_,
    fun s p rest h n hp hu hpos hf hn hl hq => ?_, fun s bs vs ts rest h n hp hi hc hn hw hv hl hu =>
      elementDue_leaf hp hi hc hn hw hv hl hu, fun s => ?_⟩
  · obtain ⟨d, e⟩ := e.elim (elementDue_decoded hc) (recordDue_decoded hc)
    exact decodeHere_spelled e
  · unfold elementDue
    rw [hp]
    exact decodeHere_of_encode (i := .hdr v) (decide_eq_true hv) rfl hu (pos_le_of_unread hu (by simp [msbBits]))
  · unfold elementDue
    rw [hp]
    have hpos := pos_le_of_unread (p := [b]) (rest := rest) hu (by simp)
    cases b
    · exact decodeHere_of_encode (i := .f0) rfl rfl hu hpos
    · exact decodeHere_of_encode (i := .eos) rfl rfl hu hpos
  · have hb : leafBelow s.nodes s.unread s.cur = some (p.length, n) := by
      rw [hu]
      exact leafBelow_of_follow hf hn hl hq
    refine ⟨elementDue_walk hp hb hu hpos, fun hc => ?_, fun hc hw h0 => recordDue_hit hp hb hu hpos hc hw h0,
      fun bs vs ts rest' hc hw hi hv hlen hu' => recordDue_new hp hb hu' hpos hc hw hi hv hlen⟩
    unfold recordDue
    rw [hp]
    exact if_neg hc
  · refine ⟨recordDue_eq_elementDue, fun hp => ?_, fun h p hp w hm hpath => ?_, fun h p hp hm hy hpath => ?_, fun hp => ?_,
      fun hp => ?_, fun hp => ?_, ?_⟩
    · unfold elementDue; rw [hp]
    · rw [elementDue_emit hp, encRecordDue_hit (lookupSym_of_mem w hm) hpath]
    · rw [elementDue_emit hp, encRecordDue_new (lookupSym_none hm) hy hpath]
    · unfold elementDue; rw [hp]
    · unfold elementDue; rw [hp]
    · unfold elementDue; rw [hp]; exact congrArg (fun xs => some (Instr.pad xs)) (padBits_eq s)
    · rintro (hp | hp | hp | hp)
      · unfold elementDue; rw [hp]
      · unfold elementDue; rw [hp]
      · unfold elementDue; rw [hp]
      · exact elementDue_at_rest hp

end Sys2Proof.Machine
end

section
/-! ## O1, O2, O4 to O6, O15 and O35: reset, the register port, and what a step runs (70_reset_and_hazards.md, 10_state.md R34) -/

namespace Sys2Proof.Machine

variable {s : State} {e : HostEvent} {r : List HostEvent} {i : Instr}

/-! ### A host action -/

theorem step_ignored (hs : s.sched = e :: r) (h : e.ignored s.rst = true) :
    step s = .next { s with sched := r, rst := s.rst.clocked } := by
  rw [step_eq, fetch_cons hs, if_pos h]
  rfl

theorem step_action (hs : s.sched = e :: r) (h : e.ignored s.rst = false) :
    step s = (hostAction e { s with sched := r, rst := s.rst.clocked }).outcome := by
  rw [step_eq, fetch_cons hs, if_neg (by simp [h])]

theorem step_action_low (hs : s.sched = e :: r) (hr : s.rst = .low) :
    step s = (hostAction e { s with sched := r }).outcome := by
  rw [step_eq, fetch_low hs hr]

theorem clocked_of_ne_high {p : RstPin} (h : p ≠ .high) : p.clocked = .low := if_neg h

/-! ### Reset -/

/-- Settles O1. -/
theorem resetStateValues : Obligations.ResetStateValues := by
  refine ⟨rfl, rfl, rfl, rfl, rfl, rfl, rfl, rfl, rfl, rfl, rfl, rfl, rfl, rfl, rfl, rfl, rfl, rfl, rfl, rfl, rfl, rfl, rfl,
    rfl, rfl, rfl⟩

/-- What the reset input lets through of the host's actions while it is not low. -/
theorem ignored_of_reset (hr : s.rst ≠ .low) (h : (∃ v : Nat, e = .regWr 0 v) ∨ (∃ (k : BitVec 2) (v : Byte), e = .token k v) ∨
    (∃ g : Grain, e = .run g) ∨ e = .ioErr ∨ (∃ (c : BitVec 6) (a : UopArgs), e = .issue c a) ∨
    (s.rst = .high ∧ ∃ n v : Nat, e = .regWr n v)) : e.ignored s.rst = true := by
  rcases h with ⟨v, rfl⟩ | ⟨k, v, rfl⟩ | ⟨g, rfl⟩ | rfl | ⟨c, a, rfl⟩ | ⟨h, n, v, rfl⟩
  · cases hp : s.rst <;> simp_all [HostEvent.ignored]
  · simpa [HostEvent.ignored] using hr
  · simpa [HostEvent.ignored] using hr
  · simpa [HostEvent.ignored] using hr
  · simpa [HostEvent.ignored] using hr
  · simp [HostEvent.ignored, h]

/-- Settles O2. -/
theorem hardwareResetInAnyPhase : Obligations.HardwareResetInAnyPhase := by
  refine ⟨fun s r hs => ⟨_, step_action hs rfl, ?_⟩, fun s e r hs => ⟨?_, fun hr h => ?_⟩⟩
  · refine ⟨rfl, rfl, rfl, rfl, rfl, rfl, rfl, rfl, rfl, rfl, rfl, rfl, rfl, rfl, rfl, rfl, rfl, rfl, rfl, rfl, rfl, rfl, rfl, rfl,
      rfl, rfl, rfl, rfl⟩
  · rintro hr rfl
    rw [step_action hs rfl, hr]
    rfl
  · exact step_ignored hs (ignored_of_reset hr h)

/-! ### Register reads -/

theorem packBytes_lt (vs : List Byte) : packBytes vs < 2 ^ (8 * vs.length) := by
  induction vs with
  | nil => simp [packBytes]
  | cons v vs ih =>
    have hv := v.isLt
    rw [packBytes, List.length_cons, Nat.mul_succ, Nat.pow_add]
    omega

/-- Byte j stands in bits 8j+7 to 8j (10_state.md R20). -/
theorem testBit_packBytes : ∀ {vs : List Byte} {j i : Nat} {b : Byte}, vs[j]? = some b → i < 8 →
    (packBytes vs).testBit (8 * j + i) = b.getLsbD i := by
  intro vs
  induction vs with
  | nil => intro j i b h; cases h
  | cons v vs ih =>
    intro j i b h hi
    have hv : v.toNat < 2 ^ 8 := v.isLt
    rw [packBytes, Nat.add_comm, show (256 : Nat) = 2 ^ 8 from rfl, Nat.testBit_two_pow_mul_add _ hv]
    cases j with
    | zero =>
      cases h
      rw [if_pos (by omega), Nat.mul_zero, Nat.zero_add]
      rfl
    | succ j =>
      rw [if_neg (by omega), show 8 * (j + 1) + i - 8 = 8 * j + i by omega]
      exact ih h hi

/-- A symbol register: the bytes that are there, below 2^120, and what stands above them is free. -/
theorem symWord_spec (sym : Symbol) (k : Nat) : (sym.length ≤ 15 → symWord sym k < 2 ^ 120) ∧
    ∀ (j i : Nat) (b : Byte), sym[j]? = some b → i < 8 → (symWord sym k).testBit (8 * j + i) = b.getLsbD i := by
  have hp := packBytes_lt sym
  refine ⟨fun hl => ?_, fun j i b h hi => ?_⟩
  · unfold symWord
    have hf := (Config.freeBits 120 k).isLt
    have e : (2 : Nat) ^ 120 = 2 ^ (8 * sym.length) * 2 ^ (120 - 8 * sym.length) := by
      rw [← Nat.pow_add]
      congr 1
      omega
    have hq : (Config.freeBits 120 k).toNat / 2 ^ (8 * sym.length) < 2 ^ (120 - 8 * sym.length) :=
      Nat.div_lt_of_lt_mul (by rwa [← e])
    calc packBytes sym + 2 ^ (8 * sym.length) * ((Config.freeBits 120 k).toNat / 2 ^ (8 * sym.length))
        < 2 ^ (8 * sym.length) * ((Config.freeBits 120 k).toNat / 2 ^ (8 * sym.length) + 1) := by rw [Nat.mul_succ]; omega
      _ ≤ 2 ^ 120 := by rw [e]; exact Nat.mul_le_mul_left _ hq
  · have hj : j < sym.length := (List.getElem?_eq_some_iff.mp h).1
    rw [symWord, Nat.add_comm, Nat.testBit_two_pow_mul_add _ hp, if_pos (by omega)]
    exact testBit_packBytes h hi

theorem regRd_unlisted {n : Nat} (h : 23 ≤ n) (s : State) : s.regRd n = .word 0 := by
  obtain ⟨m, rfl⟩ : ∃ m, n = m + 23 := ⟨n - 23, by omega⟩
  show (if 16 ≤ m + 23 ∧ m + 23 ≤ 22 then nodeReg s (m + 23) else .word 0) = _
  exact if_neg (by omega)

theorem cfgWord_eq (s : State) : s.cfgWord = s.symSize.toNat + if s.mode = .compress then 0 else 16 := by
  unfold State.cfgWord
  cases s.mode
  · exact Nat.add_comm _ _
  · exact Nat.add_comm _ _

/-- Registers 16 to 22 where NODE_SEL selects the live entry `e`. -/
theorem regRd_node {e : Node} (he : s.nodes[s.nodeSel]? = some e) :
    s.regRd 16 = .signed e.id ∧ s.regRd 17 = .word e.weight ∧ s.regRd 18 = .handle e.parent ∧
    s.regRd 19 = .handle e.left ∧ s.regRd 20 = .handle e.right ∧ s.regRd 21 = .word (symLenWord e.sym s.freeCtr) ∧
    s.regRd 22 = .word (symWord (e.sym.getD []) s.freeCtr) := by
  change nodeReg s 16 = _ ∧ nodeReg s 17 = _ ∧ nodeReg s 18 = _ ∧ nodeReg s 19 = _ ∧ nodeReg s 20 = _ ∧ nodeReg s 21 = _ ∧
    nodeReg s 22 = _
  unfold nodeReg
  rw [he]
  exact ⟨rfl, rfl, rfl, rfl, rfl, rfl, rfl⟩

/-- Settles O4. -/
theorem registerReads : Obligations.RegisterReads := by
  refine ⟨fun s n r hs => step_action hs rfl, fun s => ?_, fun s e he => ?_,
    rfl, rfl, rfl, rfl, rfl, rfl, rfl, rfl, rfl⟩
  · exact ⟨rfl, congrArg _ (cfgWord_eq s), rfl, congrArg _ (Nat.add_comm _ _), rfl, rfl, rfl, rfl, rfl, rfl, rfl, rfl, rfl, rfl, rfl,
      ⟨_, rfl, symWord_spec s.symBuf s.freeCtr⟩, fun n h => regRd_unlisted h s⟩
  · obtain ⟨hid, hw, hp, hl, hr, hlen, hsym⟩ := regRd_node he
    refine ⟨hid, hw, hp, hl, hr, fun sym hs => ⟨?_, _, hsym, ?_⟩, fun hs => ⟨_, hlen, ?_⟩⟩
    · rw [hlen, hs]
      rfl
    · rw [hs]
      exact symWord_spec sym s.freeCtr
    · rw [hs]
      exact (Config.freeBits 4 s.freeCtr).isLt

/-! ### Register writes -/

/-- CMD takes the low eight bits of what is written (log 25). -/
theorem msbBits_mod (v : Nat) : msbBits 8 (v % 256) = msbBits 8 v := by
  refine List.ext_getElem? fun i => ?_
  rw [getElem?_msbBits, getElem?_msbBits, show 256 = 2 ^ 8 from rfl]
  split
  · rw [Nat.testBit_mod_two_pow, decide_eq_true (by omega), Bool.true_and]
  · rfl

theorem registerWrite_mod (v : Nat) (s : State) : registerWrite 0 (v % 256) s = registerWrite 0 v s := by
  unfold registerWrite
  rw [msbBits_mod, if_pos rfl, if_pos rfl]

theorem step_regWr_other {n v : Nat} (hs : s.sched = .regWr n v :: r) (hr : s.rst ≠ .high) (h0 : n ≠ 0) (h15 : n ≠ 15) :
    step s = .next { s with sched := r, rst := .low } := by
  have hc := clocked_of_ne_high hr
  cases hi : HostEvent.ignored s.rst (.regWr n v) with
  | true => rw [step_ignored hs hi, hc]
  | false =>
    rw [step_action hs hi, hc]
    simp [hostAction, registerWrite, h0, h15, Fetched.outcome]

theorem step_regWr_nodeSel {v : Nat} (hs : s.sched = .regWr 15 v :: r) (hr : s.rst ≠ .high) :
    step s = .next { s with sched := r, nodeSel := handleOf s.par v, rst := .low } := by
  have hi : HostEvent.ignored s.rst (.regWr 15 v) = false := by simp [HostEvent.ignored, hr]
  rw [step_action hs hi, clocked_of_ne_high hr]
  rfl

theorem step_regWr_cmd {v : Nat} (hs : s.sched = .regWr 0 v :: r) :
    step s = step { s with sched := .regWr 0 (v % 256) :: r } := by
  cases hi : HostEvent.ignored s.rst (.regWr 0 v) with
  | true => rw [step_ignored hs hi, step_ignored (s := { s with sched := .regWr 0 (v % 256) :: r }) rfl hi]
  | false =>
    rw [step_action hs hi, step_action (s := { s with sched := .regWr 0 (v % 256) :: r }) rfl hi]
    exact congrArg _ (registerWrite_mod v _).symm

/-- Settles O5. -/
theorem registerWrites : Obligations.RegisterWrites := by
  refine fun s n v r hs hr => ⟨?_, step_regWr_other hs hr, ?_, ?_⟩
  · rintro rfl
    exact step_regWr_cmd hs
  · rintro rfl hc
    rw [step_regWr_nodeSel hs hr, handleOf_none hc]
  · rintro c k rfl hc hk hk'
    rw [step_regWr_nodeSel hs hr, handleOf_some hc, handleWidth_eq hk hk']

/-! ### What a step runs -/

theorem itemDue_pin (ho : s.outErr ≠ .low) (g : Grain) : itemDue g s = none := if_neg ho

theorem itemDue_microop (s : State) : itemDue .microop s = none := ite_self none

theorem sequence_item {g : Grain} (h : itemDue g s = some i) : sequence g s = .run i s := by
  unfold sequence
  rw [h]

theorem sequence_driver {g : Grain} (h : itemDue g s = none) (hd : driverOp s.phase = some i) : sequence g s = .run i s := by
  unfold sequence
  rw [h, hd]

theorem sequence_rest {g : Grain} (h : itemDue g s = none) (hd : driverOp s.phase = none) : sequence g s = .quiet s := by
  unfold sequence
  rw [h, hd]

theorem busy_of_rest (hd : driverOp s.phase = none) : s.phase.busy = false := by
  cases hp : s.phase with
  | idle | done | fault => rfl
  | _ => rw [hp] at hd; cases hd

theorem sinkDrives_quiet {p : OutErr} (h : p ≠ .high ∨ driverOp s.phase = none) : sinkDrives p s = { s with outErr := p } := by
  refine if_neg fun ⟨hp, hb⟩ => ?_
  rcases h with h | h
  · exact h hp
  · rw [busy_of_rest h] at hb
    cases hb

/-- Settles O6. -/
theorem stepRunsTheInstruction : Obligations.StepRunsTheInstruction := by
  refine ⟨⟨rfl, rfl, rfl, rfl, rfl, rfl, rfl, rfl, rfl, rfl, rfl, rfl, rfl, rfl, rfl, rfl⟩,
    fun s => ⟨itemDue_microop s, itemDue_pin, fun ho => ⟨if_pos ho, if_pos ho⟩⟩,
    fun s r i rest => ⟨fun hs hd => step_driver hs hd, fun hs hd => step_rest hs hd, fun hr => ⟨?_, ?_, ?_, ?_, ?_, ?_, ?_, ?_⟩⟩⟩
  · intro hs hd
    rw [step_action_low hs hr]
    exact congrArg Fetched.outcome (sequence_driver (s := { s with sched := r }) (itemDue_microop _) hd)
  · intro g hs hi
    rw [step_action_low hs hr]
    exact congrArg Fetched.outcome (sequence_item hi)
  · intro g hs hi hd
    rw [step_action_low hs hr]
    exact congrArg Fetched.outcome (sequence_driver hi hd)
  · intro g hs hi hd
    rw [step_action_low hs hr]
    exact congrArg Fetched.outcome (sequence_rest hi hd)
  · exact fun v hs hd => step_cmd_word hr hs hd
  · intro c a hs hd
    rw [step_action_low hs hr]
    unfold hostAction
    dsimp only
    rw [hd]
    rfl
  · intro kind v hs
    rw [step_action_low hs hr]
    rfl
  · intro p hs h
    rw [step_action_low hs hr]
    exact congrArg (fun t => Fetched.outcome (.quiet t)) (sinkDrives_quiet (s := { s with sched := r }) h)

/-! ### CMD.ABORT and fault entry -/

/-- Settles O15. -/
theorem abortClears : Obligations.AbortClears := by
  refine fun s => ⟨_, rfl, ?_⟩
  rintro (h | h)
  · rw [h]
    rfl
  · rw [h]
    rfl

/-- Settles O35. -/
theorem faultEntryWrites : Obligations.FaultEntryWrites := fun _ _ _ => rfl

end Sys2Proof.Machine
end

section
/-! ## O36: out_err going high, as an operation begins, inside one and between two (60_exceptions.md R162, R163)

Where the pin rises at the n-th moment from now, each moment and each action of an operation counts one down. -/

namespace Sys2Proof.Machine

variable {s c : State} {u : BitVec 6} {r : List HostEvent} {p q : List Bool} {h : Handle} {j n : Nat}

/-! ### As an operation begins -/

theorem withSink_begins {body : State → Flow Unit} (ho : s.outErr = .high ∨ s.outErr = .risesIn 0) :
    withSink u body s = .next (raise .ioError u { s with outErr := .high }) := by
  rcases ho with ho | ho
  · rw [withSink_high ho, ← ho]
  · unfold withSink moment
    rw [actions_rises ho, if_pos Nat.one_pos]
    rfl

/-- Every driver operation begins with a look at the sink. -/
theorem exec_driver {ph : Phase} {i : Instr} (hd : driverOp ph = some i) :
    ∃ body : State → Flow Unit, ∀ s, exec i s = withSink (uopCode i) body s := by
  cases ph with
  | idle | done | fault => cases hd
  | _ =>
    cases hd
    exact ⟨_, fun _ => rfl⟩

/-! ### Inside one -/

theorem moment_rises (n : Nat) (s : State) :
    moment u { s with outErr := .risesIn (n + 1) } = .ok () { s with outErr := .risesIn n } := by
  unfold moment
  rw [actions_rises rfl, if_neg (by omega)]
  rfl

theorem goTo_rises (ph : Phase) (s : State) :
    goTo u ph () { s with outErr := .risesIn 0 } = .raised (raise .ioError u { s with outErr := .high }) := by
  unfold goTo moment
  rw [actions_rises rfl, if_pos Nat.one_pos]
  rfl

theorem withSink_rises {body : State → Flow Unit} (n : Nat) (s : State) : withSink u body { s with outErr := .risesIn (n + 1) } =
    (body { s with outErr := .risesIn n }).outcome { s with outErr := .risesIn (n + 1) } := by
  unfold withSink
  rw [moment_rises]
  rfl

/-- A write in which the pin rises: at most as many bits as there are moments before it does. -/
theorem writeBits_rises (p : List Bool) (j : Nat) (c : State) : writeBits u p { c with outErr := .risesIn j } =
    if j < p.length then .raised (raise .ioError u { bitsWr (p.take j) c with outErr := .high })
    else .ok () { bitsWr p c with outErr := .risesIn (j - p.length) } := by
  unfold writeBits
  rw [actions_rises rfl, bitsWr_pin p c, bitsWr_pin (p.take j) c]

/-- A path and then SYMBUF's bytes are one write. -/
theorem writeBits_raw_rises (p : List Bool) (j : Nat) (c : State) :
    (writeBits u p { c with outErr := .risesIn j }).bind (fun _ t => writeBits u (bytesBits t.symBuf) t) =
      writeBits u (p ++ bytesBits c.symBuf) { c with outErr := .risesIn j } := by
  have hs : (bitsWr p c).symBuf = c.symBuf := by rw [bitsWr_eq]
  rw [writeBits_rises, writeBits_rises, List.length_append]
  by_cases hj : j < p.length
  · rw [if_pos hj, if_pos (by omega), List.take_append_of_le_length (by omega)]
    rfl
  · rw [if_neg hj]
    refine (writeBits_rises (bytesBits (bitsWr p c).symBuf) (j - p.length) (bitsWr p c)).trans ?_
    have hlt : j - p.length < (bytesBits c.symBuf).length ↔ j < p.length + (bytesBits c.symBuf).length := by omega
    simp only [hs, hlt, ← bitsWr_append, List.take_append, List.take_of_length_le (Nat.le_of_not_lt hj), Nat.sub_sub]

/-- A write and the last line of its operation: there is a moment after each number of bits. -/
theorem writeGo_rises {ph : Phase} (hj : j ≤ p.length) (c : State) :
    (writeBits u p { c with outErr := .risesIn j }).bind (goTo u ph) =
      .raised (raise .ioError u { bitsWr (p.take j) c with outErr := .high }) := by
  rw [writeBits_rises]
  by_cases hlt : j < p.length
  · rw [if_pos hlt]
    rfl
  · obtain rfl : j = p.length := by omega
    rw [if_neg hlt, Nat.sub_self, List.take_length]
    exact goTo_rises ph (bitsWr p c)

theorem emitPath_rises (hp : PathTo s.nodes h p) (j : Nat) : emitPath h { s with outErr := .risesIn (j + 1) } =
    writeBits (uopCode .encSymbol) p { s with pathBuf := p, outErr := .risesIn j } := by
  unfold emitPath
  rw [moment_rises, bind_ok, pathOf, nodePath_eq_ok_iff.mpr hp]
  rfl

/-- The bits of a record: the path, and the symbol's bytes where it is not in the map (30_encoding.md R56). -/
def recordBits (b : Bool) (p : List Bool) (sym : Symbol) : List Bool := p ++ if b then [] else bytesBits sym

/-- The entry whose path the record has: the symbol's leaf, or, for a symbol that is not in the map, the NYT. -/
def RecordAt (s : State) (h : Handle) (b : Bool) : Prop :=
  if b then (s.symBuf, h) ∈ s.map ∧ Memory.wf s.nodes s.map else (∀ g : Handle, (s.symBuf, g) ∉ s.map) ∧ s.nyt = some h

/-- ENC.SYMBOL up to its last line, for either record. -/
theorem encSymbolLines_rises {b : Bool} (hp : PathTo s.nodes h p) (hm : RecordAt s h b)
    (j : Nat) : encSymbolLines { s with outErr := .risesIn (j + 1) } =
      (writeBits (uopCode .encSymbol) (recordBits b p s.symBuf)
        { s with found := b, cur := some h, pathBuf := p, outErr := .risesIn j }).bind (goTo (uopCode .encSymbol) .cUpdate) := by
  unfold encSymbolLines
  cases b with
  | true =>
    obtain ⟨hmem, hwf⟩ := hm
    have hl : lookupSym (State.opSym { s with outErr := .risesIn (j + 1) }) { s with outErr := .risesIn (j + 1) } = some h :=
      lookupSym_of_mem (s := s) hwf hmem
    rw [hl]
    dsimp only
    rw [emitHit, recordBits, if_pos rfl, List.append_nil]
    exact congrArg (Flow.bind · _) (emitPath_rises (s := { s with found := true, cur := some h }) hp j)
  | false =>
    obtain ⟨hmem, hy⟩ := hm
    have hl : lookupSym (State.opSym { s with outErr := .risesIn (j + 1) }) { s with outErr := .risesIn (j + 1) } = none :=
      lookupSym_none (s := s) hmem
    rw [hl]
    dsimp only
    rw [emitNew_eq (s := { s with outErr := .risesIn (j + 1) }) hy]
    have e := emitPath_rises (s := { s with found := false, cur := some h }) hp j
    have w := writeBits_raw_rises (u := uopCode .encSymbol) p j { s with found := false, cur := some h, pathBuf := p }
    exact congrArg (Flow.bind · _) ((congrArg (Flow.bind · _) e).trans w)

theorem exec_encSymbol_rises {b : Bool} (hp : PathTo s.nodes h p) (hm : RecordAt s h b)
    (hj : j ≤ (recordBits b p s.symBuf).length) : exec .encSymbol { s with outErr := .risesIn (j + 2) } =
      .next (raise .ioError (uopCode .encSymbol)
        { bitsWr ((recordBits b p s.symBuf).take j) { s with found := b, cur := some h, pathBuf := p } with outErr := .high }) := by
  have e : exec .encSymbol { s with outErr := .risesIn (j + 2) } = _ := withSink_rises (body := encSymbolLines) (j + 1) s
  rw [e, encSymbolLines_rises hp hm, writeGo_rises (c := { s with found := b, cur := some h, pathBuf := p }) hj]
  rfl

theorem exec_symScatter_rises (hj : j < s.symBuf.length) : exec .symScatter { s with outErr := .risesIn (j + 1) } =
    .next (raise .ioError 0#6 { s with out := s.out ++ s.symBuf.take j, outErr := .high }) := by
  have e : exec .symScatter { s with outErr := .risesIn (j + 1) } = _ := withSink_rises (body := scatterOut 0#6) j s
  rw [e, scatterOut, actions_rises rfl, if_pos hj]
  rfl

/-! ### Between two -/

theorem step_ioErr (hr : s.rst = .low) (hs : s.sched = .ioErr :: r) : step s = .next (if s.phase.busy then
    raise .ioError 0#6 { s with sched := r } else { s with sched := r }) := by
  rw [step_action_low hs hr]
  rfl

theorem step_outErr_high (hr : s.rst = .low) (hs : s.sched = .outErr .high :: r) : step s = .next (if s.phase.busy then
    raise .ioError 0#6 { s with sched := r, outErr := .high } else { s with sched := r, outErr := .high }) := by
  rw [step_action_low hs hr]
  refine congrArg Host.Outcome.next ?_
  unfold sinkDrives
  simp only [true_and]

/-- Settles O36. -/
theorem sinkErrorFaults : Obligations.SinkErrorFaults := by
  refine ⟨fun s i ho hd => ?_, fun s i ho hi => ?_, fun s p h b j hp hm hj => ?_, fun s j hj => ⟨j + 1, exec_symScatter_rises hj⟩,
    fun s r hr hs => ?_, fun s r hr hs => ?_⟩
  · obtain ⟨body, hb⟩ := exec_driver hd
    rw [hb, withSink_begins ho]
    rfl
  · rcases hi with rfl | rfl | rfl | rfl | rfl | rfl | rfl | rfl | rfl <;> exact withSink_begins ho
  · refine ⟨j + 2, _, exec_encSymbol_rises hp hm hj, ?_, ?_⟩
    · exact bitsWr_written ((recordBits b p s.symBuf).take j) { s with found := b, cur := some h, pathBuf := p }
    · have e := bitsWr_eq ((recordBits b p s.symBuf).take j) { s with found := b, cur := some h, pathBuf := p }
      have hl : ((recordBits b p s.symBuf).take j).length = j := List.length_take_of_le hj
      rw [hl] at e
      exact congrArg (fun t : State => raise .ioError (uopCode .encSymbol) { t with outErr := .high }) e
  · rw [step_ioErr hr hs]
    simp only [s.phase.busy_iff_code, raise]
  · rw [step_outErr_high hr hs]
    simp only [s.phase.busy_iff_code, raise]

end Sys2Proof.Machine
end
